-- ==== Sys2Proof/Word.lean ====
section
/-! DEFINITION. The two value domains of the block: voltages and words. -/

namespace Sys2Proof

/-- A voltage, as a whole number of microvolts (R5; decision D2 of the spec lets a model take integers:
every operation of the hardware on a voltage is to store it, return it, or compare it with `>`).
DESIGN CHOICE, log entry 1. -/
abbrev Voltage := Int

/-- `microvolts n` is `n` microvolts; `2.5001` V is `microvolts 2500100`. -/
def microvolts (n : Int) : Voltage := n

/-- `volts n` is `n` V. -/
def volts (n : Int) : Voltage := n * 1000000

/-- The value `val(X)` of a word of some width (R6): a natural number below `2 ^ W`. The width is the
owning component's parameter; that the value stays below `2 ^ W` is part of `Comp.wf`. -/
abbrev Word := Nat

end Sys2Proof
end

