-- ==== Sys2Proof/Config.lean ====
section
/-! DEFINITION. What a component's construction fixes beside its kind: the logic family and the labels. -/

namespace Sys2Proof

/-- The logic-family configuration of a component (R21), with the defaults of R4. -/
structure Cfg where
  /-- The voltage presented for logic 1. -/
  high : Voltage := volts 5
  /-- The voltage presented for logic 0. -/
  low : Voltage := 0
  /-- A voltage strictly above it reads as logic 1. -/
  threshold : Voltage := microvolts 2500000
deriving DecidableEq, Repr

/-- The active clock edge of a clocked component (R25), default rising. -/
inductive Edge where
  | rising
  | falling
deriving DecidableEq, Repr

/-- The construction label of a Counter (R224): it has no effect on any rule. -/
inductive Style where
  | ripple
  | synchronous
deriving DecidableEq, Repr

end Sys2Proof
end

