-- ==== Sys2Proof/Syntax.lean ====
section
/-! DEFINITION. The operations of the block: every row of the opcode table (R92) is one constructor of `Instr`.

A component operation carries the handle of the component that performs it, then the don't-care bits of its
control-word pattern in the order R85 names them. The contract operations and the graph calls carry their operands. -/

namespace Sys2Proof

/-- The 31 component kinds of R84 in its order, and the reserved id 31. -/
inductive Kind where
  | notGate
  | andGate
  | orGate
  | nandGate
  | norGate
  | xorGate
  | halfAdder
  | fullAdder
  | srLatch
  | dLatch
  | dff
  | jkff
  | tff
  | register
  | shiftRegister
  | univShiftRegister
  | counter
  | bcdCounter
  | ringCounter
  | johnsonCounter
  | clockDivider
  | mux
  | demux
  | decoder
  | adder
  | multiplier
  | divider
  | bcdAdder
  | alu
  | memory
  | accumulator
  | reserved
deriving DecidableEq, Repr

/-- A kind with its construction parameters (R4): `n` gate inputs or divider ratio, `w` width, `m` modulus, `k` decimal
digits or select width, `d` data width, `a` address width. `M`, the style and `K` have the defaults of R4. -/
inductive Params where
  | notGate
  | andGate (n : Nat)
  | orGate (n : Nat)
  | nandGate (n : Nat)
  | norGate (n : Nat)
  | xorGate
  | halfAdder
  | fullAdder
  | srLatch
  | dLatch
  | dff
  | jkff
  | tff
  | register (w : Nat)
  | shiftRegister (w : Nat)
  | univShiftRegister (w : Nat)
  | counter (w : Nat) (m : Nat := 2 ^ w) (style : Style := .synchronous)
  | bcdCounter (k : Nat := 1)
  | ringCounter (w : Nat)
  | johnsonCounter (w : Nat)
  | clockDivider (n : Nat)
  | mux (k d : Nat)
  | demux (k d : Nat)
  | decoder (k : Nat)
  | adder (w : Nat)
  | multiplier (w : Nat)
  | divider (w : Nat)
  | bcdAdder (k : Nat := 1)
  | alu (w : Nat)
  | memory (a d : Nat)
  | accumulator (w : Nat)
  /-- Kind id 31: no component has it (R84); `CreateComponent` refuses it (R88). -/
  | reserved
deriving DecidableEq, Repr

/-- The configuration argument of `CreateComponent` (R381), with the defaults of R4. -/
structure CompConfig where
  params : Params
  cfg : Cfg := {}
  edge : Edge := .rising
deriving DecidableEq, Repr

/-- The operations of the block, one constructor per row of the opcode table. -/
inductive Instr where
  -- combinational primitives (41_combinational.md)
  /-- NOT (R131). -/
  | notGate (h : Nat)
  /-- AND (R132). -/
  | andGate (h : Nat)
  /-- OR (R133). -/
  | orGate (h : Nat)
  /-- NAND (R134). -/
  | nandGate (h : Nat)
  /-- NOR (R135). -/
  | norGate (h : Nat)
  /-- XOR (R136). -/
  | xorGate (h : Nat)
  /-- HALFADD (R137). -/
  | halfAdd (h : Nat)
  /-- FULLADD (R138). -/
  | fullAdd (h : Nat)
  -- latches and flip-flops (42_sequential.md)
  /-- SRL.ARESET (R165). -/
  | srlAreset (h : Nat) (set s r : Bool)
  /-- SRL.ASET (R166). -/
  | srlAset (h : Nat) (s r : Bool)
  /-- SRL.SET (R167). -/
  | srlSet (h : Nat)
  /-- SRL.RESET (R168). -/
  | srlReset (h : Nat)
  /-- SRL.HOLD (R169). -/
  | srlHold (h : Nat)
  /-- SRL.BOTH (R170). -/
  | srlBoth (h : Nat)
  /-- DL.ARESET (R172). -/
  | dlAreset (h : Nat) (set en : Bool)
  /-- DL.ASET (R173). -/
  | dlAset (h : Nat) (en : Bool)
  /-- DL.TRACK (R174). -/
  | dlTrack (h : Nat)
  /-- DL.HOLD (R175). -/
  | dlHold (h : Nat)
  /-- DFF.ARESET (R177). -/
  | dffAreset (h : Nat) (set e : Bool)
  /-- DFF.ASET (R178). -/
  | dffAset (h : Nat) (e : Bool)
  /-- DFF.CAPTURE (R179). -/
  | dffCapture (h : Nat)
  /-- DFF.NOEDGE (R180). -/
  | dffNoedge (h : Nat)
  /-- JK.ARESET (R183). -/
  | jkAreset (h : Nat) (set e j k : Bool)
  /-- JK.ASET (R184). -/
  | jkAset (h : Nat) (e j k : Bool)
  /-- JK.NOEDGE (R185). -/
  | jkNoedge (h : Nat) (j k : Bool)
  /-- JK.HOLD (R186). -/
  | jkHold (h : Nat)
  /-- JK.RESET (R187). -/
  | jkReset (h : Nat)
  /-- JK.SET (R188). -/
  | jkSet (h : Nat)
  /-- JK.TOGGLE (R189). -/
  | jkToggle (h : Nat)
  /-- T.ARESET (R192). -/
  | tAreset (h : Nat) (set e t : Bool)
  /-- T.ASET (R193). -/
  | tAset (h : Nat) (e t : Bool)
  /-- T.NOEDGE (R194). -/
  | tNoedge (h : Nat) (t : Bool)
  /-- T.HOLD (R195). -/
  | tHold (h : Nat)
  /-- T.TOGGLE (R196). -/
  | tToggle (h : Nat)
  -- registers, shift registers, counters, clock divider (43_registers_counters.md)
  /-- REG.ARESET (R201). -/
  | regAreset (h : Nat) (set e : Bool)
  /-- REG.ASET (R202). -/
  | regAset (h : Nat) (e : Bool)
  /-- REG.LOAD (R203). -/
  | regLoad (h : Nat)
  /-- REG.NOEDGE (R204). -/
  | regNoedge (h : Nat)
  /-- SHREG.ARESET (R207). -/
  | shregAreset (h : Nat) (set e load dir : Bool)
  /-- SHREG.ASET (R208). -/
  | shregAset (h : Nat) (e load dir : Bool)
  /-- SHREG.NOEDGE (R209). -/
  | shregNoedge (h : Nat) (load dir : Bool)
  /-- SHREG.LOAD (R210). -/
  | shregLoad (h : Nat) (dir : Bool)
  /-- SHREG.SHL (R211). -/
  | shregShl (h : Nat)
  /-- SHREG.SHR (R212). -/
  | shregShr (h : Nat)
  /-- USR.ARESET (R215). -/
  | usrAreset (h : Nat) (set e mode1 mode0 : Bool)
  /-- USR.ASET (R216). -/
  | usrAset (h : Nat) (e mode1 mode0 : Bool)
  /-- USR.NOEDGE (R217). -/
  | usrNoedge (h : Nat) (mode1 mode0 : Bool)
  /-- USR.NOP (R218). -/
  | usrNop (h : Nat)
  /-- USR.SHR (R219). -/
  | usrShr (h : Nat)
  /-- USR.SHL (R220). -/
  | usrShl (h : Nat)
  /-- USR.LOAD (R221). -/
  | usrLoad (h : Nat)
  /-- CTR.ARESET (R226). -/
  | ctrAreset (h : Nat) (e load enable down : Bool)
  /-- CTR.NOEDGE (R227). -/
  | ctrNoedge (h : Nat) (load enable down : Bool)
  /-- CTR.LOAD (R228). -/
  | ctrLoad (h : Nat) (enable down : Bool)
  /-- CTR.UP (R229). -/
  | ctrUp (h : Nat)
  /-- CTR.DOWN (R230). -/
  | ctrDown (h : Nat)
  /-- CTR.FREEZE (R231). -/
  | ctrFreeze (h : Nat) (down : Bool)
  /-- BCD.ARESET (R236). -/
  | bcdAreset (h : Nat) (e load enable down : Bool)
  /-- BCD.NOEDGE (R237). -/
  | bcdNoedge (h : Nat) (load enable down : Bool)
  /-- BCD.LOAD (R238). -/
  | bcdLoad (h : Nat) (enable down : Bool)
  /-- BCD.UP (R239). -/
  | bcdUp (h : Nat)
  /-- BCD.DOWN (R240). -/
  | bcdDown (h : Nat)
  /-- BCD.FREEZE (R241). -/
  | bcdFreeze (h : Nat) (down : Bool)
  /-- RING.ARESET (R243). -/
  | ringAreset (h : Nat) (e dir : Bool)
  /-- RING.NOEDGE (R244). -/
  | ringNoedge (h : Nat) (dir : Bool)
  /-- RING.ROTL (R245). -/
  | ringRotl (h : Nat)
  /-- RING.ROTR (R246). -/
  | ringRotr (h : Nat)
  /-- JOHNSON.ARESET (R249). -/
  | johnsonAreset (h : Nat) (e : Bool)
  /-- JOHNSON.NOEDGE (R250). -/
  | johnsonNoedge (h : Nat)
  /-- JOHNSON.STEP (R251). -/
  | johnsonStep (h : Nat)
  /-- CLKDIV.ARESET (R254). -/
  | clkdivAreset (h : Nat) (e : Bool)
  /-- CLKDIV.NOEDGE (R255). -/
  | clkdivNoedge (h : Nat)
  /-- CLKDIV.COUNT (R256). -/
  | clkdivCount (h : Nat)
  -- interconnect (44_interconnect.md)
  /-- MUX.SELECT (R281). -/
  | muxSelect (h : Nat)
  /-- MUX.DISABLED (R282). -/
  | muxDisabled (h : Nat)
  /-- DEMUX.SELECT (R284). -/
  | demuxSelect (h : Nat)
  /-- DEMUX.DISABLED (R285). -/
  | demuxDisabled (h : Nat)
  /-- DEC.SELECT (R287). -/
  | decSelect (h : Nat)
  /-- DEC.DISABLED (R288). -/
  | decDisabled (h : Nat)
  -- arithmetic (45_arithmetic.md)
  /-- ADDER.ADD (R304). -/
  | adderAdd (h : Nat)
  /-- ADDER.SUB (R305). -/
  | adderSub (h : Nat)
  /-- ADDER.INC (R306). -/
  | adderInc (h : Nat)
  /-- ADDER.INVALID (R307). -/
  | adderInvalid (h : Nat)
  /-- MUL (R311). -/
  | mul (h : Nat)
  /-- DIV.ARESET (R315). -/
  | divAreset (h : Nat)
  /-- DIV.EVAL (R314). -/
  | divEval (h : Nat)
  /-- BCDADD (R320). -/
  | bcdAdd (h : Nat)
  /-- ALU.ADD (R323). -/
  | aluAdd (h : Nat)
  /-- ALU.SUB (R324). -/
  | aluSub (h : Nat)
  /-- ALU.AND (R325). -/
  | aluAnd (h : Nat)
  /-- ALU.OR (R326). -/
  | aluOr (h : Nat)
  /-- ALU.XOR (R327). -/
  | aluXor (h : Nat)
  /-- ALU.NOT (R328). -/
  | aluNot (h : Nat)
  /-- ALU.SHL (R329). -/
  | aluShl (h : Nat)
  /-- ALU.SHR (R330). -/
  | aluShr (h : Nat)
  /-- ALU.INC (R331). -/
  | aluInc (h : Nat)
  /-- ALU.DEC (R332). -/
  | aluDec (h : Nat)
  /-- ALU.COMPARE (R333). -/
  | aluCompare (h : Nat)
  /-- ALU.INVALID_B (R334). -/
  | aluInvalidB (h : Nat)
  /-- ALU.INVALID_C (R334). -/
  | aluInvalidC (h : Nat) (op1 op0 : Bool)
  -- word memory and accumulator (46_memory_accumulator.md)
  /-- MEM.WRITE (R351). -/
  | memWrite (h : Nat)
  /-- MEM.WIDLE_NOEDGE (R354). -/
  | memWidleNoedge (h : Nat) (we : Bool)
  /-- MEM.WIDLE_NOWE (R354). -/
  | memWidleNowe (h : Nat)
  /-- MEM.READ (R352). -/
  | memRead (h : Nat)
  /-- MEM.READOFF (R353). -/
  | memReadoff (h : Nat)
  /-- ACC.ARESET (R360). -/
  | accAreset (h : Nat) (e op2 op1 op0 : Bool)
  /-- ACC.NOEDGE (R361). -/
  | accNoedge (h : Nat) (op2 op1 op0 : Bool)
  /-- ACC.LOAD (R362). -/
  | accLoad (h : Nat)
  /-- ACC.CLEAR (R363). -/
  | accClear (h : Nat)
  /-- ACC.INC (R364). -/
  | accInc (h : Nat)
  /-- ACC.SHL (R365). -/
  | accShl (h : Nat)
  /-- ACC.SHR (R366). -/
  | accShr (h : Nat)
  /-- ACC.INVALID_5 (R367). -/
  | accInvalid5 (h : Nat)
  /-- ACC.INVALID_67 (R367). -/
  | accInvalid67 (h : Nat) (op0 : Bool)
  -- the component contract (40_contract.md)
  /-- WritePin(c, p, v) (R104). -/
  | writePin (h p : Nat) (v : Voltage)
  /-- ReadPin(c, p) (R111). -/
  | readPin (h p : Nat)
  /-- Tick(c) (R113). -/
  | tick (h : Nat)
  -- the graph interface (47_scheduler_graph.md)
  /-- CreateComponent(kind, configuration) (R381). -/
  | gCreate (config : CompConfig)
  /-- Connect(fromHandle, fromPin, toHandle, toPin) (R382). -/
  | gConnect (fromH fromP toH toP : Nat)
  /-- Drive(handle, pin, voltage) (R383). -/
  | gDrive (h p : Nat) (v : Voltage)
  /-- Observe(handle, pin) (R384). -/
  | gObserve (h p : Nat)
  /-- The graph's Tick() (R385). -/
  | gTick
  /-- TickN(n) (R386). -/
  | gTickN (n : Nat)
deriving DecidableEq, Repr

/-- The operand fields a graph call may use; a call leaves the fields it does not use at their defaults. -/
structure GraphOperands where
  config : CompConfig := { params := .notGate }
  h : Nat := 0
  p : Nat := 0
  h2 : Nat := 0
  p2 : Nat := 0
  v : Voltage := 0
  n : Nat := 0
deriving DecidableEq, Repr

/-- What the decoder reads: a code in one of the three code spaces of R83 and R90, with the operands beside it (the spec
gives operands no encoding; log entry 3). -/
inductive Line where
  /-- A contract operation: its 2-bit code (R90). -/
  | contract (code : BitVec 2) (h p : Nat) (v : Voltage)
  /-- A graph call: its 3-bit code (R90). -/
  | graph (code : BitVec 3) (o : GraphOperands)
  /-- The operation word of component `h`, most significant bit first (R83). -/
  | row (h : Nat) (code : List Bool)
deriving DecidableEq, Repr

/-- Why the decoder rejects a line. -/
inductive DecodeError where
  /-- Contract code 11 (R90). -/
  | reservedContractCode
  /-- Graph codes 110 and 111 (R90). -/
  | reservedGraphCode
  /-- An operation word whose first five bits are kind id 31 (R84). -/
  | reservedKind
  /-- An operation word that is shorter or longer than its kind's (R89). -/
  | badLength
deriving DecidableEq, Repr

end Sys2Proof
end

