-- ==== Sys2Proof/WellFormed.lean ====
section
/-! DEFINITION. Well-formedness of a construction's arguments (R4, R21) and of a line to be decoded (R89, R90).

Every term of `Instr` is an operation the host may issue or a component may perform: an argument out of range is answered
with a failure (R405), so nothing is refused here that R381 answers. -/

namespace Sys2Proof

/-- The kind of a parameter list. -/
def Params.kind : Params → Kind
  | .notGate => .notGate
  | .andGate _ => .andGate
  | .orGate _ => .orGate
  | .nandGate _ => .nandGate
  | .norGate _ => .norGate
  | .xorGate => .xorGate
  | .halfAdder => .halfAdder
  | .fullAdder => .fullAdder
  | .srLatch => .srLatch
  | .dLatch => .dLatch
  | .dff => .dff
  | .jkff => .jkff
  | .tff => .tff
  | .register _ => .register
  | .shiftRegister _ => .shiftRegister
  | .univShiftRegister _ => .univShiftRegister
  | .counter _ _ _ => .counter
  | .bcdCounter _ => .bcdCounter
  | .ringCounter _ => .ringCounter
  | .johnsonCounter _ => .johnsonCounter
  | .clockDivider _ => .clockDivider
  | .mux _ _ => .mux
  | .demux _ _ => .demux
  | .decoder _ => .decoder
  | .adder _ => .adder
  | .multiplier _ => .multiplier
  | .divider _ => .divider
  | .bcdAdder _ => .bcdAdder
  | .alu _ => .alu
  | .memory _ _ => .memory
  | .accumulator _ => .accumulator
  | .reserved => .reserved

/-- The five-bit kind id (R84). -/
def Kind.id : Kind → Nat
  | .notGate => 0
  | .andGate => 1
  | .orGate => 2
  | .nandGate => 3
  | .norGate => 4
  | .xorGate => 5
  | .halfAdder => 6
  | .fullAdder => 7
  | .srLatch => 8
  | .dLatch => 9
  | .dff => 10
  | .jkff => 11
  | .tff => 12
  | .register => 13
  | .shiftRegister => 14
  | .univShiftRegister => 15
  | .counter => 16
  | .bcdCounter => 17
  | .ringCounter => 18
  | .johnsonCounter => 19
  | .clockDivider => 20
  | .mux => 21
  | .demux => 22
  | .decoder => 23
  | .adder => 24
  | .multiplier => 25
  | .divider => 26
  | .bcdAdder => 27
  | .alu => 28
  | .memory => 29
  | .accumulator => 30
  | .reserved => 31

/-- The kinds with a clock pin, two stages and an active edge (R25, R26). -/
def Kind.isClocked : Kind → Bool
  | .dff | .jkff | .tff | .register | .shiftRegister | .univShiftRegister | .counter | .bcdCounter | .ringCounter
  | .johnsonCounter | .clockDivider | .memory | .accumulator => true
  | _ => false

/-- The width of a kind's control word (R85), for MEMORY's write port or (`port`) its read port. -/
def Kind.controlWidth : Kind → Bool → Nat
  | .srLatch, _ | .tff, _ | .alu, _ => 4
  | .dLatch, _ | .dff, _ | .register, _ | .ringCounter, _ => 3
  | .jkff, _ | .shiftRegister, _ | .univShiftRegister, _ | .counter, _ | .bcdCounter, _ | .accumulator, _ => 5
  | .johnsonCounter, _ | .clockDivider, _ | .adder, _ => 2
  | .mux, _ | .demux, _ | .decoder, _ | .divider, _ => 1
  | .memory, false => 3
  | .memory, true => 2
  | _, _ => 0

/-- The logic-family constraint of R21. -/
def Cfg.ok (c : Cfg) : Bool :=
  decide (c.low ≤ c.threshold) && decide (c.threshold < c.high)

/-- The parameter ranges of R4; the reserved kind has no admissible parameters (R84). -/
def Params.ok : Params → Bool
  | .andGate n | .orGate n | .nandGate n | .norGate n => decide (2 ≤ n) && decide (n ≤ 8)
  | .register w | .shiftRegister w | .univShiftRegister w | .ringCounter w | .johnsonCounter w | .adder w
  | .multiplier w | .divider w | .alu w | .accumulator w => decide (1 ≤ w)
  | .counter w m _ => decide (1 ≤ w) && decide (1 ≤ m) && decide (m ≤ 2 ^ w)
  | .bcdCounter k | .bcdAdder k | .decoder k => decide (1 ≤ k)
  | .clockDivider n => decide (1 ≤ n)
  | .mux k d | .demux k d => decide (1 ≤ k) && decide (1 ≤ d)
  | .memory a d => decide (1 ≤ a) && decide (1 ≤ d)
  | .notGate | .xorGate | .halfAdder | .fullAdder | .srLatch | .dLatch | .dff | .jkff | .tff => true
  | .reserved => false

/-- The construction arguments that `CreateComponent` accepts (R381). -/
def CompConfig.ok (c : CompConfig) : Bool := c.params.ok && c.cfg.ok

/-- A binary Counter: the modulus and the style at their defaults (R4). -/
def Params.binaryCounter (w : Nat) : Params := .counter w

/-- A contract line's code is not reserved and the operands its operation does not use are zero. -/
def Line.contractOk (code : BitVec 2) (p : Nat) (v : Voltage) : Bool :=
  (code == 0#2) || (code == 1#2 && decide (v = 0)) || (code == 2#2 && decide (p = 0) && decide (v = 0))

/-- A graph line's code is not reserved and the operand fields its call does not use are at their defaults. -/
def Line.graphOk (code : BitVec 3) (o : GraphOperands) : Bool :=
  match code.toNat with
  | 0 => decide (o = { config := o.config })
  | 1 => decide (o = { h := o.h, p := o.p, h2 := o.h2, p2 := o.p2 })
  | 2 => decide (o = { h := o.h, p := o.p, v := o.v })
  | 3 => decide (o = { h := o.h, p := o.p })
  | 4 => decide (o = {})
  | 5 => decide (o = { n := o.n })
  | _ => false

/-- An operation word has the length of its kind (R89), and its kind is not the reserved one. -/
def Line.rowOk : List Bool → Bool
  | true :: true :: true :: true :: true :: _ => false
  | true :: true :: true :: false :: true :: false :: cw => decide (cw.length = 2)
  | true :: true :: true :: false :: true :: true :: cw => decide (cw.length = 1)
  | false :: false :: false :: false :: false :: cw => decide (cw.length = 0)
  | false :: false :: false :: false :: true :: cw => decide (cw.length = 0)
  | false :: false :: false :: true :: false :: cw => decide (cw.length = 0)
  | false :: false :: false :: true :: true :: cw => decide (cw.length = 0)
  | false :: false :: true :: false :: false :: cw => decide (cw.length = 0)
  | false :: false :: true :: false :: true :: cw => decide (cw.length = 0)
  | false :: false :: true :: true :: false :: cw => decide (cw.length = 0)
  | false :: false :: true :: true :: true :: cw => decide (cw.length = 0)
  | false :: true :: false :: false :: false :: cw => decide (cw.length = 4)
  | false :: true :: false :: false :: true :: cw => decide (cw.length = 3)
  | false :: true :: false :: true :: false :: cw => decide (cw.length = 3)
  | false :: true :: false :: true :: true :: cw => decide (cw.length = 5)
  | false :: true :: true :: false :: false :: cw => decide (cw.length = 4)
  | false :: true :: true :: false :: true :: cw => decide (cw.length = 3)
  | false :: true :: true :: true :: false :: cw => decide (cw.length = 5)
  | false :: true :: true :: true :: true :: cw => decide (cw.length = 5)
  | true :: false :: false :: false :: false :: cw => decide (cw.length = 5)
  | true :: false :: false :: false :: true :: cw => decide (cw.length = 5)
  | true :: false :: false :: true :: false :: cw => decide (cw.length = 3)
  | true :: false :: false :: true :: true :: cw => decide (cw.length = 2)
  | true :: false :: true :: false :: false :: cw => decide (cw.length = 2)
  | true :: false :: true :: false :: true :: cw => decide (cw.length = 1)
  | true :: false :: true :: true :: false :: cw => decide (cw.length = 1)
  | true :: false :: true :: true :: true :: cw => decide (cw.length = 1)
  | true :: true :: false :: false :: false :: cw => decide (cw.length = 2)
  | true :: true :: false :: false :: true :: cw => decide (cw.length = 0)
  | true :: true :: false :: true :: false :: cw => decide (cw.length = 1)
  | true :: true :: false :: true :: true :: cw => decide (cw.length = 0)
  | true :: true :: true :: false :: false :: cw => decide (cw.length = 4)
  | true :: true :: true :: true :: false :: cw => decide (cw.length = 5)
  | _ => false

/-- The lines some operation encodes to. -/
def Line.wf : Line → Bool
  | .contract code _ p v => Line.contractOk code p v
  | .graph code o => Line.graphOk code o
  | .row _ code => Line.rowOk code

end Sys2Proof
end

