-- ==== Sys2Proof/Decode.lean ====
section
/-! DEFINITION. The decoder, total on every line and rejecting by name, and after it the encoder (R83 to R92).

A decoder of an operation word reads the kind from the first five bits and then the kind's own control word, whose
patterns are disjoint and cover every value (R83, R92). -/

namespace Sys2Proof

/-- Control word of srLatch: RESET SET S R (R85). -/
def decodeSrLatch (h : Nat) : List Bool → Except DecodeError Instr
  | [true, set, s, r] => .ok (.srlAreset h set s r)
  | [false, true, s, r] => .ok (.srlAset h s r)
  | [false, false, true, false] => .ok (.srlSet h)
  | [false, false, false, true] => .ok (.srlReset h)
  | [false, false, false, false] => .ok (.srlHold h)
  | [false, false, true, true] => .ok (.srlBoth h)
  | _ => .error .badLength

/-- Control word of dLatch: RESET SET EN (R85). -/
def decodeDLatch (h : Nat) : List Bool → Except DecodeError Instr
  | [true, set, en] => .ok (.dlAreset h set en)
  | [false, true, en] => .ok (.dlAset h en)
  | [false, false, true] => .ok (.dlTrack h)
  | [false, false, false] => .ok (.dlHold h)
  | _ => .error .badLength

/-- Control word of dff: RESET SET E (R85). -/
def decodeDff (h : Nat) : List Bool → Except DecodeError Instr
  | [true, set, e] => .ok (.dffAreset h set e)
  | [false, true, e] => .ok (.dffAset h e)
  | [false, false, true] => .ok (.dffCapture h)
  | [false, false, false] => .ok (.dffNoedge h)
  | _ => .error .badLength

/-- Control word of jkff: RESET SET E J K (R85). -/
def decodeJkff (h : Nat) : List Bool → Except DecodeError Instr
  | [true, set, e, j, k] => .ok (.jkAreset h set e j k)
  | [false, true, e, j, k] => .ok (.jkAset h e j k)
  | [false, false, false, j, k] => .ok (.jkNoedge h j k)
  | [false, false, true, false, false] => .ok (.jkHold h)
  | [false, false, true, false, true] => .ok (.jkReset h)
  | [false, false, true, true, false] => .ok (.jkSet h)
  | [false, false, true, true, true] => .ok (.jkToggle h)
  | _ => .error .badLength

/-- Control word of tff: RESET SET E T (R85). -/
def decodeTff (h : Nat) : List Bool → Except DecodeError Instr
  | [true, set, e, t] => .ok (.tAreset h set e t)
  | [false, true, e, t] => .ok (.tAset h e t)
  | [false, false, false, t] => .ok (.tNoedge h t)
  | [false, false, true, false] => .ok (.tHold h)
  | [false, false, true, true] => .ok (.tToggle h)
  | _ => .error .badLength

/-- Control word of register: RESET SET E (R85). -/
def decodeRegister (h : Nat) : List Bool → Except DecodeError Instr
  | [true, set, e] => .ok (.regAreset h set e)
  | [false, true, e] => .ok (.regAset h e)
  | [false, false, true] => .ok (.regLoad h)
  | [false, false, false] => .ok (.regNoedge h)
  | _ => .error .badLength

/-- Control word of shiftRegister: RESET SET E LOAD DIR (R85). -/
def decodeShiftRegister (h : Nat) : List Bool → Except DecodeError Instr
  | [true, set, e, load, dir] => .ok (.shregAreset h set e load dir)
  | [false, true, e, load, dir] => .ok (.shregAset h e load dir)
  | [false, false, false, load, dir] => .ok (.shregNoedge h load dir)
  | [false, false, true, true, dir] => .ok (.shregLoad h dir)
  | [false, false, true, false, false] => .ok (.shregShl h)
  | [false, false, true, false, true] => .ok (.shregShr h)
  | _ => .error .badLength

/-- Control word of univShiftRegister: RESET SET E MODE1 MODE0 (R85). -/
def decodeUnivShiftRegister (h : Nat) : List Bool → Except DecodeError Instr
  | [true, set, e, mode1, mode0] => .ok (.usrAreset h set e mode1 mode0)
  | [false, true, e, mode1, mode0] => .ok (.usrAset h e mode1 mode0)
  | [false, false, false, mode1, mode0] => .ok (.usrNoedge h mode1 mode0)
  | [false, false, true, false, false] => .ok (.usrNop h)
  | [false, false, true, false, true] => .ok (.usrShr h)
  | [false, false, true, true, false] => .ok (.usrShl h)
  | [false, false, true, true, true] => .ok (.usrLoad h)
  | _ => .error .badLength

/-- Control word of counter: RESET E LOAD ENABLE DOWN (R85). -/
def decodeCounter (h : Nat) : List Bool → Except DecodeError Instr
  | [true, e, load, enable, down] => .ok (.ctrAreset h e load enable down)
  | [false, false, load, enable, down] => .ok (.ctrNoedge h load enable down)
  | [false, true, true, enable, down] => .ok (.ctrLoad h enable down)
  | [false, true, false, true, false] => .ok (.ctrUp h)
  | [false, true, false, true, true] => .ok (.ctrDown h)
  | [false, true, false, false, down] => .ok (.ctrFreeze h down)
  | _ => .error .badLength

/-- Control word of bcdCounter: RESET E LOAD ENABLE DOWN (R85). -/
def decodeBcdCounter (h : Nat) : List Bool → Except DecodeError Instr
  | [true, e, load, enable, down] => .ok (.bcdAreset h e load enable down)
  | [false, false, load, enable, down] => .ok (.bcdNoedge h load enable down)
  | [false, true, true, enable, down] => .ok (.bcdLoad h enable down)
  | [false, true, false, true, false] => .ok (.bcdUp h)
  | [false, true, false, true, true] => .ok (.bcdDown h)
  | [false, true, false, false, down] => .ok (.bcdFreeze h down)
  | _ => .error .badLength

/-- Control word of ringCounter: RESET E DIR (R85). -/
def decodeRingCounter (h : Nat) : List Bool → Except DecodeError Instr
  | [true, e, dir] => .ok (.ringAreset h e dir)
  | [false, false, dir] => .ok (.ringNoedge h dir)
  | [false, true, false] => .ok (.ringRotl h)
  | [false, true, true] => .ok (.ringRotr h)
  | _ => .error .badLength

/-- Control word of johnsonCounter: RESET E (R85). -/
def decodeJohnsonCounter (h : Nat) : List Bool → Except DecodeError Instr
  | [true, e] => .ok (.johnsonAreset h e)
  | [false, false] => .ok (.johnsonNoedge h)
  | [false, true] => .ok (.johnsonStep h)
  | _ => .error .badLength

/-- Control word of clockDivider: RESET E (R85). -/
def decodeClockDivider (h : Nat) : List Bool → Except DecodeError Instr
  | [true, e] => .ok (.clkdivAreset h e)
  | [false, false] => .ok (.clkdivNoedge h)
  | [false, true] => .ok (.clkdivCount h)
  | _ => .error .badLength

/-- Control word of mux: DISABLE (R85). -/
def decodeMux (h : Nat) : List Bool → Except DecodeError Instr
  | [false] => .ok (.muxSelect h)
  | [true] => .ok (.muxDisabled h)
  | _ => .error .badLength

/-- Control word of demux: DISABLE (R85). -/
def decodeDemux (h : Nat) : List Bool → Except DecodeError Instr
  | [false] => .ok (.demuxSelect h)
  | [true] => .ok (.demuxDisabled h)
  | _ => .error .badLength

/-- Control word of decoder: DISABLE (R85). -/
def decodeDecoder (h : Nat) : List Bool → Except DecodeError Instr
  | [false] => .ok (.decSelect h)
  | [true] => .ok (.decDisabled h)
  | _ => .error .badLength

/-- Control word of adder: MODE1 MODE0 (R85). -/
def decodeAdder (h : Nat) : List Bool → Except DecodeError Instr
  | [false, false] => .ok (.adderAdd h)
  | [false, true] => .ok (.adderSub h)
  | [true, false] => .ok (.adderInc h)
  | [true, true] => .ok (.adderInvalid h)
  | _ => .error .badLength

/-- Control word of divider: RESET (R85). -/
def decodeDivider (h : Nat) : List Bool → Except DecodeError Instr
  | [true] => .ok (.divAreset h)
  | [false] => .ok (.divEval h)
  | _ => .error .badLength

/-- Control word of alu: OP3 OP2 OP1 OP0 (R85). -/
def decodeAlu (h : Nat) : List Bool → Except DecodeError Instr
  | [false, false, false, false] => .ok (.aluAdd h)
  | [false, false, false, true] => .ok (.aluSub h)
  | [false, false, true, false] => .ok (.aluAnd h)
  | [false, false, true, true] => .ok (.aluOr h)
  | [false, true, false, false] => .ok (.aluXor h)
  | [false, true, false, true] => .ok (.aluNot h)
  | [false, true, true, false] => .ok (.aluShl h)
  | [false, true, true, true] => .ok (.aluShr h)
  | [true, false, false, false] => .ok (.aluInc h)
  | [true, false, false, true] => .ok (.aluDec h)
  | [true, false, true, false] => .ok (.aluCompare h)
  | [true, false, true, true] => .ok (.aluInvalidB h)
  | [true, true, op1, op0] => .ok (.aluInvalidC h op1 op0)
  | _ => .error .badLength

/-- Control word of memory: PORT then E WE, or RE (R85). -/
def decodeMemory (h : Nat) : List Bool → Except DecodeError Instr
  | [false, true, true] => .ok (.memWrite h)
  | [false, false, we] => .ok (.memWidleNoedge h we)
  | [false, true, false] => .ok (.memWidleNowe h)
  | [true, true] => .ok (.memRead h)
  | [true, false] => .ok (.memReadoff h)
  | _ => .error .badLength

/-- Control word of accumulator: RESET E OP2 OP1 OP0 (R85). -/
def decodeAccumulator (h : Nat) : List Bool → Except DecodeError Instr
  | [true, e, op2, op1, op0] => .ok (.accAreset h e op2 op1 op0)
  | [false, false, op2, op1, op0] => .ok (.accNoedge h op2 op1 op0)
  | [false, true, false, false, false] => .ok (.accLoad h)
  | [false, true, false, false, true] => .ok (.accClear h)
  | [false, true, false, true, false] => .ok (.accInc h)
  | [false, true, false, true, true] => .ok (.accShl h)
  | [false, true, true, false, false] => .ok (.accShr h)
  | [false, true, true, false, true] => .ok (.accInvalid5 h)
  | [false, true, true, true, op0] => .ok (.accInvalid67 h op0)
  | _ => .error .badLength

/-- A kind with an empty control word has one operation (R85). -/
def decodePlain (i : Instr) : List Bool → Except DecodeError Instr
  | [] => .ok i
  | _ => .error .badLength

/-- The operation word of component `h`: kind id, then control word (R83, R84). -/
def decodeRow (h : Nat) : List Bool → Except DecodeError Instr
  | false :: false :: false :: false :: false :: cw => decodePlain (.notGate h) cw
  | false :: false :: false :: false :: true :: cw => decodePlain (.andGate h) cw
  | false :: false :: false :: true :: false :: cw => decodePlain (.orGate h) cw
  | false :: false :: false :: true :: true :: cw => decodePlain (.nandGate h) cw
  | false :: false :: true :: false :: false :: cw => decodePlain (.norGate h) cw
  | false :: false :: true :: false :: true :: cw => decodePlain (.xorGate h) cw
  | false :: false :: true :: true :: false :: cw => decodePlain (.halfAdd h) cw
  | false :: false :: true :: true :: true :: cw => decodePlain (.fullAdd h) cw
  | false :: true :: false :: false :: false :: cw => decodeSrLatch h cw
  | false :: true :: false :: false :: true :: cw => decodeDLatch h cw
  | false :: true :: false :: true :: false :: cw => decodeDff h cw
  | false :: true :: false :: true :: true :: cw => decodeJkff h cw
  | false :: true :: true :: false :: false :: cw => decodeTff h cw
  | false :: true :: true :: false :: true :: cw => decodeRegister h cw
  | false :: true :: true :: true :: false :: cw => decodeShiftRegister h cw
  | false :: true :: true :: true :: true :: cw => decodeUnivShiftRegister h cw
  | true :: false :: false :: false :: false :: cw => decodeCounter h cw
  | true :: false :: false :: false :: true :: cw => decodeBcdCounter h cw
  | true :: false :: false :: true :: false :: cw => decodeRingCounter h cw
  | true :: false :: false :: true :: true :: cw => decodeJohnsonCounter h cw
  | true :: false :: true :: false :: false :: cw => decodeClockDivider h cw
  | true :: false :: true :: false :: true :: cw => decodeMux h cw
  | true :: false :: true :: true :: false :: cw => decodeDemux h cw
  | true :: false :: true :: true :: true :: cw => decodeDecoder h cw
  | true :: true :: false :: false :: false :: cw => decodeAdder h cw
  | true :: true :: false :: false :: true :: cw => decodePlain (.mul h) cw
  | true :: true :: false :: true :: false :: cw => decodeDivider h cw
  | true :: true :: false :: true :: true :: cw => decodePlain (.bcdAdd h) cw
  | true :: true :: true :: false :: false :: cw => decodeAlu h cw
  | true :: true :: true :: false :: true :: cw => decodeMemory h cw
  | true :: true :: true :: true :: false :: cw => decodeAccumulator h cw
  | true :: true :: true :: true :: true :: _ => .error .reservedKind
  | _ => .error .badLength

/-- The contract codes (R90). -/
def decodeContract (code : BitVec 2) (h p : Nat) (v : Voltage) : Except DecodeError Instr :=
  match code.toNat with
  | 0 => .ok (.writePin h p v)
  | 1 => .ok (.readPin h p)
  | 2 => .ok (.tick h)
  | _ => .error .reservedContractCode

/-- The graph codes (R90). -/
def decodeGraph (code : BitVec 3) (o : GraphOperands) : Except DecodeError Instr :=
  match code.toNat with
  | 0 => .ok (.gCreate o.config)
  | 1 => .ok (.gConnect o.h o.p o.h2 o.p2)
  | 2 => .ok (.gDrive o.h o.p o.v)
  | 3 => .ok (.gObserve o.h o.p)
  | 4 => .ok .gTick
  | 5 => .ok (.gTickN o.n)
  | _ => .error .reservedGraphCode

/-- The decoder. -/
def decode : Line → Except DecodeError Instr
  | .contract code h p v => decodeContract code h p v
  | .graph code o => decodeGraph code o
  | .row h code => decodeRow h code

/-- The encoder: the line of each operation, written from the table of R92. -/
def encode : Instr → Line
  | .notGate h => .row h [false, false, false, false, false]
  | .andGate h => .row h [false, false, false, false, true]
  | .orGate h => .row h [false, false, false, true, false]
  | .nandGate h => .row h [false, false, false, true, true]
  | .norGate h => .row h [false, false, true, false, false]
  | .xorGate h => .row h [false, false, true, false, true]
  | .halfAdd h => .row h [false, false, true, true, false]
  | .fullAdd h => .row h [false, false, true, true, true]
  | .srlAreset h set s r => .row h [false, true, false, false, false, true, set, s, r]
  | .srlAset h s r => .row h [false, true, false, false, false, false, true, s, r]
  | .srlSet h => .row h [false, true, false, false, false, false, false, true, false]
  | .srlReset h => .row h [false, true, false, false, false, false, false, false, true]
  | .srlHold h => .row h [false, true, false, false, false, false, false, false, false]
  | .srlBoth h => .row h [false, true, false, false, false, false, false, true, true]
  | .dlAreset h set en => .row h [false, true, false, false, true, true, set, en]
  | .dlAset h en => .row h [false, true, false, false, true, false, true, en]
  | .dlTrack h => .row h [false, true, false, false, true, false, false, true]
  | .dlHold h => .row h [false, true, false, false, true, false, false, false]
  | .dffAreset h set e => .row h [false, true, false, true, false, true, set, e]
  | .dffAset h e => .row h [false, true, false, true, false, false, true, e]
  | .dffCapture h => .row h [false, true, false, true, false, false, false, true]
  | .dffNoedge h => .row h [false, true, false, true, false, false, false, false]
  | .jkAreset h set e j k => .row h [false, true, false, true, true, true, set, e, j, k]
  | .jkAset h e j k => .row h [false, true, false, true, true, false, true, e, j, k]
  | .jkNoedge h j k => .row h [false, true, false, true, true, false, false, false, j, k]
  | .jkHold h => .row h [false, true, false, true, true, false, false, true, false, false]
  | .jkReset h => .row h [false, true, false, true, true, false, false, true, false, true]
  | .jkSet h => .row h [false, true, false, true, true, false, false, true, true, false]
  | .jkToggle h => .row h [false, true, false, true, true, false, false, true, true, true]
  | .tAreset h set e t => .row h [false, true, true, false, false, true, set, e, t]
  | .tAset h e t => .row h [false, true, true, false, false, false, true, e, t]
  | .tNoedge h t => .row h [false, true, true, false, false, false, false, false, t]
  | .tHold h => .row h [false, true, true, false, false, false, false, true, false]
  | .tToggle h => .row h [false, true, true, false, false, false, false, true, true]
  | .regAreset h set e => .row h [false, true, true, false, true, true, set, e]
  | .regAset h e => .row h [false, true, true, false, true, false, true, e]
  | .regLoad h => .row h [false, true, true, false, true, false, false, true]
  | .regNoedge h => .row h [false, true, true, false, true, false, false, false]
  | .shregAreset h set e load dir => .row h [false, true, true, true, false, true, set, e, load, dir]
  | .shregAset h e load dir => .row h [false, true, true, true, false, false, true, e, load, dir]
  | .shregNoedge h load dir => .row h [false, true, true, true, false, false, false, false, load, dir]
  | .shregLoad h dir => .row h [false, true, true, true, false, false, false, true, true, dir]
  | .shregShl h => .row h [false, true, true, true, false, false, false, true, false, false]
  | .shregShr h => .row h [false, true, true, true, false, false, false, true, false, true]
  | .usrAreset h set e mode1 mode0 => .row h [false, true, true, true, true, true, set, e, mode1, mode0]
  | .usrAset h e mode1 mode0 => .row h [false, true, true, true, true, false, true, e, mode1, mode0]
  | .usrNoedge h mode1 mode0 => .row h [false, true, true, true, true, false, false, false, mode1, mode0]
  | .usrNop h => .row h [false, true, true, true, true, false, false, true, false, false]
  | .usrShr h => .row h [false, true, true, true, true, false, false, true, false, true]
  | .usrShl h => .row h [false, true, true, true, true, false, false, true, true, false]
  | .usrLoad h => .row h [false, true, true, true, true, false, false, true, true, true]
  | .ctrAreset h e load enable down => .row h [true, false, false, false, false, true, e, load, enable, down]
  | .ctrNoedge h load enable down => .row h [true, false, false, false, false, false, false, load, enable, down]
  | .ctrLoad h enable down => .row h [true, false, false, false, false, false, true, true, enable, down]
  | .ctrUp h => .row h [true, false, false, false, false, false, true, false, true, false]
  | .ctrDown h => .row h [true, false, false, false, false, false, true, false, true, true]
  | .ctrFreeze h down => .row h [true, false, false, false, false, false, true, false, false, down]
  | .bcdAreset h e load enable down => .row h [true, false, false, false, true, true, e, load, enable, down]
  | .bcdNoedge h load enable down => .row h [true, false, false, false, true, false, false, load, enable, down]
  | .bcdLoad h enable down => .row h [true, false, false, false, true, false, true, true, enable, down]
  | .bcdUp h => .row h [true, false, false, false, true, false, true, false, true, false]
  | .bcdDown h => .row h [true, false, false, false, true, false, true, false, true, true]
  | .bcdFreeze h down => .row h [true, false, false, false, true, false, true, false, false, down]
  | .ringAreset h e dir => .row h [true, false, false, true, false, true, e, dir]
  | .ringNoedge h dir => .row h [true, false, false, true, false, false, false, dir]
  | .ringRotl h => .row h [true, false, false, true, false, false, true, false]
  | .ringRotr h => .row h [true, false, false, true, false, false, true, true]
  | .johnsonAreset h e => .row h [true, false, false, true, true, true, e]
  | .johnsonNoedge h => .row h [true, false, false, true, true, false, false]
  | .johnsonStep h => .row h [true, false, false, true, true, false, true]
  | .clkdivAreset h e => .row h [true, false, true, false, false, true, e]
  | .clkdivNoedge h => .row h [true, false, true, false, false, false, false]
  | .clkdivCount h => .row h [true, false, true, false, false, false, true]
  | .muxSelect h => .row h [true, false, true, false, true, false]
  | .muxDisabled h => .row h [true, false, true, false, true, true]
  | .demuxSelect h => .row h [true, false, true, true, false, false]
  | .demuxDisabled h => .row h [true, false, true, true, false, true]
  | .decSelect h => .row h [true, false, true, true, true, false]
  | .decDisabled h => .row h [true, false, true, true, true, true]
  | .adderAdd h => .row h [true, true, false, false, false, false, false]
  | .adderSub h => .row h [true, true, false, false, false, false, true]
  | .adderInc h => .row h [true, true, false, false, false, true, false]
  | .adderInvalid h => .row h [true, true, false, false, false, true, true]
  | .mul h => .row h [true, true, false, false, true]
  | .divAreset h => .row h [true, true, false, true, false, true]
  | .divEval h => .row h [true, true, false, true, false, false]
  | .bcdAdd h => .row h [true, true, false, true, true]
  | .aluAdd h => .row h [true, true, true, false, false, false, false, false, false]
  | .aluSub h => .row h [true, true, true, false, false, false, false, false, true]
  | .aluAnd h => .row h [true, true, true, false, false, false, false, true, false]
  | .aluOr h => .row h [true, true, true, false, false, false, false, true, true]
  | .aluXor h => .row h [true, true, true, false, false, false, true, false, false]
  | .aluNot h => .row h [true, true, true, false, false, false, true, false, true]
  | .aluShl h => .row h [true, true, true, false, false, false, true, true, false]
  | .aluShr h => .row h [true, true, true, false, false, false, true, true, true]
  | .aluInc h => .row h [true, true, true, false, false, true, false, false, false]
  | .aluDec h => .row h [true, true, true, false, false, true, false, false, true]
  | .aluCompare h => .row h [true, true, true, false, false, true, false, true, false]
  | .aluInvalidB h => .row h [true, true, true, false, false, true, false, true, true]
  | .aluInvalidC h op1 op0 => .row h [true, true, true, false, false, true, true, op1, op0]
  | .memWrite h => .row h [true, true, true, false, true, false, true, true]
  | .memWidleNoedge h we => .row h [true, true, true, false, true, false, false, we]
  | .memWidleNowe h => .row h [true, true, true, false, true, false, true, false]
  | .memRead h => .row h [true, true, true, false, true, true, true]
  | .memReadoff h => .row h [true, true, true, false, true, true, false]
  | .accAreset h e op2 op1 op0 => .row h [true, true, true, true, false, true, e, op2, op1, op0]
  | .accNoedge h op2 op1 op0 => .row h [true, true, true, true, false, false, false, op2, op1, op0]
  | .accLoad h => .row h [true, true, true, true, false, false, true, false, false, false]
  | .accClear h => .row h [true, true, true, true, false, false, true, false, false, true]
  | .accInc h => .row h [true, true, true, true, false, false, true, false, true, false]
  | .accShl h => .row h [true, true, true, true, false, false, true, false, true, true]
  | .accShr h => .row h [true, true, true, true, false, false, true, true, false, false]
  | .accInvalid5 h => .row h [true, true, true, true, false, false, true, true, false, true]
  | .accInvalid67 h op0 => .row h [true, true, true, true, false, false, true, true, true, op0]
  | .writePin h p v => .contract 0b00#2 h p v
  | .readPin h p => .contract 0b01#2 h p 0
  | .tick h => .contract 0b10#2 h 0 0
  | .gCreate config => .graph 0b000#3 { config := config }
  | .gConnect fromH fromP toH toP => .graph 0b001#3 { h := fromH, p := fromP, h2 := toH, p2 := toP }
  | .gDrive h p v => .graph 0b010#3 { h := h, p := p, v := v }
  | .gObserve h p => .graph 0b011#3 { h := h, p := p }
  | .gTick => .graph 0b100#3 {}
  | .gTickN n => .graph 0b101#3 { n := n }

/-- The `n` low bits of `w`, most significant bit first (R83). -/
def bitsMsb : Nat → Nat → List Bool
  | 0, _ => []
  | n + 1, w => w.testBit n :: bitsMsb n w

/-- The line whose code has the value `w` in `width` bits, its operands all zero: the 2-bit contract space, the 3-bit graph
space, and an operation word for every greater width (R83, R90). -/
def tableLine (width w : Nat) : Line :=
  if width = 2 then .contract (BitVec.ofNat 2 w) 0 0 0
  else if width = 3 then .graph (BitVec.ofNat 3 w) {}
  else .row 0 (bitsMsb width w)

/-- The code widths that a count of bits can stand for: a count in whole bytes stands for every width of the table that
rounds up to it, shortest first; any other count is the width itself. -/
def tableWidths (nbits : Nat) : List Nat :=
  if nbits = 8 then [2, 3, 5, 6, 7, 8] else if nbits = 16 then [9, 10] else [nbits]

/-- The first of `widths` in which `w` fits and the decoder finds an operation. -/
def decodeFirst (w : Nat) : List Nat → Option Instr
  | [] => none
  | width :: rest =>
    match if w < 2 ^ width then decode (tableLine width w) else .error .badLength with
    | .ok i => some i
    | .error _ => decodeFirst w rest

/-- The operation that a word of the opcode table stands for. The byte count loses a row's exact width, so that one number
can be the code of several rows (`00000` NOT, `00` WRITEPIN and `000` G.CREATE are all 0 in 8 bits): the shortest code wins,
and the exact width given as `nbits` always selects its own row. DESIGN CHOICE, log entry 4. -/
def decodeTableWord (nbits w : Nat) : Option Instr := decodeFirst w (tableWidths nbits)

end Sys2Proof
end

