-- ==== Sys2Proof/Machine/State.lean ====
section
/-! DEFINITION. The state of the block as plain data: components, graph, and the host's script (10_state.md). -/

namespace Sys2Proof.Machine

/-- The pins of all kinds by name (R61). Numbers are used only at the boundary, by a kind's pin map (`Machine/Pins.lean`).
A single-bit pin whose name other kinds give an index carries index 0: `D` of a D flip-flop is `d 0`. -/
inductive Pin where
  -- inputs
  /-- `IN` of NOT, `IN0 .. IN(N-1)` of the N-input gates. -/
  | inp (i : Nat)
  /-- `A`, `A_i`. -/
  | a (i : Nat)
  /-- `B`, `B_i`. -/
  | b (i : Nat)
  /-- `D`, `D_i`. -/
  | d (i : Nat)
  /-- `X_j`, the demultiplexer's input. -/
  | x (j : Nat)
  /-- `IN[c]_j`, the multiplexer's channels. -/
  | chan (c j : Nat)
  | addr (i : Nat)
  | wdata (i : Nat)
  /-- `S` of the SR latch. -/
  | s
  /-- `R` of the SR latch. -/
  | r
  | j
  | k
  | t
  | en
  | serIn
  | dir
  | load
  | enable
  | down
  | mode (i : Nat)
  | op (i : Nat)
  | cin
  /-- The select pins `S_i`. -/
  | sel (i : Nat)
  | disable
  | we
  | re
  | clk
  | set
  | reset
  -- outputs
  /-- `OUT` of the gates and the clock divider. -/
  | out
  | q (i : Nat)
  | qn
  /-- `SUM` of the half and full adder, `S_i` of Adder and BCD adder. -/
  | sum (i : Nat)
  | carry
  | cout
  | ovf
  | leftOut
  | rightOut
  /-- `Y_j` of the multiplexer, `Y_c` of the decoder. -/
  | y (i : Nat)
  /-- `OUT[c]_j`, the demultiplexer's channels. -/
  | outCh (c j : Nat)
  | prod (i : Nat)
  | quo (i : Nat)
  | rem (i : Nat)
  | divZero
  | res (i : Nat)
  | zero
  | sign
  | rdata (i : Nat)
  -- power and ground (R24)
  | vcc
  | gnd
deriving DecidableEq, Repr

/-- The four flag bits of an ALU or an Accumulator (R35, R38). -/
structure Flags where
  zero : Bool
  sign : Bool
  carry : Bool
  ovf : Bool
deriving DecidableEq, Repr

/-- The contents of a word memory (R37): address and word, addresses strictly rising, no word 0 (an address that is not
listed reads as 0, R352). -/
abbrev Memory := List (Nat × Word)

/-- One stage of a component's own state (R27 to R38). -/
inductive Regs where
  /-- No state of its own (R27). -/
  | none
  /-- A latch's `q`, a flip-flop's stage (R28, R29). -/
  | bit (q : Bool)
  /-- A register's, shift register's, ring or Johnson counter's word (R30, R33). -/
  | word (w : Word)
  /-- A Counter's value and carry (R31). -/
  | count (val : Nat) (carry : Bool)
  /-- A BcdCounter's digits, digit 0 first, and carry (R32). -/
  | digits (dig : List Nat) (carry : Bool)
  /-- A ClockDivider's hidden count and its output (R34). -/
  | divide (cnt : Nat) (out : Bool)
  /-- A Memory's words (R37). -/
  | cells (mem : Memory)
  /-- An Accumulator's word and flags (R38). -/
  | acc (w : Word) (flags : Flags)
  /-- An Adder's held outputs (R35). -/
  | sum (s : Word) (cout ovf : Bool)
  /-- An ALU's held outputs (R35). -/
  | alu (r : Word) (flags : Flags)
  /-- A Divider's sticky flag (R36). -/
  | dz (flag : Bool)
deriving DecidableEq, Repr

/-- A component (R20). Its identity is its handle, its index in `State.comps` (R380). -/
structure Comp where
  params : Params
  cfg : Cfg
  /-- The active edge of a clocked kind (R25); other kinds never read it. -/
  edge : Edge
  /-- The input buffers `c.in[P]`, one for every input pin but the clock, in pin order (R22). -/
  ins : List (Pin × Voltage)
  /-- The previous clock of a kind with a clock pin (R23); other kinds never read or write it. -/
  clkPrev : Voltage
  vcc : Voltage
  gnd : Voltage
  /-- The master stage of a clocked kind (R26); `none` for every other kind. -/
  m : Regs
  /-- The slave stage of a clocked kind, the one stage of a latch, Adder, ALU or Divider. -/
  q : Regs
deriving DecidableEq, Repr

/-- A wire from an output pin to an input pin (R380). -/
structure Wire where
  fromH : Nat
  fromP : Nat
  toH : Nat
  toP : Nat
deriving DecidableEq, Repr

/-- A drive not yet applied (R383). -/
structure DriveReq where
  h : Nat
  p : Nat
  v : Voltage
deriving DecidableEq, Repr

/-- The two phases of a graph (R380). -/
inductive Phase where
  | building
  | running
deriving DecidableEq, Repr

/-- The five errors (R400, R407). -/
inductive Err where
  | unknownPin
  | invalidOperation
  /-- Returned by the word level only, as a warning (R403). -/
  | outOfRange
  /-- Returned by no operation; the name of the Divider's sticky flag (R404). -/
  | divByZero
  | configurationError
deriving DecidableEq, Repr

/-- The result of a component operation that presents no voltage (R8). -/
inductive Status where
  | ok
  | failed (e : Err)
deriving DecidableEq, Repr

/-- What an operation returned to the host (R8). -/
inductive Result where
  /-- No operation has been issued yet. -/
  | none
  | ok
  /-- `ReadPin`, `Observe`. -/
  | voltage (v : Voltage)
  /-- `CreateComponent`. -/
  | handle (h : Nat)
  /-- A component operation run as an instruction of its own: the logic values of the component's output pins, in pin
  order, once the operation is done. -/
  | presents (outs : List Bool)
  | failed (e : Err)
deriving DecidableEq, Repr

/-- One entry of the host's script (R42). -/
inductive Request where
  /-- A contract operation the host issues. -/
  | contract (code : BitVec 2) (h p : Nat) (v : Voltage)
  /-- A graph call the host issues. -/
  | graph (code : BitVec 3) (o : GraphOperands)
  /-- A `WritePin(h, p, v)` the host issues, run as the component operation of its last line (R104 to R107): the step is the
  same write, and answers what the component presents; `port` says which port's operation of a Memory answers (R85). -/
  | operate (h p : Nat) (v : Voltage) (port : Bool)
deriving DecidableEq, Repr

/-- The machine. -/
structure State where
  /-- The components in creation order (R40). -/
  comps : List Comp
  /-- The wires in creation order (R40). -/
  wires : List Wire
  /-- The drives not yet applied, in order (R40). -/
  pending : List DriveReq
  /-- The topological order of the components; empty while building (R40, R387). -/
  order : List Nat
  phase : Phase
  /-- The MODEL's own field: the operations the host is still to issue, first one first (R42, log entry 2). -/
  script : List Request
  /-- The MODEL's own field: what the last operation returned to the host (R8, log entry 2). -/
  result : Result
deriving DecidableEq, Repr

/-- A new graph (R40, R380), and a host that has issued nothing. -/
def State.reset : State where
  comps := []
  wires := []
  pending := []
  order := []
  phase := .building
  script := []
  result := .none

/-- Why the machine stops with a fault. The spec's own failures are results (R8), never one of these. -/
inductive Fault where
  /-- A component operation addressed to a component of another kind. Raised by every component operation's meaning; no
  `step` reaches it, because the operation word names the kind (R83). Safe: the spec gives such an operation no effect. -/
  | wrongKind
deriving DecidableEq, Repr

/-- Why the machine refuses to go on. -/
inductive Refusal where
  /-- An instruction without a meaning. Raised by no arm of `exec`. Safe. -/
  | notModelled (mnemonic : String)
  /-- A script entry whose code the decoder rejects (R90's reserved codes). Raised by `step`. Safe: the spec says no such
  call can be formed (93_implementation_defined.md U12). -/
  | undecodable (e : DecodeError)
deriving DecidableEq, Repr

/-- The three outcomes of a step of this machine. -/
abbrev Outcome := Host.Outcome State Fault Refusal

end Sys2Proof.Machine
end

