-- ==== Sys2Proof/Machine/Pins.lean ====
section
/-! DEFINITION. The pin map of each kind: the one translation between pin numbers and pin names (R61, D4). -/

namespace Sys2Proof.Machine

/-- The pins `f 0 .. f (n-1)`. -/
def bus (n : Nat) (f : Nat → Pin) : List Pin := (List.range n).map f

/-- The pins `f c j` of `c` channels of `d` bits, channel by channel (R280). -/
def channels (c d : Nat) (f : Nat → Nat → Pin) : List Pin := (List.range c).flatMap fun i => bus d (f i)

/-- The input pins of a kind in the order of their numbers, the clock among them. -/
def inputPins : Params → List Pin
  | .notGate => [.inp 0]                                                                       -- R131
  | .andGate n | .orGate n | .nandGate n | .norGate n => bus n .inp                            -- R132 to R135
  | .xorGate | .halfAdder => [.a 0, .b 0]                                                      -- R136, R137
  | .fullAdder => [.a 0, .b 0, .cin]                                                           -- R138
  | .srLatch => [.s, .r, .set, .reset]                                                         -- R164
  | .dLatch => [.d 0, .en, .set, .reset]                                                       -- R171
  | .dff => [.d 0, .clk, .set, .reset]                                                         -- R176
  | .jkff => [.j, .k, .clk, .set, .reset]                                                      -- R182
  | .tff => [.t, .clk, .set, .reset]                                                           -- R191
  | .register w => bus w .d ++ [.clk, .set, .reset]                                            -- R200
  | .shiftRegister w => bus w .d ++ [.serIn, .dir, .load, .clk, .set, .reset]                  -- R206
  | .univShiftRegister w => bus w .d ++ [.serIn, .mode 0, .mode 1, .clk, .set, .reset]         -- R214
  | .counter w _ _ => bus w .d ++ [.enable, .down, .load, .clk, .reset]                        -- R223
  | .bcdCounter k => bus (4 * k) .d ++ [.enable, .down, .load, .clk, .reset]                   -- R234
  | .ringCounter _ => [.dir, .clk, .reset]                                                     -- R242
  | .johnsonCounter _ => [.clk, .reset]                                                        -- R248
  | .clockDivider _ => [.clk, .reset]                                                          -- R253
  | .mux k d => channels (2 ^ k) d .chan ++ bus k .sel ++ [.disable]                           -- R280
  | .demux k d => bus d .x ++ bus k .sel ++ [.disable]                                         -- R283
  | .decoder k => bus k .sel ++ [.disable]                                                     -- R286
  | .adder w => bus w .a ++ bus w .b ++ [.cin, .mode 0, .mode 1]                               -- R300
  | .multiplier w => bus w .a ++ bus w .b                                                      -- R310
  | .divider w => bus w .a ++ bus w .b ++ [.reset]                                             -- R313
  | .bcdAdder k => bus (4 * k) .a ++ bus (4 * k) .b ++ [.cin]                                  -- R319
  | .alu w => bus w .a ++ bus w .b ++ bus 4 .op                                                -- R321
  | .memory a d => bus a .addr ++ bus d .wdata ++ [.we, .re, .clk]                             -- R350
  | .accumulator w => bus w .d ++ bus 3 .op ++ [.clk, .reset]                                  -- R357
  | .reserved => []

/-- The output pins of a kind in the order of their numbers. -/
def outputPins : Params → List Pin
  | .notGate | .andGate _ | .orGate _ | .nandGate _ | .norGate _ | .xorGate => [.out]
  | .halfAdder => [.sum 0, .carry]
  | .fullAdder => [.sum 0, .cout]
  | .srLatch | .dLatch | .dff | .jkff | .tff => [.q 0, .qn]
  | .register w | .univShiftRegister w | .ringCounter w | .johnsonCounter w => bus w .q
  | .shiftRegister w => bus w .q ++ [.leftOut, .rightOut]
  | .counter w _ _ => bus w .q ++ [.carry]
  | .bcdCounter k => bus (4 * k) .q ++ [.carry]
  | .clockDivider _ => [.out]
  | .mux _ d => bus d .y
  | .demux k d => channels (2 ^ k) d .outCh
  | .decoder k => bus (2 ^ k) .y
  | .adder w => bus w .sum ++ [.cout, .ovf]
  | .multiplier w => bus w .prod ++ [.cout, .ovf]
  | .divider w => bus w .quo ++ bus w .rem ++ [.divZero]
  | .bcdAdder k => bus (4 * k) .sum ++ [.cout]
  | .alu w => bus w .res ++ [.zero, .sign, .carry, .ovf]
  | .memory _ d => bus d .rdata
  | .accumulator w => bus w .q ++ [.zero, .sign, .carry, .ovf]
  | .reserved => []

/-- The pins of a kind; a pin's number is its place in the list (R61): inputs, outputs, `VCC`, `GND`. -/
def pinMap (p : Params) : List Pin := inputPins p ++ outputPins p ++ [.vcc, .gnd]

/-- The number of pins of a kind (R118). -/
def npins (p : Params) : Nat := (pinMap p).length

/-- The pin with a given number, if the kind exposes one (R104). -/
def pinAt (p : Params) (id : Nat) : Option Pin := (pinMap p)[id]?

/-- The number of a named pin. -/
def pinId (p : Params) (P : Pin) : Nat := (pinMap p).idxOf P

/-- The pins that have an input buffer: every input pin but the clock (R22). -/
def bufferedPins (p : Params) : List Pin := (inputPins p).filter (· ≠ .clk)

/-- `id` is the number of an input pin: data, control, CLK, SET or RESET (R382). -/
def isInputId (p : Params) (id : Nat) : Bool := decide (id < (inputPins p).length)

/-- `id` is the number of an output pin (R382). -/
def isOutputId (p : Params) (id : Nat) : Bool :=
  decide ((inputPins p).length ≤ id) && decide (id < (inputPins p).length + (outputPins p).length)

end Sys2Proof.Machine
end

