-- ==== Sys2Proof/Machine/Ops.lean ====
section
/-! DEFINITION. The named operations over voltages, words, memories, components and the state. -/

namespace Sys2Proof.Machine

/-! ### Voltages and edges (R100, R101, R116) -/

/-- `logic(v)`: the comparison with the threshold is strict (R81, R100, R452). -/
def logic (cfg : Cfg) (v : Voltage) : Bool := decide (cfg.threshold < v)

/-- `voltage(b)` (R81, R101). -/
def voltage (cfg : Cfg) (b : Bool) : Voltage := if b then cfg.high else cfg.low

/-- `edge(dir, prev, new)`: an active edge (R116). -/
def activeEdge (cfg : Cfg) (dir : Edge) (prev new : Voltage) : Bool :=
  match dir with
  | .rising => !logic cfg prev && logic cfg new
  | .falling => logic cfg prev && !logic cfg new

/-! ### Words (R6, R82) -/

/-- `bits_W(n)`: the width-W word with value `n mod 2^W` (R6). -/
def bitsW (w n : Nat) : Word := n % 2 ^ w

/-- The value of the word whose bit `i` is `f i`: the sum of `f i * 2^i` over `i < w` (R82). -/
def wordOf : Nat → (Nat → Bool) → Word
  | 0, _ => 0
  | w + 1, f => wordOf w f + (f w).toNat * 2 ^ w

/-- `sign(X) = X[W-1]` (R6). -/
def signBit (w : Nat) (x : Word) : Bool := x.testBit (w - 1)

/-- The word with every bit 1. -/
def allOnes (w : Nat) : Word := 2 ^ w - 1

/-- The bits of a word, bit 0 first. -/
def bitList (w : Nat) (x : Word) : List Bool := (List.range w).map x.testBit

/-! ### Word memories (R37, R351, R352) -/

/-- What an address that is not listed reads as: "unwritten words read as all-zero" (R37). -/
def Memory.unlisted : Word := 0

/-- `MemRead` on the list form (R352). -/
def Memory.read : Memory → Nat → Word
  | [], _ => Memory.unlisted
  | (b, w) :: rest, a => if a = b then w else Memory.read rest a

/-- The entries an address and its word contribute: none when the word is what an unlisted address reads as. -/
def Memory.cell (a : Nat) (w : Word) : Memory := if w = Memory.unlisted then [] else [(a, w)]

/-- `MemWrite` on the list form, keeping it canonical (R351). -/
def Memory.write : Memory → Nat → Word → Memory
  | [], a, v => Memory.cell a v
  | (b, w) :: rest, a, v =>
    if a = b then Memory.cell a v ++ rest
    else if a < b then Memory.cell a v ++ (b, w) :: rest
    else (b, w) :: Memory.write rest a v

/-- The canonical form: addresses strictly rising from `lo` on, no entry equal to what an unlisted address reads as. -/
def Memory.wfFrom : Nat → Memory → Bool
  | _, [] => true
  | lo, (b, w) :: rest => decide (lo ≤ b) && decide (w ≠ Memory.unlisted) && Memory.wfFrom (b + 1) rest

/-- The canonical form of a memory. -/
def Memory.wf (m : Memory) : Bool := Memory.wfFrom 0 m

/-- Every listed address is below `2 ^ a` and every word below `2 ^ d` (R350). -/
def Memory.within (a d : Nat) (m : Memory) : Bool := m.all fun c => decide (c.1 < 2 ^ a) && decide (c.2 < 2 ^ d)

/-! ### One stage of a component's state -/

/-- The bit of a latch's or flip-flop's stage. -/
def Regs.asBit : Regs → Bool
  | .bit b => b
  | _ => false

/-- The word of a register's or Accumulator's stage. -/
def Regs.asWord : Regs → Word
  | .word w => w
  | .acc w _ => w
  | _ => 0

/-- The value of a Counter's stage. -/
def Regs.asCount : Regs → Nat
  | .count v _ => v
  | _ => 0

/-- The digits of a BcdCounter's stage. -/
def Regs.asDigits : Regs → List Nat
  | .digits ds _ => ds
  | _ => []

/-- The stored carry of a Counter's or BcdCounter's stage. -/
def Regs.asCarry : Regs → Bool
  | .count _ c => c
  | .digits _ c => c
  | _ => false

/-- The hidden count of a ClockDivider's stage. -/
def Regs.asCnt : Regs → Nat
  | .divide n _ => n
  | _ => 0

/-- The output bit of a ClockDivider's stage. -/
def Regs.asOut : Regs → Bool
  | .divide _ o => o
  | _ => false

/-- The words of a Memory's stage. -/
def Regs.asCells : Regs → Memory
  | .cells m => m
  | _ => []

/-- The flags of an Accumulator's stage or an ALU's held outputs. -/
def Regs.asFlags : Regs → Flags
  | .acc _ f => f
  | .alu _ f => f
  | _ => { zero := false, sign := false, carry := false, ovf := false }

/-- An Adder's held sum. -/
def Regs.asSum : Regs → Word
  | .sum s _ _ => s
  | _ => 0

/-- An Adder's held carry out. -/
def Regs.asCout : Regs → Bool
  | .sum _ c _ => c
  | _ => false

/-- An Adder's held overflow. -/
def Regs.asOvf : Regs → Bool
  | .sum _ _ o => o
  | _ => false

/-- An ALU's held result. -/
def Regs.asRes : Regs → Word
  | .alu r _ => r
  | _ => 0

/-- A Divider's sticky flag. -/
def Regs.asDz : Regs → Bool
  | .dz f => f
  | _ => false

/-! ### Named updates of a component -/

/-- Replaces the buffer of pin `P` (R105); the list of buffered pins stays as it is. -/
def writeBuffer (P : Pin) (v : Voltage) : List (Pin × Voltage) → List (Pin × Voltage)
  | [] => []
  | (Q, u) :: rest => if Q = P then (P, v) :: rest else (Q, u) :: writeBuffer P v rest

/-- The voltage in the buffer of pin `P`, if there is one. -/
def readBuffer (P : Pin) : List (Pin × Voltage) → Option Voltage
  | [] => none
  | (Q, u) :: rest => if Q = P then some u else readBuffer P rest

/-- `c.in[P] <- v` (R105, R107). -/
def Comp.withIn (c : Comp) (P : Pin) (v : Voltage) : Comp := { c with ins := writeBuffer P v c.ins }

/-- `c.clk_prev <- v` (R106). -/
def Comp.withClkPrev (c : Comp) (v : Voltage) : Comp := { c with clkPrev := v }

/-- `c.vcc <- v` (R108). -/
def Comp.withVcc (c : Comp) (v : Voltage) : Comp := { c with vcc := v }

/-- `c.gnd <- v` (R108). -/
def Comp.withGnd (c : Comp) (v : Voltage) : Comp := { c with gnd := v }

/-- A clocked update: the master stage only (R26). -/
def Comp.withM (c : Comp) (r : Regs) : Comp := { c with m := r }

/-- An update of the slave stage, or of the one stage of an unclocked kind. -/
def Comp.withQ (c : Comp) (r : Regs) : Comp := { c with q := r }

/-- An asynchronous set or reset of a clocked kind: both stages at once (R26). -/
def Comp.withBoth (c : Comp) (r : Regs) : Comp := { c with m := r, q := r }

/-! ### Named updates of the state -/

/-- The component with a handle. -/
def State.comp? (s : State) (h : Nat) : Option Comp := s.comps[h]?

/-- Replaces the component with handle `h`. -/
def State.setComp (s : State) (h : Nat) (c : Comp) : State := { s with comps := s.comps.set h c }

/-- Replaces the list of components. -/
def State.withComps (s : State) (cs : List Comp) : State := { s with comps := cs }

/-- Appends a component (R381). -/
def State.addComp (s : State) (c : Comp) : State := { s with comps := s.comps ++ [c] }

/-- Appends a wire (R382). -/
def State.addWire (s : State) (w : Wire) : State := { s with wires := s.wires ++ [w] }

/-- Queues a drive (R383). -/
def State.addDrive (s : State) (d : DriveReq) : State := { s with pending := s.pending ++ [d] }

/-- Empties the queue of drives (R385 step (a)). -/
def State.clearPending (s : State) : State := { s with pending := [] }

/-- The first tick fixes the order and ends the building phase (R385). -/
def State.startRunning (s : State) (order : List Nat) : State := { s with order := order, phase := .running }

/-- Takes the first entry off the host's script. -/
def State.withScript (s : State) (rest : List Request) : State := { s with script := rest }

/-- Returns a result to the host (R8). -/
def State.answer (s : State) (r : Result) : State := { s with result := r }

/-! ### A failed operation

What other machines call taking an exception is here a failed operation: it returns the error's name to the host, saves
nothing, changes no mode and sends control nowhere (R400, R408, R415). The host's next operation follows it; there is no
return to make (R417). -/

/-- The number of an error in the order of the source's list; 0 stands for ok (R91, R407). -/
def Err.code : Err → Nat
  | .unknownPin => 1
  | .invalidOperation => 2
  | .outOfRange => 3
  | .divByZero => 4
  | .configurationError => 5

/-- The number of a result: 0 unless the operation failed (R91). -/
def Result.code : Result → Nat
  | .failed e => e.code
  | .none | .ok | .voltage _ | .handle _ | .presents _ => 0

/-- An operation fails with `e`; the state is what the caller hands over: unchanged for `UnknownPin` and
`ConfigurationError`, with the written buffer stored for `InvalidOperation` (R416). -/
def State.fail (s : State) (e : Err) : State := s.answer (.failed e)

/-- The result of a component operation that presents nothing. -/
def Status.toResult : Status → Result
  | .ok => .ok
  | .failed e => .failed e

/-- Runs `f` on the component with handle `h`; a handle that names no component is an invalid handle (R405). DEDUCED for
the contract operations, log entry 5. -/
def State.onComp (s : State) (h : Nat) (f : Comp → Outcome) : Outcome :=
  match s.comp? h with
  | none => .next (s.fail .configurationError)
  | some c => f c

end Sys2Proof.Machine
end

