-- ==== Sys2Proof/Machine/Operands.lean ====
section
/-! DEFINITION. The operand forms: logic views of pins, words assembled from pins, selectors, decimal digits (R7, R82). -/

namespace Sys2Proof.Machine

/-- `c.in[P]`: the voltage last written to input pin `P` (R7). A pin with no buffer reads as never written. -/
def Comp.buffer (c : Comp) (P : Pin) : Voltage := (readBuffer P c.ins).getD c.cfg.low

/-- `in(P) = logic(c.in[P])` (R7, R102). -/
def Comp.inBit (c : Comp) (P : Pin) : Bool := logic c.cfg (c.buffer P)

/-- `val(in(X[W-1:0]))` for the pins `X_0 .. X_(W-1)` (R82). -/
def Comp.inWord (c : Comp) (w : Nat) (X : Nat → Pin) : Word := wordOf w fun i => c.inBit (X i)

/-- Digit `j` of a packed-BCD operand: the pins `4j+3 .. 4j` (R82). -/
def Comp.inDigit (c : Comp) (X : Nat → Pin) (j : Nat) : Nat := wordOf 4 fun i => c.inBit (X (4 * j + i))

/-- Operand A of an arithmetic kind: `a = val(in(A[W-1:0]))`. -/
def Comp.opA (c : Comp) (w : Nat) : Word := c.inWord w .a

/-- Operand B of an arithmetic kind. -/
def Comp.opB (c : Comp) (w : Nat) : Word := c.inWord w .b

/-- The data inputs D as a word. -/
def Comp.opD (c : Comp) (w : Nat) : Word := c.inWord w .d

/-- The selector of a kind with `k` select pins, `S_0` least significant (R82, D36). -/
def Comp.selector (c : Comp) (k : Nat) : Nat := c.inWord k .sel

/-- The address of a Memory with `a` address pins (R350). -/
def Comp.address (c : Comp) (a : Nat) : Nat := c.inWord a .addr

/-- The width parameter of a kind that has one; the address width for a Memory is not a width. -/
def Params.width : Params → Nat
  | .register w | .shiftRegister w | .univShiftRegister w | .counter w _ _ | .ringCounter w | .johnsonCounter w
  | .adder w | .multiplier w | .divider w | .alu w | .accumulator w => w
  | .bcdCounter k | .bcdAdder k => 4 * k
  | .mux _ d | .demux _ d | .memory _ d => d
  | _ => 0

/-- The component's width parameter. -/
def Comp.width (c : Comp) : Nat := Params.width c.params

/-- The number of gate inputs, or a clock divider's N. -/
def Params.count : Params → Nat
  | .andGate n | .orGate n | .nandGate n | .norGate n | .clockDivider n => n
  | _ => 0

/-- The modulus of a Counter (R223). -/
def Params.modulus : Params → Nat
  | .counter _ m _ => m
  | _ => 0

/-- The number of decimal digits of a BcdCounter or BcdAdder. -/
def Params.digits : Params → Nat
  | .bcdCounter k | .bcdAdder k => k
  | _ => 0

/-- The number of select pins of a Mux, Demux or Decoder. -/
def Params.selectWidth : Params → Nat
  | .mux k _ | .demux k _ | .decoder k => k
  | _ => 0

/-- The address width of a Memory. -/
def Params.addressWidth : Params → Nat
  | .memory a _ => a
  | _ => 0

/-- The decimal reading `n(dig)` of a list of digits, digit 0 first (R234). -/
def decimal : List Nat → Nat
  | [] => 0
  | d :: rest => d + 10 * decimal rest

end Sys2Proof.Machine
end

