-- ==== Sys2Proof/Machine/Flags.lean ====
section
/-! DEFINITION. The flag computations of the arithmetic kinds (R302, R306, R322, R332, R359). -/

namespace Sys2Proof.Machine

/-- Signed overflow of an addition: equal operand signs, another result sign (R302). -/
def ovfAdd (w : Nat) (a b s : Word) : Bool := (signBit w a == signBit w b) && (signBit w s != signBit w a)

/-- Signed overflow of a subtraction: different operand signs, and the result's differs from A's (R302). -/
def ovfSub (w : Nat) (a b s : Word) : Bool := (signBit w a != signBit w b) && (signBit w s != signBit w a)

/-- Signed overflow of an increment (R306, R331, R364). -/
def ovfInc (w : Nat) (a s : Word) : Bool := !signBit w a && signBit w s

/-- Signed overflow of a decrement (R332). -/
def ovfDec (w : Nat) (a s : Word) : Bool := signBit w a && !signBit w s

/-- The carry out of an exact sum `t` below `2^(W+1)`: `t div 2^W` (R304). -/
def carryOut (w t : Nat) : Bool := decide (t / 2 ^ w ≠ 0)

/-- The flags of a computed result: zero and sign from the result, carry and overflow from the operation (R322, R359). -/
def flagsOf (w : Nat) (res : Word) (carry ovf : Bool) : Flags :=
  { zero := decide (res = 0), sign := signBit w res, carry := carry, ovf := ovf }

/-- The flags after construction and after a reset or clear: zero set, the others clear (R35, R38, R363). -/
def clearFlags : Flags := { zero := true, sign := false, carry := false, ovf := false }

/-- The exact sum of a subtraction: A, the complement of B, and 1 (R305). -/
def subSum (w : Nat) (a b : Word) : Nat := a + (2 ^ w - 1 - b) + 1

end Sys2Proof.Machine
end

