-- ==== Sys2Proof/Machine/Outputs.lean ====
section
/-! DEFINITION. What each kind presents on its output pins: `out(P)` (R7, R111). -/

namespace Sys2Proof.Machine

/-! ### Combinational primitives (R131 to R138) -/

/-- NOT (R131). -/
def outNot (c : Comp) : Bool := !c.inBit (.inp 0)

/-- The logic values of an N-input gate's inputs. -/
def gateInputs (c : Comp) : List Bool := (List.range (Params.count c.params)).map fun i => c.inBit (.inp i)

/-- AND(N): 1 iff every input is 1 (R132). -/
def outAnd (c : Comp) : Bool := (gateInputs c).all id

/-- OR(N): 1 iff at least one input is 1 (R133). -/
def outOr (c : Comp) : Bool := (gateInputs c).any id

/-- NAND(N): 0 iff every input is 1 (R134). -/
def outNand (c : Comp) : Bool := !(gateInputs c).all id

/-- NOR(N): 1 iff every input is 0 (R135). -/
def outNor (c : Comp) : Bool := !(gateInputs c).any id

/-- XOR: 1 iff the two inputs differ (R136). -/
def outXor (c : Comp) : Bool := c.inBit (.a 0) ^^ c.inBit (.b 0)

/-- The half-adder's SUM and CARRY (R137). -/
def outHalfAdd (c : Comp) (P : Pin) : Bool :=
  match P with
  | .sum _ => c.inBit (.a 0) ^^ c.inBit (.b 0)
  | .carry => c.inBit (.a 0) && c.inBit (.b 0)
  | _ => false

/-- The full-adder's SUM and COUT (R138). -/
def outFullAdd (c : Comp) (P : Pin) : Bool :=
  match P with
  | .sum _ => (c.inBit (.a 0) ^^ c.inBit (.b 0)) ^^ c.inBit .cin
  | .cout => (c.inBit (.a 0) && c.inBit (.b 0)) || ((c.inBit (.a 0) ^^ c.inBit (.b 0)) && c.inBit .cin)
  | _ => false

/-! ### Latches and flip-flops (R163, R170) -/

/-- The SR latch's row with both outputs low applies (R170). -/
def srBoth (c : Comp) : Bool := !c.inBit .reset && !c.inBit .set && c.inBit .s && c.inBit .r

/-- The SR latch's outputs: complements, but both low while S = R = 1 and no asynchronous pin is high (R163, R170). -/
def outSrLatch (c : Comp) (P : Pin) : Bool :=
  match P with
  | .q _ => !srBoth c && c.q.asBit
  | .qn => !srBoth c && !c.q.asBit
  | _ => false

/-- Q and QN of a D latch or a flip-flop: the visible bit and its complement (R160, R163, R181, R190, R197). -/
def outBitStage (c : Comp) (P : Pin) : Bool :=
  match P with
  | .q _ => c.q.asBit
  | .qn => !c.q.asBit
  | _ => false

/-! ### Word-level kinds (R205, R213, R222, R225, R235, R247, R252, R257) -/

/-- The taps of a register-like kind: all bits, leftmost bit, rightmost bit (R205, R213, R222, R247, R252). -/
def outWordStage (c : Comp) (P : Pin) : Bool :=
  match P with
  | .q i => c.q.asWord.testBit i
  | .leftOut => signBit c.width c.q.asWord
  | .rightOut => c.q.asWord.testBit 0
  | _ => false

/-- A Counter's value in binary and its stored carry (R225). -/
def outCounter (c : Comp) (P : Pin) : Bool :=
  match P with
  | .q i => (bitsW c.width c.q.asCount).testBit i
  | .carry => c.q.asCarry
  | _ => false

/-- A BcdCounter's digits in binary and its stored carry (R235). -/
def outBcdCounter (c : Comp) (P : Pin) : Bool :=
  match P with
  | .q i => (bitsW 4 (c.q.asDigits.getD (i / 4) 0)).testBit (i % 4)
  | .carry => c.q.asCarry
  | _ => false

/-- The divided clock (R257). -/
def outClockDivider (c : Comp) : Bool := c.q.asOut

/-! ### Interconnect (R281 to R288) -/

/-- MUX.SELECT: bit `j` of the selected channel (R281). -/
def outMuxSelect (c : Comp) (j : Nat) : Bool := c.inBit (.chan (c.selector (Params.selectWidth c.params)) j)

/-- MUX.DISABLED: low (R282). -/
def outMuxDisabled (_c : Comp) (_j : Nat) : Bool := false

/-- The multiplexer's outputs (R281, R282). -/
def outMux (c : Comp) (P : Pin) : Bool :=
  match P with
  | .y j => if c.inBit .disable then outMuxDisabled c j else outMuxSelect c j
  | _ => false

/-- DEMUX.SELECT: the selected channel reproduces the input, the others are low (R284). -/
def outDemuxSelect (c : Comp) (ch j : Nat) : Bool :=
  if ch = c.selector (Params.selectWidth c.params) then c.inBit (.x j) else false

/-- DEMUX.DISABLED: low (R285). -/
def outDemuxDisabled (_c : Comp) (_ch _j : Nat) : Bool := false

/-- The demultiplexer's outputs (R284, R285). -/
def outDemux (c : Comp) (P : Pin) : Bool :=
  match P with
  | .outCh ch j => if c.inBit .disable then outDemuxDisabled c ch j else outDemuxSelect c ch j
  | _ => false

/-- DEC.SELECT: exactly the selected line is high (R287). -/
def outDecSelect (c : Comp) (line : Nat) : Bool := decide (line = c.selector (Params.selectWidth c.params))

/-- DEC.DISABLED: low (R288). -/
def outDecDisabled (_c : Comp) (_line : Nat) : Bool := false

/-- The decoder's outputs (R287, R288). -/
def outDecoder (c : Comp) (P : Pin) : Bool :=
  match P with
  | .y line => if c.inBit .disable then outDecDisabled c line else outDecSelect c line
  | _ => false

/-! ### Arithmetic (R300, R311, R314, R320, R321) -/

/-- The Adder's held outputs (R300). -/
def outAdder (c : Comp) (P : Pin) : Bool :=
  match P with
  | .sum i => c.q.asSum.testBit i
  | .cout => c.q.asCout
  | .ovf => c.q.asOvf
  | _ => false

/-- MUL: the low W bits of the product, and both flags 1 iff the high word is not zero (R311). -/
def outMul (c : Comp) (P : Pin) : Bool :=
  match P with
  | .prod i => (bitsW c.width (c.opA c.width * c.opB c.width)).testBit i
  | .cout | .ovf => decide (c.opA c.width * c.opB c.width / 2 ^ c.width ≠ 0)
  | _ => false

/-- The Divider's quotient: all ones for a zero divisor (R314). -/
def quotient (c : Comp) : Word :=
  if c.opB c.width = 0 then allOnes c.width else bitsW c.width (c.opA c.width / c.opB c.width)

/-- The Divider's remainder: all ones for a zero divisor (R314). -/
def remainder (c : Comp) : Word :=
  if c.opB c.width = 0 then allOnes c.width else bitsW c.width (c.opA c.width % c.opB c.width)

/-- The Divider's outputs; they depend neither on RESET nor on the flag (R314). -/
def outDivider (c : Comp) (P : Pin) : Bool :=
  match P with
  | .quo i => (quotient c).testBit i
  | .rem i => (remainder c).testBit i
  | .divZero => c.q.asDz
  | _ => false

/-- One decimal digit of a BCD addition: the digit and the decimal carry (R320). -/
def bcdDigitSum (a b cin : Nat) : Nat × Nat :=
  if a + b + cin > 9 then ((a + b + cin + 6) % 16, 1) else (a + b + cin, 0)

/-- The digits of a BCD addition from the lowest up, and the carry out (R320). -/
def bcdSum (cin : Nat) : List (Nat × Nat) → List Nat × Nat
  | [] => ([], cin)
  | (a, b) :: rest =>
    ((bcdDigitSum a b cin).1 :: (bcdSum (bcdDigitSum a b cin).2 rest).1, (bcdSum (bcdDigitSum a b cin).2 rest).2)

/-- The operand digits of a BcdAdder, digit 0 first. -/
def bcdOperands (c : Comp) : List (Nat × Nat) :=
  (List.range (Params.digits c.params)).map fun j => (c.inDigit .a j, c.inDigit .b j)

/-- BCDADD: sum and decimal carry (R320). -/
def outBcdAdd (c : Comp) (P : Pin) : Bool :=
  match P with
  | .sum i => (((bcdSum (c.inBit .cin).toNat (bcdOperands c)).1.getD (i / 4) 0)).testBit (i % 4)
  | .cout => decide ((bcdSum (c.inBit .cin).toNat (bcdOperands c)).2 ≠ 0)
  | _ => false

/-- The ALU's held outputs (R321). -/
def outAlu (c : Comp) (P : Pin) : Bool :=
  match P with
  | .res i => c.q.asRes.testBit i
  | .zero => c.q.asFlags.zero
  | .sign => c.q.asFlags.sign
  | .carry => c.q.asFlags.carry
  | .ovf => c.q.asFlags.ovf
  | _ => false

/-! ### Memory and accumulator (R352, R353, R358) -/

/-- MEM.READ: bit `j` of the addressed word of the slave map (R352). -/
def outMemRead (c : Comp) (j : Nat) : Bool :=
  (Memory.read c.q.asCells (c.address (Params.addressWidth c.params))).testBit j

/-- MEM.READOFF: low (R353). -/
def outMemReadoff (_c : Comp) (_j : Nat) : Bool := false

/-- The read port (R352, R353). -/
def outMemory (c : Comp) (P : Pin) : Bool :=
  match P with
  | .rdata j => if c.inBit .re then outMemRead c j else outMemReadoff c j
  | _ => false

/-- The Accumulator's word and flags (R358). -/
def outAccumulator (c : Comp) (P : Pin) : Bool :=
  match P with
  | .q i => c.q.asWord.testBit i
  | .zero => c.q.asFlags.zero
  | .sign => c.q.asFlags.sign
  | .carry => c.q.asFlags.carry
  | .ovf => c.q.asFlags.ovf
  | _ => false

/-! ### Every kind -/

/-- `out(P)`: the logic value the component presents on output pin `P` (R7). -/
def Comp.outBit (c : Comp) (P : Pin) : Bool :=
  match c.params with
  | .notGate => outNot c
  | .andGate _ => outAnd c
  | .orGate _ => outOr c
  | .nandGate _ => outNand c
  | .norGate _ => outNor c
  | .xorGate => outXor c
  | .halfAdder => outHalfAdd c P
  | .fullAdder => outFullAdd c P
  | .srLatch => outSrLatch c P
  | .dLatch | .dff | .jkff | .tff => outBitStage c P
  | .register _ | .shiftRegister _ | .univShiftRegister _ | .ringCounter _ | .johnsonCounter _ => outWordStage c P
  | .counter _ _ _ => outCounter c P
  | .bcdCounter _ => outBcdCounter c P
  | .clockDivider _ => outClockDivider c
  | .mux _ _ => outMux c P
  | .demux _ _ => outDemux c P
  | .decoder _ => outDecoder c P
  | .adder _ => outAdder c P
  | .multiplier _ => outMul c P
  | .divider _ => outDivider c P
  | .bcdAdder _ => outBcdAdd c P
  | .alu _ => outAlu c P
  | .memory _ _ => outMemory c P
  | .accumulator _ => outAccumulator c P
  | .reserved => false

/-- The logic values of all output pins, in pin order. -/
def Comp.outputs (c : Comp) : List Bool := (outputPins c.params).map c.outBit

end Sys2Proof.Machine
end

