-- ==== Sys2Proof/Machine/Rows.lean ====
section
/-! DEFINITION. How a component operation runs as an instruction of its own. -/

namespace Sys2Proof.Machine

/-- The result of a component operation run as an instruction: the output pins' logic values once it is done, or the
failure it returned (log entry 2). -/
def rowResult (r : Comp × Status) : Result :=
  match r.2 with
  | .ok => .presents r.1.outputs
  | .failed e => .failed e

/-- Performs `op` on the component with handle `h`, which must be of kind `k`: an operation word names its kind (R83). -/
def runRow (h : Nat) (k : Kind) (op : Comp → Comp × Status) (s : State) : Outcome :=
  s.onComp h fun c =>
    if Params.kind c.params = k then .next ((s.setComp h (op c).1).answer (rowResult (op c)))
    else .fault .wrongKind

end Sys2Proof.Machine
end

