-- ==== Sys2Proof/Machine/Accumulator.lean ====
section
/-! DEFINITION. The accumulator (46_memory_accumulator.md): what each operation does to its component, and each operation as an instruction. -/

namespace Sys2Proof.Machine

/-- Stores a new word and the flags re-derived from it in the master stage (R359). -/
def accStore (c : Comp) (w : Word) (carry ovf : Bool) : Comp :=
  c.withM (.acc w (flagsOf c.width w carry ovf))

/-- ACC.ARESET (R360): word 0 and flags (1, 0, 0, 0) in both stages. -/
def doAccAreset (c : Comp) : Comp × Status :=
  (c.withBoth (.acc 0 clearFlags), .ok)

/-- ACC.ARESET on the component with handle `h` (R360). -/
def execAccAreset (h : Nat) (s : State) : Outcome := runRow h .accumulator doAccAreset s

/-- ACC.NOEDGE (R361): no change; a reserved code is no error without an edge. -/
def doAccNoedge (c : Comp) : Comp × Status :=
  (c, .ok)

/-- ACC.NOEDGE on the component with handle `h` (R361). -/
def execAccNoedge (h : Nat) (s : State) : Outcome := runRow h .accumulator doAccNoedge s

/-- ACC.LOAD (R362): the D inputs; carry and overflow are cleared. -/
def doAccLoad (c : Comp) : Comp × Status :=
  (accStore c (c.opD c.width) false false, .ok)

/-- ACC.LOAD on the component with handle `h` (R362). -/
def execAccLoad (h : Nat) (s : State) : Outcome := runRow h .accumulator doAccLoad s

/-- ACC.CLEAR (R363): word 0 and flags (1, 0, 0, 0). -/
def doAccClear (c : Comp) : Comp × Status :=
  (c.withM (.acc 0 clearFlags), .ok)

/-- ACC.CLEAR on the component with handle `h` (R363). -/
def execAccClear (h : Nat) (s : State) : Outcome := runRow h .accumulator doAccClear s

/-- ACC.INC (R364): the word plus 1. -/
def doAccInc (c : Comp) : Comp × Status :=
  let x := c.m.asWord
  (accStore c (bitsW c.width (x + 1)) (decide (x = allOnes c.width)) (ovfInc c.width x (bitsW c.width (x + 1))), .ok)

/-- ACC.INC on the component with handle `h` (R364). -/
def execAccInc (h : Nat) (s : State) : Outcome := runRow h .accumulator doAccInc s

/-- ACC.SHL (R365): one position left, zero filled; the bit shifted out goes to carry. -/
def doAccShl (c : Comp) : Comp × Status :=
  (accStore c (bitsW c.width (2 * c.m.asWord)) (signBit c.width c.m.asWord) false, .ok)

/-- ACC.SHL on the component with handle `h` (R365). -/
def execAccShl (h : Nat) (s : State) : Outcome := runRow h .accumulator doAccShl s

/-- ACC.SHR (R366): one position right, zero filled; the bit shifted out goes to carry. -/
def doAccShr (c : Comp) : Comp × Status :=
  (accStore c (bitsW c.width (c.m.asWord / 2)) (c.m.asWord.testBit 0) false, .ok)

/-- ACC.SHR on the component with handle `h` (R366). -/
def execAccShr (h : Nat) (s : State) : Outcome := runRow h .accumulator doAccShr s

/-- ACC.INVALID_5 (R367): op 101 at an active edge: word and flags are held; the write fails with `InvalidOperation`. -/
def doAccInvalid5 (c : Comp) : Comp × Status :=
  (c, .failed .invalidOperation)

/-- ACC.INVALID_5 on the component with handle `h` (R367). -/
def execAccInvalid5 (h : Nat) (s : State) : Outcome := runRow h .accumulator doAccInvalid5 s

/-- ACC.INVALID_67 (R367): op 110 or 111 at an active edge: word and flags are held; the write fails with `InvalidOperation`. -/
def doAccInvalid67 (c : Comp) : Comp × Status :=
  (c, .failed .invalidOperation)

/-- ACC.INVALID_67 on the component with handle `h` (R367). -/
def execAccInvalid67 (h : Nat) (s : State) : Outcome := runRow h .accumulator doAccInvalid67 s

end Sys2Proof.Machine
end

