-- ==== Sys2Proof/Machine/Alu.lean ====
section
/-! DEFINITION. The ALU (45_arithmetic.md): what each operation does to its component, and each operation as an instruction. -/

namespace Sys2Proof.Machine

/-- Stores a computed result and its flags (R322). -/
def aluStore (c : Comp) (res : Word) (carry ovf : Bool) : Comp :=
  c.withQ (.alu res (flagsOf c.width res carry ovf))

/-- Stores the flags of a computed result and keeps the result pins' word (R333). -/
def aluStoreFlags (c : Comp) (res : Word) (carry ovf : Bool) : Comp :=
  c.withQ (.alu c.q.asRes (flagsOf c.width res carry ovf))

/-- ALU.ADD (R323): A + B. -/
def doAluAdd (c : Comp) : Comp × Status :=
  let t := c.opA c.width + c.opB c.width
  (aluStore c (bitsW c.width t) (carryOut c.width t) (ovfAdd c.width (c.opA c.width) (c.opB c.width) (bitsW c.width t)), .ok)

/-- ALU.ADD on the component with handle `h` (R323). -/
def execAluAdd (h : Nat) (s : State) : Outcome := runRow h .alu doAluAdd s

/-- ALU.SUB (R324): A - B; the carry is the inverse borrow. -/
def doAluSub (c : Comp) : Comp × Status :=
  let t := subSum c.width (c.opA c.width) (c.opB c.width)
  (aluStore c (bitsW c.width t) (carryOut c.width t) (ovfSub c.width (c.opA c.width) (c.opB c.width) (bitsW c.width t)), .ok)

/-- ALU.SUB on the component with handle `h` (R324). -/
def execAluSub (h : Nat) (s : State) : Outcome := runRow h .alu doAluSub s

/-- ALU.AND (R325): bitwise and; carry and overflow are cleared. -/
def doAluAnd (c : Comp) : Comp × Status :=
  (aluStore c (c.opA c.width &&& c.opB c.width) false false, .ok)

/-- ALU.AND on the component with handle `h` (R325). -/
def execAluAnd (h : Nat) (s : State) : Outcome := runRow h .alu doAluAnd s

/-- ALU.OR (R326): bitwise or; carry and overflow are cleared. -/
def doAluOr (c : Comp) : Comp × Status :=
  (aluStore c (c.opA c.width ||| c.opB c.width) false false, .ok)

/-- ALU.OR on the component with handle `h` (R326). -/
def execAluOr (h : Nat) (s : State) : Outcome := runRow h .alu doAluOr s

/-- ALU.XOR (R327): bitwise exclusive or; carry and overflow are cleared. -/
def doAluXor (c : Comp) : Comp × Status :=
  (aluStore c (c.opA c.width ^^^ c.opB c.width) false false, .ok)

/-- ALU.XOR on the component with handle `h` (R327). -/
def execAluXor (h : Nat) (s : State) : Outcome := runRow h .alu doAluXor s

/-- ALU.NOT (R328): the complement of A; carry and overflow are cleared. -/
def doAluNot (c : Comp) : Comp × Status :=
  (aluStore c (allOnes c.width - c.opA c.width) false false, .ok)

/-- ALU.NOT on the component with handle `h` (R328). -/
def execAluNot (h : Nat) (s : State) : Outcome := runRow h .alu doAluNot s

/-- ALU.SHL (R329): A shifted left by one; the bit shifted out goes to carry. -/
def doAluShl (c : Comp) : Comp × Status :=
  (aluStore c (bitsW c.width (2 * c.opA c.width)) (signBit c.width (c.opA c.width)) false, .ok)

/-- ALU.SHL on the component with handle `h` (R329). -/
def execAluShl (h : Nat) (s : State) : Outcome := runRow h .alu doAluShl s

/-- ALU.SHR (R330): A shifted right by one, zero filled; the bit shifted out goes to carry. -/
def doAluShr (c : Comp) : Comp × Status :=
  (aluStore c (bitsW c.width (c.opA c.width / 2)) ((c.opA c.width).testBit 0) false, .ok)

/-- ALU.SHR on the component with handle `h` (R330). -/
def execAluShr (h : Nat) (s : State) : Outcome := runRow h .alu doAluShr s

/-- ALU.INC (R331): A + 1. -/
def doAluInc (c : Comp) : Comp × Status :=
  let t := c.opA c.width + 1
  (aluStore c (bitsW c.width t) (carryOut c.width t) (ovfInc c.width (c.opA c.width) (bitsW c.width t)), .ok)

/-- ALU.INC on the component with handle `h` (R331). -/
def execAluInc (h : Nat) (s : State) : Outcome := runRow h .alu doAluInc s

/-- ALU.DEC (R332): A - 1; the carry is 1 iff there is no borrow. -/
def doAluDec (c : Comp) : Comp × Status :=
  let t := c.opA c.width + (2 ^ c.width - 1)
  (aluStore c (bitsW c.width t) (carryOut c.width t) (ovfDec c.width (c.opA c.width) (bitsW c.width t)), .ok)

/-- ALU.DEC on the component with handle `h` (R332). -/
def execAluDec (h : Nat) (s : State) : Outcome := runRow h .alu doAluDec s

/-- ALU.COMPARE (R333): the flags of A - B; the result pins keep their word. -/
def doAluCompare (c : Comp) : Comp × Status :=
  let t := subSum c.width (c.opA c.width) (c.opB c.width)
  (aluStoreFlags c (bitsW c.width t) (carryOut c.width t) (ovfSub c.width (c.opA c.width) (c.opB c.width) (bitsW c.width t)), .ok)

/-- ALU.COMPARE on the component with handle `h` (R333). -/
def execAluCompare (h : Nat) (s : State) : Outcome := runRow h .alu doAluCompare s

/-- ALU.INVALID_B (R334): op 1011: outputs and flags are held; the write fails with `InvalidOperation`. -/
def doAluInvalidB (c : Comp) : Comp × Status :=
  (c, .failed .invalidOperation)

/-- ALU.INVALID_B on the component with handle `h` (R334). -/
def execAluInvalidB (h : Nat) (s : State) : Outcome := runRow h .alu doAluInvalidB s

/-- ALU.INVALID_C (R334): op 11xx: outputs and flags are held; the write fails with `InvalidOperation`. -/
def doAluInvalidC (c : Comp) : Comp × Status :=
  (c, .failed .invalidOperation)

/-- ALU.INVALID_C on the component with handle `h` (R334). -/
def execAluInvalidC (h : Nat) (s : State) : Outcome := runRow h .alu doAluInvalidC s

end Sys2Proof.Machine
end

