-- ==== Sys2Proof/Machine/Arithmetic.lean ====
section
/-! DEFINITION. Adder, multiplier, divider, BCD adder (45_arithmetic.md): what each operation does to its component, and each operation as an instruction. -/

namespace Sys2Proof.Machine

/-- ADDER.ADD (R304): A + B + CIN with carry out and signed overflow. -/
def doAdderAdd (c : Comp) : Comp × Status :=
  let t := c.opA c.width + c.opB c.width + (c.inBit .cin).toNat
  (c.withQ (.sum (bitsW c.width t) (carryOut c.width t) (ovfAdd c.width (c.opA c.width) (c.opB c.width) (bitsW c.width t))), .ok)

/-- ADDER.ADD on the component with handle `h` (R304). -/
def execAdderAdd (h : Nat) (s : State) : Outcome := runRow h .adder doAdderAdd s

/-- ADDER.SUB (R305): A + not B + 1; the carry is the inverse borrow; CIN is not read. -/
def doAdderSub (c : Comp) : Comp × Status :=
  let t := subSum c.width (c.opA c.width) (c.opB c.width)
  (c.withQ (.sum (bitsW c.width t) (carryOut c.width t) (ovfSub c.width (c.opA c.width) (c.opB c.width) (bitsW c.width t))), .ok)

/-- ADDER.SUB on the component with handle `h` (R305). -/
def execAdderSub (h : Nat) (s : State) : Outcome := runRow h .adder doAdderSub s

/-- ADDER.INC (R306): A + 1 regardless of B and CIN. -/
def doAdderInc (c : Comp) : Comp × Status :=
  let t := c.opA c.width + 1
  (c.withQ (.sum (bitsW c.width t) (carryOut c.width t) (ovfInc c.width (c.opA c.width) (bitsW c.width t))), .ok)

/-- ADDER.INC on the component with handle `h` (R306). -/
def execAdderInc (h : Nat) (s : State) : Outcome := runRow h .adder doAdderInc s

/-- ADDER.INVALID (R307): the outputs are held; the write fails with `InvalidOperation`. -/
def doAdderInvalid (c : Comp) : Comp × Status :=
  (c, .failed .invalidOperation)

/-- ADDER.INVALID on the component with handle `h` (R307). -/
def execAdderInvalid (h : Nat) (s : State) : Outcome := runRow h .adder doAdderInvalid s

/-- MUL (R311): the outputs are a function of the buffers (`outMul`). -/
def doMul (c : Comp) : Comp × Status :=
  (c, .ok)

/-- MUL on the component with handle `h` (R311). -/
def execMul (h : Nat) (s : State) : Outcome := runRow h .multiplier doMul s

/-- DIV.ARESET (R315): the sticky flag is cleared at once. -/
def doDivAreset (c : Comp) : Comp × Status :=
  (c.withQ (.dz false), .ok)

/-- DIV.ARESET on the component with handle `h` (R315). -/
def execDivAreset (h : Nat) (s : State) : Outcome := runRow h .divider doDivAreset s

/-- DIV.EVAL (R314): no state changes; the outputs are a function of the buffers (`outDivider`). -/
def doDivEval (c : Comp) : Comp × Status :=
  (c, .ok)

/-- DIV.EVAL on the component with handle `h` (R314). -/
def execDivEval (h : Nat) (s : State) : Outcome := runRow h .divider doDivEval s

/-- BCDADD (R320): the outputs are a function of the buffers (`outBcdAdd`). -/
def doBcdAdd (c : Comp) : Comp × Status :=
  (c, .ok)

/-- BCDADD on the component with handle `h` (R320). -/
def execBcdAdd (h : Nat) (s : State) : Outcome := runRow h .bcdAdder doBcdAdd s

end Sys2Proof.Machine
end

