-- ==== Sys2Proof/Machine/Combinational.lean ====
section
/-! DEFINITION. The gates and adders of layer L1 (41_combinational.md): what each operation does to its component, and each operation as an instruction. -/

namespace Sys2Proof.Machine

/-- NOT (R131): the outputs are a function of the buffers (`outNot`). -/
def doNotGate (c : Comp) : Comp × Status :=
  (c, .ok)

/-- NOT on the component with handle `h` (R131). -/
def execNotGate (h : Nat) (s : State) : Outcome := runRow h .notGate doNotGate s

/-- AND (R132): the outputs are a function of the buffers (`outAnd`). -/
def doAndGate (c : Comp) : Comp × Status :=
  (c, .ok)

/-- AND on the component with handle `h` (R132). -/
def execAndGate (h : Nat) (s : State) : Outcome := runRow h .andGate doAndGate s

/-- OR (R133): the outputs are a function of the buffers (`outOr`). -/
def doOrGate (c : Comp) : Comp × Status :=
  (c, .ok)

/-- OR on the component with handle `h` (R133). -/
def execOrGate (h : Nat) (s : State) : Outcome := runRow h .orGate doOrGate s

/-- NAND (R134): the outputs are a function of the buffers (`outNand`). -/
def doNandGate (c : Comp) : Comp × Status :=
  (c, .ok)

/-- NAND on the component with handle `h` (R134). -/
def execNandGate (h : Nat) (s : State) : Outcome := runRow h .nandGate doNandGate s

/-- NOR (R135): the outputs are a function of the buffers (`outNor`). -/
def doNorGate (c : Comp) : Comp × Status :=
  (c, .ok)

/-- NOR on the component with handle `h` (R135). -/
def execNorGate (h : Nat) (s : State) : Outcome := runRow h .norGate doNorGate s

/-- XOR (R136): the outputs are a function of the buffers (`outXor`). -/
def doXorGate (c : Comp) : Comp × Status :=
  (c, .ok)

/-- XOR on the component with handle `h` (R136). -/
def execXorGate (h : Nat) (s : State) : Outcome := runRow h .xorGate doXorGate s

/-- HALFADD (R137): the outputs are a function of the buffers (`outHalfAdd`). -/
def doHalfAdd (c : Comp) : Comp × Status :=
  (c, .ok)

/-- HALFADD on the component with handle `h` (R137). -/
def execHalfAdd (h : Nat) (s : State) : Outcome := runRow h .halfAdder doHalfAdd s

/-- FULLADD (R138): the outputs are a function of the buffers (`outFullAdd`). -/
def doFullAdd (c : Comp) : Comp × Status :=
  (c, .ok)

/-- FULLADD on the component with handle `h` (R138). -/
def execFullAdd (h : Nat) (s : State) : Outcome := runRow h .fullAdder doFullAdd s

end Sys2Proof.Machine
end

