-- ==== Sys2Proof/Machine/Counters.lean ====
section
/-! DEFINITION. Counters and clock divider (43_registers_counters.md): what each operation does to its component, and each operation as an instruction. -/

namespace Sys2Proof.Machine

/-- One more in decimal, digit 0 first: a 9 wraps to 0 and carries into the next digit (R239). -/
def bcdUpDigits : Bool → List Nat → List Nat × Bool
  | carry, [] => ([], carry)
  | false, d :: rest => (d :: rest, false)
  | true, d :: rest =>
    if d = 9 then (0 :: (bcdUpDigits true rest).1, (bcdUpDigits true rest).2) else ((d + 1) :: rest, false)

/-- One less in decimal, digit 0 first: a 0 wraps to 9 and borrows from the next digit (R240). -/
def bcdDownDigits : Bool → List Nat → List Nat × Bool
  | borrow, [] => ([], borrow)
  | false, d :: rest => (d :: rest, false)
  | true, d :: rest =>
    if d = 0 then (9 :: (bcdDownDigits true rest).1, (bcdDownDigits true rest).2) else ((d - 1) :: rest, false)

/-- CTR.ARESET (R226): value and carry of both stages to 0. -/
def doCtrAreset (c : Comp) : Comp × Status :=
  (c.withBoth (.count 0 false), .ok)

/-- CTR.ARESET on the component with handle `h` (R226). -/
def execCtrAreset (h : Nat) (s : State) : Outcome := runRow h .counter doCtrAreset s

/-- CTR.NOEDGE (R227): no change of value or carry. -/
def doCtrNoedge (c : Comp) : Comp × Status :=
  (c, .ok)

/-- CTR.NOEDGE on the component with handle `h` (R227). -/
def execCtrNoedge (h : Nat) (s : State) : Outcome := runRow h .counter doCtrNoedge s

/-- CTR.LOAD (R228): the D inputs modulo M; the carry is cleared. -/
def doCtrLoad (c : Comp) : Comp × Status :=
  (c.withM (.count (c.opD c.width % Params.modulus c.params) false), .ok)

/-- CTR.LOAD on the component with handle `h` (R228). -/
def execCtrLoad (h : Nat) (s : State) : Outcome := runRow h .counter doCtrLoad s

/-- CTR.UP (R229): up by 1 modulo M; the carry is 1 iff the count wrapped from M-1. -/
def doCtrUp (c : Comp) : Comp × Status :=
  (c.withM (.count ((c.m.asCount + 1) % Params.modulus c.params)
    (decide (c.m.asCount + 1 = Params.modulus c.params))), .ok)

/-- CTR.UP on the component with handle `h` (R229). -/
def execCtrUp (h : Nat) (s : State) : Outcome := runRow h .counter doCtrUp s

/-- CTR.DOWN (R230): down by 1 modulo M; the carry is 1 iff the count wrapped from 0. -/
def doCtrDown (c : Comp) : Comp × Status :=
  (c.withM (.count ((c.m.asCount + Params.modulus c.params - 1) % Params.modulus c.params)
    (decide (c.m.asCount = 0))), .ok)

/-- CTR.DOWN on the component with handle `h` (R230). -/
def execCtrDown (h : Nat) (s : State) : Outcome := runRow h .counter doCtrDown s

/-- CTR.FREEZE (R231): the value is unchanged, the carry is cleared. -/
def doCtrFreeze (c : Comp) : Comp × Status :=
  (c.withM (.count c.m.asCount false), .ok)

/-- CTR.FREEZE on the component with handle `h` (R231). -/
def execCtrFreeze (h : Nat) (s : State) : Outcome := runRow h .counter doCtrFreeze s

/-- BCD.ARESET (R236): all digits and both carries to 0. -/
def doBcdAreset (c : Comp) : Comp × Status :=
  (c.withBoth (.digits (List.replicate (Params.digits c.params) 0) false), .ok)

/-- BCD.ARESET on the component with handle `h` (R236). -/
def execBcdAreset (h : Nat) (s : State) : Outcome := runRow h .bcdCounter doBcdAreset s

/-- BCD.NOEDGE (R237): no change. -/
def doBcdNoedge (c : Comp) : Comp × Status :=
  (c, .ok)

/-- BCD.NOEDGE on the component with handle `h` (R237). -/
def execBcdNoedge (h : Nat) (s : State) : Outcome := runRow h .bcdCounter doBcdNoedge s

/-- BCD.LOAD (R238): each nibble of D modulo 10; the carry is cleared. -/
def doBcdLoad (c : Comp) : Comp × Status :=
  (c.withM (.digits ((List.range (Params.digits c.params)).map fun j => c.inDigit .d j % 10) false), .ok)

/-- BCD.LOAD on the component with handle `h` (R238). -/
def execBcdLoad (h : Nat) (s : State) : Outcome := runRow h .bcdCounter doBcdLoad s

/-- BCD.UP (R239): decimal count up; the carry is 1 iff every digit was 9. -/
def doBcdUp (c : Comp) : Comp × Status :=
  (c.withM (.digits (bcdUpDigits true c.m.asDigits).1 (bcdUpDigits true c.m.asDigits).2), .ok)

/-- BCD.UP on the component with handle `h` (R239). -/
def execBcdUp (h : Nat) (s : State) : Outcome := runRow h .bcdCounter doBcdUp s

/-- BCD.DOWN (R240): decimal count down; the carry is 1 iff every digit was 0. -/
def doBcdDown (c : Comp) : Comp × Status :=
  (c.withM (.digits (bcdDownDigits true c.m.asDigits).1 (bcdDownDigits true c.m.asDigits).2), .ok)

/-- BCD.DOWN on the component with handle `h` (R240). -/
def execBcdDown (h : Nat) (s : State) : Outcome := runRow h .bcdCounter doBcdDown s

/-- BCD.FREEZE (R241): the digits are unchanged, the carry is cleared. -/
def doBcdFreeze (c : Comp) : Comp × Status :=
  (c.withM (.digits c.m.asDigits false), .ok)

/-- BCD.FREEZE on the component with handle `h` (R241). -/
def execBcdFreeze (h : Nat) (s : State) : Outcome := runRow h .bcdCounter doBcdFreeze s

/-- RING.ARESET (R243): both stages to the one-hot pattern with bit 0 set. -/
def doRingAreset (c : Comp) : Comp × Status :=
  (c.withBoth (.word (bitsW c.width 1)), .ok)

/-- RING.ARESET on the component with handle `h` (R243). -/
def execRingAreset (h : Nat) (s : State) : Outcome := runRow h .ringCounter doRingAreset s

/-- RING.NOEDGE (R244): no change. -/
def doRingNoedge (c : Comp) : Comp × Status :=
  (c, .ok)

/-- RING.NOEDGE on the component with handle `h` (R244). -/
def execRingNoedge (h : Nat) (s : State) : Outcome := runRow h .ringCounter doRingNoedge s

/-- RING.ROTL (R245): the master rotates toward bit W-1. -/
def doRingRotl (c : Comp) : Comp × Status :=
  (c.withM (.word (bitsW c.width (2 * c.m.asWord) ||| (signBit c.width c.m.asWord).toNat)), .ok)

/-- RING.ROTL on the component with handle `h` (R245). -/
def execRingRotl (h : Nat) (s : State) : Outcome := runRow h .ringCounter doRingRotl s

/-- RING.ROTR (R246): the master rotates toward bit 0. -/
def doRingRotr (c : Comp) : Comp × Status :=
  (c.withM (.word (c.m.asWord / 2 + (c.m.asWord.testBit 0).toNat * 2 ^ (c.width - 1))), .ok)

/-- RING.ROTR on the component with handle `h` (R246). -/
def execRingRotr (h : Nat) (s : State) : Outcome := runRow h .ringCounter doRingRotr s

/-- JOHNSON.ARESET (R249): both stages to 0. -/
def doJohnsonAreset (c : Comp) : Comp × Status :=
  (c.withBoth (.word 0), .ok)

/-- JOHNSON.ARESET on the component with handle `h` (R249). -/
def execJohnsonAreset (h : Nat) (s : State) : Outcome := runRow h .johnsonCounter doJohnsonAreset s

/-- JOHNSON.NOEDGE (R250): no change. -/
def doJohnsonNoedge (c : Comp) : Comp × Status :=
  (c, .ok)

/-- JOHNSON.NOEDGE on the component with handle `h` (R250). -/
def execJohnsonNoedge (h : Nat) (s : State) : Outcome := runRow h .johnsonCounter doJohnsonNoedge s

/-- JOHNSON.STEP (R251): the master shifts toward bit W-1, the complement of the last bit enters at bit 0. -/
def doJohnsonStep (c : Comp) : Comp × Status :=
  (c.withM (.word (bitsW c.width (2 * c.m.asWord + (!signBit c.width c.m.asWord).toNat))), .ok)

/-- JOHNSON.STEP on the component with handle `h` (R251). -/
def execJohnsonStep (h : Nat) (s : State) : Outcome := runRow h .johnsonCounter doJohnsonStep s

/-- CLKDIV.ARESET (R254): count and output of both stages to 0. -/
def doClkdivAreset (c : Comp) : Comp × Status :=
  (c.withBoth (.divide 0 false), .ok)

/-- CLKDIV.ARESET on the component with handle `h` (R254). -/
def execClkdivAreset (h : Nat) (s : State) : Outcome := runRow h .clockDivider doClkdivAreset s

/-- CLKDIV.NOEDGE (R255): no change. -/
def doClkdivNoedge (c : Comp) : Comp × Status :=
  (c, .ok)

/-- CLKDIV.NOEDGE on the component with handle `h` (R255). -/
def execClkdivNoedge (h : Nat) (s : State) : Outcome := runRow h .clockDivider doClkdivNoedge s

/-- CLKDIV.COUNT (R256): the N-th edge clears the count and toggles the output, every other edge counts. -/
def doClkdivCount (c : Comp) : Comp × Status :=
  (c.withM (if c.m.asCnt + 1 = Params.count c.params then .divide 0 (!c.m.asOut) else .divide (c.m.asCnt + 1) c.m.asOut), .ok)

/-- CLKDIV.COUNT on the component with handle `h` (R256). -/
def execClkdivCount (h : Nat) (s : State) : Outcome := runRow h .clockDivider doClkdivCount s

end Sys2Proof.Machine
end

