-- ==== Sys2Proof/Machine/Interconnect.lean ====
section
/-! DEFINITION. Multiplexer, demultiplexer, decoder (44_interconnect.md): what each operation does to its component, and each operation as an instruction. -/

namespace Sys2Proof.Machine

/-- MUX.SELECT (R281): the outputs are a function of the buffers (`outMuxSelect`). -/
def doMuxSelect (c : Comp) : Comp × Status :=
  (c, .ok)

/-- MUX.SELECT on the component with handle `h` (R281). -/
def execMuxSelect (h : Nat) (s : State) : Outcome := runRow h .mux doMuxSelect s

/-- MUX.DISABLED (R282): the outputs are a function of the buffers (`outMuxDisabled`). -/
def doMuxDisabled (c : Comp) : Comp × Status :=
  (c, .ok)

/-- MUX.DISABLED on the component with handle `h` (R282). -/
def execMuxDisabled (h : Nat) (s : State) : Outcome := runRow h .mux doMuxDisabled s

/-- DEMUX.SELECT (R284): the outputs are a function of the buffers (`outDemuxSelect`). -/
def doDemuxSelect (c : Comp) : Comp × Status :=
  (c, .ok)

/-- DEMUX.SELECT on the component with handle `h` (R284). -/
def execDemuxSelect (h : Nat) (s : State) : Outcome := runRow h .demux doDemuxSelect s

/-- DEMUX.DISABLED (R285): the outputs are a function of the buffers (`outDemuxDisabled`). -/
def doDemuxDisabled (c : Comp) : Comp × Status :=
  (c, .ok)

/-- DEMUX.DISABLED on the component with handle `h` (R285). -/
def execDemuxDisabled (h : Nat) (s : State) : Outcome := runRow h .demux doDemuxDisabled s

/-- DEC.SELECT (R287): the outputs are a function of the buffers (`outDecSelect`). -/
def doDecSelect (c : Comp) : Comp × Status :=
  (c, .ok)

/-- DEC.SELECT on the component with handle `h` (R287). -/
def execDecSelect (h : Nat) (s : State) : Outcome := runRow h .decoder doDecSelect s

/-- DEC.DISABLED (R288): the outputs are a function of the buffers (`outDecDisabled`). -/
def doDecDisabled (c : Comp) : Comp × Status :=
  (c, .ok)

/-- DEC.DISABLED on the component with handle `h` (R288). -/
def execDecDisabled (h : Nat) (s : State) : Outcome := runRow h .decoder doDecDisabled s

end Sys2Proof.Machine
end

