-- ==== Sys2Proof/Machine/MemoryUnit.lean ====
section
/-! DEFINITION. The word memory (46_memory_accumulator.md): what each operation does to its component, and each operation as an instruction. -/

namespace Sys2Proof.Machine

/-- MEM.WRITE (R351): the addressed word of the master map takes the write data. -/
def doMemWrite (c : Comp) : Comp × Status :=
  (c.withM (.cells (Memory.write c.m.asCells (c.address (Params.addressWidth c.params)) (c.inWord c.width .wdata))), .ok)

/-- MEM.WRITE on the component with handle `h` (R351). -/
def execMemWrite (h : Nat) (s : State) : Outcome := runRow h .memory doMemWrite s

/-- MEM.WIDLE_NOEDGE (R354): no active edge: no word changes. -/
def doMemWidleNoedge (c : Comp) : Comp × Status :=
  (c, .ok)

/-- MEM.WIDLE_NOEDGE on the component with handle `h` (R354). -/
def execMemWidleNoedge (h : Nat) (s : State) : Outcome := runRow h .memory doMemWidleNoedge s

/-- MEM.WIDLE_NOWE (R354): an active edge with WE low: no word changes. -/
def doMemWidleNowe (c : Comp) : Comp × Status :=
  (c, .ok)

/-- MEM.WIDLE_NOWE on the component with handle `h` (R354). -/
def execMemWidleNowe (h : Nat) (s : State) : Outcome := runRow h .memory doMemWidleNowe s

/-- MEM.READ (R352): the outputs are a function of the address and the slave map (`outMemRead`). -/
def doMemRead (c : Comp) : Comp × Status :=
  (c, .ok)

/-- MEM.READ on the component with handle `h` (R352). -/
def execMemRead (h : Nat) (s : State) : Outcome := runRow h .memory doMemRead s

/-- MEM.READOFF (R353): the read data are low (`outMemReadoff`). -/
def doMemReadoff (c : Comp) : Comp × Status :=
  (c, .ok)

/-- MEM.READOFF on the component with handle `h` (R353). -/
def execMemReadoff (h : Nat) (s : State) : Outcome := runRow h .memory doMemReadoff s

end Sys2Proof.Machine
end

