-- ==== Sys2Proof/Machine/Registers.lean ====
section
/-! DEFINITION. Register, shift register, universal shift register (43_registers_counters.md): what each operation does to its component, and each operation as an instruction. -/

namespace Sys2Proof.Machine

/-- REG.ARESET (R201): every bit of both stages to 0. -/
def doRegAreset (c : Comp) : Comp × Status :=
  (c.withBoth (.word 0), .ok)

/-- REG.ARESET on the component with handle `h` (R201). -/
def execRegAreset (h : Nat) (s : State) : Outcome := runRow h .register doRegAreset s

/-- REG.ASET (R202): every bit of both stages to 1. -/
def doRegAset (c : Comp) : Comp × Status :=
  (c.withBoth (.word (allOnes c.width)), .ok)

/-- REG.ASET on the component with handle `h` (R202). -/
def execRegAset (h : Nat) (s : State) : Outcome := runRow h .register doRegAset s

/-- REG.LOAD (R203): the master takes the D inputs. -/
def doRegLoad (c : Comp) : Comp × Status :=
  (c.withM (.word (c.opD c.width)), .ok)

/-- REG.LOAD on the component with handle `h` (R203). -/
def execRegLoad (h : Nat) (s : State) : Outcome := runRow h .register doRegLoad s

/-- REG.NOEDGE (R204): no change. -/
def doRegNoedge (c : Comp) : Comp × Status :=
  (c, .ok)

/-- REG.NOEDGE on the component with handle `h` (R204). -/
def execRegNoedge (h : Nat) (s : State) : Outcome := runRow h .register doRegNoedge s

/-- SHREG.ARESET (R207): every bit of both stages to 0. -/
def doShregAreset (c : Comp) : Comp × Status :=
  (c.withBoth (.word 0), .ok)

/-- SHREG.ARESET on the component with handle `h` (R207). -/
def execShregAreset (h : Nat) (s : State) : Outcome := runRow h .shiftRegister doShregAreset s

/-- SHREG.ASET (R208): every bit of both stages to 1. -/
def doShregAset (c : Comp) : Comp × Status :=
  (c.withBoth (.word (allOnes c.width)), .ok)

/-- SHREG.ASET on the component with handle `h` (R208). -/
def execShregAset (h : Nat) (s : State) : Outcome := runRow h .shiftRegister doShregAset s

/-- SHREG.NOEDGE (R209): no change. -/
def doShregNoedge (c : Comp) : Comp × Status :=
  (c, .ok)

/-- SHREG.NOEDGE on the component with handle `h` (R209). -/
def execShregNoedge (h : Nat) (s : State) : Outcome := runRow h .shiftRegister doShregNoedge s

/-- SHREG.LOAD (R210): the master takes the D inputs. -/
def doShregLoad (c : Comp) : Comp × Status :=
  (c.withM (.word (c.opD c.width)), .ok)

/-- SHREG.LOAD on the component with handle `h` (R210). -/
def execShregLoad (h : Nat) (s : State) : Outcome := runRow h .shiftRegister doShregLoad s

/-- SHREG.SHL (R211): the master shifts toward bit W-1, the serial input enters at bit 0. -/
def doShregShl (c : Comp) : Comp × Status :=
  (c.withM (.word (bitsW c.width (2 * c.m.asWord + (c.inBit .serIn).toNat))), .ok)

/-- SHREG.SHL on the component with handle `h` (R211). -/
def execShregShl (h : Nat) (s : State) : Outcome := runRow h .shiftRegister doShregShl s

/-- SHREG.SHR (R212): the master shifts toward bit 0, the serial input enters at bit W-1. -/
def doShregShr (c : Comp) : Comp × Status :=
  (c.withM (.word (bitsW c.width (c.m.asWord / 2 + (c.inBit .serIn).toNat * 2 ^ (c.width - 1)))), .ok)

/-- SHREG.SHR on the component with handle `h` (R212). -/
def execShregShr (h : Nat) (s : State) : Outcome := runRow h .shiftRegister doShregShr s

/-- USR.ARESET (R215): every bit of both stages to 0. -/
def doUsrAreset (c : Comp) : Comp × Status :=
  (c.withBoth (.word 0), .ok)

/-- USR.ARESET on the component with handle `h` (R215). -/
def execUsrAreset (h : Nat) (s : State) : Outcome := runRow h .univShiftRegister doUsrAreset s

/-- USR.ASET (R216): every bit of both stages to 1. -/
def doUsrAset (c : Comp) : Comp × Status :=
  (c.withBoth (.word (allOnes c.width)), .ok)

/-- USR.ASET on the component with handle `h` (R216). -/
def execUsrAset (h : Nat) (s : State) : Outcome := runRow h .univShiftRegister doUsrAset s

/-- USR.NOEDGE (R217): no change. -/
def doUsrNoedge (c : Comp) : Comp × Status :=
  (c, .ok)

/-- USR.NOEDGE on the component with handle `h` (R217). -/
def execUsrNoedge (h : Nat) (s : State) : Outcome := runRow h .univShiftRegister doUsrNoedge s

/-- USR.NOP (R218): the active edge does nothing. -/
def doUsrNop (c : Comp) : Comp × Status :=
  (c, .ok)

/-- USR.NOP on the component with handle `h` (R218). -/
def execUsrNop (h : Nat) (s : State) : Outcome := runRow h .univShiftRegister doUsrNop s

/-- USR.SHR (R219): the master shifts toward bit 0, the serial input enters at bit W-1. -/
def doUsrShr (c : Comp) : Comp × Status :=
  (c.withM (.word (bitsW c.width (c.m.asWord / 2 + (c.inBit .serIn).toNat * 2 ^ (c.width - 1)))), .ok)

/-- USR.SHR on the component with handle `h` (R219). -/
def execUsrShr (h : Nat) (s : State) : Outcome := runRow h .univShiftRegister doUsrShr s

/-- USR.SHL (R220): the master shifts toward bit W-1, the serial input enters at bit 0. -/
def doUsrShl (c : Comp) : Comp × Status :=
  (c.withM (.word (bitsW c.width (2 * c.m.asWord + (c.inBit .serIn).toNat))), .ok)

/-- USR.SHL on the component with handle `h` (R220). -/
def execUsrShl (h : Nat) (s : State) : Outcome := runRow h .univShiftRegister doUsrShl s

/-- USR.LOAD (R221): the master takes the D inputs. -/
def doUsrLoad (c : Comp) : Comp × Status :=
  (c.withM (.word (c.opD c.width)), .ok)

/-- USR.LOAD on the component with handle `h` (R221). -/
def execUsrLoad (h : Nat) (s : State) : Outcome := runRow h .univShiftRegister doUsrLoad s

end Sys2Proof.Machine
end

