-- ==== Sys2Proof/Machine/Sequential.lean ====
section
/-! DEFINITION. Latches and flip-flops (42_sequential.md): what each operation does to its component, and each operation as an instruction. -/

namespace Sys2Proof.Machine

/-- SRL.ARESET (R165): `q <- 0`, whatever S, R and SET are. -/
def doSrlAreset (c : Comp) : Comp × Status :=
  (c.withQ (.bit false), .ok)

/-- SRL.ARESET on the component with handle `h` (R165). -/
def execSrlAreset (h : Nat) (s : State) : Outcome := runRow h .srLatch doSrlAreset s

/-- SRL.ASET (R166): `q <- 1`, whatever S and R are. -/
def doSrlAset (c : Comp) : Comp × Status :=
  (c.withQ (.bit true), .ok)

/-- SRL.ASET on the component with handle `h` (R166). -/
def execSrlAset (h : Nat) (s : State) : Outcome := runRow h .srLatch doSrlAset s

/-- SRL.SET (R167): `q <- 1`. -/
def doSrlSet (c : Comp) : Comp × Status :=
  (c.withQ (.bit true), .ok)

/-- SRL.SET on the component with handle `h` (R167). -/
def execSrlSet (h : Nat) (s : State) : Outcome := runRow h .srLatch doSrlSet s

/-- SRL.RESET (R168): `q <- 0`. -/
def doSrlReset (c : Comp) : Comp × Status :=
  (c.withQ (.bit false), .ok)

/-- SRL.RESET on the component with handle `h` (R168). -/
def execSrlReset (h : Nat) (s : State) : Outcome := runRow h .srLatch doSrlReset s

/-- SRL.HOLD (R169): `q` is unchanged. -/
def doSrlHold (c : Comp) : Comp × Status :=
  (c, .ok)

/-- SRL.HOLD on the component with handle `h` (R169). -/
def execSrlHold (h : Nat) (s : State) : Outcome := runRow h .srLatch doSrlHold s

/-- SRL.BOTH (R170): `q <- 0`; both outputs are low while this row applies (`outSrLatch`). -/
def doSrlBoth (c : Comp) : Comp × Status :=
  (c.withQ (.bit false), .ok)

/-- SRL.BOTH on the component with handle `h` (R170). -/
def execSrlBoth (h : Nat) (s : State) : Outcome := runRow h .srLatch doSrlBoth s

/-- DL.ARESET (R172): `q <- 0`. -/
def doDlAreset (c : Comp) : Comp × Status :=
  (c.withQ (.bit false), .ok)

/-- DL.ARESET on the component with handle `h` (R172). -/
def execDlAreset (h : Nat) (s : State) : Outcome := runRow h .dLatch doDlAreset s

/-- DL.ASET (R173): `q <- 1`. -/
def doDlAset (c : Comp) : Comp × Status :=
  (c.withQ (.bit true), .ok)

/-- DL.ASET on the component with handle `h` (R173). -/
def execDlAset (h : Nat) (s : State) : Outcome := runRow h .dLatch doDlAset s

/-- DL.TRACK (R174): `q <- in(D)`. -/
def doDlTrack (c : Comp) : Comp × Status :=
  (c.withQ (.bit (c.inBit (.d 0))), .ok)

/-- DL.TRACK on the component with handle `h` (R174). -/
def execDlTrack (h : Nat) (s : State) : Outcome := runRow h .dLatch doDlTrack s

/-- DL.HOLD (R175): `q` is unchanged. -/
def doDlHold (c : Comp) : Comp × Status :=
  (c, .ok)

/-- DL.HOLD on the component with handle `h` (R175). -/
def execDlHold (h : Nat) (s : State) : Outcome := runRow h .dLatch doDlHold s

/-- DFF.ARESET (R177): both stages to 0. -/
def doDffAreset (c : Comp) : Comp × Status :=
  (c.withBoth (.bit false), .ok)

/-- DFF.ARESET on the component with handle `h` (R177). -/
def execDffAreset (h : Nat) (s : State) : Outcome := runRow h .dff doDffAreset s

/-- DFF.ASET (R178): both stages to 1. -/
def doDffAset (c : Comp) : Comp × Status :=
  (c.withBoth (.bit true), .ok)

/-- DFF.ASET on the component with handle `h` (R178). -/
def execDffAset (h : Nat) (s : State) : Outcome := runRow h .dff doDffAset s

/-- DFF.CAPTURE (R179): the master samples D. -/
def doDffCapture (c : Comp) : Comp × Status :=
  (c.withM (.bit (c.inBit (.d 0))), .ok)

/-- DFF.CAPTURE on the component with handle `h` (R179). -/
def execDffCapture (h : Nat) (s : State) : Outcome := runRow h .dff doDffCapture s

/-- DFF.NOEDGE (R180): no change. -/
def doDffNoedge (c : Comp) : Comp × Status :=
  (c, .ok)

/-- DFF.NOEDGE on the component with handle `h` (R180). -/
def execDffNoedge (h : Nat) (s : State) : Outcome := runRow h .dff doDffNoedge s

/-- JK.ARESET (R183): both stages to 0. -/
def doJkAreset (c : Comp) : Comp × Status :=
  (c.withBoth (.bit false), .ok)

/-- JK.ARESET on the component with handle `h` (R183). -/
def execJkAreset (h : Nat) (s : State) : Outcome := runRow h .jkff doJkAreset s

/-- JK.ASET (R184): both stages to 1. -/
def doJkAset (c : Comp) : Comp × Status :=
  (c.withBoth (.bit true), .ok)

/-- JK.ASET on the component with handle `h` (R184). -/
def execJkAset (h : Nat) (s : State) : Outcome := runRow h .jkff doJkAset s

/-- JK.NOEDGE (R185): no change. -/
def doJkNoedge (c : Comp) : Comp × Status :=
  (c, .ok)

/-- JK.NOEDGE on the component with handle `h` (R185). -/
def execJkNoedge (h : Nat) (s : State) : Outcome := runRow h .jkff doJkNoedge s

/-- JK.HOLD (R186): the master is unchanged. -/
def doJkHold (c : Comp) : Comp × Status :=
  (c, .ok)

/-- JK.HOLD on the component with handle `h` (R186). -/
def execJkHold (h : Nat) (s : State) : Outcome := runRow h .jkff doJkHold s

/-- JK.RESET (R187): the master goes to 0. -/
def doJkReset (c : Comp) : Comp × Status :=
  (c.withM (.bit false), .ok)

/-- JK.RESET on the component with handle `h` (R187). -/
def execJkReset (h : Nat) (s : State) : Outcome := runRow h .jkff doJkReset s

/-- JK.SET (R188): the master goes to 1. -/
def doJkSet (c : Comp) : Comp × Status :=
  (c.withM (.bit true), .ok)

/-- JK.SET on the component with handle `h` (R188). -/
def execJkSet (h : Nat) (s : State) : Outcome := runRow h .jkff doJkSet s

/-- JK.TOGGLE (R189): the master is complemented. -/
def doJkToggle (c : Comp) : Comp × Status :=
  (c.withM (.bit (!c.m.asBit)), .ok)

/-- JK.TOGGLE on the component with handle `h` (R189). -/
def execJkToggle (h : Nat) (s : State) : Outcome := runRow h .jkff doJkToggle s

/-- T.ARESET (R192): both stages to 0. -/
def doTAreset (c : Comp) : Comp × Status :=
  (c.withBoth (.bit false), .ok)

/-- T.ARESET on the component with handle `h` (R192). -/
def execTAreset (h : Nat) (s : State) : Outcome := runRow h .tff doTAreset s

/-- T.ASET (R193): both stages to 1. -/
def doTAset (c : Comp) : Comp × Status :=
  (c.withBoth (.bit true), .ok)

/-- T.ASET on the component with handle `h` (R193). -/
def execTAset (h : Nat) (s : State) : Outcome := runRow h .tff doTAset s

/-- T.NOEDGE (R194): no change. -/
def doTNoedge (c : Comp) : Comp × Status :=
  (c, .ok)

/-- T.NOEDGE on the component with handle `h` (R194). -/
def execTNoedge (h : Nat) (s : State) : Outcome := runRow h .tff doTNoedge s

/-- T.HOLD (R195): the master is unchanged. -/
def doTHold (c : Comp) : Comp × Status :=
  (c, .ok)

/-- T.HOLD on the component with handle `h` (R195). -/
def execTHold (h : Nat) (s : State) : Outcome := runRow h .tff doTHold s

/-- T.TOGGLE (R196): the master is complemented. -/
def doTToggle (c : Comp) : Comp × Status :=
  (c.withM (.bit (!c.m.asBit)), .ok)

/-- T.TOGGLE on the component with handle `h` (R196). -/
def execTToggle (h : Nat) (s : State) : Outcome := runRow h .tff doTToggle s

end Sys2Proof.Machine
end

