-- ==== Sys2Proof/Machine/Select.lean ====
section
/-! DEFINITION. The operation word of a component and the one operation it selects (R83 to R86, R104). -/

namespace Sys2Proof.Machine

/-- One bit of a control word (R85). -/
inductive ControlBit where
  /-- The logic value of an input pin. -/
  | pin (P : Pin)
  /-- The event bit E (R86). -/
  | event
  /-- Memory's PORT constant (R85). -/
  | port (b : Bool)
deriving DecidableEq, Repr

/-- The control word of each kind, most significant bit first; `port` is Memory's read port (R85). -/
def controlFields (k : Kind) (port : Bool) : List ControlBit :=
  match k with
  | .notGate => []
  | .andGate => []
  | .orGate => []
  | .nandGate => []
  | .norGate => []
  | .xorGate => []
  | .halfAdder => []
  | .fullAdder => []
  | .srLatch => [.pin .reset, .pin .set, .pin .s, .pin .r]
  | .dLatch => [.pin .reset, .pin .set, .pin .en]
  | .dff => [.pin .reset, .pin .set, .event]
  | .jkff => [.pin .reset, .pin .set, .event, .pin .j, .pin .k]
  | .tff => [.pin .reset, .pin .set, .event, .pin .t]
  | .register => [.pin .reset, .pin .set, .event]
  | .shiftRegister => [.pin .reset, .pin .set, .event, .pin .load, .pin .dir]
  | .univShiftRegister => [.pin .reset, .pin .set, .event, .pin (.mode 1), .pin (.mode 0)]
  | .counter => [.pin .reset, .event, .pin .load, .pin .enable, .pin .down]
  | .bcdCounter => [.pin .reset, .event, .pin .load, .pin .enable, .pin .down]
  | .ringCounter => [.pin .reset, .event, .pin .dir]
  | .johnsonCounter => [.pin .reset, .event]
  | .clockDivider => [.pin .reset, .event]
  | .mux => [.pin .disable]
  | .demux => [.pin .disable]
  | .decoder => [.pin .disable]
  | .adder => [.pin (.mode 1), .pin (.mode 0)]
  | .multiplier => []
  | .divider => [.pin .reset]
  | .bcdAdder => []
  | .alu => [.pin (.op 3), .pin (.op 2), .pin (.op 1), .pin (.op 0)]
  | .memory => if port then [.port true, .pin .re] else [.port false, .event, .pin .we]
  | .accumulator => [.pin .reset, .event, .pin (.op 2), .pin (.op 1), .pin (.op 0)]
  | .reserved => []

/-- The value of one control bit when the event bit is `e`. -/
def controlBit (c : Comp) (e : Bool) : ControlBit → Bool
  | .pin P => c.inBit P
  | .event => e
  | .port b => b

/-- The operation word a component evaluates: kind id, then control word (R83). -/
def opWord (c : Comp) (port e : Bool) : List Bool :=
  bitsMsb 5 (Kind.id (Params.kind c.params)) ++ (controlFields (Params.kind c.params) port).map (controlBit c e)

/-- What an operation does to its component. A contract operation or graph call is no component operation. -/
def perform (i : Instr) (c : Comp) : Comp × Status :=
  match i with
  | .notGate _ => doNotGate c
  | .andGate _ => doAndGate c
  | .orGate _ => doOrGate c
  | .nandGate _ => doNandGate c
  | .norGate _ => doNorGate c
  | .xorGate _ => doXorGate c
  | .halfAdd _ => doHalfAdd c
  | .fullAdd _ => doFullAdd c
  | .srlAreset _ _ _ _ => doSrlAreset c
  | .srlAset _ _ _ => doSrlAset c
  | .srlSet _ => doSrlSet c
  | .srlReset _ => doSrlReset c
  | .srlHold _ => doSrlHold c
  | .srlBoth _ => doSrlBoth c
  | .dlAreset _ _ _ => doDlAreset c
  | .dlAset _ _ => doDlAset c
  | .dlTrack _ => doDlTrack c
  | .dlHold _ => doDlHold c
  | .dffAreset _ _ _ => doDffAreset c
  | .dffAset _ _ => doDffAset c
  | .dffCapture _ => doDffCapture c
  | .dffNoedge _ => doDffNoedge c
  | .jkAreset _ _ _ _ _ => doJkAreset c
  | .jkAset _ _ _ _ => doJkAset c
  | .jkNoedge _ _ _ => doJkNoedge c
  | .jkHold _ => doJkHold c
  | .jkReset _ => doJkReset c
  | .jkSet _ => doJkSet c
  | .jkToggle _ => doJkToggle c
  | .tAreset _ _ _ _ => doTAreset c
  | .tAset _ _ _ => doTAset c
  | .tNoedge _ _ => doTNoedge c
  | .tHold _ => doTHold c
  | .tToggle _ => doTToggle c
  | .regAreset _ _ _ => doRegAreset c
  | .regAset _ _ => doRegAset c
  | .regLoad _ => doRegLoad c
  | .regNoedge _ => doRegNoedge c
  | .shregAreset _ _ _ _ _ => doShregAreset c
  | .shregAset _ _ _ _ => doShregAset c
  | .shregNoedge _ _ _ => doShregNoedge c
  | .shregLoad _ _ => doShregLoad c
  | .shregShl _ => doShregShl c
  | .shregShr _ => doShregShr c
  | .usrAreset _ _ _ _ _ => doUsrAreset c
  | .usrAset _ _ _ _ => doUsrAset c
  | .usrNoedge _ _ _ => doUsrNoedge c
  | .usrNop _ => doUsrNop c
  | .usrShr _ => doUsrShr c
  | .usrShl _ => doUsrShl c
  | .usrLoad _ => doUsrLoad c
  | .ctrAreset _ _ _ _ _ => doCtrAreset c
  | .ctrNoedge _ _ _ _ => doCtrNoedge c
  | .ctrLoad _ _ _ => doCtrLoad c
  | .ctrUp _ => doCtrUp c
  | .ctrDown _ => doCtrDown c
  | .ctrFreeze _ _ => doCtrFreeze c
  | .bcdAreset _ _ _ _ _ => doBcdAreset c
  | .bcdNoedge _ _ _ _ => doBcdNoedge c
  | .bcdLoad _ _ _ => doBcdLoad c
  | .bcdUp _ => doBcdUp c
  | .bcdDown _ => doBcdDown c
  | .bcdFreeze _ _ => doBcdFreeze c
  | .ringAreset _ _ _ => doRingAreset c
  | .ringNoedge _ _ => doRingNoedge c
  | .ringRotl _ => doRingRotl c
  | .ringRotr _ => doRingRotr c
  | .johnsonAreset _ _ => doJohnsonAreset c
  | .johnsonNoedge _ => doJohnsonNoedge c
  | .johnsonStep _ => doJohnsonStep c
  | .clkdivAreset _ _ => doClkdivAreset c
  | .clkdivNoedge _ => doClkdivNoedge c
  | .clkdivCount _ => doClkdivCount c
  | .muxSelect _ => doMuxSelect c
  | .muxDisabled _ => doMuxDisabled c
  | .demuxSelect _ => doDemuxSelect c
  | .demuxDisabled _ => doDemuxDisabled c
  | .decSelect _ => doDecSelect c
  | .decDisabled _ => doDecDisabled c
  | .adderAdd _ => doAdderAdd c
  | .adderSub _ => doAdderSub c
  | .adderInc _ => doAdderInc c
  | .adderInvalid _ => doAdderInvalid c
  | .mul _ => doMul c
  | .divAreset _ => doDivAreset c
  | .divEval _ => doDivEval c
  | .bcdAdd _ => doBcdAdd c
  | .aluAdd _ => doAluAdd c
  | .aluSub _ => doAluSub c
  | .aluAnd _ => doAluAnd c
  | .aluOr _ => doAluOr c
  | .aluXor _ => doAluXor c
  | .aluNot _ => doAluNot c
  | .aluShl _ => doAluShl c
  | .aluShr _ => doAluShr c
  | .aluInc _ => doAluInc c
  | .aluDec _ => doAluDec c
  | .aluCompare _ => doAluCompare c
  | .aluInvalidB _ => doAluInvalidB c
  | .aluInvalidC _ _ _ => doAluInvalidC c
  | .memWrite _ => doMemWrite c
  | .memWidleNoedge _ _ => doMemWidleNoedge c
  | .memWidleNowe _ => doMemWidleNowe c
  | .memRead _ => doMemRead c
  | .memReadoff _ => doMemReadoff c
  | .accAreset _ _ _ _ _ => doAccAreset c
  | .accNoedge _ _ _ _ => doAccNoedge c
  | .accLoad _ => doAccLoad c
  | .accClear _ => doAccClear c
  | .accInc _ => doAccInc c
  | .accShl _ => doAccShl c
  | .accShr _ => doAccShr c
  | .accInvalid5 _ => doAccInvalid5 c
  | .accInvalid67 _ _ => doAccInvalid67 c
  | .writePin _ _ _ => (c, .ok)
  | .readPin _ _ => (c, .ok)
  | .tick _ => (c, .ok)
  | .gCreate _ => (c, .ok)
  | .gConnect _ _ _ _ => (c, .ok)
  | .gDrive _ _ _ => (c, .ok)
  | .gObserve _ _ => (c, .ok)
  | .gTick => (c, .ok)
  | .gTickN _ => (c, .ok)

/-- Decodes the operation word of one port and performs the operation it selects (R83). Every operation word of a component
selects exactly one row (R92), so the error branch is reached by no component of a kind of R84. -/
def performSelected (c : Comp) (port e : Bool) : Comp × Status :=
  match decodeRow 0 (opWord c port e) with
  | .ok i => perform i c
  | .error _ => (c, .ok)

/-- "Perform the operation selected by the operation word of c" (R104 to R107); a Memory evaluates its write port, then its
read port (R85), and neither of them fails. -/
def evaluate (c : Comp) (e : Bool) : Comp × Status :=
  match Params.kind c.params with
  | .memory => performSelected (performSelected c false e).1 true e
  | _ => performSelected c false e

end Sys2Proof.Machine
end

