-- ==== Sys2Proof/Machine/Contract.lean ====
section
/-! DEFINITION. The component contract: WritePin, ReadPin, Tick (40_contract.md), and the state of a component after
construction (R46). -/

namespace Sys2Proof.Machine

/-! ### Construction (R22 to R38, R46, R441) -/

/-- One stage of a kind's state after construction (R28 to R38, R46). -/
def resetRegs : Params → Regs
  | .srLatch | .dLatch | .dff | .jkff | .tff => .bit false
  | .register _ | .shiftRegister _ | .univShiftRegister _ | .johnsonCounter _ => .word 0
  | .counter _ _ _ => .count 0 false
  | .bcdCounter k => .digits (List.replicate k 0) false
  | .ringCounter w => .word (bitsW w 1)
  | .clockDivider _ => .divide 0 false
  | .adder _ => .sum 0 false false
  | .divider _ => .dz false
  | .alu _ => .alu 0 clearFlags
  | .memory _ _ => .cells []
  | .accumulator _ => .acc 0 clearFlags
  | _ => .none

/-- A component in its reset state (R46, R198, R440): every buffer and the previous clock at `cfg.low`, `VCC` at `cfg.high`. -/
def newComp (config : CompConfig) : Comp where
  params := config.params
  cfg := config.cfg
  edge := config.edge
  ins := (bufferedPins config.params).map fun P => (P, config.cfg.low)
  clkPrev := config.cfg.low
  vcc := config.cfg.high
  gnd := config.cfg.low
  m := if Kind.isClocked (Params.kind config.params) then resetRegs config.params else .none
  q := resetRegs config.params

/-! ### The three operations on one component -/

/-- The first lines of a write to the input end named `P`: the component with the voltage stored, and the event bit, which
is the edge from the clock before the write (R105 to R107). -/
def Comp.store (c : Comp) (P : Pin) (v : Voltage) : Comp × Bool :=
  match P with
  | .clk => (c.withClkPrev v, activeEdge c.cfg c.edge c.clkPrev v)
  | P => (c.withIn P v, false)

/-- `WritePin(c, p, v)` (R104 to R110): the component after the write, and the result. -/
def Comp.writePin (c : Comp) (p : Nat) (v : Voltage) : Comp × Status :=
  match pinAt c.params p with
  | none => (c, .failed .unknownPin)
  | some .vcc => (c.withVcc v, .ok)
  | some .gnd => (c.withGnd v, .ok)
  | some .clk => evaluate (c.store .clk v).1 (c.store .clk v).2
  | some P => if isOutputId c.params p then (c, .ok) else evaluate (c.store P v).1 (c.store P v).2

/-- The voltage that stands at an input end of a component: its buffer, or the previous clock (R22, R23). -/
def Comp.heldAt (c : Comp) (p : Nat) : Option Voltage :=
  match pinAt c.params p with
  | some .clk => some c.clkPrev
  | some P => readBuffer P c.ins
  | none => none

/-- The voltage `ReadPin(c, p)` returns, `none` where it fails with `UnknownPin` (R111, R112). -/
def Comp.readPin? (c : Comp) (p : Nat) : Option Voltage :=
  match pinAt c.params p with
  | some .vcc => some c.vcc
  | some .gnd => some c.gnd
  | some P => if isOutputId c.params p then some (voltage c.cfg (c.outBit P)) else none
  | none => none

/-- The result of `ReadPin(c, p)` (R111, R112). -/
def Comp.readPin (c : Comp) (p : Nat) : Result :=
  match c.readPin? p with
  | some v => .voltage v
  | none => .failed .unknownPin

/-- `Tick` of a clocked kind: the slave takes the master (R26, R113, R181, R190, R197). -/
def Comp.commit (c : Comp) : Comp := c.withQ c.m

/-- `Tick` of a Divider: a zero divisor standing while RESET is low sets the sticky flag (R316). -/
def Comp.tickDivider (c : Comp) : Comp :=
  if !c.inBit .reset && decide (c.opB c.width = 0) then c.withQ (.dz true) else c

/-- `Tick(c)` (R113): it never fails (R115). Combinational kinds and latches have nothing to commit (R140, R199, R290), and
no kind counts on `Tick` (R258). -/
def Comp.tick (c : Comp) : Comp :=
  match Params.kind c.params with
  | .adder | .alu => (evaluate c false).1
  | .divider => c.tickDivider
  | k => if Kind.isClocked k then c.commit else c

/-! ### The three operations as instructions -/

/-- WRITEPIN (R104). -/
def execWritePin (h p : Nat) (v : Voltage) (s : State) : Outcome :=
  s.onComp h fun c => .next ((s.setComp h (c.writePin p v).1).answer (c.writePin p v).2.toResult)

/-- READPIN (R111): no state changes but the answer. -/
def execReadPin (h p : Nat) (s : State) : Outcome :=
  s.onComp h fun c => .next (s.answer (c.readPin p))

/-- TICK (R113): always ok (R115). -/
def execTick (h : Nat) (s : State) : Outcome :=
  s.onComp h fun c => .next ((s.setComp h c.tick).answer .ok)

end Sys2Proof.Machine
end

