-- ==== Sys2Proof/Machine/Graph.lean ====
section
/-! DEFINITION. The graph and its six calls (47_scheduler_graph.md). -/

namespace Sys2Proof.Machine

/-! ### Building (R381, R382) -/

/-- Some wire ends at an input pin (R382, R383). -/
def State.wiredTo (s : State) (h p : Nat) : Bool := s.wires.any fun w => decide (w.toH = h) && decide (w.toP = p)

/-- The first check of `CreateComponent` that fails, in the order of R381. -/
def State.createError (s : State) (config : CompConfig) : Option Err :=
  if s.phase ≠ .building then some .configurationError
  else if !CompConfig.ok config then some .configurationError
  else none

/-- G.CREATE (R381): the handle is the new component's index. -/
def execGCreate (config : CompConfig) (s : State) : Outcome :=
  match s.createError config with
  | some e => .next (s.fail e)
  | none => .next ((s.addComp (newComp config)).answer (.handle s.comps.length))

/-- The first check of `Connect` that fails, in the order of R382. -/
def State.connectError (s : State) (w : Wire) : Option Err :=
  if s.phase ≠ .building then some .configurationError
  else
    match s.comp? w.fromH, s.comp? w.toH with
    | some a, some b =>
      if npins a.params ≤ w.fromP ∨ npins b.params ≤ w.toP then some .unknownPin
      else if !isOutputId a.params w.fromP then some .configurationError
      else if !isInputId b.params w.toP then some .configurationError
      else if s.wiredTo w.toH w.toP then some .configurationError
      else none
    | _, _ => some .configurationError

/-- G.CONNECT (R382). -/
def execGConnect (fromH fromP toH toP : Nat) (s : State) : Outcome :=
  match s.connectError { fromH := fromH, fromP := fromP, toH := toH, toP := toP } with
  | some e => .next (s.fail e)
  | none => .next ((s.addWire { fromH := fromH, fromP := fromP, toH := toH, toP := toP }).answer .ok)

/-! ### Driving and observing (R383, R384) -/

/-- The first check of `Drive` that fails, in the order of R383. -/
def State.driveError (s : State) (h p : Nat) : Option Err :=
  match s.comp? h with
  | none => some .configurationError
  | some c =>
    if npins c.params ≤ p then some .unknownPin
    else if s.wiredTo h p then some .configurationError
    else none

/-- G.DRIVE (R383): the write is queued for the next graph `Tick`. -/
def execGDrive (h p : Nat) (v : Voltage) (s : State) : Outcome :=
  match s.driveError h p with
  | some e => .next (s.fail e)
  | none => .next ((s.addDrive { h := h, p := p, v := v }).answer .ok)

/-- G.OBSERVE (R384): no state changes but the answer. -/
def execGObserve (h p : Nat) (s : State) : Outcome :=
  s.onComp h fun c => .next (s.answer (c.readPin p))

/-! ### The order (R387) -/

/-- The pins of a kind a wire into which creates no dependency (R387). -/
def isCutPin (p : Params) (P : Pin) : Bool :=
  match Params.kind p with
  | .memory =>
    match P with
    | .wdata _ | .we | .clk => true
    | _ => false
  | k =>
    Kind.isClocked k &&
      match P with
      | .set | .reset => false
      | _ => true

/-- The input pin `id` of the component with handle `h` is a cut pin. -/
def cutAt (comps : List Comp) (h id : Nat) : Bool :=
  match comps[h]? with
  | none => false
  | some c =>
    match pinAt c.params id with
    | none => false
    | some P => isCutPin c.params P

/-- A wire makes the component it ends at depend on the one it starts from (R387). -/
def dependency (comps : List Comp) (w : Wire) : Bool := !cutAt comps w.toH w.toP

/-- Every component that `h` depends on is already placed (R387). -/
def ready (comps : List Comp) (wires : List Wire) (placed : List Nat) (h : Nat) : Bool :=
  wires.all fun w => !(decide (w.toH = h) && dependency comps w) || placed.contains w.fromH

/-- The lowest handle not yet placed all of whose dependencies are placed. -/
def lowestReady (comps : List Comp) (wires : List Wire) (placed : List Nat) : Option Nat :=
  (List.range comps.length).find? fun h => !placed.contains h && ready comps wires placed h

/-- Places `n` more components, the lowest ready handle first; `none` where no component is ready (R387). -/
def topoFrom (comps : List Comp) (wires : List Wire) : Nat → List Nat → Option (List Nat)
  | 0, placed => some placed
  | n + 1, placed =>
    match lowestReady comps wires placed with
    | none => none
    | some h => topoFrom comps wires n (placed ++ [h])

/-- The topological order of the components, `none` where the dependency relation has a cycle (R387). -/
def topoOrder (comps : List Comp) (wires : List Wire) : Option (List Nat) := topoFrom comps wires comps.length []

/-! ### The tick (R385, R386) -/

/-- A `WritePin` inside a graph tick: its result is dropped (R385). -/
def writeComp (comps : List Comp) (h p : Nat) (v : Voltage) : List Comp :=
  match comps[h]? with
  | none => comps
  | some c => comps.set h (c.writePin p v).1

/-- A component `Tick` inside a graph tick. -/
def tickComp (comps : List Comp) (h : Nat) : List Comp :=
  match comps[h]? with
  | none => comps
  | some c => comps.set h c.tick

/-- Step (a): the pending drives in order (R385). -/
def applyDrives (comps : List Comp) (drives : List DriveReq) : List Comp :=
  drives.foldl (fun cs d => writeComp cs d.h d.p d.v) comps

/-- Step (b): every component's `Tick` (R385). -/
def tickComps (comps : List Comp) (order : List Nat) : List Comp := order.foldl tickComp comps

/-- Copies one wire: what its output end presents is written to its input end (R385). -/
def copyWire (comps : List Comp) (w : Wire) : List Comp :=
  match comps[w.fromH]? with
  | none => comps
  | some c =>
    match c.readPin? w.fromP with
    | none => comps
    | some v => writeComp comps w.toH w.toP v

/-- The wires that start at a component, in creation order. -/
def wiresFrom (wires : List Wire) (h : Nat) : List Wire := wires.filter fun w => decide (w.fromH = h)

/-- Step (w): one sweep over the wires in the order of the components they start from (R385). -/
def propagate (comps : List Comp) (wires : List Wire) (order : List Nat) : List Comp :=
  order.foldl (fun cs h => (wiresFrom wires h).foldl copyWire cs) comps

/-- Steps (a), (b), (w) of a graph tick on a running graph (R385). -/
def State.tickRunning (s : State) : State :=
  s.clearPending.withComps (propagate (tickComps (applyDrives s.comps s.pending) s.order) s.wires s.order)

/-- The graph's `Tick()` (R385): `none` where the first tick finds no order; nothing has then changed. -/
def State.graphTick (s : State) : Option State :=
  match s.phase with
  | .running => some s.tickRunning
  | .building =>
    match topoOrder s.comps s.wires with
    | none => none
    | some order => some (s.startRunning order).tickRunning

/-- `TickN(n)` (R386): `n` ticks; it fails at once where the first of them fails. -/
def State.graphTickN : Nat → State → Option State
  | 0, s => some s
  | n + 1, s =>
    match s.graphTick with
    | none => none
    | some t => State.graphTickN n t

/-- G.TICK (R385). -/
def execGTick (s : State) : Outcome :=
  match s.graphTick with
  | none => .next (s.fail .configurationError)
  | some t => .next (t.answer .ok)

/-- G.TICKN (R386). -/
def execGTickN (n : Nat) (s : State) : Outcome :=
  match s.graphTickN n with
  | none => .next (s.fail .configurationError)
  | some t => .next (t.answer .ok)

end Sys2Proof.Machine
end

