-- ==== Sys2Proof/Machine/Dispatch.lean ====
section
/-! DEFINITION. The dispatch: one arm per operation, each a call of its meaning. -/

namespace Sys2Proof.Machine

def exec (i : Instr) (s : State) : Host.Outcome State Fault Refusal :=
  match i with
  | .notGate h => Sys2Proof.Machine.execNotGate h s
  | .andGate h => Sys2Proof.Machine.execAndGate h s
  | .orGate h => Sys2Proof.Machine.execOrGate h s
  | .nandGate h => Sys2Proof.Machine.execNandGate h s
  | .norGate h => Sys2Proof.Machine.execNorGate h s
  | .xorGate h => Sys2Proof.Machine.execXorGate h s
  | .halfAdd h => Sys2Proof.Machine.execHalfAdd h s
  | .fullAdd h => Sys2Proof.Machine.execFullAdd h s
  | .srlAreset h _ _ _ => Sys2Proof.Machine.execSrlAreset h s
  | .srlAset h _ _ => Sys2Proof.Machine.execSrlAset h s
  | .srlSet h => Sys2Proof.Machine.execSrlSet h s
  | .srlReset h => Sys2Proof.Machine.execSrlReset h s
  | .srlHold h => Sys2Proof.Machine.execSrlHold h s
  | .srlBoth h => Sys2Proof.Machine.execSrlBoth h s
  | .dlAreset h _ _ => Sys2Proof.Machine.execDlAreset h s
  | .dlAset h _ => Sys2Proof.Machine.execDlAset h s
  | .dlTrack h => Sys2Proof.Machine.execDlTrack h s
  | .dlHold h => Sys2Proof.Machine.execDlHold h s
  | .dffAreset h _ _ => Sys2Proof.Machine.execDffAreset h s
  | .dffAset h _ => Sys2Proof.Machine.execDffAset h s
  | .dffCapture h => Sys2Proof.Machine.execDffCapture h s
  | .dffNoedge h => Sys2Proof.Machine.execDffNoedge h s
  | .jkAreset h _ _ _ _ => Sys2Proof.Machine.execJkAreset h s
  | .jkAset h _ _ _ => Sys2Proof.Machine.execJkAset h s
  | .jkNoedge h _ _ => Sys2Proof.Machine.execJkNoedge h s
  | .jkHold h => Sys2Proof.Machine.execJkHold h s
  | .jkReset h => Sys2Proof.Machine.execJkReset h s
  | .jkSet h => Sys2Proof.Machine.execJkSet h s
  | .jkToggle h => Sys2Proof.Machine.execJkToggle h s
  | .tAreset h _ _ _ => Sys2Proof.Machine.execTAreset h s
  | .tAset h _ _ => Sys2Proof.Machine.execTAset h s
  | .tNoedge h _ => Sys2Proof.Machine.execTNoedge h s
  | .tHold h => Sys2Proof.Machine.execTHold h s
  | .tToggle h => Sys2Proof.Machine.execTToggle h s
  | .regAreset h _ _ => Sys2Proof.Machine.execRegAreset h s
  | .regAset h _ => Sys2Proof.Machine.execRegAset h s
  | .regLoad h => Sys2Proof.Machine.execRegLoad h s
  | .regNoedge h => Sys2Proof.Machine.execRegNoedge h s
  | .shregAreset h _ _ _ _ => Sys2Proof.Machine.execShregAreset h s
  | .shregAset h _ _ _ => Sys2Proof.Machine.execShregAset h s
  | .shregNoedge h _ _ => Sys2Proof.Machine.execShregNoedge h s
  | .shregLoad h _ => Sys2Proof.Machine.execShregLoad h s
  | .shregShl h => Sys2Proof.Machine.execShregShl h s
  | .shregShr h => Sys2Proof.Machine.execShregShr h s
  | .usrAreset h _ _ _ _ => Sys2Proof.Machine.execUsrAreset h s
  | .usrAset h _ _ _ => Sys2Proof.Machine.execUsrAset h s
  | .usrNoedge h _ _ => Sys2Proof.Machine.execUsrNoedge h s
  | .usrNop h => Sys2Proof.Machine.execUsrNop h s
  | .usrShr h => Sys2Proof.Machine.execUsrShr h s
  | .usrShl h => Sys2Proof.Machine.execUsrShl h s
  | .usrLoad h => Sys2Proof.Machine.execUsrLoad h s
  | .ctrAreset h _ _ _ _ => Sys2Proof.Machine.execCtrAreset h s
  | .ctrNoedge h _ _ _ => Sys2Proof.Machine.execCtrNoedge h s
  | .ctrLoad h _ _ => Sys2Proof.Machine.execCtrLoad h s
  | .ctrUp h => Sys2Proof.Machine.execCtrUp h s
  | .ctrDown h => Sys2Proof.Machine.execCtrDown h s
  | .ctrFreeze h _ => Sys2Proof.Machine.execCtrFreeze h s
  | .bcdAreset h _ _ _ _ => Sys2Proof.Machine.execBcdAreset h s
  | .bcdNoedge h _ _ _ => Sys2Proof.Machine.execBcdNoedge h s
  | .bcdLoad h _ _ => Sys2Proof.Machine.execBcdLoad h s
  | .bcdUp h => Sys2Proof.Machine.execBcdUp h s
  | .bcdDown h => Sys2Proof.Machine.execBcdDown h s
  | .bcdFreeze h _ => Sys2Proof.Machine.execBcdFreeze h s
  | .ringAreset h _ _ => Sys2Proof.Machine.execRingAreset h s
  | .ringNoedge h _ => Sys2Proof.Machine.execRingNoedge h s
  | .ringRotl h => Sys2Proof.Machine.execRingRotl h s
  | .ringRotr h => Sys2Proof.Machine.execRingRotr h s
  | .johnsonAreset h _ => Sys2Proof.Machine.execJohnsonAreset h s
  | .johnsonNoedge h => Sys2Proof.Machine.execJohnsonNoedge h s
  | .johnsonStep h => Sys2Proof.Machine.execJohnsonStep h s
  | .clkdivAreset h _ => Sys2Proof.Machine.execClkdivAreset h s
  | .clkdivNoedge h => Sys2Proof.Machine.execClkdivNoedge h s
  | .clkdivCount h => Sys2Proof.Machine.execClkdivCount h s
  | .muxSelect h => Sys2Proof.Machine.execMuxSelect h s
  | .muxDisabled h => Sys2Proof.Machine.execMuxDisabled h s
  | .demuxSelect h => Sys2Proof.Machine.execDemuxSelect h s
  | .demuxDisabled h => Sys2Proof.Machine.execDemuxDisabled h s
  | .decSelect h => Sys2Proof.Machine.execDecSelect h s
  | .decDisabled h => Sys2Proof.Machine.execDecDisabled h s
  | .adderAdd h => Sys2Proof.Machine.execAdderAdd h s
  | .adderSub h => Sys2Proof.Machine.execAdderSub h s
  | .adderInc h => Sys2Proof.Machine.execAdderInc h s
  | .adderInvalid h => Sys2Proof.Machine.execAdderInvalid h s
  | .mul h => Sys2Proof.Machine.execMul h s
  | .divAreset h => Sys2Proof.Machine.execDivAreset h s
  | .divEval h => Sys2Proof.Machine.execDivEval h s
  | .bcdAdd h => Sys2Proof.Machine.execBcdAdd h s
  | .aluAdd h => Sys2Proof.Machine.execAluAdd h s
  | .aluSub h => Sys2Proof.Machine.execAluSub h s
  | .aluAnd h => Sys2Proof.Machine.execAluAnd h s
  | .aluOr h => Sys2Proof.Machine.execAluOr h s
  | .aluXor h => Sys2Proof.Machine.execAluXor h s
  | .aluNot h => Sys2Proof.Machine.execAluNot h s
  | .aluShl h => Sys2Proof.Machine.execAluShl h s
  | .aluShr h => Sys2Proof.Machine.execAluShr h s
  | .aluInc h => Sys2Proof.Machine.execAluInc h s
  | .aluDec h => Sys2Proof.Machine.execAluDec h s
  | .aluCompare h => Sys2Proof.Machine.execAluCompare h s
  | .aluInvalidB h => Sys2Proof.Machine.execAluInvalidB h s
  | .aluInvalidC h _ _ => Sys2Proof.Machine.execAluInvalidC h s
  | .memWrite h => Sys2Proof.Machine.execMemWrite h s
  | .memWidleNoedge h _ => Sys2Proof.Machine.execMemWidleNoedge h s
  | .memWidleNowe h => Sys2Proof.Machine.execMemWidleNowe h s
  | .memRead h => Sys2Proof.Machine.execMemRead h s
  | .memReadoff h => Sys2Proof.Machine.execMemReadoff h s
  | .accAreset h _ _ _ _ => Sys2Proof.Machine.execAccAreset h s
  | .accNoedge h _ _ _ => Sys2Proof.Machine.execAccNoedge h s
  | .accLoad h => Sys2Proof.Machine.execAccLoad h s
  | .accClear h => Sys2Proof.Machine.execAccClear h s
  | .accInc h => Sys2Proof.Machine.execAccInc h s
  | .accShl h => Sys2Proof.Machine.execAccShl h s
  | .accShr h => Sys2Proof.Machine.execAccShr h s
  | .accInvalid5 h => Sys2Proof.Machine.execAccInvalid5 h s
  | .accInvalid67 h _ => Sys2Proof.Machine.execAccInvalid67 h s
  | .writePin h p v => Sys2Proof.Machine.execWritePin h p v s
  | .readPin h p => Sys2Proof.Machine.execReadPin h p s
  | .tick h => Sys2Proof.Machine.execTick h s
  | .gCreate config => Sys2Proof.Machine.execGCreate config s
  | .gConnect fromH fromP toH toP => Sys2Proof.Machine.execGConnect fromH fromP toH toP s
  | .gDrive h p v => Sys2Proof.Machine.execGDrive h p v s
  | .gObserve h p => Sys2Proof.Machine.execGObserve h p s
  | .gTick => Sys2Proof.Machine.execGTick s
  | .gTickN n => Sys2Proof.Machine.execGTickN n s

end Sys2Proof.Machine
end

