-- ==== Sys2Proof/Machine/Fetch.lean ====
section
/-! DEFINITION. How the machine comes by its next instruction: the host's script (R42), and how a code of the opcode table
is put there. -/

namespace Sys2Proof.Machine

/-! ### Fetching -/

/-- The component that performs the last line of a write to `P`: the voltage is stored, and where a Memory's read port is to
answer its write port has already acted (R85, R104). -/
def Comp.atLastLine (c : Comp) (P : Pin) (v : Voltage) (port : Bool) : Comp :=
  match Params.kind c.params, port with
  | .memory, true => (performSelected (c.store P v).1 false (c.store P v).2).1
  | _, _ => (c.store P v).1

/-- The name of an input pin, by its number (R61). -/
def inputAt (p : Params) (id : Nat) : Option Pin := (inputPins p)[id]?

/-- What a script entry gives the decoder, and the state its operation then runs in. A contract operation or graph call gives
its code and operands. A write run as its last line has stored its voltage, and gives the operation word that the component
then computes from its kind and pins (R83); where there is no such input pin it is the plain `WritePin`. -/
def State.fetch (s : State) (r : Request) : State × Line :=
  match r with
  | .contract code h p v => (s, .contract code h p v)
  | .graph code o => (s, .graph code o)
  | .operate h p v port =>
    match s.comp? h with
    | none => (s, .contract 0b00#2 h p v)
    | some c =>
      match inputAt c.params p with
      | none => (s, .contract 0b00#2 h p v)
      | some P =>
        (s.setComp h (c.atLastLine P v port), .row h (opWord (c.atLastLine P v port) port (c.store P v).2))

/-! ### Placing a code of the opcode table -/

/-- The kind with a given id (R84). -/
def Kind.ofId (n : Nat) : Kind :=
  [Kind.notGate, .andGate, .orGate, .nandGate, .norGate, .xorGate, .halfAdder, .fullAdder, .srLatch, .dLatch, .dff,
    .jkff, .tff, .register, .shiftRegister, .univShiftRegister, .counter, .bcdCounter, .ringCounter, .johnsonCounter,
    .clockDivider, .mux, .demux, .decoder, .adder, .multiplier, .divider, .bcdAdder, .alu, .memory,
    .accumulator].getD n .reserved

/-- The least parameters of each kind (R4). -/
def Kind.leastParams : Kind → Params
  | .notGate => .notGate
  | .andGate => .andGate 2
  | .orGate => .orGate 2
  | .nandGate => .nandGate 2
  | .norGate => .norGate 2
  | .xorGate => .xorGate
  | .halfAdder => .halfAdder
  | .fullAdder => .fullAdder
  | .srLatch => .srLatch
  | .dLatch => .dLatch
  | .dff => .dff
  | .jkff => .jkff
  | .tff => .tff
  | .register => .register 1
  | .shiftRegister => .shiftRegister 1
  | .univShiftRegister => .univShiftRegister 1
  | .counter => .counter 1 2 .synchronous
  | .bcdCounter => .bcdCounter 1
  | .ringCounter => .ringCounter 1
  | .johnsonCounter => .johnsonCounter 1
  | .clockDivider => .clockDivider 1
  | .mux => .mux 1 1
  | .demux => .demux 1 1
  | .decoder => .decoder 1
  | .adder => .adder 1
  | .multiplier => .multiplier 1
  | .divider => .divider 1
  | .bcdAdder => .bcdAdder 1
  | .alu => .alu 1
  | .memory => .memory 1 1
  | .accumulator => .accumulator 1
  | .reserved => .reserved

/-- The value of a list of bits, most significant first. -/
def valueMsb : List Bool → Nat
  | [] => 0
  | b :: rest => b.toNat * 2 ^ rest.length + valueMsb rest

/-- The kind named by an operation word's first five bits (R83). -/
def wordKind (code : List Bool) : Kind := Kind.ofId (valueMsb (code.take 5))

/-- The port an operation word is for: the PORT bit of a Memory's word, else the first port (R85). -/
def wordPort (code : List Bool) : Bool :=
  match wordKind code with
  | .memory => (code.drop 5).headD false
  | _ => false

/-- The control bits of an operation word, each with its name (R85). -/
def wordControls (code : List Bool) : List (ControlBit × Bool) :=
  (controlFields (wordKind code) (wordPort code)).zip (code.drop 5)

/-- Puts one control bit on its pin; the event bit and the PORT constant have no pin. -/
def setControl (c : Comp) : ControlBit × Bool → Comp
  | (.pin P, b) => c.withIn P (voltage c.cfg b)
  | (.event, _) => c
  | (.port _, _) => c

/-- A new component whose kind and control pins make it evaluate a given operation word. -/
def compForWord (code : List Bool) : Comp :=
  (wordControls code).foldl setControl (newComp { params := Kind.leastParams (wordKind code) })

/-- The event bit of an operation word; 0 for a word that has none (R86). -/
def wordEvent (code : List Bool) : Bool :=
  (wordControls code).any fun cb => decide (cb.1 = ControlBit.event) && cb.2

/-- The write after which `compForWord code`, as component `h`, performs `code`: an active edge of the clock where the event
bit is 1, else a write of the voltage that pin 0 holds already (R86, R104). -/
def wordRequest (h : Nat) (code : List Bool) : Request :=
  if wordEvent code then
    .operate h (pinId (compForWord code).params .clk) (voltage (compForWord code).cfg true) (wordPort code)
  else .operate h 0 (((compForWord code).heldAt 0).getD (compForWord code).cfg.low) (wordPort code)

/-- The script entry that a line is fetched from. -/
def lineRequest : Line → Request
  | .contract code h p v => .contract code h p v
  | .graph code o => .graph code o
  | .row h code => wordRequest h code

/-- The components a line needs to be fetched: for an operation word, a component 0 that computes it (R83). -/
def compsForLine (comps : List Comp) : Line → List Comp
  | .row _ code => compForWord code :: comps.drop 1
  | _ => comps

/-- Puts a line at the head of the host's script, with the component that computes it where it is an operation word. -/
def State.placeLine (s : State) (l : Line) : State :=
  (s.withComps (compsForLine s.comps l)).withScript (lineRequest l :: s.script)

/-- The line that stands for a code of the opcode table; a code that stands for no operation becomes the reserved contract
code 11 (R90), which the decoder rejects. -/
def wordLine (nbits w : Nat) : Line :=
  match decodeTableWord nbits w with
  | some i => encode i
  | none => .contract 0b11#2 0 0 0

end Sys2Proof.Machine
end

