-- ==== Sys2Proof/Machine/Step.lean ====
section
/-! DEFINITION. One step of the machine: the host's next operation, run to completion (R9). -/

namespace Sys2Proof.Machine

/-- One step: the first entry of the host's script is taken off, decoded and run. With an empty script the host issues
nothing and nothing changes (R410). -/
def step (s : State) : Host.Outcome State Fault Refusal :=
  match s.script with
  | [] => .next s
  | r :: rest =>
    match decode (s.fetch r).2 with
    | .error e => .refused (.undecodable e)
    | .ok i => exec i ((s.fetch r).1.withScript rest)

/-- `s` with a code of the opcode table as the host's next operation: a script entry, and for an operation word the
component 0 that computes it after the entry's write (log entry 2). The operands of a contract operation or graph call are zero. -/
def State.withFetchWord (s : State) (nbits w : Nat) : State := s.placeLine (wordLine nbits w)

end Sys2Proof.Machine
end

