-- ==== Sys2Proof/Machine/Script.lean ====
section
/-! DEFINITION. The host's script notation: the pseudo-instructions and the source's word-level methods as sequences of
operations (R93 to R95). -/

namespace Sys2Proof.Machine

/-! ### Operations as script entries -/

/-- The script entry of a contract operation or graph call. The host issues no component operation: a component performs one
inside a `WritePin` (R48, R104). -/
def requestOf (i : Instr) : Option Request :=
  match encode i with
  | .contract code h p v => some (.contract code h p v)
  | .graph code o => some (.graph code o)
  | .row _ _ => none

/-- Issues operations after those already on the script. -/
def State.issue (s : State) (ops : List Instr) : State := s.withScript (s.script ++ ops.filterMap requestOf)

/-- Runs operations one after the other (R9) and gathers what each returned; stops where one ends in a fault or refusal. -/
def runOps : List Instr → State → State × List Result
  | [], s => (s, [])
  | i :: rest, s =>
    match exec i s with
    | .next t => ((runOps rest t).1, t.result :: (runOps rest t).2)
    | .fault _ => (s, [])
    | .refused _ => (s, [])

/-! ### The generic pseudo-instructions (R94) -/

/-- `W c.P v`. -/
def opW (h : Nat) (c : Comp) (P : Pin) (v : Voltage) : Instr := .writePin h (pinId c.params P) v

/-- `R c.P`. -/
def opR (h : Nat) (c : Comp) (P : Pin) : Instr := .readPin h (pinId c.params P)

/-- `WB c.P b`. -/
def opWB (h : Nat) (c : Comp) (P : Pin) (b : Bool) : Instr := opW h c P (voltage c.cfg b)

/-- What a word-level write is: its operations, and the warning its caller gets beside them (R94, R403). -/
structure WordWrite where
  ops : List Instr
  warning : Option Err
deriving DecidableEq, Repr

/-- Operations that give no warning. -/
def WordWrite.plain (ops : List Instr) : WordWrite := { ops := ops, warning := none }

/-- One word-level write after another: the caller is warned where either of them warns (R403). -/
def WordWrite.andThen (a b : WordWrite) : WordWrite := { ops := a.ops ++ b.ops, warning := a.warning.or b.warning }

/-- A word-level write followed by operations that give no warning. -/
def WordWrite.before (a : WordWrite) (ops : List Instr) : WordWrite := a.andThen (.plain ops)

/-- What the caller of a word-level method is told: what each of its operations returned, and the warning beside it (R403,
R414). -/
def WordWrite.run (a : WordWrite) (s : State) : State × List Result × Option Err :=
  ((runOps a.ops s).1, (runOps a.ops s).2, a.warning)

/-- `WW c.X n` on a group of `w` pins: the low `w` bits are written in ascending order; a value that does not fit is an
`OutOfRange` warning (R94, R403). -/
def opWW (h : Nat) (c : Comp) (w : Nat) (X : Nat → Pin) (n : Nat) : WordWrite where
  ops := (List.range w).map fun i => opWB h c (X i) ((bitsW w n).testBit i)
  warning := if n < 2 ^ w then none else some .outOfRange

/-- `RW c.X`: the reads. -/
def opRW (h : Nat) (c : Comp) (w : Nat) (X : Nat → Pin) : List Instr := (List.range w).map fun i => opR h c (X i)

/-- The logic value of what a read returned. -/
def Result.bit (cfg : Cfg) : Result → Bool
  | .voltage v => logic cfg v
  | _ => false

/-- `RW c.X`: the number the results of its reads stand for (R94). -/
def wordOfResults (cfg : Cfg) (rs : List Result) : Nat :=
  wordOf rs.length fun i => Result.bit cfg (rs.getD i .none)

/-- `ACT` (R94). -/
def activeLevel (c : Comp) : Bool :=
  match c.edge with
  | .rising => true
  | .falling => false

/-- `EDGE c`: the second write is an active edge (R94). -/
def opEdge (h : Nat) (c : Comp) : List Instr := [opWB h c .clk (!activeLevel c), opWB h c .clk (activeLevel c)]

/-- `CLOCK c`: one active edge made visible (R94). -/
def opClock (h : Nat) (c : Comp) : List Instr := opEdge h c ++ [.tick h]

/-! ### The source's word-level methods (R95) -/

/-- Register `Load(v)`. -/
def registerLoad (h : Nat) (c : Comp) (v : Nat) : WordWrite := opWW h c c.width .d v

/-- ShiftRegister `ShiftLeft(s)`. -/
def shiftLeft (h : Nat) (c : Comp) (s : Bool) : List Instr :=
  [opWB h c .load false, opWB h c .dir false, opWB h c .serIn s] ++ opClock h c

/-- ShiftRegister `ShiftRight(s)`. -/
def shiftRight (h : Nat) (c : Comp) (s : Bool) : List Instr :=
  [opWB h c .load false, opWB h c .dir true, opWB h c .serIn s] ++ opClock h c

/-- ShiftRegister `Load(v)` and a counter's `LoadEnable` with a value. -/
def parallelLoad (h : Nat) (c : Comp) (v : Nat) : WordWrite :=
  (opWW h c c.width .d v).before ([opWB h c .load true] ++ opClock h c ++ [opWB h c .load false])

/-- UniversalShiftRegister: one edge in mode `m`. -/
def shiftMode (h : Nat) (c : Comp) (m : Nat) : WordWrite := (opWW h c 2 .mode m).before (opClock h c)

/-- Counter `Reset`. -/
def counterReset (h : Nat) (c : Comp) : List Instr := [opWB h c .reset true, opWB h c .reset false]

/-- Counter enable and disable. -/
def counterEnable (h : Nat) (c : Comp) (b : Bool) : List Instr := [opWB h c .enable b]

/-- Adder `A(x, y, cin)` in mode `m`; the last `W + 2` results are S, COUT and OVF. A mode or an operand that does not fit is
a warning, beside the `InvalidOperation` of a reserved mode (R403, R414). -/
def adderCall (h : Nat) (c : Comp) (m x y : Nat) (cin : Bool) : WordWrite :=
  (((opWW h c 2 .mode m).andThen (opWW h c c.width .a x)).andThen (opWW h c c.width .b y)).before
    ([opWB h c .cin cin, .tick h] ++ opRW h c c.width .sum ++ [opR h c .cout, opR h c .ovf])

/-- Memory `Write(a, v)`; an address or a value that does not fit is a warning (R351). -/
def memoryWrite (h : Nat) (c : Comp) (a v : Nat) : WordWrite :=
  ((opWW h c (Params.addressWidth c.params) .addr a).andThen (opWW h c c.width .wdata v)).before
    ([opWB h c .we true] ++ opClock h c ++ [opWB h c .we false])

/-- Memory `Read(a)`; the last `D` results are RDATA. -/
def memoryRead (h : Nat) (c : Comp) (a : Nat) : WordWrite :=
  (opWW h c (Params.addressWidth c.params) .addr a).before ([opWB h c .re true] ++ opRW h c c.width .rdata)

/-- The Accumulator's methods: 0 Load, 1 Clear, 2 Increment, 3 ShiftLeft, 4 ShiftRight. -/
def accumulatorCall (h : Nat) (c : Comp) (op : Nat) : WordWrite := (opWW h c 3 .op op).before (opClock h c)

/-- Accumulator `Load(v)`. -/
def accumulatorLoad (h : Nat) (c : Comp) (v : Nat) : WordWrite :=
  (opWW h c c.width .d v).andThen (accumulatorCall h c 0)

/-! ### Words at the graph boundary (R382) -/

/-- `CONNECTW a.X -> b.Y`: one `Connect` per bit; groups of different widths fail with `ConfigurationError` and connect
nothing (R382). -/
def connectWord (fromH : Nat) (a : Comp) (wx : Nat) (X : Nat → Pin) (toH : Nat) (b : Comp) (wy : Nat) (Y : Nat → Pin) :
    Except Err (List Instr) :=
  if wx = wy then
    .ok ((List.range wx).map fun i => .gConnect fromH (pinId a.params (X i)) toH (pinId b.params (Y i)))
  else .error .configurationError

/-- A word driven bit by bit, bit 0 first: `WW` with `Drive` in place of `WritePin`. -/
def driveWord (h : Nat) (c : Comp) (w : Nat) (X : Nat → Pin) (n : Nat) : WordWrite where
  ops := (List.range w).map fun i => .gDrive h (pinId c.params (X i)) (voltage c.cfg ((bitsW w n).testBit i))
  warning := if n < 2 ^ w then none else some .outOfRange

/-- A word observed bit by bit: `RW` with `Observe` in place of `ReadPin`. -/
def observeWord (h : Nat) (c : Comp) (w : Nat) (X : Nat → Pin) : List Instr :=
  (List.range w).map fun i => .gObserve h (pinId c.params (X i))

end Sys2Proof.Machine
end

