-- ==== Sys2Proof/Safety.lean ====
section
/-! DEFINITION. Well-formed states and safe steps: the invariants of R47 in the words that claims use. -/

namespace Sys2Proof.Machine

/-! ### What an instruction names -/

/-- The component a component operation names, and its kind (R83). -/
def rowTarget : Instr → Option (Nat × Kind)
  | .notGate h => some (h, .notGate)
  | .andGate h => some (h, .andGate)
  | .orGate h => some (h, .orGate)
  | .nandGate h => some (h, .nandGate)
  | .norGate h => some (h, .norGate)
  | .xorGate h => some (h, .xorGate)
  | .halfAdd h => some (h, .halfAdder)
  | .fullAdd h => some (h, .fullAdder)
  | .srlAreset h _ _ _ => some (h, .srLatch)
  | .srlAset h _ _ => some (h, .srLatch)
  | .srlSet h => some (h, .srLatch)
  | .srlReset h => some (h, .srLatch)
  | .srlHold h => some (h, .srLatch)
  | .srlBoth h => some (h, .srLatch)
  | .dlAreset h _ _ => some (h, .dLatch)
  | .dlAset h _ => some (h, .dLatch)
  | .dlTrack h => some (h, .dLatch)
  | .dlHold h => some (h, .dLatch)
  | .dffAreset h _ _ => some (h, .dff)
  | .dffAset h _ => some (h, .dff)
  | .dffCapture h => some (h, .dff)
  | .dffNoedge h => some (h, .dff)
  | .jkAreset h _ _ _ _ => some (h, .jkff)
  | .jkAset h _ _ _ => some (h, .jkff)
  | .jkNoedge h _ _ => some (h, .jkff)
  | .jkHold h => some (h, .jkff)
  | .jkReset h => some (h, .jkff)
  | .jkSet h => some (h, .jkff)
  | .jkToggle h => some (h, .jkff)
  | .tAreset h _ _ _ => some (h, .tff)
  | .tAset h _ _ => some (h, .tff)
  | .tNoedge h _ => some (h, .tff)
  | .tHold h => some (h, .tff)
  | .tToggle h => some (h, .tff)
  | .regAreset h _ _ => some (h, .register)
  | .regAset h _ => some (h, .register)
  | .regLoad h => some (h, .register)
  | .regNoedge h => some (h, .register)
  | .shregAreset h _ _ _ _ => some (h, .shiftRegister)
  | .shregAset h _ _ _ => some (h, .shiftRegister)
  | .shregNoedge h _ _ => some (h, .shiftRegister)
  | .shregLoad h _ => some (h, .shiftRegister)
  | .shregShl h => some (h, .shiftRegister)
  | .shregShr h => some (h, .shiftRegister)
  | .usrAreset h _ _ _ _ => some (h, .univShiftRegister)
  | .usrAset h _ _ _ => some (h, .univShiftRegister)
  | .usrNoedge h _ _ => some (h, .univShiftRegister)
  | .usrNop h => some (h, .univShiftRegister)
  | .usrShr h => some (h, .univShiftRegister)
  | .usrShl h => some (h, .univShiftRegister)
  | .usrLoad h => some (h, .univShiftRegister)
  | .ctrAreset h _ _ _ _ => some (h, .counter)
  | .ctrNoedge h _ _ _ => some (h, .counter)
  | .ctrLoad h _ _ => some (h, .counter)
  | .ctrUp h => some (h, .counter)
  | .ctrDown h => some (h, .counter)
  | .ctrFreeze h _ => some (h, .counter)
  | .bcdAreset h _ _ _ _ => some (h, .bcdCounter)
  | .bcdNoedge h _ _ _ => some (h, .bcdCounter)
  | .bcdLoad h _ _ => some (h, .bcdCounter)
  | .bcdUp h => some (h, .bcdCounter)
  | .bcdDown h => some (h, .bcdCounter)
  | .bcdFreeze h _ => some (h, .bcdCounter)
  | .ringAreset h _ _ => some (h, .ringCounter)
  | .ringNoedge h _ => some (h, .ringCounter)
  | .ringRotl h => some (h, .ringCounter)
  | .ringRotr h => some (h, .ringCounter)
  | .johnsonAreset h _ => some (h, .johnsonCounter)
  | .johnsonNoedge h => some (h, .johnsonCounter)
  | .johnsonStep h => some (h, .johnsonCounter)
  | .clkdivAreset h _ => some (h, .clockDivider)
  | .clkdivNoedge h => some (h, .clockDivider)
  | .clkdivCount h => some (h, .clockDivider)
  | .muxSelect h => some (h, .mux)
  | .muxDisabled h => some (h, .mux)
  | .demuxSelect h => some (h, .demux)
  | .demuxDisabled h => some (h, .demux)
  | .decSelect h => some (h, .decoder)
  | .decDisabled h => some (h, .decoder)
  | .adderAdd h => some (h, .adder)
  | .adderSub h => some (h, .adder)
  | .adderInc h => some (h, .adder)
  | .adderInvalid h => some (h, .adder)
  | .mul h => some (h, .multiplier)
  | .divAreset h => some (h, .divider)
  | .divEval h => some (h, .divider)
  | .bcdAdd h => some (h, .bcdAdder)
  | .aluAdd h => some (h, .alu)
  | .aluSub h => some (h, .alu)
  | .aluAnd h => some (h, .alu)
  | .aluOr h => some (h, .alu)
  | .aluXor h => some (h, .alu)
  | .aluNot h => some (h, .alu)
  | .aluShl h => some (h, .alu)
  | .aluShr h => some (h, .alu)
  | .aluInc h => some (h, .alu)
  | .aluDec h => some (h, .alu)
  | .aluCompare h => some (h, .alu)
  | .aluInvalidB h => some (h, .alu)
  | .aluInvalidC h _ _ => some (h, .alu)
  | .memWrite h => some (h, .memory)
  | .memWidleNoedge h _ => some (h, .memory)
  | .memWidleNowe h => some (h, .memory)
  | .memRead h => some (h, .memory)
  | .memReadoff h => some (h, .memory)
  | .accAreset h _ _ _ _ => some (h, .accumulator)
  | .accNoedge h _ _ _ => some (h, .accumulator)
  | .accLoad h => some (h, .accumulator)
  | .accClear h => some (h, .accumulator)
  | .accInc h => some (h, .accumulator)
  | .accShl h => some (h, .accumulator)
  | .accShr h => some (h, .accumulator)
  | .accInvalid5 h => some (h, .accumulator)
  | .accInvalid67 h _ => some (h, .accumulator)
  | .writePin _ _ _ => none
  | .readPin _ _ => none
  | .tick _ => none
  | .gCreate _ => none
  | .gConnect _ _ _ _ => none
  | .gDrive _ _ _ => none
  | .gObserve _ _ => none
  | .gTick => none
  | .gTickN _ => none

/-- The one component that a component operation or contract operation works on. -/
def handleOf? (i : Instr) : Option Nat :=
  match i with
  | .writePin h _ _ => some h
  | .readPin h _ => some h
  | .tick h => some h
  | i => (rowTarget i).map Prod.fst

/-! ### Words that claims use -/

/-- The state after a component operation that returned ok: component `h` is `c`, and its outputs are presented. -/
def State.presents (s : State) (h : Nat) (c : Comp) : State := (s.setComp h c).answer (.presents c.outputs)

/-- The state after a component operation on a component that it leaves as it is. -/
def State.shows (s : State) (outs : List Bool) : State := s.answer (.presents outs)

/-- The operation word `code` of component `h` is the operation `i`, and in `s` it completes in `t` (R83). -/
def rowDoes (h : Nat) (code : List Bool) (i : Instr) (s t : State) : Prop :=
  decode (.row h code) = .ok i ∧ exec i s = .next t

/-- The component with handle `h` is `c`, and it is of kind `k`. -/
def State.has (s : State) (h : Nat) (k : Kind) (c : Comp) : Prop := s.comp? h = some c ∧ Params.kind c.params = k

/-- The operation word of a component, spelled out row by row from the tables of R84 and R85: the kind's id bits, then the
control bits by their pins, `e` the event bit; `port` is a Memory's PORT constant. Statements use it in place of the machine's
own `opWord`. -/
def Comp.tableWord (c : Comp) (port e : Bool) : List Bool :=
  match Params.kind c.params with
  | .notGate => [false, false, false, false, false]
  | .andGate => [false, false, false, false, true]
  | .orGate => [false, false, false, true, false]
  | .nandGate => [false, false, false, true, true]
  | .norGate => [false, false, true, false, false]
  | .xorGate => [false, false, true, false, true]
  | .halfAdder => [false, false, true, true, false]
  | .fullAdder => [false, false, true, true, true]
  | .srLatch => [false, true, false, false, false, c.inBit .reset, c.inBit .set, c.inBit .s, c.inBit .r]
  | .dLatch => [false, true, false, false, true, c.inBit .reset, c.inBit .set, c.inBit .en]
  | .dff => [false, true, false, true, false, c.inBit .reset, c.inBit .set, e]
  | .jkff => [false, true, false, true, true, c.inBit .reset, c.inBit .set, e, c.inBit .j, c.inBit .k]
  | .tff => [false, true, true, false, false, c.inBit .reset, c.inBit .set, e, c.inBit .t]
  | .register => [false, true, true, false, true, c.inBit .reset, c.inBit .set, e]
  | .shiftRegister => [false, true, true, true, false, c.inBit .reset, c.inBit .set, e, c.inBit .load, c.inBit .dir]
  | .univShiftRegister =>
    [false, true, true, true, true,
      c.inBit .reset, c.inBit .set, e, c.inBit (.mode 1), c.inBit (.mode 0)]
  | .counter => [true, false, false, false, false, c.inBit .reset, e, c.inBit .load, c.inBit .enable, c.inBit .down]
  | .bcdCounter => [true, false, false, false, true, c.inBit .reset, e, c.inBit .load, c.inBit .enable, c.inBit .down]
  | .ringCounter => [true, false, false, true, false, c.inBit .reset, e, c.inBit .dir]
  | .johnsonCounter => [true, false, false, true, true, c.inBit .reset, e]
  | .clockDivider => [true, false, true, false, false, c.inBit .reset, e]
  | .mux => [true, false, true, false, true, c.inBit .disable]
  | .demux => [true, false, true, true, false, c.inBit .disable]
  | .decoder => [true, false, true, true, true, c.inBit .disable]
  | .adder => [true, true, false, false, false, c.inBit (.mode 1), c.inBit (.mode 0)]
  | .multiplier => [true, true, false, false, true]
  | .divider => [true, true, false, true, false, c.inBit .reset]
  | .bcdAdder => [true, true, false, true, true]
  | .alu => [true, true, true, false, false, c.inBit (.op 3), c.inBit (.op 2), c.inBit (.op 1), c.inBit (.op 0)]
  | .memory =>
    if port then [true, true, true, false, true, true, c.inBit .re]
    else [true, true, true, false, true, false, e, c.inBit .we]
  | .accumulator =>
    [true, true, true, true, false,
      c.inBit .reset, e, c.inBit (.op 2), c.inBit (.op 1), c.inBit (.op 0)]
  | .reserved => [true, true, true, true, true]

/-- What a `WritePin` answers where the operation it performed answered `r`: ok, or that operation's failure (R104). -/
def Result.acknowledged : Result → Result
  | .failed e => .failed e
  | .none | .ok | .voltage _ | .handle _ | .presents _ => .ok

/-- The two's-complement reading `tc(X)` (R6). -/
def tc (w : Nat) (x : Word) : Int := (x : Int) - 2 ^ w * (signBit w x).toNat

/-- The state after `n` runs of one instruction, `none` where one of them does not end in a next state. -/
def iterate (i : Instr) : Nat → State → Option State
  | 0, s => some s
  | n + 1, s =>
    match exec i s with
    | .next t => iterate i n t
    | .fault _ => none
    | .refused _ => none

/-! ### Stages (R28 to R38, R47) -/

/-- The flags agree with a computed word: zero iff it is 0, sign is its top bit (R47 (f), R359). -/
def Flags.describe (w : Nat) (x : Word) (f : Flags) : Bool :=
  (f.zero == decide (x = 0)) && (f.sign == signBit w x)

/-- A word with exactly one of its `w` bits set (R242). -/
def oneHot (w : Nat) (x : Word) : Bool := (List.range w).any fun i => decide (x = 2 ^ i)

/-- A stage has the form and the ranges of its kind (R27 to R38). -/
def Regs.wf (p : Params) (r : Regs) : Bool :=
  match p, r with
  | .srLatch, .bit _ | .dLatch, .bit _ | .dff, .bit _ | .jkff, .bit _ | .tff, .bit _ => true
  | .register w, .word x | .shiftRegister w, .word x | .univShiftRegister w, .word x | .johnsonCounter w, .word x =>
    decide (x < 2 ^ w)
  | .counter _ m _, .count v _ => decide (v < m)
  | .bcdCounter k, .digits ds _ => decide (ds.length = k) && ds.all fun d => decide (d < 10)
  | .ringCounter w, .word x => oneHot w x
  | .clockDivider n, .divide cnt _ => decide (cnt < n)
  | .adder w, .sum s _ _ => decide (s < 2 ^ w)
  | .divider _, .dz _ => true
  | .alu w, .alu r f => decide (r < 2 ^ w) && !(f.zero && f.sign)
  | .memory a d, .cells mem => Memory.wf mem && Memory.within a d mem
  | .accumulator w, .acc x f => decide (x < 2 ^ w) && Flags.describe w x f
  | .notGate, .none | .andGate _, .none | .orGate _, .none | .nandGate _, .none | .norGate _, .none | .xorGate, .none
  | .halfAdder, .none | .fullAdder, .none | .mux _ _, .none | .demux _ _, .none | .decoder _, .none
  | .multiplier _, .none | .bcdAdder _, .none => true
  | _, _ => false

/-- A component as construction made it and every operation keeps it: admissible parameters and levels (R4, R21), one
buffer for every input pin but the clock (R22), and both stages in the ranges of its kind (R26 to R38). -/
def Comp.wf (c : Comp) : Bool :=
  c.params.ok && c.cfg.ok && decide (c.ins.map Prod.fst = bufferedPins c.params) && Regs.wf c.params c.q
    && (if Kind.isClocked (Params.kind c.params) then Regs.wf c.params c.m else decide (c.m = Regs.none))

/-! ### The graph (R40, R72, R380 to R387) -/

/-- A wire joins an output pin of a component to an input pin of a component (R380, R382). -/
def wireOk (comps : List Comp) (w : Wire) : Bool :=
  match comps[w.fromH]?, comps[w.toH]? with
  | some a, some b => isOutputId a.params w.fromP && isInputId b.params w.toP
  | _, _ => false

/-- No two wires end at the same pin (R72, R382). -/
def singleWriter : List Wire → Bool
  | [] => true
  | w :: rest => (rest.all fun u => !(decide (u.toH = w.toH) && decide (u.toP = w.toP))) && singleWriter rest

/-- A pending drive names a pin of a component (R383). -/
def driveOk (comps : List Comp) (d : DriveReq) : Bool :=
  match comps[d.h]? with
  | some c => decide (d.p < npins c.params)
  | none => false

/-- `order` lists every handle once, each component after all it depends on (R387). -/
def isTopoOrder (comps : List Comp) (wires : List Wire) (order : List Nat) : Bool :=
  decide (order.length = comps.length) && ((List.range comps.length).all fun h => order.contains h)
    && wires.all fun w => !dependency comps w || decide (order.idxOf w.fromH < order.idxOf w.toH)

/-- The order is empty while building and topological while running (R40, R385, R387). -/
def State.orderOk (s : State) : Bool :=
  match s.phase with
  | .building => decide (s.order = [])
  | .running => isTopoOrder s.comps s.wires s.order

/-- The invariant of the machine: every component is well formed, and the graph is built as R380 to R387 say. -/
def State.wf (s : State) : Bool :=
  s.comps.all Comp.wf && s.wires.all (wireOk s.comps) && singleWriter s.wires && s.pending.all (driveOk s.comps)
    && s.orderOk

/-! ### Values held until an input changes (R107, R301, R322) -/

/-- Evaluating again changes nothing: the asynchronous pins force what they force (R107), a transparent latch shows its
input (R174), and an Adder's or ALU's outputs are those of its buffers (R301). -/
def Comp.settled (c : Comp) : Bool := decide ((evaluate c false).1 = c)

/-! ### Safe steps -/

/-- A step that ends in a next state. The host's own failures are answers in a next state (R8), so a step is unsafe only
where the script holds a code that stands for no operation. -/
def isNext : Host.Outcome State Fault Refusal → Bool
  | .next _ => true
  | .fault _ => false
  | .refused _ => false

/-- Every code on the script is one of the spec's (R90). A write run as its component operation carries none: the component
computes it (R83). -/
def scriptOk (s : State) : Bool :=
  s.script.all fun r =>
    match r with
    | .contract code _ _ _ => decide (code.toNat < 3)
    | .graph code _ => decide (code.toNat < 6)
    | .operate _ _ _ _ => true

end Sys2Proof.Machine
end

