-- ==== Sys2Proof/Certificates/Slice0/Obligations.lean ====
section
/-! DEFINITION. The statements for the provers. Each docstring names the rules of spec/ it rests on. -/

open Sys2Proof Sys2Proof.Machine

/-- Decoding an encoded operation gives it back. For every operation, with every don't-care bit and every operand at every value, its encoding is a well-formed line and decodes to that operation. (30_encoding.md R83, 30_encoding.md R89, 30_encoding.md R90, 30_encoding.md R92.) -/
def Obligations.OperationsSurviveEncoding : Prop :=
  ∀ i : Instr, (encode i).wf = true ∧ decode (encode i) = .ok i

/-- Every well-formed line is the encoding of one operation. Every line of the right length whose code is not reserved, and whose operand fields that its operation does not use are at their defaults, decodes to an operation, and that operation encodes to the line: within one kind the patterns are disjoint and cover every control word. That operands are fields beside the code, and that the unused ones must be at their defaults, is the model's choice (DESIGN CHOICE, log entry 3). (30_encoding.md R83, 30_encoding.md R89, 30_encoding.md R90, 30_encoding.md R92.) -/
def Obligations.LinesSurviveDecoding : Prop :=
  ∀ l : Line, l.wf = true → ∃ i, decode l = .ok i ∧ encode i = l

/-- Reserved codes and words of a wrong length are rejected by name. Kind id 31, contract code 11, graph codes 110 and 111, and an operation word of the wrong length for its kind each decode to the rejection that names the reason. (30_encoding.md R84, 30_encoding.md R88, 30_encoding.md R89, 30_encoding.md R90.) -/
def Obligations.ReservedCodesAreRejected : Prop :=
  (∀ h cw, decode (.row h (true :: true :: true :: true :: true :: cw)) = .error .reservedKind)
    ∧ (∀ h p v, decode (.contract 0b11#2 h p v) = .error .reservedContractCode)
    ∧ (∀ o, decode (.graph 0b110#3 o) = .error .reservedGraphCode ∧ decode (.graph 0b111#3 o) = .error .reservedGraphCode)
    ∧ (∀ h code, code.take 5 ≠ [true, true, true, true, true] → Line.rowOk code = false →
        decode (.row h code) = .error .badLength)

/-- Words of the opcode table decode to their rows. One word of each family, written out from the table, decodes to the operation the table names. (30_encoding.md R92.) -/
def Obligations.SomeWordsOfTheTable : Prop :=
  (decode (.row 0 [false, false, true, false, true]) = .ok (.xorGate 0))
    ∧ (decode (.row 0 [false, true, false, true, true, false, false, true, true, true]) = .ok (.jkToggle 0))
    ∧ (decode (.row 0 [false, true, true, true, false, false, false, true, false, true]) = .ok (.shregShr 0))
    ∧ (decode (.row 0 [true, false, false, false, false, false, true, false, true, true]) = .ok (.ctrDown 0))
    ∧ (decode (.row 0 [true, false, true, true, false, true]) = .ok (.demuxDisabled 0))
    ∧ (decode (.row 0 [true, true, true, false, false, true, false, true, false]) = .ok (.aluCompare 0))
    ∧ (decode (.row 0 [true, true, true, false, true, false, true, true]) = .ok (.memWrite 0))
    ∧ (decode (.row 0 [true, true, true, true, false, false, true, false, true, true]) = .ok (.accShl 0))
    ∧ (decode (.contract 0b01#2 3 4 0) = .ok (.readPin 3 4))
    ∧ (decode (.graph 0b101#3 { n := 7 }) = .ok (.gTickN 7))

/-- A step runs the operation that the head of the script decodes to. When the first entry of the host's script is fetched as a line that decodes to an operation, the step is that operation in the state the fetch leaves, without the entry; with an empty script a step changes nothing. A contract operation or graph call is fetched as its code and operands, with the state as it was. A write run as its component operation is fetched with the voltage stored, as the operation word that the component's pins then spell, the event bit being the edge of a clock write; a Memory's read port is fetched after the write port has acted. Where the write names no input pin it is fetched as the plain WritePin. The script, and a write run as a component operation, are the model's own form of the host's sequence (DESIGN CHOICE, log entry 2). (00_scope.md R9, 10_state.md R42, 30_encoding.md R83, 40_contract.md R105, 40_contract.md R106, 40_contract.md R107.) -/
def Obligations.StepRunsTheDecodedOperation : Prop :=
  (∀ (s : State) r rest i, s.script = r :: rest → decode (s.fetch r).2 = .ok i →
      step s = exec i ((s.fetch r).1.withScript rest))
    ∧ (∀ s : State, s.script = [] → step s = .next s)
    ∧ (∀ (s : State) code h p v, s.fetch (.contract code h p v) = (s, .contract code h p v))
    ∧ (∀ (s : State) code o, s.fetch (.graph code o) = (s, .graph code o))
    ∧ (∀ (s : State) h p v port, (∀ c, s.comp? h = some c → (inputPins c.params).length ≤ p) →
        s.fetch (.operate h p v port) = (s, .contract 0b00#2 h p v))
    ∧ (∀ (s : State) h c p P v port, s.comp? h = some c → (inputPins c.params)[p]? = some P → P ≠ .clk →
        (Params.kind c.params = .memory → port = false) →
        s.fetch (.operate h p v port) =
          (s.setComp h { c with ins := writeBuffer P v c.ins },
            .row h (Comp.tableWord { c with ins := writeBuffer P v c.ins } port false)))
    ∧ (∀ (s : State) h c p v port, s.comp? h = some c → (inputPins c.params)[p]? = some .clk →
        (Params.kind c.params = .memory → port = false) →
        s.fetch (.operate h p v port) =
          (s.setComp h { c with clkPrev := v },
            .row h (Comp.tableWord { c with clkPrev := v } port (activeEdge c.cfg c.edge c.clkPrev v))))
    ∧ (∀ (s : State) h c p v, s.comp? h = some c → Params.kind c.params = .memory → p < (inputPins c.params).length →
        ∃ i u d, decode (s.fetch (.operate h p v false)).2 = .ok i
          ∧ exec i (s.fetch (.operate h p v false)).1 = .next u ∧ u.comp? h = some d
          ∧ s.fetch (.operate h p v true) =
            (u.answer s.result, .row h [true, true, true, false, true, true, d.inBit .re]))

/-- The logic view of a voltage. logic(v) is 1 exactly when v is strictly above the threshold; the threshold itself reads 0; with a well-formed configuration a voltage at or above cfg.high reads 1 and one at or below cfg.low reads 0; and the rule's four examples. (R100.) -/
def Obligations.LogicIsStrictlyAboveThreshold : Prop :=
  (∀ cfg v, logic cfg v = decide (v > cfg.threshold))
    ∧ (∀ cfg : Cfg, logic cfg cfg.threshold = false)
    ∧ (∀ (cfg : Cfg) (v : Voltage), cfg.ok = true →
        (cfg.high ≤ v → logic cfg v = true) ∧ (v ≤ cfg.low → logic cfg v = false))
    ∧ logic {} (microvolts 2500000) = false ∧ logic {} (microvolts 2500100) = true ∧ logic {} (volts 5) = true
    ∧ logic {} (volts (-3)) = false

/-- The voltage presented for a bit. voltage(1) is cfg.high and voltage(0) is cfg.low; with a well-formed configuration logic(voltage(b)) = b; the defaults are 5.0 and 0.0. (R101.) -/
def Obligations.VoltageOfABit : Prop :=
  (∀ cfg : Cfg, voltage cfg true = cfg.high ∧ voltage cfg false = cfg.low)
    ∧ (∀ (cfg : Cfg) (b : Bool), cfg.ok = true → logic cfg (voltage cfg b) = b)
    ∧ voltage {} true = volts 5 ∧ voltage {} false = volts 0

/-- Edge detection. A rising edge is a crossing from logic 0 to logic 1, a falling edge the reverse; a write exactly at the threshold counts as low; a component at its reset value needs a high write and then a low write before its first falling edge; and the rule's four examples. (R116.) -/
def Obligations.ActiveEdges : Prop :=
  (∀ cfg prev new, activeEdge cfg .rising prev new = (decide (logic cfg prev = false) && decide (logic cfg new = true)))
    ∧ (∀ cfg prev new, activeEdge cfg .falling prev new = (decide (logic cfg prev = true) && decide (logic cfg new = false)))
    ∧ (∀ cfg dir prev new, logic cfg prev = logic cfg new → activeEdge cfg dir prev new = false)
    ∧ (∀ (cfg : Cfg) (prev : Voltage), activeEdge cfg .rising prev cfg.threshold = false)
    ∧ (∀ (cfg : Cfg) (new : Voltage), cfg.ok = true → activeEdge cfg .falling cfg.low new = false)
    ∧ activeEdge {} .rising (volts 0) (volts 5) = true ∧ activeEdge {} .rising (volts 5) (volts 5) = false
    ∧ activeEdge {} .rising (volts 5) (volts 0) = false
    ∧ activeEdge {} .rising (microvolts 2500000) (microvolts 2600000) = true

/-- WritePin to power, ground, an output pin and an unknown pin. A write to VCC or GND stores the voltage and returns ok, one to an output pin returns ok and changes nothing, and one to a number outside the pin map fails with UnknownPin and changes nothing; a NOT gate has pins 0 to 3. (R108, R109, R110.) -/
def Obligations.WritePinWithoutEvaluation : Prop :=
  (∀ (s : State) h c v, s.comp? h = some c →
      exec (.writePin h (npins c.params - 2) v) s = .next ((s.setComp h { c with vcc := v }).answer .ok)
      ∧ exec (.writePin h (npins c.params - 1) v) s = .next ((s.setComp h { c with gnd := v }).answer .ok))
    ∧ (∀ (s : State) h c p v, s.comp? h = some c → isOutputId c.params p = true →
      exec (.writePin h p v) s = .next (s.answer .ok))
    ∧ (∀ (s : State) h c p v, s.comp? h = some c → npins c.params ≤ p →
      exec (.writePin h p v) s = .next (s.answer (.failed .unknownPin)))
    ∧ npins .notGate = 4

/-- WritePin to a data, control or asynchronous pin stores the voltage and performs the selected operation. The write stores the voltage in the pin's buffer. For every kind but Memory it then runs the one operation that the operation word, spelled pin by pin from the table of R85 with E = 0 (Comp.tableWord), decodes to, exactly as that operation runs as an instruction on the state with the stored voltage, and answers ok or that operation's failure. A Memory runs its write-port operation and then its read-port operation and answers ok. In the state it ends in, the component's written buffer holds the voltage, and every other buffer, the previous clock, VCC, GND, levels, edge and parameters are as before. (40_contract.md R104, 40_contract.md R105, 40_contract.md R107, 30_encoding.md R83, 30_encoding.md R84, 30_encoding.md R85, 30_encoding.md R86.) -/
def Obligations.WritePinToAnInput : Prop :=
  ∀ (s : State) h c p v P, s.comp? h = some c → c.wf = true → (inputPins c.params)[p]? = some P → P ≠ .clk →
    ∃ (d e : Comp) (t : State), d = { c with ins := writeBuffer P v c.ins }
      ∧ (Params.kind c.params ≠ .memory →
        ∃ i, decode (.row h (d.tableWord false false)) = .ok i ∧ exec i (s.setComp h d) = .next t)
      ∧ (Params.kind c.params = .memory →
        ∃ i j u, decode (.row h (d.tableWord false false)) = .ok i ∧ decode (.row h (d.tableWord true false)) = .ok j
          ∧ exec i (s.setComp h d) = .next u ∧ exec j u = .next t)
      ∧ exec (.writePin h p v) s = .next (t.answer t.result.acknowledged)
      ∧ (Params.kind c.params = .memory → t.result.acknowledged = .ok)
      ∧ t.comp? h = some e ∧ e.buffer P = v ∧ (∀ Q, Q ≠ P → e.buffer Q = c.buffer Q) ∧ e.clkPrev = c.clkPrev
      ∧ e.vcc = c.vcc ∧ e.gnd = c.gnd ∧ e.cfg = c.cfg ∧ e.edge = c.edge ∧ e.params = c.params

/-- WritePin to the clock detects the edge, stores the clock and performs the selected operation. The event bit is the edge from the previous clock to the written voltage, and clk_prev takes the voltage. For every kind but Memory the write then runs the one operation that the operation word with this event bit, spelled pin by pin from the table of R85 (Comp.tableWord), decodes to, exactly as that operation runs as an instruction on the state with the stored clock, and answers ok or that operation's failure. A Memory runs its write-port operation and then its read-port operation and answers ok. In the state it ends in, the component's clk_prev is the voltage, and every buffer, VCC, GND, levels, edge and parameters are as before. (40_contract.md R106, 40_contract.md R116, 30_encoding.md R84, 30_encoding.md R85, 30_encoding.md R86, 10_state.md R23.) -/
def Obligations.WritePinToTheClock : Prop :=
  ∀ (s : State) h c p v, s.comp? h = some c → c.wf = true → (inputPins c.params)[p]? = some .clk →
    ∃ (d e : Comp) (t : State), d = { c with clkPrev := v }
      ∧ (Params.kind c.params ≠ .memory →
        ∃ i, decode (.row h (d.tableWord false (activeEdge c.cfg c.edge c.clkPrev v))) = .ok i
          ∧ exec i (s.setComp h d) = .next t)
      ∧ (Params.kind c.params = .memory →
        ∃ i j u, decode (.row h (d.tableWord false (activeEdge c.cfg c.edge c.clkPrev v))) = .ok i
          ∧ decode (.row h (d.tableWord true (activeEdge c.cfg c.edge c.clkPrev v))) = .ok j
          ∧ exec i (s.setComp h d) = .next u ∧ exec j u = .next t)
      ∧ exec (.writePin h p v) s = .next (t.answer t.result.acknowledged)
      ∧ (Params.kind c.params = .memory → t.result.acknowledged = .ok)
      ∧ t.comp? h = some e ∧ e.clkPrev = v ∧ (∀ P, e.buffer P = c.buffer P)
      ∧ e.vcc = c.vcc ∧ e.gnd = c.gnd ∧ e.cfg = c.cfg ∧ e.edge = c.edge ∧ e.params = c.params

/-- A clock write that is no active edge, or that arrives under an asynchronous pin, changes only the previous clock. On a settled component, a clock write that is not an active edge changes clk_prev alone; so does every clock write while RESET is high, or while a kind with a SET pin has SET high, active edge or not: the edge is consumed. (40_contract.md R106, 42_sequential.md R162, 70_reset_and_hazards.md R453.) -/
def Obligations.ClockWritesThatChangeNothingElse : Prop :=
  ∀ (s : State) h c p v, s.comp? h = some c → c.wf = true → c.settled = true → (inputPins c.params)[p]? = some .clk →
    (activeEdge c.cfg c.edge c.clkPrev v = false ∨ (.reset ∈ inputPins c.params ∧ c.inBit .reset = true)
      ∨ (.set ∈ inputPins c.params ∧ c.inBit .set = true)) →
    exec (.writePin h p v) s = .next ((s.setComp h { c with clkPrev := v }).answer .ok)

/-- ReadPin returns outputs, power and ground, and fails on every other pin. An output pin reads cfg.high or cfg.low by the logic value the component presents; VCC and GND read what was stored; an input pin and a number outside the pin map fail with UnknownPin; no state changes. (R111, R112.) -/
def Obligations.ReadPinValues : Prop :=
  ∀ (s : State) h c, s.comp? h = some c →
    (∀ j P, (outputPins c.params)[j]? = some P →
        exec (.readPin h ((inputPins c.params).length + j)) s =
          .next (s.answer (.voltage (if c.outBit P then c.cfg.high else c.cfg.low))))
      ∧ exec (.readPin h (npins c.params - 2)) s = .next (s.answer (.voltage c.vcc))
      ∧ exec (.readPin h (npins c.params - 1)) s = .next (s.answer (.voltage c.gnd))
      ∧ (∀ p, p < (inputPins c.params).length → exec (.readPin h p) s = .next (s.answer (.failed .unknownPin)))
      ∧ (∀ p, npins c.params ≤ p → exec (.readPin h p) s = .next (s.answer (.failed .unknownPin)))

/-- Tick commits the master stage, evaluates an Adder or ALU, and sets a Divider's flag. On a clocked kind the slave takes the master and nothing else changes; on a combinational kind or a latch nothing changes; an Adder or ALU runs the operation its selector pins spell, whose failure is dropped; a Divider with RESET low and divisor 0 gets its flag, and is otherwise unchanged. (40_contract.md R113, 40_contract.md R114, 10_state.md R26, 45_arithmetic.md R316, 45_arithmetic.md R336.) -/
def Obligations.TickOfEachKind : Prop :=
  ∀ (s : State) h c, s.comp? h = some c → c.wf = true →
    (Kind.isClocked (Params.kind c.params) = true →
        exec (.tick h) s = .next ((s.setComp h { c with q := c.m }).answer .ok))
      ∧ (Params.kind c.params ∈ [.notGate, .andGate, .orGate, .nandGate, .norGate, .xorGate, .halfAdder, .fullAdder,
            .mux, .demux, .decoder, .multiplier, .bcdAdder, .srLatch, .dLatch] →
          exec (.tick h) s = .next (s.answer .ok))
      ∧ (Params.kind c.params = .adder ∨ Params.kind c.params = .alu →
          ∃ i t, decode (.row h (c.tableWord false false)) = .ok i ∧ exec i s = .next t
            ∧ exec (.tick h) s = .next (t.answer .ok))
      ∧ (∀ w, c.params = .divider w →
          (c.inBit .reset = false → c.opB w = 0 →
            exec (.tick h) s = .next ((s.setComp h { c with q := .dz true }).answer .ok))
          ∧ (c.inBit .reset = true ∨ c.opB w ≠ 0 → exec (.tick h) s = .next (s.answer .ok)))

/-- Tick never fails. Tick of every component answers ok; an Adder or ALU with a reserved selector holds its outputs; a Divider with a zero divisor and RESET low sets its flag. (R115.) -/
def Obligations.TickNeverFails : Prop :=
  ∀ (s : State) h c, s.comp? h = some c →
    ∃ c', exec (.tick h) s = .next ((s.setComp h c').answer .ok)
      ∧ (Params.kind c.params = .adder → c.inBit (.mode 1) = true → c.inBit (.mode 0) = true → c' = c)
      ∧ (Params.kind c.params = .alu → c.inBit (.op 3) = true →
          (c.inBit (.op 2) = true ∨ (c.inBit (.op 1) = true ∧ c.inBit (.op 0) = true)) → c' = c)
      ∧ (∀ w, c.params = .divider w → c.opB w = 0 → c.inBit .reset = false → c'.outBit .divZero = true)

/-- A second Tick with no write between changes nothing. For every component, ticking it twice is ticking it once, and the second instruction leaves the state of the first. (40_contract.md R114, 70_reset_and_hazards.md R457, 20_memory.md R66.) -/
def Obligations.TickIsIdempotent : Prop :=
  ∀ (s : State) h c, s.comp? h = some c → c.tick.tick = c.tick
    ∧ ∃ t, exec (.tick h) s = .next t ∧ exec (.tick h) t = .next t

/-- RESET written high forces the construction state of every stage at once. On every kind with a RESET pin, writing it high, whatever SET, the clock and the data hold, puts every stage at its construction value inside the write and leaves every other field as it was. (10_state.md R46, 40_contract.md R107, 60_exceptions.md R411, 60_exceptions.md R413.) -/
def Obligations.ResetPinForcesTheResetState : Prop :=
  ∀ (s : State) h c v, s.comp? h = some c → c.wf = true → .reset ∈ inputPins c.params → logic c.cfg v = true →
    exec (.writePin h (pinId c.params .reset) v) s =
      .next ((s.setComp h { c with
          ins := writeBuffer .reset v c.ins
          m := if Kind.isClocked (Params.kind c.params) then resetRegs c.params else c.m
          q := resetRegs c.params }).answer .ok)

/-- SET written high with RESET low forces ones. On a latch or flip-flop the state is forced to 1, on a Register, ShiftRegister or UniversalShiftRegister to all ones, in both stages of a clocked kind, inside the write; every other field is as it was. (10_state.md R46, 40_contract.md R107, 60_exceptions.md R413.) -/
def Obligations.SetPinForcesOnes : Prop :=
  ∀ (s : State) h c v, s.comp? h = some c → c.wf = true → .set ∈ inputPins c.params → c.inBit .reset = false →
    logic c.cfg v = true →
    exec (.writePin h (pinId c.params .set) v) s =
      .next ((s.setComp h { c with
          ins := writeBuffer .set v c.ins
          m := if Kind.isClocked (Params.kind c.params) then
              (if c.width = 0 then .bit true else .word (2 ^ c.width - 1)) else c.m
          q := if c.width = 0 then .bit true else .word (2 ^ c.width - 1) }).answer .ok)

/-- A reserved selector fails with InvalidOperation after the store, and holds. A write after which an Adder's mode is 11 or an ALU's op is 1011 to 1111 stores its voltage, holds the outputs and fails with InvalidOperation; so does an active clock edge on an Accumulator whose op is 101 to 111, which stores clk_prev and holds both stages. (60_exceptions.md R402, 60_exceptions.md R416, 45_arithmetic.md R307, 45_arithmetic.md R334, 46_memory_accumulator.md R367.) -/
def Obligations.InvalidOperationHolds : Prop :=
  (∀ (s : State) h c p v P, s.has h .adder c → (inputPins c.params)[p]? = some P →
      (c.withIn P v).inBit (.mode 1) = true → (c.withIn P v).inBit (.mode 0) = true →
      exec (.writePin h p v) s = .next ((s.setComp h (c.withIn P v)).answer (.failed .invalidOperation)))
    ∧ (∀ (s : State) h c p v P, s.has h .alu c → (inputPins c.params)[p]? = some P →
      (c.withIn P v).inBit (.op 3) = true →
      ((c.withIn P v).inBit (.op 2) = true ∨ ((c.withIn P v).inBit (.op 1) = true ∧ (c.withIn P v).inBit (.op 0) = true)) →
      exec (.writePin h p v) s = .next ((s.setComp h (c.withIn P v)).answer (.failed .invalidOperation)))
    ∧ (∀ (s : State) h c p v, s.has h .accumulator c → (inputPins c.params)[p]? = some .clk → c.inBit .reset = false →
      activeEdge c.cfg c.edge c.clkPrev v = true → c.inBit (.op 2) = true →
      (c.inBit (.op 1) = true ∨ c.inBit (.op 0) = true) →
      exec (.writePin h p v) s = .next ((s.setComp h { c with clkPrev := v }).answer (.failed .invalidOperation)))

/-- NOT, AND, OR, NAND, NOR, XOR, HALFADD, FULLADD. Each operation completes, changes no component, and presents its boolean function of the input pins; the half-adder and full-adder count their inputs. (R131, R132, R133, R134, R135, R136, R137, R138.) -/
def Obligations.GatesPresentTheirFunction : Prop :=
  ∀ (s : State) h c, s.comp? h = some c →
    (c.params = .notGate → (rowDoes h [false, false, false, false, false] (.notGate h) s (s.shows [!c.inBit (.inp 0)])))
      ∧ (∀ n, c.params = .andGate n → (rowDoes h [false, false, false, false, true] (.andGate h) s (s.shows [decide (∀ i < n, c.inBit (.inp i) = true)])))
      ∧ (∀ n, c.params = .orGate n → (rowDoes h [false, false, false, true, false] (.orGate h) s (s.shows [decide (∃ i < n, c.inBit (.inp i) = true)])))
      ∧ (∀ n, c.params = .nandGate n → (rowDoes h [false, false, false, true, true] (.nandGate h) s (s.shows [decide (¬∀ i < n, c.inBit (.inp i) = true)])))
      ∧ (∀ n, c.params = .norGate n → (rowDoes h [false, false, true, false, false] (.norGate h) s (s.shows [decide (∀ i < n, c.inBit (.inp i) = false)])))
      ∧ (c.params = .xorGate → (rowDoes h [false, false, true, false, true] (.xorGate h) s (s.shows [decide (c.inBit (.a 0) ≠ c.inBit (.b 0))])))
      ∧ (c.params = .halfAdder → (rowDoes h [false, false, true, true, false] (.halfAdd h) s
          (s.shows [c.inBit (.a 0) ^^ c.inBit (.b 0), c.inBit (.a 0) && c.inBit (.b 0)])))
      ∧ (c.params = .halfAdder →
          2 * (c.outBit .carry).toNat + (c.outBit (.sum 0)).toNat = (c.inBit (.a 0)).toNat + (c.inBit (.b 0)).toNat)
      ∧ (c.params = .fullAdder → (rowDoes h [false, false, true, true, true] (.fullAdd h) s
          (s.shows [c.inBit (.a 0) ^^ c.inBit (.b 0) ^^ c.inBit .cin,
            (c.inBit (.a 0) && c.inBit (.b 0)) || ((c.inBit (.a 0) ^^ c.inBit (.b 0)) && c.inBit .cin)])))
      ∧ (c.params = .fullAdder →
          2 * (c.outBit .cout).toNat + (c.outBit (.sum 0)).toNat
            = (c.inBit (.a 0)).toNat + (c.inBit (.b 0)).toNat + (c.inBit .cin).toNat)

/-- The six operations of the SR latch. Each completes with the stored bit its rule gives and nothing else changed; under the pins that select it, it presents Q and QN as its rule says: both low for S = R = 1. (R165, R166, R167, R168, R169, R170.) -/
def Obligations.SrLatchOperations : Prop :=
  ∀ (s : State) h c, s.has h .srLatch c →
    (∀ x0 x1 x2 : Bool, rowDoes h [false, true, false, false, false, true, x0, x1, x2] (.srlAreset h x0 x1 x2) s (s.presents h { c with q := .bit false }))
      ∧ (∀ x0 x1 : Bool, rowDoes h [false, true, false, false, false, false, true, x0, x1] (.srlAset h x0 x1) s (s.presents h { c with q := .bit true }))
      ∧ (rowDoes h [false, true, false, false, false, false, false, true, false] (.srlSet h) s (s.presents h { c with q := .bit true }))
      ∧ (rowDoes h [false, true, false, false, false, false, false, false, true] (.srlReset h) s (s.presents h { c with q := .bit false }))
      ∧ (rowDoes h [false, true, false, false, false, false, false, false, false] (.srlHold h) s (s.shows c.outputs))
      ∧ (rowDoes h [false, true, false, false, false, false, false, true, true] (.srlBoth h) s (s.presents h { c with q := .bit false }))
      ∧ (c.inBit .reset = true → { c with q := .bit false }.outputs = [false, true])
      ∧ (c.inBit .reset = false → c.inBit .set = true → { c with q := .bit true }.outputs = [true, false])
      ∧ (c.inBit .reset = false → c.inBit .set = false →
          (c.inBit .s = true → c.inBit .r = false → { c with q := .bit true }.outputs = [true, false])
          ∧ (c.inBit .s = false → c.inBit .r = true → { c with q := .bit false }.outputs = [false, true])
          ∧ (c.inBit .s = false → c.inBit .r = false → ∀ b, c.q = .bit b → c.outputs = [b, !b])
          ∧ (c.inBit .s = true → c.inBit .r = true → { c with q := .bit false }.outputs = [false, false]))

/-- The four operations of the D latch. Each completes with the stored bit its rule gives, nothing else changed, and presents Q and its complement. (R172, R173, R174, R175.) -/
def Obligations.DLatchOperations : Prop :=
  ∀ (s : State) h c, s.has h .dLatch c →
    (∀ x0 x1 : Bool, rowDoes h [false, true, false, false, true, true, x0, x1] (.dlAreset h x0 x1) s (s.presents h { c with q := .bit false }))
      ∧ (∀ x0 : Bool, rowDoes h [false, true, false, false, true, false, true, x0] (.dlAset h x0) s (s.presents h { c with q := .bit true }))
      ∧ (rowDoes h [false, true, false, false, true, false, false, true] (.dlTrack h) s (s.presents h { c with q := .bit (c.inBit (.d 0)) }))
      ∧ (rowDoes h [false, true, false, false, true, false, false, false] (.dlHold h) s (s.shows c.outputs))
      ∧ (∀ b, { c with q := .bit b }.outputs = [b, !b])

/-- The four operations of the D flip-flop. ARESET and ASET force both stages; CAPTURE writes the master alone; NOEDGE changes nothing; Q and QN show the slave and its complement. (R177, R178, R179, R180.) -/
def Obligations.DFlipFlopOperations : Prop :=
  ∀ (s : State) h c, s.has h .dff c →
    (∀ x0 x1 : Bool, rowDoes h [false, true, false, true, false, true, x0, x1] (.dffAreset h x0 x1) s (s.presents h { c with m := .bit false, q := .bit false }))
      ∧ (∀ x0 : Bool, rowDoes h [false, true, false, true, false, false, true, x0] (.dffAset h x0) s (s.presents h { c with m := .bit true, q := .bit true }))
      ∧ (rowDoes h [false, true, false, true, false, false, false, true] (.dffCapture h) s (s.presents h { c with m := .bit (c.inBit (.d 0)) }))
      ∧ (rowDoes h [false, true, false, true, false, false, false, false] (.dffNoedge h) s (s.shows c.outputs))
      ∧ (∀ m b, { c with m := m, q := .bit b }.outputs = [b, !b])

/-- The twelve operations of the JK and T flip-flops. ARESET and ASET force both stages; at an edge HOLD, RESET, SET and TOGGLE write the master alone, TOGGLE its complement; NOEDGE changes nothing. (R183, R184, R185, R186, R187, R188, R189, R192, R193, R194, R195, R196.) -/
def Obligations.JkAndTFlipFlopOperations : Prop :=
  (∀ (s : State) h c b, s.has h .jkff c → c.m = .bit b →
    (∀ x0 x1 x2 x3 : Bool, rowDoes h [false, true, false, true, true, true, x0, x1, x2, x3] (.jkAreset h x0 x1 x2 x3) s (s.presents h { c with m := .bit false, q := .bit false }))
      ∧ (∀ x0 x1 x2 : Bool, rowDoes h [false, true, false, true, true, false, true, x0, x1, x2] (.jkAset h x0 x1 x2) s (s.presents h { c with m := .bit true, q := .bit true }))
      ∧ (∀ x0 x1 : Bool, rowDoes h [false, true, false, true, true, false, false, false, x0, x1] (.jkNoedge h x0 x1) s (s.shows c.outputs))
      ∧ (rowDoes h [false, true, false, true, true, false, false, true, false, false] (.jkHold h) s (s.shows c.outputs))
      ∧ (rowDoes h [false, true, false, true, true, false, false, true, false, true] (.jkReset h) s (s.presents h { c with m := .bit false }))
      ∧ (rowDoes h [false, true, false, true, true, false, false, true, true, false] (.jkSet h) s (s.presents h { c with m := .bit true }))
      ∧ (rowDoes h [false, true, false, true, true, false, false, true, true, true] (.jkToggle h) s (s.presents h { c with m := .bit (!b) })))
    ∧ (∀ (s : State) h c b, s.has h .tff c → c.m = .bit b →
    (∀ x0 x1 x2 : Bool, rowDoes h [false, true, true, false, false, true, x0, x1, x2] (.tAreset h x0 x1 x2) s (s.presents h { c with m := .bit false, q := .bit false }))
      ∧ (∀ x0 x1 : Bool, rowDoes h [false, true, true, false, false, false, true, x0, x1] (.tAset h x0 x1) s (s.presents h { c with m := .bit true, q := .bit true }))
      ∧ (∀ x0 : Bool, rowDoes h [false, true, true, false, false, false, false, false, x0] (.tNoedge h x0) s (s.shows c.outputs))
      ∧ (rowDoes h [false, true, true, false, false, false, false, true, false] (.tHold h) s (s.shows c.outputs))
      ∧ (rowDoes h [false, true, true, false, false, false, false, true, true] (.tToggle h) s (s.presents h { c with m := .bit (!b) })))
    ∧ (∀ c : Comp, Params.kind c.params = .jkff ∨ Params.kind c.params = .tff →
        ∀ m b, { c with m := m, q := .bit b }.outputs = [b, !b])

/-- The four operations of the register. ARESET clears and ASET sets every bit of both stages; LOAD puts D bit by bit into the master alone; NOEDGE changes nothing. (R201, R202, R203, R204.) -/
def Obligations.RegisterOperations : Prop :=
  ∀ (s : State) h c w, s.comp? h = some c → c.params = .register w →
    (∀ x0 x1 : Bool, rowDoes h [false, true, true, false, true, true, x0, x1] (.regAreset h x0 x1) s (s.presents h { c with m := .word 0, q := .word 0 }))
      ∧ (∀ x0 : Bool, rowDoes h [false, true, true, false, true, false, true, x0] (.regAset h x0) s (s.presents h { c with m := .word (2 ^ w - 1), q := .word (2 ^ w - 1) }))
      ∧ (∀ i < w, (2 ^ w - 1).testBit i = true)
      ∧ (∃ x, (rowDoes h [false, true, true, false, true, false, false, true] (.regLoad h) s (s.presents h { c with m := .word x })) ∧ x < 2 ^ w ∧ ∀ i < w, x.testBit i = c.inBit (.d i))
      ∧ (rowDoes h [false, true, true, false, true, false, false, false] (.regNoedge h) s (s.shows c.outputs))

/-- The six operations of the shift register. ARESET, ASET and LOAD as on a register; SHL moves every bit of the master one place up with the serial input at bit 0, SHR one place down with the serial input at bit W-1; NOEDGE changes nothing. (R207, R208, R209, R210, R211, R212.) -/
def Obligations.ShiftRegisterOperations : Prop :=
  ∀ (s : State) h c w y, s.comp? h = some c → c.params = .shiftRegister w → c.wf = true → c.m = .word y →
    (∀ x0 x1 x2 x3 : Bool, rowDoes h [false, true, true, true, false, true, x0, x1, x2, x3] (.shregAreset h x0 x1 x2 x3) s (s.presents h { c with m := .word 0, q := .word 0 }))
      ∧ (∀ x0 x1 x2 : Bool, rowDoes h [false, true, true, true, false, false, true, x0, x1, x2] (.shregAset h x0 x1 x2) s (s.presents h { c with m := .word (2 ^ w - 1), q := .word (2 ^ w - 1) }))
      ∧ (∀ x0 x1 : Bool, rowDoes h [false, true, true, true, false, false, false, false, x0, x1] (.shregNoedge h x0 x1) s (s.shows c.outputs))
      ∧ (∃ x, (∀ x0 : Bool, rowDoes h [false, true, true, true, false, false, false, true, true, x0] (.shregLoad h x0) s (s.presents h { c with m := .word x })) ∧ x < 2 ^ w ∧ ∀ i < w, x.testBit i = c.inBit (.d i))
      ∧ (∃ x, (rowDoes h [false, true, true, true, false, false, false, true, false, false] (.shregShl h) s (s.presents h { c with m := .word x })) ∧ x < 2 ^ w
          ∧ x = (2 * y + (c.inBit .serIn).toNat) % 2 ^ w
          ∧ x.testBit 0 = c.inBit .serIn ∧ ∀ i, i + 1 < w → x.testBit (i + 1) = y.testBit i)
      ∧ (∃ x, (rowDoes h [false, true, true, true, false, false, false, true, false, true] (.shregShr h) s (s.presents h { c with m := .word x })) ∧ x < 2 ^ w
          ∧ x = y / 2 + (c.inBit .serIn).toNat * 2 ^ (w - 1)
          ∧ x.testBit (w - 1) = c.inBit .serIn ∧ ∀ i, i + 1 < w → x.testBit i = y.testBit (i + 1))

/-- The seven operations of the universal shift register. ARESET and ASET force both stages; NOEDGE and NOP change nothing; SHR, SHL and LOAD write the master alone. (R215, R216, R217, R218, R219, R220, R221.) -/
def Obligations.UniversalShiftRegisterOperations : Prop :=
  ∀ (s : State) h c w y, s.comp? h = some c → c.params = .univShiftRegister w → c.wf = true → c.m = .word y →
    (∀ x0 x1 x2 x3 : Bool, rowDoes h [false, true, true, true, true, true, x0, x1, x2, x3] (.usrAreset h x0 x1 x2 x3) s (s.presents h { c with m := .word 0, q := .word 0 }))
      ∧ (∀ x0 x1 x2 : Bool, rowDoes h [false, true, true, true, true, false, true, x0, x1, x2] (.usrAset h x0 x1 x2) s (s.presents h { c with m := .word (2 ^ w - 1), q := .word (2 ^ w - 1) }))
      ∧ (∀ x0 x1 : Bool, rowDoes h [false, true, true, true, true, false, false, false, x0, x1] (.usrNoedge h x0 x1) s (s.shows c.outputs))
      ∧ (rowDoes h [false, true, true, true, true, false, false, true, false, false] (.usrNop h) s (s.shows c.outputs))
      ∧ (∃ x, (rowDoes h [false, true, true, true, true, false, false, true, false, true] (.usrShr h) s (s.presents h { c with m := .word x })) ∧ x < 2 ^ w
          ∧ x = y / 2 + (c.inBit .serIn).toNat * 2 ^ (w - 1)
          ∧ x.testBit (w - 1) = c.inBit .serIn ∧ ∀ i, i + 1 < w → x.testBit i = y.testBit (i + 1))
      ∧ (∃ x, (rowDoes h [false, true, true, true, true, false, false, true, true, false] (.usrShl h) s (s.presents h { c with m := .word x })) ∧ x < 2 ^ w
          ∧ x = (2 * y + (c.inBit .serIn).toNat) % 2 ^ w
          ∧ x.testBit 0 = c.inBit .serIn ∧ ∀ i, i + 1 < w → x.testBit (i + 1) = y.testBit i)
      ∧ (∃ x, (rowDoes h [false, true, true, true, true, false, false, true, true, true] (.usrLoad h) s (s.presents h { c with m := .word x })) ∧ x < 2 ^ w ∧ ∀ i < w, x.testBit i = c.inBit (.d i))

/-- The six operations of the counter. ARESET clears value and carry of both stages; LOAD takes D modulo M; UP and DOWN count modulo M with the carry on the wrap; FREEZE keeps the value and clears the carry; NOEDGE changes nothing. (R226, R227, R228, R229, R230, R231.) -/
def Obligations.CounterOperations : Prop :=
  ∀ (s : State) h c w m st v b, s.comp? h = some c → c.params = .counter w m st → c.wf = true → c.m = .count v b →
    (∀ x0 x1 x2 x3 : Bool, rowDoes h [true, false, false, false, false, true, x0, x1, x2, x3] (.ctrAreset h x0 x1 x2 x3) s (s.presents h { c with m := .count 0 false, q := .count 0 false }))
      ∧ (∀ x0 x1 x2 : Bool, rowDoes h [true, false, false, false, false, false, false, x0, x1, x2] (.ctrNoedge h x0 x1 x2) s (s.shows c.outputs))
      ∧ (∀ x0 x1 : Bool, rowDoes h [true, false, false, false, false, false, true, true, x0, x1] (.ctrLoad h x0 x1) s (s.presents h { c with m := .count ((wordOf w fun i => c.inBit (.d i)) % m) false }))
      ∧ (rowDoes h [true, false, false, false, false, false, true, false, true, false] (.ctrUp h) s (s.presents h { c with m := .count (if v = m - 1 then 0 else v + 1) (decide (v = m - 1)) }))
      ∧ (rowDoes h [true, false, false, false, false, false, true, false, true, true] (.ctrDown h) s (s.presents h { c with m := .count (if v = 0 then m - 1 else v - 1) (decide (v = 0)) }))
      ∧ (∀ x0 : Bool, rowDoes h [true, false, false, false, false, false, true, false, false, x0] (.ctrFreeze h x0) s (s.presents h { c with m := .count v false }))

/-- The six operations of the BCD counter. ARESET clears every digit and carry of both stages; LOAD takes every nibble of D modulo 10; UP and DOWN count one decimal step modulo 10^K with the carry on the wrap; FREEZE keeps the digits and clears the carry; NOEDGE changes nothing. (R236, R237, R238, R239, R240, R241.) -/
def Obligations.BcdCounterOperations : Prop :=
  ∀ (s : State) h c k ds b, s.comp? h = some c → c.params = .bcdCounter k → c.wf = true → c.m = .digits ds b →
    (∀ x0 x1 x2 x3 : Bool, rowDoes h [true, false, false, false, true, true, x0, x1, x2, x3] (.bcdAreset h x0 x1 x2 x3) s (s.presents h { c with m := .digits (List.replicate k 0) false, q := .digits (List.replicate k 0) false }))
      ∧ (∀ x0 x1 x2 : Bool, rowDoes h [true, false, false, false, true, false, false, x0, x1, x2] (.bcdNoedge h x0 x1 x2) s (s.shows c.outputs))
      ∧ (∀ x0 x1 : Bool, rowDoes h [true, false, false, false, true, false, true, true, x0, x1] (.bcdLoad h x0 x1) s (s.presents h { c with
            m := .digits ((List.range k).map fun j => (wordOf 4 fun i => c.inBit (.d (4 * j + i))) % 10) false }))
      ∧ (∃ es, (rowDoes h [true, false, false, false, true, false, true, false, true, false] (.bcdUp h) s (s.presents h { c with m := .digits es (decide (decimal ds = 10 ^ k - 1)) }))
          ∧ es.length = k ∧ (∀ d ∈ es, d < 10) ∧ decimal es = (decimal ds + 1) % 10 ^ k)
      ∧ (∃ es, (rowDoes h [true, false, false, false, true, false, true, false, true, true] (.bcdDown h) s (s.presents h { c with m := .digits es (decide (decimal ds = 0)) }))
          ∧ es.length = k ∧ (∀ d ∈ es, d < 10) ∧ decimal es = (decimal ds + 10 ^ k - 1) % 10 ^ k)
      ∧ (∀ x0 : Bool, rowDoes h [true, false, false, false, true, false, true, false, false, x0] (.bcdFreeze h x0) s (s.presents h { c with m := .digits ds false }))

/-- The operations of the ring counter and the Johnson counter. The ring counter's reset is the one-hot word 1 in both stages and its rotations move every bit of the master one place round; the Johnson counter's reset is 0 and its step shifts the complement of the last bit in at bit 0. (R243, R244, R245, R246, R249, R250, R251.) -/
def Obligations.RingAndJohnsonOperations : Prop :=
  (∀ (s : State) h c w y, s.comp? h = some c → c.params = .ringCounter w → c.wf = true → c.m = .word y →
    (∀ x0 x1 : Bool, rowDoes h [true, false, false, true, false, true, x0, x1] (.ringAreset h x0 x1) s (s.presents h { c with m := .word 1, q := .word 1 }))
      ∧ (∀ x0 : Bool, rowDoes h [true, false, false, true, false, false, false, x0] (.ringNoedge h x0) s (s.shows c.outputs))
      ∧ (∃ x, (rowDoes h [true, false, false, true, false, false, true, false] (.ringRotl h) s (s.presents h { c with m := .word x })) ∧ x < 2 ^ w
          ∧ x.testBit 0 = y.testBit (w - 1) ∧ ∀ i, i + 1 < w → x.testBit (i + 1) = y.testBit i)
      ∧ (∃ x, (rowDoes h [true, false, false, true, false, false, true, true] (.ringRotr h) s (s.presents h { c with m := .word x })) ∧ x < 2 ^ w
          ∧ x.testBit (w - 1) = y.testBit 0 ∧ ∀ i, i + 1 < w → x.testBit i = y.testBit (i + 1)))
    ∧ (∀ (s : State) h c w y, s.comp? h = some c → c.params = .johnsonCounter w → c.wf = true → c.m = .word y →
    (∀ x0 : Bool, rowDoes h [true, false, false, true, true, true, x0] (.johnsonAreset h x0) s (s.presents h { c with m := .word 0, q := .word 0 }))
      ∧ (rowDoes h [true, false, false, true, true, false, false] (.johnsonNoedge h) s (s.shows c.outputs))
      ∧ (∃ x, (rowDoes h [true, false, false, true, true, false, true] (.johnsonStep h) s (s.presents h { c with m := .word x })) ∧ x < 2 ^ w
          ∧ x.testBit 0 = (!y.testBit (w - 1)) ∧ ∀ i, i + 1 < w → x.testBit (i + 1) = y.testBit i))

/-- The three operations of the clock divider. ARESET clears count and output of both stages; the N-th edge since the last toggle clears the count and toggles the output, every other edge adds one to the count; NOEDGE changes nothing. (R254, R255, R256.) -/
def Obligations.ClockDividerOperations : Prop :=
  ∀ (s : State) h c n k o, s.comp? h = some c → c.params = .clockDivider n → c.wf = true → c.m = .divide k o →
    (∀ x0 : Bool, rowDoes h [true, false, true, false, false, true, x0] (.clkdivAreset h x0) s (s.presents h { c with m := .divide 0 false, q := .divide 0 false }))
      ∧ (rowDoes h [true, false, true, false, false, false, false] (.clkdivNoedge h) s (s.shows c.outputs))
      ∧ (k + 1 = n → (rowDoes h [true, false, true, false, false, false, true] (.clkdivCount h) s (s.presents h { c with m := .divide 0 (!o) })))
      ∧ (k + 1 ≠ n → (rowDoes h [true, false, true, false, false, false, true] (.clkdivCount h) s (s.presents h { c with m := .divide (k + 1) o })) ∧ k + 1 < n)

/-- The operations of the multiplexer, demultiplexer and decoder. With DISABLE low the multiplexer presents the selected channel, the demultiplexer the input on the selected channel and 0 on all others, the decoder 1 on the selected line alone; with DISABLE high every output is 0; the selector is below the number of channels and no component changes. (R281, R282, R284, R285, R287, R288.) -/
def Obligations.InterconnectOperations : Prop :=
  (∀ (s : State) h c k d, s.comp? h = some c → c.params = .mux k d →
      (wordOf k fun i => c.inBit (.sel i)) < 2 ^ k
      ∧ (c.inBit .disable = false → (rowDoes h [true, false, true, false, true, false] (.muxSelect h) s
          (s.shows ((List.range d).map fun j => c.inBit (.chan (wordOf k fun i => c.inBit (.sel i)) j)))))
      ∧ (c.inBit .disable = true → (rowDoes h [true, false, true, false, true, true] (.muxDisabled h) s (s.shows (List.replicate d false)))))
    ∧ (∀ (s : State) h c k d, s.comp? h = some c → c.params = .demux k d →
      (c.inBit .disable = false → (rowDoes h [true, false, true, true, false, false] (.demuxSelect h) s
          (s.shows ((List.range (2 ^ k)).flatMap fun ch => (List.range d).map fun j =>
            decide (ch = wordOf k fun i => c.inBit (.sel i)) && c.inBit (.x j)))))
      ∧ (c.inBit .disable = true → (rowDoes h [true, false, true, true, false, true] (.demuxDisabled h) s (s.shows (List.replicate (2 ^ k * d) false)))))
    ∧ (∀ (s : State) h c k, s.comp? h = some c → c.params = .decoder k →
      (c.inBit .disable = false → (rowDoes h [true, false, true, true, true, false] (.decSelect h) s
          (s.shows ((List.range (2 ^ k)).map fun ch => decide (ch = wordOf k fun i => c.inBit (.sel i))))))
      ∧ (c.inBit .disable = true → (rowDoes h [true, false, true, true, true, true] (.decDisabled h) s (s.shows (List.replicate (2 ^ k) false)))))

/-- The four operations of the adder. ADD, SUB and INC store the W-bit result, the carry out (SUB: no borrow) and signed overflow; the reserved mode holds all three and fails with InvalidOperation. (R304, R305, R306, R307.) -/
def Obligations.AdderOperations : Prop :=
  ∀ (s : State) h c w a b, s.comp? h = some c → c.params = .adder w → c.wf = true →
    a = (wordOf w fun i => c.inBit (.a i)) → b = (wordOf w fun i => c.inBit (.b i)) →
    (∃ x, (rowDoes h [true, true, false, false, false, false, false] (.adderAdd h) s (s.presents h { c with
          q := .sum x (decide (2 ^ w ≤ a + b + (c.inBit .cin).toNat))
            (decide (a.testBit (w - 1) = b.testBit (w - 1) ∧ x.testBit (w - 1) ≠ a.testBit (w - 1))) }))
        ∧ x = (a + b + (c.inBit .cin).toNat) % 2 ^ w)
      ∧ (∃ x, (rowDoes h [true, true, false, false, false, false, true] (.adderSub h) s (s.presents h { c with
          q := .sum x (decide (b ≤ a))
            (decide (a.testBit (w - 1) ≠ b.testBit (w - 1) ∧ x.testBit (w - 1) ≠ a.testBit (w - 1))) }))
        ∧ x = (a + 2 ^ w - b) % 2 ^ w)
      ∧ (rowDoes h [true, true, false, false, false, true, false] (.adderInc h) s (s.presents h { c with
          q := .sum ((a + 1) % 2 ^ w) (decide (a = 2 ^ w - 1)) (decide (a = 2 ^ (w - 1) - 1)) }))
      ∧ (rowDoes h [true, true, false, false, false, true, true] (.adderInvalid h) s (s.answer (.failed .invalidOperation)))

/-- The operations of the multiplier and the divider. MUL presents the low W bits of the product and both flags as the high word not being zero; DIV.EVAL presents quotient and remainder, or all ones for divisor 0, and the flag, and changes nothing; DIV.ARESET clears the flag. (R311, R314, R315.) -/
def Obligations.MultiplierAndDividerOperations : Prop :=
  (∀ (s : State) h c w a b, s.comp? h = some c → c.params = .multiplier w →
      a = (wordOf w fun i => c.inBit (.a i)) → b = (wordOf w fun i => c.inBit (.b i)) →
      (rowDoes h [true, true, false, false, true] (.mul h) s (s.shows (((List.range w).map fun i => (a * b % 2 ^ w).testBit i)
        ++ [decide (a * b / 2 ^ w ≠ 0), decide (a * b / 2 ^ w ≠ 0)]))))
    ∧ (∀ (s : State) h c w a b f, s.comp? h = some c → c.params = .divider w → c.q = .dz f →
      a = (wordOf w fun i => c.inBit (.a i)) → b = (wordOf w fun i => c.inBit (.b i)) →
      (b = 0 → (rowDoes h [true, true, false, true, false, false] (.divEval h) s (s.shows (List.replicate w true ++ List.replicate w true ++ [f]))))
      ∧ (b ≠ 0 → (rowDoes h [true, true, false, true, false, false] (.divEval h) s (s.shows (((List.range w).map fun i => (a / b).testBit i)
          ++ ((List.range w).map fun i => (a % b).testBit i) ++ [f])))
          ∧ a = b * (a / b) + a % b ∧ a % b < b ∧ a / b < 2 ^ w)
      ∧ (rowDoes h [true, true, false, true, false, true] (.divAreset h) s (s.presents h { c with q := .dz false })))

/-- The BCD adder. BCDADD completes and changes nothing; its digits and carries are those of the rule's loop; for decimal digits the presented digits are decimal and the decimal readings add up. (R320.) -/
def Obligations.BcdAdderOperation : Prop :=
  ∀ (s : State) h c k, s.comp? h = some c → c.params = .bcdAdder k →
    (rowDoes h [true, true, false, true, true] (.bcdAdd h) s (s.shows c.outputs))
      ∧ ∃ A B S C : Nat → Nat,
        (∀ j, A j = wordOf 4 fun i => c.inBit (.a (4 * j + i))) ∧ (∀ j, B j = wordOf 4 fun i => c.inBit (.b (4 * j + i)))
        ∧ C 0 = (c.inBit .cin).toNat
        ∧ (∀ j < k, (9 < A j + B j + C j → S j = (A j + B j + C j + 6) % 16 ∧ C (j + 1) = 1)
          ∧ (A j + B j + C j ≤ 9 → S j = A j + B j + C j ∧ C (j + 1) = 0))
        ∧ c.outputs = ((List.range (4 * k)).map fun i => (S (i / 4)).testBit (i % 4)) ++ [decide (C k = 1)]
        ∧ ((∀ j < k, A j ≤ 9 ∧ B j ≤ 9) →
          (∀ j < k, S j ≤ 9)
          ∧ decimal ((List.range k).map S) + 10 ^ k * C k
            = decimal ((List.range k).map A) + decimal ((List.range k).map B) + (c.inBit .cin).toNat)

/-- ALU ADD, SUB, INC, DEC and COMPARE. Each stores its result (COMPARE keeps the result word), ZERO and SIGN from the computed value, CARRY and OVF as its rule gives them. (R323, R324, R331, R332, R333.) -/
def Obligations.AluArithmetic : Prop :=
  ∀ (s : State) h c w a b r f, s.comp? h = some c → c.params = .alu w → c.wf = true → c.q = .alu r f →
    a = (wordOf w fun i => c.inBit (.a i)) → b = (wordOf w fun i => c.inBit (.b i)) →
    (∃ x, (rowDoes h [true, true, true, false, false, false, false, false, false] (.aluAdd h) s (s.presents h { c with q := .alu x {
            zero := decide (x = 0), sign := x.testBit (w - 1), carry := decide (2 ^ w ≤ a + b)
            ovf := decide (a.testBit (w - 1) = b.testBit (w - 1) ∧ x.testBit (w - 1) ≠ a.testBit (w - 1)) } }))
        ∧ x = (a + b) % 2 ^ w)
      ∧ (∃ x, (rowDoes h [true, true, true, false, false, false, false, false, true] (.aluSub h) s (s.presents h { c with q := .alu x {
            zero := decide (a = b), sign := x.testBit (w - 1), carry := decide (b ≤ a)
            ovf := decide (a.testBit (w - 1) ≠ b.testBit (w - 1) ∧ x.testBit (w - 1) ≠ a.testBit (w - 1)) } }))
        ∧ x = (a + 2 ^ w - b) % 2 ^ w)
      ∧ (∃ x, (rowDoes h [true, true, true, false, false, true, false, false, false] (.aluInc h) s (s.presents h { c with q := .alu x {
            zero := decide (x = 0), sign := x.testBit (w - 1), carry := decide (a = 2 ^ w - 1)
            ovf := decide (a = 2 ^ (w - 1) - 1) } }))
        ∧ x = (a + 1) % 2 ^ w)
      ∧ (∃ x, (rowDoes h [true, true, true, false, false, true, false, false, true] (.aluDec h) s (s.presents h { c with q := .alu x {
            zero := decide (x = 0), sign := x.testBit (w - 1), carry := decide (1 ≤ a)
            ovf := decide (a = 2 ^ (w - 1)) } }))
        ∧ x = (a + 2 ^ w - 1) % 2 ^ w)
      ∧ (∃ x, (rowDoes h [true, true, true, false, false, true, false, true, false] (.aluCompare h) s (s.presents h { c with q := .alu r {
            zero := decide (a = b), sign := x.testBit (w - 1), carry := decide (b ≤ a)
            ovf := decide (a.testBit (w - 1) ≠ b.testBit (w - 1) ∧ x.testBit (w - 1) ≠ a.testBit (w - 1)) } }))
        ∧ x = (a + 2 ^ w - b) % 2 ^ w
        ∧ ((x.testBit (w - 1) ^^ decide (a.testBit (w - 1) ≠ b.testBit (w - 1) ∧ x.testBit (w - 1) ≠ a.testBit (w - 1)))
            = decide (tc w a < tc w b)))

/-- ALU AND, OR, XOR, NOT, SHL, SHR and the reserved codes. Bitwise operations clear CARRY and OVF; the shifts move one place, fill with 0 and put the bit shifted out in CARRY; ZERO and SIGN describe the result; a reserved code holds everything and fails with InvalidOperation. (R325, R326, R327, R328, R329, R330, R334.) -/
def Obligations.AluLogicAndShifts : Prop :=
  ∀ (s : State) h c w a b, s.comp? h = some c → c.params = .alu w → c.wf = true →
    a = (wordOf w fun i => c.inBit (.a i)) → b = (wordOf w fun i => c.inBit (.b i)) →
    (∃ x, (rowDoes h [true, true, true, false, false, false, false, true, false] (.aluAnd h) s (s.presents h { c with q := .alu x {
            zero := decide (x = 0), sign := x.testBit (w - 1), carry := false, ovf := false } }))
        ∧ x < 2 ^ w ∧ ∀ i < w, x.testBit i = (c.inBit (.a i) && c.inBit (.b i)))
      ∧ (∃ x, (rowDoes h [true, true, true, false, false, false, false, true, true] (.aluOr h) s (s.presents h { c with q := .alu x {
            zero := decide (x = 0), sign := x.testBit (w - 1), carry := false, ovf := false } }))
        ∧ x < 2 ^ w ∧ ∀ i < w, x.testBit i = (c.inBit (.a i) || c.inBit (.b i)))
      ∧ (∃ x, (rowDoes h [true, true, true, false, false, false, true, false, false] (.aluXor h) s (s.presents h { c with q := .alu x {
            zero := decide (x = 0), sign := x.testBit (w - 1), carry := false, ovf := false } }))
        ∧ x < 2 ^ w ∧ ∀ i < w, x.testBit i = (c.inBit (.a i) ^^ c.inBit (.b i)))
      ∧ (∃ x, (rowDoes h [true, true, true, false, false, false, true, false, true] (.aluNot h) s (s.presents h { c with q := .alu x {
            zero := decide (x = 0), sign := x.testBit (w - 1), carry := false, ovf := false } }))
        ∧ x < 2 ^ w ∧ ∀ i < w, x.testBit i = (!c.inBit (.a i)))
      ∧ (∃ x, (rowDoes h [true, true, true, false, false, false, true, true, false] (.aluShl h) s (s.presents h { c with q := .alu x {
            zero := decide (x = 0), sign := x.testBit (w - 1), carry := c.inBit (.a (w - 1)), ovf := false } }))
        ∧ x = 2 * a % 2 ^ w)
      ∧ (∃ x, (rowDoes h [true, true, true, false, false, false, true, true, true] (.aluShr h) s (s.presents h { c with q := .alu x {
            zero := decide (x = 0), sign := false, carry := c.inBit (.a 0), ovf := false } }))
        ∧ x = a / 2)
      ∧ (rowDoes h [true, true, true, false, false, true, false, true, true] (.aluInvalidB h) s (s.answer (.failed .invalidOperation)))
      ∧ (∀ x0 x1 : Bool, rowDoes h [true, true, true, false, false, true, true, x0, x1] (.aluInvalidC h x0 x1) s (s.answer (.failed .invalidOperation)))

/-- The five operations of the word memory. WRITE puts the write data into the addressed word of the master map and leaves every other word and the slave map; READ presents the addressed word of the slave map, READOFF zeros; the idle rows change nothing. (R351, R352, R353, R354.) -/
def Obligations.MemoryOperations : Prop :=
  ∀ (s : State) h c a d mm mq, s.comp? h = some c → c.params = .memory a d → c.wf = true → c.m = .cells mm → c.q = .cells mq →
    (∃ mm', (rowDoes h [true, true, true, false, true, false, true, true] (.memWrite h) s (s.presents h { c with m := .cells mm' })) ∧ Memory.wf mm' = true
        ∧ Memory.read mm' (wordOf a fun i => c.inBit (.addr i)) = (wordOf d fun i => c.inBit (.wdata i))
        ∧ ∀ x, x ≠ (wordOf a fun i => c.inBit (.addr i)) → Memory.read mm' x = Memory.read mm x)
      ∧ (∀ x0 : Bool, rowDoes h [true, true, true, false, true, false, false, x0] (.memWidleNoedge h x0) s (s.shows c.outputs))
      ∧ (rowDoes h [true, true, true, false, true, false, true, false] (.memWidleNowe h) s (s.shows c.outputs))
      ∧ (c.inBit .re = true → (rowDoes h [true, true, true, false, true, true, true] (.memRead h) s
          (s.shows ((List.range d).map fun j => (Memory.read mq (wordOf a fun i => c.inBit (.addr i))).testBit j))))
      ∧ (c.inBit .re = false → (rowDoes h [true, true, true, false, true, true, false] (.memReadoff h) s (s.shows (List.replicate d false))))
      ∧ Memory.read [] 0 = 0

/-- The nine operations of the accumulator. ARESET puts word 0 and flags (1, 0, 0, 0) in both stages; LOAD, CLEAR, INC, SHL and SHR write word and flags of the master alone, ZERO and SIGN from the new word; NOEDGE changes nothing; a reserved code holds both stages and fails with InvalidOperation. (R360, R361, R362, R363, R364, R365, R366, R367.) -/
def Obligations.AccumulatorOperations : Prop :=
  ∀ (s : State) h c w x f, s.comp? h = some c → c.params = .accumulator w → c.wf = true → c.m = .acc x f →
    (∀ x0 x1 x2 x3 : Bool, rowDoes h [true, true, true, true, false, true, x0, x1, x2, x3] (.accAreset h x0 x1 x2 x3) s (s.presents h { c with
          m := .acc 0 { zero := true, sign := false, carry := false, ovf := false }
          q := .acc 0 { zero := true, sign := false, carry := false, ovf := false } }))
      ∧ (∀ x0 x1 x2 : Bool, rowDoes h [true, true, true, true, false, false, false, x0, x1, x2] (.accNoedge h x0 x1 x2) s (s.shows c.outputs))
      ∧ (∃ y, (rowDoes h [true, true, true, true, false, false, true, false, false, false] (.accLoad h) s (s.presents h { c with m := .acc y {
            zero := decide (y = 0), sign := y.testBit (w - 1), carry := false, ovf := false } }))
          ∧ y < 2 ^ w ∧ ∀ i < w, y.testBit i = c.inBit (.d i))
      ∧ (rowDoes h [true, true, true, true, false, false, true, false, false, true] (.accClear h) s (s.presents h { c with
          m := .acc 0 { zero := true, sign := false, carry := false, ovf := false } }))
      ∧ (∃ y, (rowDoes h [true, true, true, true, false, false, true, false, true, false] (.accInc h) s (s.presents h { c with m := .acc y {
            zero := decide (y = 0), sign := y.testBit (w - 1), carry := decide (x = 2 ^ w - 1)
            ovf := decide (x.testBit (w - 1) = false ∧ y.testBit (w - 1) = true) } }))
          ∧ y = (x + 1) % 2 ^ w)
      ∧ (∃ y, (rowDoes h [true, true, true, true, false, false, true, false, true, true] (.accShl h) s (s.presents h { c with m := .acc y {
            zero := decide (y = 0), sign := y.testBit (w - 1), carry := x.testBit (w - 1), ovf := false } }))
          ∧ y = 2 * x % 2 ^ w)
      ∧ (∃ y, (rowDoes h [true, true, true, true, false, false, true, true, false, false] (.accShr h) s (s.presents h { c with m := .acc y {
            zero := decide (y = 0), sign := false, carry := x.testBit 0, ovf := false } }))
          ∧ y = x / 2)
      ∧ (rowDoes h [true, true, true, true, false, false, true, true, false, true] (.accInvalid5 h) s (s.answer (.failed .invalidOperation)))
      ∧ (∀ x0 : Bool, rowDoes h [true, true, true, true, false, false, true, true, true, x0] (.accInvalid67 h x0) s (s.answer (.failed .invalidOperation)))

/-- Clocked kinds present the slave stage, Adder and ALU their held outputs. For every clocked kind but Memory, and for Adder and ALU, the presented bits are those of the stored slave stage or held outputs, in pin order; a D, JK or T flip-flop presents the slave bit and its complement. (42_sequential.md R163, 43_registers_counters.md R205, 43_registers_counters.md R213, 43_registers_counters.md R222, 43_registers_counters.md R225, 43_registers_counters.md R235, 43_registers_counters.md R247, 43_registers_counters.md R252, 43_registers_counters.md R257, 45_arithmetic.md R300, 45_arithmetic.md R321, 46_memory_accumulator.md R358.) -/
def Obligations.StoredOutputs : Prop :=
  (∀ (c : Comp) w x, c.q = .word x →
      (c.params ∈ [.register w, .univShiftRegister w, .ringCounter w, .johnsonCounter w] →
        c.outputs = (List.range w).map fun i => x.testBit i)
      ∧ (c.params = .shiftRegister w →
        c.outputs = ((List.range w).map fun i => x.testBit i) ++ [x.testBit (w - 1), x.testBit 0]))
    ∧ (∀ (c : Comp) b, c.params ∈ [.dff, .jkff, .tff] → c.q = .bit b → c.outputs = [b, !b])
    ∧ (∀ (c : Comp) w m st v b, c.wf = true → c.params = .counter w m st → c.q = .count v b →
        c.outputs = ((List.range w).map fun i => v.testBit i) ++ [b])
    ∧ (∀ (c : Comp) k ds b, c.wf = true → c.params = .bcdCounter k → c.q = .digits ds b →
        c.outputs = ((List.range (4 * k)).map fun i => (ds.getD (i / 4) 0).testBit (i % 4)) ++ [b])
    ∧ (∀ (c : Comp) n k o, c.params = .clockDivider n → c.q = .divide k o → c.outputs = [o])
    ∧ (∀ (c : Comp) w x co ov, c.params = .adder w → c.q = .sum x co ov →
        c.outputs = ((List.range w).map fun i => x.testBit i) ++ [co, ov])
    ∧ (∀ (c : Comp) w x f, c.params = .alu w → c.q = .alu x f →
        c.outputs = ((List.range w).map fun i => x.testBit i) ++ [f.zero, f.sign, f.carry, f.ovf])
    ∧ (∀ (c : Comp) w x f, c.params = .accumulator w → c.q = .acc x f →
        c.outputs = ((List.range w).map fun i => x.testBit i) ++ [f.zero, f.sign, f.carry, f.ovf])

/-- A counter comes back after M edges and carries once. After n enabled edges up the master holds (v + n) mod M, with the carry exactly when that is 0 (n > 0); after n enabled edges down it holds (v - n) mod M, with the carry exactly when that is M - 1. (43_registers_counters.md R233, 43_registers_counters.md R232.) -/
def Obligations.CounterPeriodIsM : Prop :=
  ∀ (s : State) h c w m st v b n, s.comp? h = some c → c.params = .counter w m st → c.wf = true → c.m = .count v b →
    (∃ t d, iterate (.ctrUp h) n s = some t ∧ t.comp? h = some d
        ∧ d.m = .count ((v + n) % m) (if n = 0 then b else decide ((v + n) % m = 0)))
      ∧ (∃ t d, iterate (.ctrDown h) n s = some t ∧ t.comp? h = some d
        ∧ d.m = .count ((v + (m - 1) * n) % m) (if n = 0 then b else decide ((v + (m - 1) * n) % m = m - 1)))

/-- A Johnson counter has cycle length 2W. After W steps every bit of the master is complemented, after 2W steps the word is back, and from 0 no smaller positive number of steps brings 0 back. (43_registers_counters.md R248, 43_registers_counters.md R251.) -/
def Obligations.JohnsonPeriodIsTwiceW : Prop :=
  ∀ (s : State) h c w y, s.comp? h = some c → c.params = .johnsonCounter w → c.wf = true → c.m = .word y →
    (∃ t d, iterate (.johnsonStep h) w s = some t ∧ t.comp? h = some d ∧ d.m = .word (2 ^ w - 1 - y))
      ∧ (∃ t d, iterate (.johnsonStep h) (2 * w) s = some t ∧ t.comp? h = some d ∧ d.m = .word y)
      ∧ (y = 0 → ∀ n, 0 < n → n < 2 * w →
          ∃ t d x, iterate (.johnsonStep h) n s = some t ∧ t.comp? h = some d ∧ d.m = .word x ∧ x ≠ 0)

/-- The overflow flags are signed overflow. For W-bit operands the addition flag is 1 exactly when tc(A) + tc(B) + cin lies outside the W-bit signed range, and the subtraction flag exactly when tc(A) - tc(B) does. (45_arithmetic.md R302, 00_scope.md R6.) -/
def Obligations.OverflowIsSignedOverflow : Prop :=
  ∀ (w a b : Nat) (cin : Bool), 1 ≤ w → a < 2 ^ w → b < 2 ^ w →
    (ovfAdd w a b ((a + b + cin.toNat) % 2 ^ w) = true ↔
        tc w a + tc w b + cin.toNat < -2 ^ (w - 1) ∨ 2 ^ (w - 1) - 1 < tc w a + tc w b + cin.toNat)
      ∧ (ovfSub w a b ((a + 2 ^ w - b) % 2 ^ w) = true ↔
        tc w a - tc w b < -2 ^ (w - 1) ∨ 2 ^ (w - 1) - 1 < tc w a - tc w b)

/-- A committed write is what the memory reads, and other words stay. After a write and a Tick the slave map reads the written word at the addressed place and the master's old word everywhere else; before the Tick it still reads the old slave word. (46_memory_accumulator.md R351, 46_memory_accumulator.md R352, 46_memory_accumulator.md R355, 46_memory_accumulator.md R356.) -/
def Obligations.MemoryReadAfterWrite : Prop :=
  ∀ (s : State) h c a d mm mq, s.comp? h = some c → c.params = .memory a d → c.wf = true → c.m = .cells mm → c.q = .cells mq →
    ∃ t u ct cu mm', exec (.memWrite h) s = .next t ∧ exec (.tick h) t = .next u
      ∧ t.comp? h = some ct ∧ ct.q = .cells mq ∧ u.comp? h = some cu ∧ cu.m = .cells mm' ∧ cu.q = .cells mm'
      ∧ Memory.read mm' (wordOf a fun i => c.inBit (.addr i)) = (wordOf d fun i => c.inBit (.wdata i))
      ∧ ∀ x, x ≠ (wordOf a fun i => c.inBit (.addr i)) → Memory.read mm' x = Memory.read mm x

/-- Load, ClockEdge, Read gives the value back. On a register with SET and RESET low and well-formed levels, the writes of Load(v), an edge, a Tick and the reads of Q return the low W bits of v; the caller is warned OutOfRange exactly when v does not fit. (43_registers_counters.md R203, 30_encoding.md R94, 30_encoding.md R95, 60_exceptions.md R403.) -/
def Obligations.RegisterLoadClockRead : Prop :=
  ∀ (s : State) h c w v, s.comp? h = some c → c.params = .register w → c.wf = true →
    c.inBit .set = false → c.inBit .reset = false →
    wordOfResults c.cfg
        ((runOps ((registerLoad h c v).ops ++ opClock h c ++ opRW h c w .q) s).2.drop (w + 3)) = v % 2 ^ w
      ∧ ((registerLoad h c v).warning = some .outOfRange ↔ 2 ^ w ≤ v)
      ∧ ((registerLoad h c v).warning = none ↔ v < 2 ^ w)

/-- CreateComponent appends a component in its reset state or fails. While building, with admissible arguments, the new component is appended and its index returned; once running, or with a parameter out of range, an ill-formed configuration or kind 31, the call fails with ConfigurationError and nothing changes. (47_scheduler_graph.md R381, 60_exceptions.md R405.) -/
def Obligations.CreateComponent : Prop :=
  ∀ (s : State) (config : CompConfig),
    (s.phase = .building → config.params.ok = true → config.cfg.ok = true →
        exec (.gCreate config) s = .next { s with comps := s.comps ++ [newComp config], result := .handle s.comps.length })
      ∧ (s.phase = .running ∨ config.params.ok = false ∨ config.cfg.ok = false →
        exec (.gCreate config) s = .next { s with result := .failed .configurationError })

/-- A component after construction. Every input buffer and the previous clock hold cfg.low, VCC cfg.high and GND cfg.low; every input reads 0; NOT, NAND and NOR present 1, the complement output of a latch or flip-flop is 1 and the output 0, the ALU's and Accumulator's ZERO is 1, decoder line 0 alone is 1, and quotient and remainder are all ones. Every stored value is 0, every carry and overflow flag 0, a Memory reads 0 at every address in both stages, an Accumulator or ALU holds 0 with ZERO set, but a ring counter holds 1; both stages of a clocked kind hold it. (10_state.md R22, 10_state.md R23, 10_state.md R24, 10_state.md R46, 70_reset_and_hazards.md R441.) -/
def Obligations.StateAfterConstruction : Prop :=
  ∀ config : CompConfig, config.ok = true →
    (newComp config).clkPrev = config.cfg.low ∧ (newComp config).vcc = config.cfg.high
      ∧ (newComp config).gnd = config.cfg.low ∧ (newComp config).wf = true
      ∧ (∀ P ∈ bufferedPins config.params, readBuffer P (newComp config).ins = some config.cfg.low)
      ∧ (∀ P, (newComp config).inBit P = false)
      ∧ (config.params = .notGate → (newComp config).outputs = [true])
      ∧ (∀ n, config.params = .nandGate n ∨ config.params = .norGate n → (newComp config).outputs = [true])
      ∧ (config.params ∈ [.srLatch, .dLatch, .dff, .jkff, .tff] → (newComp config).outputs = [false, true])
      ∧ (∀ w, config.params = .alu w ∨ config.params = .accumulator w →
          (newComp config).outputs = List.replicate w false ++ [true, false, false, false])
      ∧ (∀ k, config.params = .decoder k →
          (newComp config).outputs = true :: List.replicate (2 ^ k - 1) false)
      ∧ (∀ w, config.params = .divider w → (newComp config).outputs = List.replicate (2 * w) true ++ [false])
      ∧ (config.params ∈ [.srLatch, .dLatch] → (newComp config).q = .bit false)
      ∧ (config.params ∈ [.dff, .jkff, .tff] → (newComp config).m = .bit false ∧ (newComp config).q = .bit false)
      ∧ (∀ w, config.params ∈ [.register w, .shiftRegister w, .univShiftRegister w, .johnsonCounter w] →
          (newComp config).m = .word 0 ∧ (newComp config).q = .word 0)
      ∧ (∀ w, config.params = .ringCounter w → (newComp config).m = .word 1 ∧ (newComp config).q = .word 1)
      ∧ (∀ w m st, config.params = .counter w m st →
          (newComp config).m = .count 0 false ∧ (newComp config).q = .count 0 false)
      ∧ (∀ k, config.params = .bcdCounter k →
          (newComp config).m = .digits (List.replicate k 0) false ∧ (newComp config).q = .digits (List.replicate k 0) false)
      ∧ (∀ n, config.params = .clockDivider n →
          (newComp config).m = .divide 0 false ∧ (newComp config).q = .divide 0 false)
      ∧ (∀ w, config.params = .adder w → (newComp config).q = .sum 0 false false)
      ∧ (∀ w, config.params = .divider w → (newComp config).q = .dz false)
      ∧ (∀ w, config.params = .alu w →
          (newComp config).q = .alu 0 { zero := true, sign := false, carry := false, ovf := false })
      ∧ (∀ w, config.params = .accumulator w →
          (newComp config).m = .acc 0 { zero := true, sign := false, carry := false, ovf := false }
          ∧ (newComp config).q = .acc 0 { zero := true, sign := false, carry := false, ovf := false })
      ∧ (∀ a d, config.params = .memory a d →
          ∃ mm mq, (newComp config).m = .cells mm ∧ (newComp config).q = .cells mq
            ∧ ∀ x, Memory.read mm x = 0 ∧ Memory.read mq x = 0)

/-- Connect joins an output pin to an unwired input pin or fails with the first error. While building, a wire from an output pin to an input pin at which no wire ends is appended; otherwise the first check that fails names the error and nothing changes. (47_scheduler_graph.md R382, 60_exceptions.md R405, 60_exceptions.md R414, 20_memory.md R72.) -/
def Obligations.ConnectChecks : Prop :=
  ∀ (s : State) (fh fp th tp : Nat) (a b : Comp),
    (s.phase = .running → exec (.gConnect fh fp th tp) s = .next (s.fail .configurationError))
      ∧ (s.comp? fh = none ∨ s.comp? th = none → exec (.gConnect fh fp th tp) s = .next (s.fail .configurationError))
      ∧ (s.phase = .building → s.comp? fh = some a → s.comp? th = some b →
        (npins a.params ≤ fp ∨ npins b.params ≤ tp → exec (.gConnect fh fp th tp) s = .next (s.fail .unknownPin))
        ∧ (fp < npins a.params → tp < npins b.params →
          (isOutputId a.params fp = false ∨ isInputId b.params tp = false
              ∨ (∃ w ∈ s.wires, w.toH = th ∧ w.toP = tp) →
            exec (.gConnect fh fp th tp) s = .next (s.fail .configurationError))
          ∧ (isOutputId a.params fp = true → isInputId b.params tp = true →
              (∀ w ∈ s.wires, ¬(w.toH = th ∧ w.toP = tp)) →
            exec (.gConnect fh fp th tp) s = .next { s with
              wires := s.wires ++ [{ fromH := fh, fromP := fp, toH := th, toP := tp }], result := .ok })))

/-- Drive queues a write, Observe reads a pin. In either phase Drive of a pin at which no wire ends appends to the pending drives and changes nothing else, and fails otherwise with the first error; Observe answers exactly what ReadPin answers, with ConfigurationError for a handle that names no component. (47_scheduler_graph.md R383, 47_scheduler_graph.md R384, 60_exceptions.md R405.) -/
def Obligations.DriveQueuesAndObserveReads : Prop :=
  (∀ (s : State) h p v, s.comp? h = none → exec (.gDrive h p v) s = .next (s.fail .configurationError))
    ∧ (∀ (s : State) h p v c, s.comp? h = some c →
      (npins c.params ≤ p → exec (.gDrive h p v) s = .next (s.fail .unknownPin))
      ∧ (p < npins c.params →
        ((∃ w ∈ s.wires, w.toH = h ∧ w.toP = p) → exec (.gDrive h p v) s = .next (s.fail .configurationError))
        ∧ ((∀ w ∈ s.wires, ¬(w.toH = h ∧ w.toP = p)) →
          exec (.gDrive h p v) s = .next { s with pending := s.pending ++ [{ h := h, p := p, v := v }], result := .ok })))
    ∧ (∀ (s : State) h p, s.comp? h = none → exec (.gObserve h p) s = .next (s.fail .configurationError))
    ∧ (∀ (s : State) h p c, s.comp? h = some c →
      exec (.gObserve h p) s = exec (.readPin h p) s
      ∧ ∃ r, exec (.gObserve h p) s = .next (s.answer r))

/-- The graph tick. A running graph (a) applies the pending drives in order, (b) ticks every component of the order, (w) copies the wires of each component of the order; the queue is then empty. A building graph first takes its order and starts running, or, with a cyclic wiring, fails with ConfigurationError and nothing changes. Each step is spelled out: a drive is a WritePin, a tick a Tick, the copy of a wire a ReadPin at its output end and a WritePin of what it returned at its input end, the wires of one component in creation order; the failures of these are dropped. Step (b) ticks each component of the order and no other, and after a tick an input pin at which no wire ends holds the last voltage driven on it. (47_scheduler_graph.md R385, 47_scheduler_graph.md R387.) -/
def Obligations.GraphTickSteps : Prop :=
  (∀ s : State, s.phase = .running →
      exec .gTick s = .next { s with
        comps := propagate (tickComps (applyDrives s.comps s.pending) s.order) s.wires s.order
        pending := [], result := .ok })
    ∧ (∀ (s : State) (o : List Nat), s.phase = .building → topoOrder s.comps s.wires = some o →
      exec .gTick s = .next { s with
        comps := propagate (tickComps (applyDrives s.comps s.pending) o) s.wires o
        pending := [], order := o, phase := .running, result := .ok })
    ∧ (∀ s : State, s.phase = .building → topoOrder s.comps s.wires = none →
      exec .gTick s = .next (s.fail .configurationError))
    ∧ (∀ comps, applyDrives comps [] = comps)
    ∧ (∀ (s : State) d rest, ∃ t, exec (.writePin d.h d.p d.v) s = .next t
        ∧ applyDrives s.comps (d :: rest) = applyDrives t.comps rest)
    ∧ (∀ comps, tickComps comps [] = comps)
    ∧ (∀ (s : State) h rest, ∃ t, exec (.tick h) s = .next t ∧ tickComps s.comps (h :: rest) = tickComps t.comps rest)
    ∧ (∀ comps order h, (tickComps comps order)[h]? = (comps[h]?).map fun c => if h ∈ order then c.tick else c)
    ∧ (∀ comps wires, propagate comps wires [] = comps)
    ∧ (∀ comps wires h rest, propagate comps wires (h :: rest) =
        propagate ((wires.filter fun w => w.fromH = h).foldl copyWire comps) wires rest)
    ∧ (∀ (s t : State) (w : Wire) v, exec (.readPin w.fromH w.fromP) s = .next t → t.result = .voltage v →
        ∃ u, exec (.writePin w.toH w.toP v) s = .next u ∧ copyWire s.comps w = u.comps)
    ∧ (∀ (s t : State) (before after : List DriveReq) (d : DriveReq) (c : Comp), s.wf = true → exec .gTick s = .next t →
        t.result = .ok → s.pending = before ++ d :: after → (∀ e ∈ after, ¬(e.h = d.h ∧ e.p = d.p)) →
        (∀ w ∈ s.wires, ¬(w.toH = d.h ∧ w.toP = d.p)) → t.comp? d.h = some c → d.p < (inputPins c.params).length →
        c.heldAt d.p = some d.v)

/-- TickN is n successive ticks. TickN(0) does nothing; TickN(n+1) is a tick and then TickN(n), in which the queue is empty; if the first tick fails TickN fails at once and runs none; it never fails later; TickN(3) is three ticks. (R386.) -/
def Obligations.TickNIsSuccessiveTicks : Prop :=
  (∀ s, exec (.gTickN 0) s = .next (s.answer .ok))
    ∧ (∀ (s t : State) (n : Nat), s.graphTick = some t → exec (.gTickN (n + 1)) s = exec (.gTickN n) t ∧ t.pending = [])
    ∧ (∀ (s : State) (n : Nat), s.graphTick = none →
      exec .gTick s = .next (s.fail .configurationError) ∧ exec (.gTickN (n + 1)) s = .next (s.fail .configurationError))
    ∧ (∀ (s t : State) (n : Nat), s.graphTick = some t → ∃ u, exec (.gTickN n) t = .next u ∧ u.result = .ok)
    ∧ (∀ s t, iterate .gTick 3 s = some t → t.result = .ok → exec (.gTickN 3) s = .next t)

/-- The first tick finds a topological order exactly when there is one. For well-formed wires, what the machine finds lists every component once, each after all it depends on; and it finds nothing only where no such list exists. (47_scheduler_graph.md R387, 70_reset_and_hazards.md R450.) -/
def Obligations.OrderExistsIffAcyclic : Prop :=
  ∀ comps wires, wires.all (wireOk comps) = true →
    (∀ o, topoOrder comps wires = some o → isTopoOrder comps wires o = true ∧ o.Nodup)
      ∧ (topoOrder comps wires = none → ∀ o, isTopoOrder comps wires o = false)

/-- The order takes the lowest ready handle at each step. Each component of the order is the lowest handle, among those not yet placed, all of whose dependencies are already placed. The dependencies are spelled from the table of R387: a wire makes no dependency exactly where it ends at a pin other than SET and RESET of a clocked kind that is no Memory, or at WDATA, WE or CLK of a Memory. (47_scheduler_graph.md R387.) -/
def Obligations.OrderTakesTheLowestHandle : Prop :=
  (∀ comps wires o n h, topoOrder comps wires = some o → o[n]? = some h →
      ready comps wires (o.take n) h = true ∧ h ∉ o.take n
        ∧ ∀ g, g < h → g ∉ o.take n → ready comps wires (o.take n) g = false)
    ∧ (∀ comps wires placed h, ready comps wires placed h = true ↔
        ∀ w ∈ wires, w.toH = h → dependency comps w = true → w.fromH ∈ placed)
    ∧ (∀ (comps : List Comp) (w : Wire) b P, comps[w.toH]? = some b → (inputPins b.params)[w.toP]? = some P →
        (dependency comps w = false ↔
          (Params.kind b.params ∈ [.dff, .jkff, .tff, .register, .shiftRegister, .univShiftRegister, .counter,
              .bcdCounter, .ringCounter, .johnsonCounter, .clockDivider, .accumulator] ∧ P ≠ .set ∧ P ≠ .reset)
          ∨ (Params.kind b.params = .memory ∧ (P = .we ∨ P = .clk ∨ ∃ j, P = .wdata j))))

/-- After a graph tick every wire holds what its output end presents. From every well-formed state with settled components, after a graph tick that succeeds the input end of every wire holds the voltage that ReadPin returns at its output end. (47_scheduler_graph.md R385, 47_scheduler_graph.md R387.) -/
def Obligations.SweepSettlesEveryWire : Prop :=
  ∀ s t : State, s.wf = true → s.comps.all Comp.settled = true → s.graphTick = some t →
    ∀ w ∈ t.wires, ∀ a b : Comp, t.comps[w.fromH]? = some a → t.comps[w.toH]? = some b →
      ∃ v, a.readPin? w.fromP = some v ∧ b.heldAt w.toP = some v

/-- The state after reset meets the invariants. A new graph has no components, wires, drives or order and is building; it is well formed and every component is settled (the empty script and the empty result are the model's own, log entry 2). (10_state.md R40, 47_scheduler_graph.md R380.) -/
def Obligations.ResetState : Prop :=
  State.reset.comps = [] ∧ State.reset.wires = [] ∧ State.reset.pending = [] ∧ State.reset.order = []
    ∧ State.reset.phase = .building ∧ State.reset.wf = true ∧ State.reset.comps.all Comp.settled = true

/-- Every step keeps the state well formed. From every well-formed state, whatever the script holds, a step that ends in a next state ends in a well-formed one: counters and digits in range, the ring one-hot, memories canonical, flags describing their word, one writer per pin, the order topological. (10_state.md R47, 10_state.md R22, 20_memory.md R72, 47_scheduler_graph.md R387.) -/
def Obligations.StepsKeepTheInvariant : Prop :=
  ∀ s t : State, s.wf = true → step s = .next t → t.wf = true

/-- Every step keeps every component settled. From every well-formed state with settled components a step leaves them settled: under a high asynchronous pin the forced state stands, a transparent latch holds its input, and an Adder or ALU with a valid selector shows the function of its buffers. (40_contract.md R107, 42_sequential.md R174, 45_arithmetic.md R301, 45_arithmetic.md R322.) -/
def Obligations.StepsKeepComponentsSettled : Prop :=
  ∀ s t : State, s.wf = true → s.comps.all Comp.settled = true → step s = .next t → t.comps.all Comp.settled = true

/-- No failure stops the machine. From every well-formed state whose script holds only codes of the spec, a step ends in a next state: a failed operation is an answer. A write run as its component operation always finds one (log entry 2). (00_scope.md R8, 60_exceptions.md R406, 60_exceptions.md R417.) -/
def Obligations.WellFormedScriptsNeverStop : Prop :=
  ∀ s : State, s.wf = true → scriptOk s = true → ∃ t, step s = .next t

/-- A component operation or contract operation changes its own component alone. When it ends in a next state the graph, the script and every other component are unchanged; its component keeps its parameters, levels and edge; a component operation also keeps every buffer, the previous clock, VCC and GND. A step that runs a write as its component operation leaves the state of that WritePin but for the answer, and fails exactly where it fails: no step changes a component otherwise than by WritePin and Tick. (00_scope.md R8, 60_exceptions.md R421, 10_state.md R20, 10_state.md R41, 10_state.md R48.) -/
def Obligations.OperationsTouchOneComponent : Prop :=
  (∀ (i : Instr) (s t : State) (h : Nat), handleOf? i = some h → exec i s = .next t →
      t.wires = s.wires ∧ t.pending = s.pending ∧ t.order = s.order ∧ t.phase = s.phase ∧ t.script = s.script
        ∧ t.comps.length = s.comps.length ∧ (∀ j, j ≠ h → t.comps[j]? = s.comps[j]?)
        ∧ ∀ c d : Comp, s.comps[h]? = some c → t.comps[h]? = some d →
          d.params = c.params ∧ d.cfg = c.cfg ∧ d.edge = c.edge
          ∧ ((rowTarget i).isSome = true → d.ins = c.ins ∧ d.clkPrev = c.clkPrev ∧ d.vcc = c.vcc ∧ d.gnd = c.gnd))
    ∧ (∀ (s t : State) h p v port rest, s.script = .operate h p v port :: rest → step s = .next t →
        ∃ u, exec (.writePin h p v) (s.withScript rest) = .next u ∧ t = u.answer t.result
          ∧ ∀ e, t.result = .failed e ↔ u.result = .failed e)
    ∧ (∀ (s t : State) r rest, s.script = r :: rest → step s = .next t →
        (∃ h p v, r = .contract 0b00#2 h p v) ∨ (∃ h p v, r = .contract 0b10#2 h p v) ∨ (∃ h p v port, r = .operate h p v port)
          ∨ (∃ o, r = .graph 0b100#3 o ∨ r = .graph 0b101#3 o)
          ∨ ∀ (j : Nat) (c : Comp), s.comps[j]? = some c → t.comps[j]? = some c)

/-- A failed operation stores at most the voltage it wrote. No operation returns OutOfRange or DivByZero. One that returns UnknownPin or ConfigurationError leaves the state as it was. One that returns InvalidOperation is a WritePin to an input pin that has stored its voltage, in the written buffer or in clk_prev, and changed nothing else; or it is a component operation run as an instruction, and has changed nothing. A contract or component operation whose handle names no component returns ConfigurationError (DEDUCED, the model's reading, log entry 5). (60_exceptions.md R400, 60_exceptions.md R401, 60_exceptions.md R402, 60_exceptions.md R404, 60_exceptions.md R405, 60_exceptions.md R416.) -/
def Obligations.FailuresStoreAtMostTheWrittenVoltage : Prop :=
  (∀ (i : Instr) (s t : State), exec i s = .next t → t.result ≠ .failed .outOfRange ∧ t.result ≠ .failed .divByZero)
    ∧ (∀ (i : Instr) (s t : State) (e : Err), exec i s = .next t → t.result = .failed e → e = .unknownPin ∨ e = .configurationError →
      t = { s with result := .failed e })
    ∧ (∀ (i : Instr) (s t : State), exec i s = .next t → t.result = .failed .invalidOperation →
      (∃ h p v c P d, i = .writePin h p v ∧ s.comp? h = some c ∧ (inputPins c.params)[p]? = some P
        ∧ d = (if P = .clk then { c with clkPrev := v } else { c with ins := writeBuffer P v c.ins })
        ∧ t = { s with comps := s.comps.set h d, result := .failed .invalidOperation })
      ∨ ((rowTarget i).isSome = true ∧ t = { s with result := .failed .invalidOperation }))
    ∧ (∀ (i : Instr) (s : State) (h : Nat), handleOf? i = some h → s.comp? h = none →
      exec i s = .next { s with result := .failed .configurationError })
end

