-- ==== Sys2Proof/Laws/State.lean ====
section
/-! SUPPORT. One lemma per field per named update of a component and of the state. -/

namespace Sys2Proof.Machine

/-! ### Components -/

@[simp] theorem Comp.withIn_params (c : Comp) (P : Pin) (v : Voltage) : (c.withIn P v).params = c.params := rfl
@[simp] theorem Comp.withIn_cfg (c : Comp) (P : Pin) (v : Voltage) : (c.withIn P v).cfg = c.cfg := rfl
@[simp] theorem Comp.withIn_edge (c : Comp) (P : Pin) (v : Voltage) : (c.withIn P v).edge = c.edge := rfl
@[simp] theorem Comp.withIn_ins (c : Comp) (P : Pin) (v : Voltage) : (c.withIn P v).ins = writeBuffer P v c.ins := rfl
@[simp] theorem Comp.withIn_clkPrev (c : Comp) (P : Pin) (v : Voltage) : (c.withIn P v).clkPrev = c.clkPrev := rfl
@[simp] theorem Comp.withIn_vcc (c : Comp) (P : Pin) (v : Voltage) : (c.withIn P v).vcc = c.vcc := rfl
@[simp] theorem Comp.withIn_gnd (c : Comp) (P : Pin) (v : Voltage) : (c.withIn P v).gnd = c.gnd := rfl
@[simp] theorem Comp.withIn_m (c : Comp) (P : Pin) (v : Voltage) : (c.withIn P v).m = c.m := rfl
@[simp] theorem Comp.withIn_q (c : Comp) (P : Pin) (v : Voltage) : (c.withIn P v).q = c.q := rfl

@[simp] theorem Comp.withClkPrev_params (c : Comp) (v : Voltage) : (c.withClkPrev v).params = c.params := rfl
@[simp] theorem Comp.withClkPrev_cfg (c : Comp) (v : Voltage) : (c.withClkPrev v).cfg = c.cfg := rfl
@[simp] theorem Comp.withClkPrev_edge (c : Comp) (v : Voltage) : (c.withClkPrev v).edge = c.edge := rfl
@[simp] theorem Comp.withClkPrev_ins (c : Comp) (v : Voltage) : (c.withClkPrev v).ins = c.ins := rfl
@[simp] theorem Comp.withClkPrev_clkPrev (c : Comp) (v : Voltage) : (c.withClkPrev v).clkPrev = v := rfl
@[simp] theorem Comp.withClkPrev_vcc (c : Comp) (v : Voltage) : (c.withClkPrev v).vcc = c.vcc := rfl
@[simp] theorem Comp.withClkPrev_gnd (c : Comp) (v : Voltage) : (c.withClkPrev v).gnd = c.gnd := rfl
@[simp] theorem Comp.withClkPrev_m (c : Comp) (v : Voltage) : (c.withClkPrev v).m = c.m := rfl
@[simp] theorem Comp.withClkPrev_q (c : Comp) (v : Voltage) : (c.withClkPrev v).q = c.q := rfl

@[simp] theorem Comp.withVcc_params (c : Comp) (v : Voltage) : (c.withVcc v).params = c.params := rfl
@[simp] theorem Comp.withVcc_cfg (c : Comp) (v : Voltage) : (c.withVcc v).cfg = c.cfg := rfl
@[simp] theorem Comp.withVcc_edge (c : Comp) (v : Voltage) : (c.withVcc v).edge = c.edge := rfl
@[simp] theorem Comp.withVcc_ins (c : Comp) (v : Voltage) : (c.withVcc v).ins = c.ins := rfl
@[simp] theorem Comp.withVcc_clkPrev (c : Comp) (v : Voltage) : (c.withVcc v).clkPrev = c.clkPrev := rfl
@[simp] theorem Comp.withVcc_vcc (c : Comp) (v : Voltage) : (c.withVcc v).vcc = v := rfl
@[simp] theorem Comp.withVcc_gnd (c : Comp) (v : Voltage) : (c.withVcc v).gnd = c.gnd := rfl
@[simp] theorem Comp.withVcc_m (c : Comp) (v : Voltage) : (c.withVcc v).m = c.m := rfl
@[simp] theorem Comp.withVcc_q (c : Comp) (v : Voltage) : (c.withVcc v).q = c.q := rfl

@[simp] theorem Comp.withGnd_params (c : Comp) (v : Voltage) : (c.withGnd v).params = c.params := rfl
@[simp] theorem Comp.withGnd_cfg (c : Comp) (v : Voltage) : (c.withGnd v).cfg = c.cfg := rfl
@[simp] theorem Comp.withGnd_edge (c : Comp) (v : Voltage) : (c.withGnd v).edge = c.edge := rfl
@[simp] theorem Comp.withGnd_ins (c : Comp) (v : Voltage) : (c.withGnd v).ins = c.ins := rfl
@[simp] theorem Comp.withGnd_clkPrev (c : Comp) (v : Voltage) : (c.withGnd v).clkPrev = c.clkPrev := rfl
@[simp] theorem Comp.withGnd_vcc (c : Comp) (v : Voltage) : (c.withGnd v).vcc = c.vcc := rfl
@[simp] theorem Comp.withGnd_gnd (c : Comp) (v : Voltage) : (c.withGnd v).gnd = v := rfl
@[simp] theorem Comp.withGnd_m (c : Comp) (v : Voltage) : (c.withGnd v).m = c.m := rfl
@[simp] theorem Comp.withGnd_q (c : Comp) (v : Voltage) : (c.withGnd v).q = c.q := rfl

@[simp] theorem Comp.withM_params (c : Comp) (r : Regs) : (c.withM r).params = c.params := rfl
@[simp] theorem Comp.withM_cfg (c : Comp) (r : Regs) : (c.withM r).cfg = c.cfg := rfl
@[simp] theorem Comp.withM_edge (c : Comp) (r : Regs) : (c.withM r).edge = c.edge := rfl
@[simp] theorem Comp.withM_ins (c : Comp) (r : Regs) : (c.withM r).ins = c.ins := rfl
@[simp] theorem Comp.withM_clkPrev (c : Comp) (r : Regs) : (c.withM r).clkPrev = c.clkPrev := rfl
@[simp] theorem Comp.withM_vcc (c : Comp) (r : Regs) : (c.withM r).vcc = c.vcc := rfl
@[simp] theorem Comp.withM_gnd (c : Comp) (r : Regs) : (c.withM r).gnd = c.gnd := rfl
@[simp] theorem Comp.withM_m (c : Comp) (r : Regs) : (c.withM r).m = r := rfl
@[simp] theorem Comp.withM_q (c : Comp) (r : Regs) : (c.withM r).q = c.q := rfl

@[simp] theorem Comp.withQ_params (c : Comp) (r : Regs) : (c.withQ r).params = c.params := rfl
@[simp] theorem Comp.withQ_cfg (c : Comp) (r : Regs) : (c.withQ r).cfg = c.cfg := rfl
@[simp] theorem Comp.withQ_edge (c : Comp) (r : Regs) : (c.withQ r).edge = c.edge := rfl
@[simp] theorem Comp.withQ_ins (c : Comp) (r : Regs) : (c.withQ r).ins = c.ins := rfl
@[simp] theorem Comp.withQ_clkPrev (c : Comp) (r : Regs) : (c.withQ r).clkPrev = c.clkPrev := rfl
@[simp] theorem Comp.withQ_vcc (c : Comp) (r : Regs) : (c.withQ r).vcc = c.vcc := rfl
@[simp] theorem Comp.withQ_gnd (c : Comp) (r : Regs) : (c.withQ r).gnd = c.gnd := rfl
@[simp] theorem Comp.withQ_m (c : Comp) (r : Regs) : (c.withQ r).m = c.m := rfl
@[simp] theorem Comp.withQ_q (c : Comp) (r : Regs) : (c.withQ r).q = r := rfl

@[simp] theorem Comp.withBoth_params (c : Comp) (r : Regs) : (c.withBoth r).params = c.params := rfl
@[simp] theorem Comp.withBoth_cfg (c : Comp) (r : Regs) : (c.withBoth r).cfg = c.cfg := rfl
@[simp] theorem Comp.withBoth_edge (c : Comp) (r : Regs) : (c.withBoth r).edge = c.edge := rfl
@[simp] theorem Comp.withBoth_ins (c : Comp) (r : Regs) : (c.withBoth r).ins = c.ins := rfl
@[simp] theorem Comp.withBoth_clkPrev (c : Comp) (r : Regs) : (c.withBoth r).clkPrev = c.clkPrev := rfl
@[simp] theorem Comp.withBoth_vcc (c : Comp) (r : Regs) : (c.withBoth r).vcc = c.vcc := rfl
@[simp] theorem Comp.withBoth_gnd (c : Comp) (r : Regs) : (c.withBoth r).gnd = c.gnd := rfl
@[simp] theorem Comp.withBoth_m (c : Comp) (r : Regs) : (c.withBoth r).m = r := rfl
@[simp] theorem Comp.withBoth_q (c : Comp) (r : Regs) : (c.withBoth r).q = r := rfl

@[simp] theorem Comp.commit_params (c : Comp) : c.commit.params = c.params := rfl
@[simp] theorem Comp.commit_cfg (c : Comp) : c.commit.cfg = c.cfg := rfl
@[simp] theorem Comp.commit_edge (c : Comp) : c.commit.edge = c.edge := rfl
@[simp] theorem Comp.commit_ins (c : Comp) : c.commit.ins = c.ins := rfl
@[simp] theorem Comp.commit_clkPrev (c : Comp) : c.commit.clkPrev = c.clkPrev := rfl
@[simp] theorem Comp.commit_vcc (c : Comp) : c.commit.vcc = c.vcc := rfl
@[simp] theorem Comp.commit_gnd (c : Comp) : c.commit.gnd = c.gnd := rfl
@[simp] theorem Comp.commit_m (c : Comp) : c.commit.m = c.m := rfl
@[simp] theorem Comp.commit_q (c : Comp) : c.commit.q = c.m := rfl

/-! ### The state -/

@[simp] theorem State.setComp_comps (s : State) (h : Nat) (c : Comp) : (s.setComp h c).comps = s.comps.set h c := rfl
@[simp] theorem State.setComp_wires (s : State) (h : Nat) (c : Comp) : (s.setComp h c).wires = s.wires := rfl
@[simp] theorem State.setComp_pending (s : State) (h : Nat) (c : Comp) : (s.setComp h c).pending = s.pending := rfl
@[simp] theorem State.setComp_order (s : State) (h : Nat) (c : Comp) : (s.setComp h c).order = s.order := rfl
@[simp] theorem State.setComp_phase (s : State) (h : Nat) (c : Comp) : (s.setComp h c).phase = s.phase := rfl
@[simp] theorem State.setComp_script (s : State) (h : Nat) (c : Comp) : (s.setComp h c).script = s.script := rfl
@[simp] theorem State.setComp_result (s : State) (h : Nat) (c : Comp) : (s.setComp h c).result = s.result := rfl

@[simp] theorem State.withComps_comps (s : State) (cs : List Comp) : (s.withComps cs).comps = cs := rfl
@[simp] theorem State.withComps_wires (s : State) (cs : List Comp) : (s.withComps cs).wires = s.wires := rfl
@[simp] theorem State.withComps_pending (s : State) (cs : List Comp) : (s.withComps cs).pending = s.pending := rfl
@[simp] theorem State.withComps_order (s : State) (cs : List Comp) : (s.withComps cs).order = s.order := rfl
@[simp] theorem State.withComps_phase (s : State) (cs : List Comp) : (s.withComps cs).phase = s.phase := rfl
@[simp] theorem State.withComps_script (s : State) (cs : List Comp) : (s.withComps cs).script = s.script := rfl
@[simp] theorem State.withComps_result (s : State) (cs : List Comp) : (s.withComps cs).result = s.result := rfl

@[simp] theorem State.addComp_comps (s : State) (c : Comp) : (s.addComp c).comps = s.comps ++ [c] := rfl
@[simp] theorem State.addComp_wires (s : State) (c : Comp) : (s.addComp c).wires = s.wires := rfl
@[simp] theorem State.addComp_pending (s : State) (c : Comp) : (s.addComp c).pending = s.pending := rfl
@[simp] theorem State.addComp_order (s : State) (c : Comp) : (s.addComp c).order = s.order := rfl
@[simp] theorem State.addComp_phase (s : State) (c : Comp) : (s.addComp c).phase = s.phase := rfl
@[simp] theorem State.addComp_script (s : State) (c : Comp) : (s.addComp c).script = s.script := rfl
@[simp] theorem State.addComp_result (s : State) (c : Comp) : (s.addComp c).result = s.result := rfl

@[simp] theorem State.addWire_comps (s : State) (w : Wire) : (s.addWire w).comps = s.comps := rfl
@[simp] theorem State.addWire_wires (s : State) (w : Wire) : (s.addWire w).wires = s.wires ++ [w] := rfl
@[simp] theorem State.addWire_pending (s : State) (w : Wire) : (s.addWire w).pending = s.pending := rfl
@[simp] theorem State.addWire_order (s : State) (w : Wire) : (s.addWire w).order = s.order := rfl
@[simp] theorem State.addWire_phase (s : State) (w : Wire) : (s.addWire w).phase = s.phase := rfl
@[simp] theorem State.addWire_script (s : State) (w : Wire) : (s.addWire w).script = s.script := rfl
@[simp] theorem State.addWire_result (s : State) (w : Wire) : (s.addWire w).result = s.result := rfl

@[simp] theorem State.addDrive_comps (s : State) (d : DriveReq) : (s.addDrive d).comps = s.comps := rfl
@[simp] theorem State.addDrive_wires (s : State) (d : DriveReq) : (s.addDrive d).wires = s.wires := rfl
@[simp] theorem State.addDrive_pending (s : State) (d : DriveReq) : (s.addDrive d).pending = s.pending ++ [d] := rfl
@[simp] theorem State.addDrive_order (s : State) (d : DriveReq) : (s.addDrive d).order = s.order := rfl
@[simp] theorem State.addDrive_phase (s : State) (d : DriveReq) : (s.addDrive d).phase = s.phase := rfl
@[simp] theorem State.addDrive_script (s : State) (d : DriveReq) : (s.addDrive d).script = s.script := rfl
@[simp] theorem State.addDrive_result (s : State) (d : DriveReq) : (s.addDrive d).result = s.result := rfl

@[simp] theorem State.clearPending_comps (s : State) : s.clearPending.comps = s.comps := rfl
@[simp] theorem State.clearPending_wires (s : State) : s.clearPending.wires = s.wires := rfl
@[simp] theorem State.clearPending_pending (s : State) : s.clearPending.pending = [] := rfl
@[simp] theorem State.clearPending_order (s : State) : s.clearPending.order = s.order := rfl
@[simp] theorem State.clearPending_phase (s : State) : s.clearPending.phase = s.phase := rfl
@[simp] theorem State.clearPending_script (s : State) : s.clearPending.script = s.script := rfl
@[simp] theorem State.clearPending_result (s : State) : s.clearPending.result = s.result := rfl

@[simp] theorem State.startRunning_comps (s : State) (o : List Nat) : (s.startRunning o).comps = s.comps := rfl
@[simp] theorem State.startRunning_wires (s : State) (o : List Nat) : (s.startRunning o).wires = s.wires := rfl
@[simp] theorem State.startRunning_pending (s : State) (o : List Nat) : (s.startRunning o).pending = s.pending := rfl
@[simp] theorem State.startRunning_order (s : State) (o : List Nat) : (s.startRunning o).order = o := rfl
@[simp] theorem State.startRunning_phase (s : State) (o : List Nat) : (s.startRunning o).phase = .running := rfl
@[simp] theorem State.startRunning_script (s : State) (o : List Nat) : (s.startRunning o).script = s.script := rfl
@[simp] theorem State.startRunning_result (s : State) (o : List Nat) : (s.startRunning o).result = s.result := rfl

@[simp] theorem State.withScript_comps (s : State) (rs : List Request) : (s.withScript rs).comps = s.comps := rfl
@[simp] theorem State.withScript_wires (s : State) (rs : List Request) : (s.withScript rs).wires = s.wires := rfl
@[simp] theorem State.withScript_pending (s : State) (rs : List Request) : (s.withScript rs).pending = s.pending := rfl
@[simp] theorem State.withScript_order (s : State) (rs : List Request) : (s.withScript rs).order = s.order := rfl
@[simp] theorem State.withScript_phase (s : State) (rs : List Request) : (s.withScript rs).phase = s.phase := rfl
@[simp] theorem State.withScript_script (s : State) (rs : List Request) : (s.withScript rs).script = rs := rfl
@[simp] theorem State.withScript_result (s : State) (rs : List Request) : (s.withScript rs).result = s.result := rfl

@[simp] theorem State.answer_comps (s : State) (r : Result) : (s.answer r).comps = s.comps := rfl
@[simp] theorem State.answer_wires (s : State) (r : Result) : (s.answer r).wires = s.wires := rfl
@[simp] theorem State.answer_pending (s : State) (r : Result) : (s.answer r).pending = s.pending := rfl
@[simp] theorem State.answer_order (s : State) (r : Result) : (s.answer r).order = s.order := rfl
@[simp] theorem State.answer_phase (s : State) (r : Result) : (s.answer r).phase = s.phase := rfl
@[simp] theorem State.answer_script (s : State) (r : Result) : (s.answer r).script = s.script := rfl
@[simp] theorem State.answer_result (s : State) (r : Result) : (s.answer r).result = r := rfl

@[simp] theorem State.fail_comps (s : State) (e : Err) : (s.fail e).comps = s.comps := rfl
@[simp] theorem State.fail_wires (s : State) (e : Err) : (s.fail e).wires = s.wires := rfl
@[simp] theorem State.fail_pending (s : State) (e : Err) : (s.fail e).pending = s.pending := rfl
@[simp] theorem State.fail_order (s : State) (e : Err) : (s.fail e).order = s.order := rfl
@[simp] theorem State.fail_phase (s : State) (e : Err) : (s.fail e).phase = s.phase := rfl
@[simp] theorem State.fail_script (s : State) (e : Err) : (s.fail e).script = s.script := rfl
@[simp] theorem State.fail_result (s : State) (e : Err) : (s.fail e).result = .failed e := rfl

/-! ### Reset -/

@[simp] theorem State.reset_comps : State.reset.comps = [] := rfl
@[simp] theorem State.reset_wires : State.reset.wires = [] := rfl
@[simp] theorem State.reset_pending : State.reset.pending = [] := rfl
@[simp] theorem State.reset_order : State.reset.order = [] := rfl
@[simp] theorem State.reset_phase : State.reset.phase = .building := rfl
@[simp] theorem State.reset_script : State.reset.script = [] := rfl
@[simp] theorem State.reset_result : State.reset.result = .none := rfl

end Sys2Proof.Machine
end

