-- ==== Sys2Proof/Laws/Buffers.lean ====
section
/-! SUPPORT. Input buffers and their logic views (R22, R7, R82), and the values of words assembled from bits (R6). -/

namespace Sys2Proof.Machine

/-! ### Buffers -/

/-- A write keeps the list of buffered pins. -/
@[simp] theorem writeBuffer_pins (P : Pin) (v : Voltage) (ins : List (Pin × Voltage)) :
    (writeBuffer P v ins).map Prod.fst = ins.map Prod.fst := by
  induction ins with
  | nil => rfl
  | cons c rest ih =>
    obtain ⟨Q, u⟩ := c
    simp only [writeBuffer]
    split
    · next h => simp [h]
    · simp [ih]

/-- The pin just written holds the written voltage. -/
theorem readBuffer_write_same {P : Pin} {ins : List (Pin × Voltage)} (v : Voltage) (h : P ∈ ins.map Prod.fst) :
    readBuffer P (writeBuffer P v ins) = some v := by
  induction ins with
  | nil => simp at h
  | cons c rest ih =>
    obtain ⟨Q, u⟩ := c
    simp only [writeBuffer]
    split
    · simp [readBuffer]
    · next hQ =>
      rw [readBuffer, if_neg hQ]
      rw [List.map_cons, List.mem_cons] at h
      exact ih (h.resolve_left fun e => hQ e.symm)

/-- Every other pin keeps its voltage. -/
theorem readBuffer_write_other {P Q : Pin} (v : Voltage) (ins : List (Pin × Voltage)) (h : Q ≠ P) :
    readBuffer Q (writeBuffer P v ins) = readBuffer Q ins := by
  induction ins with
  | nil => rfl
  | cons c rest ih =>
    obtain ⟨R, u⟩ := c
    simp only [writeBuffer]
    split
    · next hR =>
      subst hR
      simp only [readBuffer, if_neg (Ne.symm h)]
    · simp only [readBuffer, ih]

/-- The voltage of a pin after a write to it. -/
theorem Comp.buffer_withIn_same {c : Comp} {P : Pin} (v : Voltage) (h : P ∈ c.ins.map Prod.fst) :
    (c.withIn P v).buffer P = v := by
  simp [Comp.buffer, readBuffer_write_same v h]

/-- The voltage of every other pin after a write. -/
theorem Comp.buffer_withIn_other {c : Comp} {P Q : Pin} (v : Voltage) (h : Q ≠ P) :
    (c.withIn P v).buffer Q = c.buffer Q := by
  simp [Comp.buffer, readBuffer_write_other v c.ins h]

/-- The logic view of a pin after a write to it. -/
theorem Comp.inBit_withIn_same {c : Comp} {P : Pin} (v : Voltage) (h : P ∈ c.ins.map Prod.fst) :
    (c.withIn P v).inBit P = logic c.cfg v := by
  simp [Comp.inBit, Comp.buffer_withIn_same v h]

/-- The logic view of every other pin after a write. -/
theorem Comp.inBit_withIn_other {c : Comp} {P Q : Pin} (v : Voltage) (h : Q ≠ P) :
    (c.withIn P v).inBit Q = c.inBit Q := by
  simp [Comp.inBit, Comp.buffer_withIn_other v h]

/-- A logic view depends on the buffers and the configuration alone. -/
theorem Comp.inBit_congr {c d : Comp} (hi : d.ins = c.ins) (hc : d.cfg = c.cfg) (P : Pin) : d.inBit P = c.inBit P := by
  simp [Comp.inBit, Comp.buffer, hi, hc]

/-- So does a word. -/
theorem Comp.inWord_congr {c d : Comp} (hi : d.ins = c.ins) (hc : d.cfg = c.cfg) (w : Nat) (X : Nat → Pin) :
    d.inWord w X = c.inWord w X := by
  simp [Comp.inWord, Comp.inBit_congr hi hc]

@[simp] theorem Comp.inBit_withM (c : Comp) (r : Regs) (P : Pin) : (c.withM r).inBit P = c.inBit P := rfl
@[simp] theorem Comp.inBit_withQ (c : Comp) (r : Regs) (P : Pin) : (c.withQ r).inBit P = c.inBit P := rfl
@[simp] theorem Comp.inBit_withBoth (c : Comp) (r : Regs) (P : Pin) : (c.withBoth r).inBit P = c.inBit P := rfl
@[simp] theorem Comp.inBit_commit (c : Comp) (P : Pin) : c.commit.inBit P = c.inBit P := rfl
@[simp] theorem Comp.inBit_withClkPrev (c : Comp) (v : Voltage) (P : Pin) : (c.withClkPrev v).inBit P = c.inBit P := rfl
@[simp] theorem Comp.inBit_withVcc (c : Comp) (v : Voltage) (P : Pin) : (c.withVcc v).inBit P = c.inBit P := rfl
@[simp] theorem Comp.inBit_withGnd (c : Comp) (v : Voltage) (P : Pin) : (c.withGnd v).inBit P = c.inBit P := rfl
@[simp] theorem Comp.inWord_withM (c : Comp) (r : Regs) (w : Nat) (X : Nat → Pin) :
    (c.withM r).inWord w X = c.inWord w X := rfl
@[simp] theorem Comp.inWord_withQ (c : Comp) (r : Regs) (w : Nat) (X : Nat → Pin) :
    (c.withQ r).inWord w X = c.inWord w X := rfl
@[simp] theorem Comp.inWord_withBoth (c : Comp) (r : Regs) (w : Nat) (X : Nat → Pin) :
    (c.withBoth r).inWord w X = c.inWord w X := rfl
@[simp] theorem Comp.opA_withQ (c : Comp) (r : Regs) (w : Nat) : (c.withQ r).opA w = c.opA w := rfl
@[simp] theorem Comp.opB_withQ (c : Comp) (r : Regs) (w : Nat) : (c.withQ r).opB w = c.opB w := rfl
@[simp] theorem Comp.width_withM (c : Comp) (r : Regs) : (c.withM r).width = c.width := rfl
@[simp] theorem Comp.width_withQ (c : Comp) (r : Regs) : (c.withQ r).width = c.width := rfl
@[simp] theorem Comp.width_withBoth (c : Comp) (r : Regs) : (c.withBoth r).width = c.width := rfl

/-! ### Words -/

/-- A word of `w` bits is below `2 ^ w`. -/
theorem wordOf_lt (w : Nat) (f : Nat → Bool) : wordOf w f < 2 ^ w := by
  induction w with
  | zero => simp [wordOf]
  | succ w ih =>
    have : (f w).toNat ≤ 1 := Bool.toNat_le (f w)
    have h2 : (f w).toNat * 2 ^ w ≤ 1 * 2 ^ w := Nat.mul_le_mul_right _ this
    rw [wordOf, Nat.pow_succ]
    calc wordOf w f + (f w).toNat * 2 ^ w < 2 ^ w + 1 * 2 ^ w := Nat.add_lt_add_of_lt_of_le ih h2
      _ = 2 ^ w * 2 := by ring

/-- An operand of `w` pins is below `2 ^ w`. -/
theorem Comp.inWord_lt (c : Comp) (w : Nat) (X : Nat → Pin) : c.inWord w X < 2 ^ w := wordOf_lt w _

theorem Comp.opA_lt (c : Comp) (w : Nat) : c.opA w < 2 ^ w := wordOf_lt w _
theorem Comp.opB_lt (c : Comp) (w : Nat) : c.opB w < 2 ^ w := wordOf_lt w _
theorem Comp.opD_lt (c : Comp) (w : Nat) : c.opD w < 2 ^ w := wordOf_lt w _

/-- The bits of a word are the bits it was assembled from. -/
theorem testBit_wordOf {w i : Nat} (f : Nat → Bool) (h : i < w) : (wordOf w f).testBit i = f i := by
  induction w with
  | zero => omega
  | succ w ih =>
    rw [wordOf, Nat.mul_comm, Nat.add_comm]
    by_cases hi : i = w
    · subst hi
      rw [Nat.testBit_two_pow_mul_add _ (wordOf_lt i f), if_neg (by omega), Nat.sub_self]
      cases f i <;> simp
    · rw [Nat.testBit_two_pow_mul_add _ (wordOf_lt w f), if_pos (by omega)]
      exact ih (by omega)

/-- Reassembling a word that fits gives it back. -/
theorem wordOf_testBit {w x : Nat} (h : x < 2 ^ w) : wordOf w x.testBit = x := by
  apply Nat.eq_of_testBit_eq
  intro i
  by_cases hi : i < w
  · exact testBit_wordOf _ hi
  · have hp : 2 ^ w ≤ 2 ^ i := Nat.pow_le_pow_right (by omega) (by omega)
    rw [Nat.testBit_lt_two_pow (Nat.lt_of_lt_of_le h hp),
      Nat.testBit_lt_two_pow (Nat.lt_of_lt_of_le (wordOf_lt w x.testBit) hp)]

/-- `bits_W(n)` is a word of width W. -/
theorem bitsW_lt (w n : Nat) : bitsW w n < 2 ^ w := Nat.mod_lt _ (Nat.two_pow_pos w)

/-- A number that fits is its own word. -/
theorem bitsW_of_lt {w n : Nat} (h : n < 2 ^ w) : bitsW w n = n := Nat.mod_eq_of_lt h

/-- The word of all ones. -/
theorem allOnes_lt (w : Nat) : allOnes w < 2 ^ w := Nat.sub_lt (Nat.two_pow_pos w) Nat.one_pos

end Sys2Proof.Machine
end

