-- ==== Sys2Proof/Laws/Memory.lean ====
section
/-! SUPPORT. Word memories: read after write, other addresses, and the canonical form (R37, R351, R352, R356). -/

namespace Sys2Proof.Machine

/-- Reading below the lowest listed address gives the unlisted word. -/
theorem Memory.read_of_wfFrom_lt {lo a : Nat} {m : Memory} (hm : Memory.wfFrom lo m = true) (ha : a < lo) :
    Memory.read m a = Memory.unlisted := by
  induction m generalizing lo with
  | nil => rfl
  | cons c rest ih =>
    obtain ⟨b, w⟩ := c
    simp only [Memory.wfFrom, Bool.and_eq_true, decide_eq_true_eq] at hm
    rw [Memory.read, if_neg (by omega)]
    exact ih hm.2 (by omega)

/-- A lower bound on the addresses may be lowered. -/
theorem Memory.wfFrom_mono {lo lo' : Nat} {m : Memory} (h : lo' ≤ lo) (hm : Memory.wfFrom lo m = true) :
    Memory.wfFrom lo' m = true := by
  cases m with
  | nil => rfl
  | cons c rest =>
    obtain ⟨b, w⟩ := c
    simp only [Memory.wfFrom, Bool.and_eq_true, decide_eq_true_eq] at hm ⊢
    exact ⟨⟨by omega, hm.1.2⟩, hm.2⟩

/-- A read of the address just written gives the written word. -/
theorem Memory.read_write_same {lo : Nat} {m : Memory} (a : Nat) (v : Word) (hm : Memory.wfFrom lo m = true) :
    Memory.read (Memory.write m a v) a = v := by
  induction m generalizing lo with
  | nil =>
    by_cases hv : v = Memory.unlisted <;> simp [Memory.write, Memory.cell, Memory.read, hv]
  | cons c rest ih =>
    obtain ⟨b, w⟩ := c
    simp only [Memory.wfFrom, Bool.and_eq_true, decide_eq_true_eq] at hm
    rw [Memory.write]
    split
    · next hab =>
      subst hab
      by_cases hv : v = Memory.unlisted
      · simp only [Memory.cell, hv, if_pos, List.nil_append]
        exact Memory.read_of_wfFrom_lt hm.2 (by omega)
      · simp [Memory.cell, hv, Memory.read]
    · next hab =>
      split
      · next hlt =>
        by_cases hv : v = Memory.unlisted
        · simp only [Memory.cell, hv, if_pos, List.nil_append]
          rw [Memory.read, if_neg hab]
          exact Memory.read_of_wfFrom_lt hm.2 (by omega)
        · simp [Memory.cell, hv, Memory.read]
      · rw [Memory.read, if_neg hab]
        exact ih hm.2

/-- A write leaves every other address alone. -/
theorem Memory.read_write_other {m : Memory} {a x : Nat} (v : Word) (hx : x ≠ a) :
    Memory.read (Memory.write m a v) x = Memory.read m x := by
  induction m with
  | nil =>
    by_cases hv : v = Memory.unlisted <;> simp [Memory.write, Memory.cell, Memory.read, hv, hx]
  | cons c rest ih =>
    obtain ⟨b, w⟩ := c
    rw [Memory.write]
    split
    · next hab =>
      subst hab
      by_cases hv : v = Memory.unlisted <;> simp [Memory.cell, Memory.read, hv, hx]
    · split
      · by_cases hv : v = Memory.unlisted <;> simp [Memory.cell, Memory.read, hv, hx]
      · simp only [Memory.read, ih]

/-- A write keeps the canonical form. -/
theorem Memory.write_wfFrom {lo : Nat} {m : Memory} (a : Nat) (v : Word) (hm : Memory.wfFrom lo m = true)
    (ha : lo ≤ a) : Memory.wfFrom lo (Memory.write m a v) = true := by
  induction m generalizing lo with
  | nil =>
    by_cases hv : v = Memory.unlisted <;> simp [Memory.write, Memory.cell, Memory.wfFrom, hv, ha]
  | cons c rest ih =>
    obtain ⟨b, w⟩ := c
    simp only [Memory.wfFrom, Bool.and_eq_true, decide_eq_true_eq] at hm
    rw [Memory.write]
    split
    · next hab =>
      subst hab
      by_cases hv : v = Memory.unlisted
      · simpa [Memory.cell, hv] using Memory.wfFrom_mono (by omega) hm.2
      · simp [Memory.cell, hv, Memory.wfFrom, ha, hm.2]
    · next hab =>
      split
      · next hlt =>
        by_cases hv : v = Memory.unlisted
        · simp [Memory.cell, hv, Memory.wfFrom, hm.1, hm.2]
        · simp [Memory.cell, hv, Memory.wfFrom, ha, hm.1.2, hm.2, Nat.succ_le_of_lt hlt]
      · next hlt =>
        simp only [Memory.wfFrom, Bool.and_eq_true, decide_eq_true_eq]
        exact ⟨hm.1, ih hm.2 (by omega)⟩

/-- A write keeps the canonical form of a whole memory. -/
theorem Memory.write_wf {m : Memory} (a : Nat) (v : Word) (hm : Memory.wf m = true) :
    Memory.wf (Memory.write m a v) = true :=
  Memory.write_wfFrom a v hm (Nat.zero_le a)

/-- A write in range keeps every listed address and word in range. -/
theorem Memory.write_within {m : Memory} {a d x : Nat} {v : Word} (hm : Memory.within a d m = true) (hx : x < 2 ^ a)
    (hv : v < 2 ^ d) : Memory.within a d (Memory.write m x v) = true := by
  induction m with
  | nil => by_cases h0 : v = Memory.unlisted <;> simp [Memory.write, Memory.cell, Memory.within, h0, hx, hv] <;>
      simpa [h0] using hv
  | cons c rest ih =>
    obtain ⟨b, w⟩ := c
    simp only [Memory.within, List.all_cons, Bool.and_eq_true, decide_eq_true_eq] at hm ih ⊢
    rw [Memory.write]
    split
    · by_cases h0 : v = Memory.unlisted
      · simpa [Memory.cell, h0] using hm.2
      · simpa [Memory.cell, h0, hx, hv] using hm.2
    · split
      · by_cases h0 : v = Memory.unlisted
        · simpa [Memory.cell, h0] using ⟨hm.1, by simpa using hm.2⟩
        · simpa [Memory.cell, h0, hx, hv] using ⟨hm.1, by simpa using hm.2⟩
      · simp only [List.all_cons, Bool.and_eq_true, decide_eq_true_eq]
        exact ⟨hm.1, ih hm.2⟩

/-- Two memories in canonical form that read alike are equal. -/
theorem Memory.eq_of_read_eq {lo : Nat} {m n : Memory} (hm : Memory.wfFrom lo m = true)
    (hn : Memory.wfFrom lo n = true) (h : ∀ a, Memory.read m a = Memory.read n a) : m = n := by
  induction m generalizing lo n with
  | nil =>
    cases n with
    | nil => rfl
    | cons c rest =>
      obtain ⟨b, w⟩ := c
      simp only [Memory.wfFrom, Bool.and_eq_true, decide_eq_true_eq] at hn
      have := h b
      simp only [Memory.read, if_true] at this
      exact absurd this.symm hn.1.2
  | cons c rest ih =>
    obtain ⟨b, w⟩ := c
    have hm' := hm
    simp only [Memory.wfFrom, Bool.and_eq_true, decide_eq_true_eq] at hm
    cases n with
    | nil =>
      have := h b
      simp only [Memory.read, if_true] at this
      exact absurd this hm.1.2
    | cons c' rest' =>
      obtain ⟨b', w'⟩ := c'
      have hn' := hn
      simp only [Memory.wfFrom, Bool.and_eq_true, decide_eq_true_eq] at hn
      have hb : b = b' := by
        rcases Nat.lt_trichotomy b b' with hlt | heq | hgt
        · have hr := h b
          rw [Memory.read, if_pos rfl, Memory.read, if_neg (by omega),
            Memory.read_of_wfFrom_lt hn.2 (by omega)] at hr
          exact absurd hr hm.1.2
        · exact heq
        · have hr := h b'
          rw [Memory.read, if_neg (by omega), Memory.read_of_wfFrom_lt hm.2 (by omega), Memory.read,
            if_pos rfl] at hr
          exact absurd hr.symm hn.1.2
      subst hb
      have hw : w = w' := by simpa [Memory.read] using h b
      subst hw
      rw [ih hm.2 hn.2 fun a => ?_]
      by_cases hab : a = b
      · subst hab
        rw [Memory.read_of_wfFrom_lt hm.2 (by omega), Memory.read_of_wfFrom_lt hn.2 (by omega)]
      · simpa [Memory.read, hab] using h a

end Sys2Proof.Machine
end

