-- ==== Sys2Proof/Laws/Evaluate.lean ====
section
/-! SUPPORT. What evaluating a component's operation word does, kind by kind: the table of R92 read as conditions on pins. -/

namespace Sys2Proof.Machine

theorem evaluate_notGate {c : Comp} (hk : Params.kind c.params = .notGate) (e : Bool) :
    evaluate c e =
      doNotGate c := by
  simp only [evaluate, performSelected, opWord, hk, controlFields, List.map_nil]
  rfl

theorem evaluate_andGate {c : Comp} (hk : Params.kind c.params = .andGate) (e : Bool) :
    evaluate c e =
      doAndGate c := by
  simp only [evaluate, performSelected, opWord, hk, controlFields, List.map_nil]
  rfl

theorem evaluate_orGate {c : Comp} (hk : Params.kind c.params = .orGate) (e : Bool) :
    evaluate c e =
      doOrGate c := by
  simp only [evaluate, performSelected, opWord, hk, controlFields, List.map_nil]
  rfl

theorem evaluate_nandGate {c : Comp} (hk : Params.kind c.params = .nandGate) (e : Bool) :
    evaluate c e =
      doNandGate c := by
  simp only [evaluate, performSelected, opWord, hk, controlFields, List.map_nil]
  rfl

theorem evaluate_norGate {c : Comp} (hk : Params.kind c.params = .norGate) (e : Bool) :
    evaluate c e =
      doNorGate c := by
  simp only [evaluate, performSelected, opWord, hk, controlFields, List.map_nil]
  rfl

theorem evaluate_xorGate {c : Comp} (hk : Params.kind c.params = .xorGate) (e : Bool) :
    evaluate c e =
      doXorGate c := by
  simp only [evaluate, performSelected, opWord, hk, controlFields, List.map_nil]
  rfl

theorem evaluate_halfAdder {c : Comp} (hk : Params.kind c.params = .halfAdder) (e : Bool) :
    evaluate c e =
      doHalfAdd c := by
  simp only [evaluate, performSelected, opWord, hk, controlFields, List.map_nil]
  rfl

theorem evaluate_fullAdder {c : Comp} (hk : Params.kind c.params = .fullAdder) (e : Bool) :
    evaluate c e =
      doFullAdd c := by
  simp only [evaluate, performSelected, opWord, hk, controlFields, List.map_nil]
  rfl

theorem evaluate_multiplier {c : Comp} (hk : Params.kind c.params = .multiplier) (e : Bool) :
    evaluate c e =
      doMul c := by
  simp only [evaluate, performSelected, opWord, hk, controlFields, List.map_nil]
  rfl

theorem evaluate_bcdAdder {c : Comp} (hk : Params.kind c.params = .bcdAdder) (e : Bool) :
    evaluate c e =
      doBcdAdd c := by
  simp only [evaluate, performSelected, opWord, hk, controlFields, List.map_nil]
  rfl

theorem evaluate_srLatch {c : Comp} (hk : Params.kind c.params = .srLatch) (e : Bool) :
    evaluate c e =
      if c.inBit .reset then doSrlAreset c else if c.inBit .set then doSrlAset c
      else if c.inBit .s then (if c.inBit .r then doSrlBoth c else doSrlSet c)
      else if c.inBit .r then doSrlReset c else doSrlHold c := by
  simp only [evaluate, performSelected, opWord, hk, controlFields, List.map_cons, List.map_nil, controlBit]
  cases c.inBit .reset <;> cases c.inBit .set <;> cases c.inBit .s <;> cases c.inBit .r <;> rfl

theorem evaluate_dLatch {c : Comp} (hk : Params.kind c.params = .dLatch) (e : Bool) :
    evaluate c e =
      if c.inBit .reset then doDlAreset c else if c.inBit .set then doDlAset c
      else if c.inBit .en then doDlTrack c else doDlHold c := by
  simp only [evaluate, performSelected, opWord, hk, controlFields, List.map_cons, List.map_nil, controlBit]
  cases c.inBit .reset <;> cases c.inBit .set <;> cases c.inBit .en <;> rfl

theorem evaluate_dff {c : Comp} (hk : Params.kind c.params = .dff) (e : Bool) :
    evaluate c e =
      if c.inBit .reset then doDffAreset c else if c.inBit .set then doDffAset c
      else if e then doDffCapture c else doDffNoedge c := by
  simp only [evaluate, performSelected, opWord, hk, controlFields, List.map_cons, List.map_nil, controlBit]
  cases c.inBit .reset <;> cases c.inBit .set <;> cases e <;> rfl

theorem evaluate_jkff {c : Comp} (hk : Params.kind c.params = .jkff) (e : Bool) :
    evaluate c e =
      if c.inBit .reset then doJkAreset c else if c.inBit .set then doJkAset c
      else if e then
        (if c.inBit .j then (if c.inBit .k then doJkToggle c else doJkSet c)
        else if c.inBit .k then doJkReset c else doJkHold c)
      else doJkNoedge c := by
  simp only [evaluate, performSelected, opWord, hk, controlFields, List.map_cons, List.map_nil, controlBit]
  cases c.inBit .reset <;> cases c.inBit .set <;> cases c.inBit .j <;> cases c.inBit .k <;> cases e <;> rfl

theorem evaluate_tff {c : Comp} (hk : Params.kind c.params = .tff) (e : Bool) :
    evaluate c e =
      if c.inBit .reset then doTAreset c else if c.inBit .set then doTAset c
      else if e then (if c.inBit .t then doTToggle c else doTHold c) else doTNoedge c := by
  simp only [evaluate, performSelected, opWord, hk, controlFields, List.map_cons, List.map_nil, controlBit]
  cases c.inBit .reset <;> cases c.inBit .set <;> cases c.inBit .t <;> cases e <;> rfl

theorem evaluate_register {c : Comp} (hk : Params.kind c.params = .register) (e : Bool) :
    evaluate c e =
      if c.inBit .reset then doRegAreset c else if c.inBit .set then doRegAset c
      else if e then doRegLoad c else doRegNoedge c := by
  simp only [evaluate, performSelected, opWord, hk, controlFields, List.map_cons, List.map_nil, controlBit]
  cases c.inBit .reset <;> cases c.inBit .set <;> cases e <;> rfl

theorem evaluate_shiftRegister {c : Comp} (hk : Params.kind c.params = .shiftRegister) (e : Bool) :
    evaluate c e =
      if c.inBit .reset then doShregAreset c else if c.inBit .set then doShregAset c
      else if e then
        (if c.inBit .load then doShregLoad c else if c.inBit .dir then doShregShr c else doShregShl c)
      else doShregNoedge c := by
  simp only [evaluate, performSelected, opWord, hk, controlFields, List.map_cons, List.map_nil, controlBit]
  cases c.inBit .reset <;> cases c.inBit .set <;> cases c.inBit .load <;> cases c.inBit .dir <;> cases e <;> rfl

theorem evaluate_univShiftRegister {c : Comp} (hk : Params.kind c.params = .univShiftRegister) (e : Bool) :
    evaluate c e =
      if c.inBit .reset then doUsrAreset c else if c.inBit .set then doUsrAset c
      else if e then
        (if c.inBit (.mode 1) then (if c.inBit (.mode 0) then doUsrLoad c else doUsrShl c)
        else if c.inBit (.mode 0) then doUsrShr c else doUsrNop c)
      else doUsrNoedge c := by
  simp only [evaluate, performSelected, opWord, hk, controlFields, List.map_cons, List.map_nil, controlBit]
  cases c.inBit .reset <;> cases c.inBit .set <;> cases c.inBit (.mode 1) <;> cases c.inBit (.mode 0) <;> cases e <;> rfl

theorem evaluate_counter {c : Comp} (hk : Params.kind c.params = .counter) (e : Bool) :
    evaluate c e =
      if c.inBit .reset then doCtrAreset c
      else if e then
        (if c.inBit .load then doCtrLoad c
        else if c.inBit .enable then (if c.inBit .down then doCtrDown c else doCtrUp c) else doCtrFreeze c)
      else doCtrNoedge c := by
  simp only [evaluate, performSelected, opWord, hk, controlFields, List.map_cons, List.map_nil, controlBit]
  cases c.inBit .reset <;> cases c.inBit .load <;> cases c.inBit .enable <;> cases c.inBit .down <;> cases e <;> rfl

theorem evaluate_bcdCounter {c : Comp} (hk : Params.kind c.params = .bcdCounter) (e : Bool) :
    evaluate c e =
      if c.inBit .reset then doBcdAreset c
      else if e then
        (if c.inBit .load then doBcdLoad c
        else if c.inBit .enable then (if c.inBit .down then doBcdDown c else doBcdUp c) else doBcdFreeze c)
      else doBcdNoedge c := by
  simp only [evaluate, performSelected, opWord, hk, controlFields, List.map_cons, List.map_nil, controlBit]
  cases c.inBit .reset <;> cases c.inBit .load <;> cases c.inBit .enable <;> cases c.inBit .down <;> cases e <;> rfl

theorem evaluate_ringCounter {c : Comp} (hk : Params.kind c.params = .ringCounter) (e : Bool) :
    evaluate c e =
      if c.inBit .reset then doRingAreset c
      else if e then (if c.inBit .dir then doRingRotr c else doRingRotl c) else doRingNoedge c := by
  simp only [evaluate, performSelected, opWord, hk, controlFields, List.map_cons, List.map_nil, controlBit]
  cases c.inBit .reset <;> cases c.inBit .dir <;> cases e <;> rfl

theorem evaluate_johnsonCounter {c : Comp} (hk : Params.kind c.params = .johnsonCounter) (e : Bool) :
    evaluate c e =
      if c.inBit .reset then doJohnsonAreset c else if e then doJohnsonStep c else doJohnsonNoedge c := by
  simp only [evaluate, performSelected, opWord, hk, controlFields, List.map_cons, List.map_nil, controlBit]
  cases c.inBit .reset <;> cases e <;> rfl

theorem evaluate_clockDivider {c : Comp} (hk : Params.kind c.params = .clockDivider) (e : Bool) :
    evaluate c e =
      if c.inBit .reset then doClkdivAreset c else if e then doClkdivCount c else doClkdivNoedge c := by
  simp only [evaluate, performSelected, opWord, hk, controlFields, List.map_cons, List.map_nil, controlBit]
  cases c.inBit .reset <;> cases e <;> rfl

theorem evaluate_mux {c : Comp} (hk : Params.kind c.params = .mux) (e : Bool) :
    evaluate c e =
      if c.inBit .disable then doMuxDisabled c else doMuxSelect c := by
  simp only [evaluate, performSelected, opWord, hk, controlFields, List.map_cons, List.map_nil, controlBit]
  cases c.inBit .disable <;> rfl

theorem evaluate_demux {c : Comp} (hk : Params.kind c.params = .demux) (e : Bool) :
    evaluate c e =
      if c.inBit .disable then doDemuxDisabled c else doDemuxSelect c := by
  simp only [evaluate, performSelected, opWord, hk, controlFields, List.map_cons, List.map_nil, controlBit]
  cases c.inBit .disable <;> rfl

theorem evaluate_decoder {c : Comp} (hk : Params.kind c.params = .decoder) (e : Bool) :
    evaluate c e =
      if c.inBit .disable then doDecDisabled c else doDecSelect c := by
  simp only [evaluate, performSelected, opWord, hk, controlFields, List.map_cons, List.map_nil, controlBit]
  cases c.inBit .disable <;> rfl

theorem evaluate_adder {c : Comp} (hk : Params.kind c.params = .adder) (e : Bool) :
    evaluate c e =
      if c.inBit (.mode 1) then (if c.inBit (.mode 0) then doAdderInvalid c else doAdderInc c)
      else if c.inBit (.mode 0) then doAdderSub c else doAdderAdd c := by
  simp only [evaluate, performSelected, opWord, hk, controlFields, List.map_cons, List.map_nil, controlBit]
  cases c.inBit (.mode 1) <;> cases c.inBit (.mode 0) <;> rfl

theorem evaluate_divider {c : Comp} (hk : Params.kind c.params = .divider) (e : Bool) :
    evaluate c e =
      if c.inBit .reset then doDivAreset c else doDivEval c := by
  simp only [evaluate, performSelected, opWord, hk, controlFields, List.map_cons, List.map_nil, controlBit]
  cases c.inBit .reset <;> rfl

theorem evaluate_alu {c : Comp} (hk : Params.kind c.params = .alu) (e : Bool) :
    evaluate c e =
      if c.inBit (.op 3) then
        (if c.inBit (.op 2) then doAluInvalidC c
        else if c.inBit (.op 1) then (if c.inBit (.op 0) then doAluInvalidB c else doAluCompare c)
        else if c.inBit (.op 0) then doAluDec c else doAluInc c)
      else if c.inBit (.op 2) then
        (if c.inBit (.op 1) then (if c.inBit (.op 0) then doAluShr c else doAluShl c)
        else if c.inBit (.op 0) then doAluNot c else doAluXor c)
      else if c.inBit (.op 1) then (if c.inBit (.op 0) then doAluOr c else doAluAnd c)
      else if c.inBit (.op 0) then doAluSub c else doAluAdd c := by
  simp only [evaluate, performSelected, opWord, hk, controlFields, List.map_cons, List.map_nil, controlBit]
  cases c.inBit (.op 3) <;> cases c.inBit (.op 2) <;> cases c.inBit (.op 1) <;> cases c.inBit (.op 0) <;> rfl

theorem evaluate_accumulator {c : Comp} (hk : Params.kind c.params = .accumulator) (e : Bool) :
    evaluate c e =
      if c.inBit .reset then doAccAreset c
      else if e then
        (if c.inBit (.op 2) then
          (if c.inBit (.op 1) then doAccInvalid67 c else if c.inBit (.op 0) then doAccInvalid5 c else doAccShr c)
        else if c.inBit (.op 1) then (if c.inBit (.op 0) then doAccShl c else doAccInc c)
        else if c.inBit (.op 0) then doAccClear c else doAccLoad c)
      else doAccNoedge c := by
  simp only [evaluate, performSelected, opWord, hk, controlFields, List.map_cons, List.map_nil, controlBit]
  cases c.inBit .reset <;> cases c.inBit (.op 2) <;> cases c.inBit (.op 1) <;> cases c.inBit (.op 0) <;> cases e <;> rfl

/-- A Memory evaluates its write port, then its read port; the read port changes nothing (R85). -/
theorem evaluate_memory {c : Comp} (hk : Params.kind c.params = .memory) (e : Bool) :
    evaluate c e = if e then (if c.inBit .we then doMemWrite c else doMemWidleNowe c) else doMemWidleNoedge c := by
  have hr : ∀ d : Comp, Params.kind d.params = .memory → performSelected d true e = (d, .ok) := by
    intro d hd
    simp only [performSelected, opWord, hd, controlFields, List.map_cons, List.map_nil, controlBit, if_true]
    cases d.inBit .re <;> rfl
  have hw : performSelected c false e =
      if e then (if c.inBit .we then doMemWrite c else doMemWidleNowe c) else doMemWidleNoedge c := by
    simp only [performSelected, opWord, hk, controlFields, List.map_cons, List.map_nil, controlBit, Bool.false_eq_true,
      if_false]
    cases e <;> cases c.inBit .we <;> rfl
  simp only [evaluate, hk]
  rw [hr _ (by rw [hw]; cases e <;> cases c.inBit .we <;> exact hk), hw]
  cases e <;> cases c.inBit .we <;> rfl

end Sys2Proof.Machine
end

