-- ==== Sys2Proof/Laws/Ops.lean ====
section
/-! SUPPORT. One lemma for each shared operation, saying all it can do. -/

namespace Sys2Proof.Machine

/-! ### Instructions as operations on a component -/

/-- Every component operation runs through `runRow`. -/
theorem exec_row {i : Instr} {h : Nat} {k : Kind} (ht : rowTarget i = some (h, k)) (s : State) :
    exec i s = runRow h k (perform i) s := by
  cases i <;> simp only [rowTarget, Option.some.injEq, Prod.mk.injEq, reduceCtorEq] at ht <;>
    (obtain ⟨rfl, rfl⟩ := ht; rfl)

/-- What `onComp` does where the handle names a component. -/
theorem State.onComp_some {s : State} {h : Nat} {c : Comp} (hc : s.comps[h]? = some c) (f : Comp → Outcome) :
    s.onComp h f = f c := by
  simp only [State.onComp, State.comp?, hc]

/-- What `onComp` does where the handle names none (R405). -/
theorem State.onComp_none {s : State} {h : Nat} (hc : s.comps[h]? = none) (f : Comp → Outcome) :
    s.onComp h f = .next (s.fail .configurationError) := by
  simp only [State.onComp, State.comp?, hc]

/-- A component operation on a component of its kind: the component is replaced, the result presented. -/
theorem runRow_of_kind {s : State} {h : Nat} {k : Kind} {c : Comp} (hc : s.comps[h]? = some c)
    (hk : Params.kind c.params = k) (op : Comp → Comp × Status) :
    runRow h k op s = .next ((s.setComp h (op c).1).answer (rowResult (op c))) := by
  rw [runRow, State.onComp_some hc, if_pos hk]

/-- All that a component operation can do: fail for want of a component, or change the one component. -/
theorem runRow_next {s t : State} {h : Nat} {k : Kind} {op : Comp → Comp × Status} (ht : runRow h k op s = .next t) :
    (s.comps[h]? = none ∧ t = s.fail .configurationError) ∨
      ∃ c, s.comps[h]? = some c ∧ Params.kind c.params = k ∧
        t = (s.setComp h (op c).1).answer (rowResult (op c)) := by
  cases hc : s.comps[h]? with
  | none =>
    rw [runRow, State.onComp_none hc] at ht
    exact .inl ⟨rfl, (Host.Outcome.next.inj ht).symm⟩
  | some c =>
    rw [runRow, State.onComp_some hc] at ht
    by_cases hk : Params.kind c.params = k
    · rw [if_pos hk] at ht
      exact .inr ⟨c, rfl, hk, (Host.Outcome.next.inj ht).symm⟩
    · rw [if_neg hk] at ht
      cases ht

/-- An operation writes the stages alone. -/
theorem perform_frame (i : Instr) (c : Comp) : ∃ m q, (perform i c).1 = { c with m := m, q := q } := by
  cases i <;> exact ⟨_, _, rfl⟩

/-- So does the operation a word selects. -/
theorem performSelected_frame (c : Comp) (port e : Bool) :
    ∃ m q, (performSelected c port e).1 = { c with m := m, q := q } := by
  rw [performSelected]
  split
  · exact perform_frame _ c
  · exact ⟨_, _, rfl⟩

/-- An evaluation writes the stages alone (R105 to R107). -/
theorem evaluate_frame (c : Comp) (e : Bool) : ∃ m q, (evaluate c e).1 = { c with m := m, q := q } := by
  rw [evaluate]
  split
  · obtain ⟨m, q, h⟩ := performSelected_frame c false e
    rw [h]
    obtain ⟨m', q', h'⟩ := performSelected_frame { c with m := m, q := q } true e
    exact ⟨m', q', h'⟩
  · exact performSelected_frame c false e

@[simp] theorem evaluate_params (c : Comp) (e : Bool) : (evaluate c e).1.params = c.params := by
  obtain ⟨m, q, h⟩ := evaluate_frame c e; rw [h]
@[simp] theorem evaluate_cfg (c : Comp) (e : Bool) : (evaluate c e).1.cfg = c.cfg := by
  obtain ⟨m, q, h⟩ := evaluate_frame c e; rw [h]
@[simp] theorem evaluate_edge (c : Comp) (e : Bool) : (evaluate c e).1.edge = c.edge := by
  obtain ⟨m, q, h⟩ := evaluate_frame c e; rw [h]
@[simp] theorem evaluate_ins (c : Comp) (e : Bool) : (evaluate c e).1.ins = c.ins := by
  obtain ⟨m, q, h⟩ := evaluate_frame c e; rw [h]
@[simp] theorem evaluate_clkPrev (c : Comp) (e : Bool) : (evaluate c e).1.clkPrev = c.clkPrev := by
  obtain ⟨m, q, h⟩ := evaluate_frame c e; rw [h]
@[simp] theorem evaluate_vcc (c : Comp) (e : Bool) : (evaluate c e).1.vcc = c.vcc := by
  obtain ⟨m, q, h⟩ := evaluate_frame c e; rw [h]
@[simp] theorem evaluate_gnd (c : Comp) (e : Bool) : (evaluate c e).1.gnd = c.gnd := by
  obtain ⟨m, q, h⟩ := evaluate_frame c e; rw [h]
@[simp] theorem evaluate_inBit (c : Comp) (e : Bool) (P : Pin) : (evaluate c e).1.inBit P = c.inBit P :=
  Comp.inBit_congr (evaluate_ins c e) (evaluate_cfg c e) P

/-! ### The contract operations -/

/-- A pin number of an input pin is no output's. -/
theorem isOutputId_of_isInputId {p : Params} {id : Nat} (h : isInputId p id = true) : isOutputId p id = false := by
  simp only [isInputId, decide_eq_true_eq] at h
  simp only [isOutputId, Bool.and_eq_false_iff, decide_eq_false_iff_not]
  omega

/-- Storing at the clock (R106). -/
@[simp] theorem Comp.store_clk (c : Comp) (v : Voltage) :
    c.store .clk v = (c.withClkPrev v, activeEdge c.cfg c.edge c.clkPrev v) := rfl

/-- Storing at any other input end (R105, R107). -/
theorem Comp.store_of_ne (c : Comp) {P : Pin} (hP : P ≠ .clk) (v : Voltage) : c.store P v = (c.withIn P v, false) := by
  cases P <;> first | rfl | exact absurd rfl hP

@[simp] theorem Comp.store_params (c : Comp) (P : Pin) (v : Voltage) : (c.store P v).1.params = c.params := by
  by_cases hP : P = .clk
  · subst hP; rfl
  · rw [c.store_of_ne hP]; rfl

/-- All that a `WritePin` can do: fail and change nothing, echo power or ground, ignore an output pin, or store a voltage
and evaluate (R104). -/
theorem Comp.writePin_cases (c : Comp) (p : Nat) (v : Voltage) :
    (pinAt c.params p = none ∧ c.writePin p v = (c, .failed .unknownPin)) ∨
    (pinAt c.params p = some .vcc ∧ c.writePin p v = (c.withVcc v, .ok)) ∨
    (pinAt c.params p = some .gnd ∧ c.writePin p v = (c.withGnd v, .ok)) ∨
    (pinAt c.params p = some .clk ∧
      c.writePin p v = evaluate (c.withClkPrev v) (activeEdge c.cfg c.edge c.clkPrev v)) ∨
    (∃ P, pinAt c.params p = some P ∧ P ≠ .vcc ∧ P ≠ .gnd ∧ P ≠ .clk ∧
      ((isOutputId c.params p = true ∧ c.writePin p v = (c, .ok)) ∨
        (isOutputId c.params p = false ∧ c.writePin p v = evaluate (c.withIn P v) false))) := by
  cases hp : pinAt c.params p with
  | none => exact .inl ⟨rfl, by simp only [Comp.writePin, hp]⟩
  | some P =>
    by_cases h1 : P = .vcc
    · subst h1; exact .inr (.inl ⟨rfl, by simp only [Comp.writePin, hp]⟩)
    by_cases h2 : P = .gnd
    · subst h2; exact .inr (.inr (.inl ⟨rfl, by simp only [Comp.writePin, hp]⟩))
    by_cases h3 : P = .clk
    · subst h3; exact .inr (.inr (.inr (.inl ⟨rfl, by simp only [Comp.writePin, hp, Comp.store_clk]⟩)))
    refine .inr (.inr (.inr (.inr ⟨P, rfl, h1, h2, h3, ?_⟩)))
    cases ho : isOutputId c.params p
    · exact .inr ⟨rfl, by simp [Comp.writePin, hp, ho, c.store_of_ne h3]⟩
    · exact .inl ⟨rfl, by simp [Comp.writePin, hp, ho]⟩

@[simp] theorem Comp.writePin_params (c : Comp) (p : Nat) (v : Voltage) : (c.writePin p v).1.params = c.params := by
  rcases c.writePin_cases p v with ⟨_, h⟩ | ⟨_, h⟩ | ⟨_, h⟩ | ⟨_, h⟩ | ⟨P, _, _, _, _, ⟨_, h⟩ | ⟨_, h⟩⟩ <;> rw [h] <;> simp

@[simp] theorem Comp.writePin_cfg (c : Comp) (p : Nat) (v : Voltage) : (c.writePin p v).1.cfg = c.cfg := by
  rcases c.writePin_cases p v with ⟨_, h⟩ | ⟨_, h⟩ | ⟨_, h⟩ | ⟨_, h⟩ | ⟨P, _, _, _, _, ⟨_, h⟩ | ⟨_, h⟩⟩ <;> rw [h] <;> simp

@[simp] theorem Comp.writePin_edge (c : Comp) (p : Nat) (v : Voltage) : (c.writePin p v).1.edge = c.edge := by
  rcases c.writePin_cases p v with ⟨_, h⟩ | ⟨_, h⟩ | ⟨_, h⟩ | ⟨_, h⟩ | ⟨P, _, _, _, _, ⟨_, h⟩ | ⟨_, h⟩⟩ <;> rw [h] <;> simp

/-- `Tick` writes the stages alone (R113). -/
theorem Comp.tick_frame (c : Comp) : ∃ m q, c.tick = { c with m := m, q := q } := by
  simp only [Comp.tick, Comp.tickDivider]
  split
  · exact evaluate_frame c false
  · exact evaluate_frame c false
  · split <;> exact ⟨_, _, rfl⟩
  · split <;> exact ⟨_, _, rfl⟩

@[simp] theorem Comp.tick_params (c : Comp) : c.tick.params = c.params := by
  obtain ⟨m, q, h⟩ := c.tick_frame; rw [h]
@[simp] theorem Comp.tick_cfg (c : Comp) : c.tick.cfg = c.cfg := by
  obtain ⟨m, q, h⟩ := c.tick_frame; rw [h]
@[simp] theorem Comp.tick_ins (c : Comp) : c.tick.ins = c.ins := by
  obtain ⟨m, q, h⟩ := c.tick_frame; rw [h]

/-- `Tick` of a clocked kind (R26). -/
theorem Comp.tick_clocked {c : Comp} (hk : Kind.isClocked (Params.kind c.params) = true) : c.tick = c.commit := by
  simp only [Comp.tick]
  split
  · next h => rw [h] at hk; cases hk
  · next h => rw [h] at hk; cases hk
  · next h => rw [h] at hk; cases hk
  · rw [if_pos hk]

/-- What a step does with the head of the script. -/
theorem step_cons {s : State} {r : Request} {rest : List Request} (h : s.script = r :: rest) :
    step s =
      match decode (s.fetch r).2 with
      | .error e => .refused (.undecodable e)
      | .ok i => exec i ((s.fetch r).1.withScript rest) := by
  first
    | (simp only [step, h]; done)
    | (simp only [step, h]; rfl)

/-- An idle step. -/
theorem step_nil {s : State} (h : s.script = []) : step s = .next s := by
  simp only [step, h]

end Sys2Proof.Machine
end

