-- ==== Sys2Proof/Laws/Wf.lean ====
section
/-! SUPPORT. Every operation keeps a component well formed (R47). -/

namespace Sys2Proof.Machine

set_option Elab.async false

/-! ### Parameters of a kind -/

theorem params_of_register {p : Params} (h : Params.kind p = .register) : ∃ w, p = .register w := by
  cases p <;> simp only [Params.kind, reduceCtorEq] at h
  exact ⟨_, rfl⟩

theorem params_of_shiftRegister {p : Params} (h : Params.kind p = .shiftRegister) : ∃ w, p = .shiftRegister w := by
  cases p <;> simp only [Params.kind, reduceCtorEq] at h
  exact ⟨_, rfl⟩

theorem params_of_univShiftRegister {p : Params} (h : Params.kind p = .univShiftRegister) : ∃ w, p = .univShiftRegister w := by
  cases p <;> simp only [Params.kind, reduceCtorEq] at h
  exact ⟨_, rfl⟩

theorem params_of_counter {p : Params} (h : Params.kind p = .counter) : ∃ w m st, p = .counter w m st := by
  cases p <;> simp only [Params.kind, reduceCtorEq] at h
  exact ⟨_, _, _, rfl⟩

theorem params_of_bcdCounter {p : Params} (h : Params.kind p = .bcdCounter) : ∃ k, p = .bcdCounter k := by
  cases p <;> simp only [Params.kind, reduceCtorEq] at h
  exact ⟨_, rfl⟩

theorem params_of_ringCounter {p : Params} (h : Params.kind p = .ringCounter) : ∃ w, p = .ringCounter w := by
  cases p <;> simp only [Params.kind, reduceCtorEq] at h
  exact ⟨_, rfl⟩

theorem params_of_johnsonCounter {p : Params} (h : Params.kind p = .johnsonCounter) : ∃ w, p = .johnsonCounter w := by
  cases p <;> simp only [Params.kind, reduceCtorEq] at h
  exact ⟨_, rfl⟩

theorem params_of_clockDivider {p : Params} (h : Params.kind p = .clockDivider) : ∃ n, p = .clockDivider n := by
  cases p <;> simp only [Params.kind, reduceCtorEq] at h
  exact ⟨_, rfl⟩

theorem params_of_adder {p : Params} (h : Params.kind p = .adder) : ∃ w, p = .adder w := by
  cases p <;> simp only [Params.kind, reduceCtorEq] at h
  exact ⟨_, rfl⟩

theorem params_of_alu {p : Params} (h : Params.kind p = .alu) : ∃ w, p = .alu w := by
  cases p <;> simp only [Params.kind, reduceCtorEq] at h
  exact ⟨_, rfl⟩

theorem params_of_memory {p : Params} (h : Params.kind p = .memory) : ∃ a d, p = .memory a d := by
  cases p <;> simp only [Params.kind, reduceCtorEq] at h
  exact ⟨_, _, rfl⟩

theorem params_of_accumulator {p : Params} (h : Params.kind p = .accumulator) : ∃ w, p = .accumulator w := by
  cases p <;> simp only [Params.kind, reduceCtorEq] at h
  exact ⟨_, rfl⟩

theorem params_of_srLatch {p : Params} (h : Params.kind p = .srLatch) : p = .srLatch := by
  cases p <;> first | rfl | cases h

theorem params_of_dLatch {p : Params} (h : Params.kind p = .dLatch) : p = .dLatch := by
  cases p <;> first | rfl | cases h

theorem params_of_dff {p : Params} (h : Params.kind p = .dff) : p = .dff := by
  cases p <;> first | rfl | cases h

theorem params_of_jkff {p : Params} (h : Params.kind p = .jkff) : p = .jkff := by
  cases p <;> first | rfl | cases h

theorem params_of_tff {p : Params} (h : Params.kind p = .tff) : p = .tff := by
  cases p <;> first | rfl | cases h

theorem params_of_divider {p : Params} (h : Params.kind p = .divider) : ∃ w, p = .divider w := by
  cases p <;> simp only [Params.kind, reduceCtorEq] at h
  exact ⟨_, rfl⟩

/-! ### Parts of well-formedness -/

/-- The parts of a component's well-formedness. -/
theorem Comp.wf_iff {c : Comp} : c.wf = true ↔
    c.params.ok = true ∧ c.cfg.ok = true ∧ c.ins.map Prod.fst = bufferedPins c.params ∧ Regs.wf c.params c.q = true ∧
      (if Kind.isClocked (Params.kind c.params) then Regs.wf c.params c.m else decide (c.m = Regs.none)) = true := by
  simp only [Comp.wf, Bool.and_eq_true, decide_eq_true_eq, and_assoc]

theorem Comp.wf_params {c : Comp} (h : c.wf = true) : c.params.ok = true := (Comp.wf_iff.1 h).1
theorem Comp.wf_cfg {c : Comp} (h : c.wf = true) : c.cfg.ok = true := (Comp.wf_iff.1 h).2.1
theorem Comp.wf_ins {c : Comp} (h : c.wf = true) : c.ins.map Prod.fst = bufferedPins c.params := (Comp.wf_iff.1 h).2.2.1
theorem Comp.wf_q {c : Comp} (h : c.wf = true) : Regs.wf c.params c.q = true := (Comp.wf_iff.1 h).2.2.2.1

theorem Comp.wf_m {c : Comp} (h : c.wf = true) (hk : Kind.isClocked (Params.kind c.params) = true) :
    Regs.wf c.params c.m = true := by
  have := (Comp.wf_iff.1 h).2.2.2.2
  rwa [if_pos hk] at this

/-- A stage in range keeps the component well formed: master. -/
theorem Comp.wf_withM {c : Comp} {r : Regs} (h : c.wf = true) (hk : Kind.isClocked (Params.kind c.params) = true)
    (hr : Regs.wf c.params r = true) : (c.withM r).wf = true := by
  obtain ⟨h1, h2, h3, h4, _⟩ := Comp.wf_iff.1 h
  exact Comp.wf_iff.2 ⟨h1, h2, h3, h4, by simpa [hk] using hr⟩

/-- A stage in range keeps the component well formed: slave or only stage. -/
theorem Comp.wf_withQ {c : Comp} {r : Regs} (h : c.wf = true) (hr : Regs.wf c.params r = true) :
    (c.withQ r).wf = true := by
  obtain ⟨h1, h2, h3, _, h5⟩ := Comp.wf_iff.1 h
  exact Comp.wf_iff.2 ⟨h1, h2, h3, hr, h5⟩

/-- A stage in range keeps the component well formed: both stages. -/
theorem Comp.wf_withBoth {c : Comp} {r : Regs} (h : c.wf = true) (hk : Kind.isClocked (Params.kind c.params) = true)
    (hr : Regs.wf c.params r = true) : (c.withBoth r).wf = true := by
  obtain ⟨h1, h2, h3, _, _⟩ := Comp.wf_iff.1 h
  exact Comp.wf_iff.2 ⟨h1, h2, h3, hr, by simpa [hk] using hr⟩

/-- A written buffer keeps the component well formed. -/
theorem Comp.wf_withIn {c : Comp} (P : Pin) (v : Voltage) (h : c.wf = true) : (c.withIn P v).wf = true := by
  obtain ⟨h1, h2, h3, h4, h5⟩ := Comp.wf_iff.1 h
  exact Comp.wf_iff.2 ⟨h1, h2, by simpa using h3, h4, h5⟩

/-! ### Arithmetic of the stages -/

/-- The sign bit of a zero word. -/
theorem zero_not_sign (w : Nat) (x : Word) : (!(decide (x = 0) && signBit w x)) = true := by
  by_cases h : x = 0
  · subst h; simp [signBit]
  · simp [h]

/-- A rotation to the left keeps a word one-hot (R245). -/
theorem oneHot_rotl {w : Nat} {x : Word} (h : oneHot w x = true) :
    oneHot w (bitsW w (2 * x) ||| (signBit w x).toNat) = true := by
  simp only [oneHot, List.any_eq_true, List.mem_range, decide_eq_true_eq] at h ⊢
  obtain ⟨i, hi, rfl⟩ := h
  by_cases hw : i + 1 = w
  · refine ⟨0, by omega, ?_⟩
    subst hw
    simp [bitsW, signBit, Nat.pow_succ, Nat.mul_comm]
  · refine ⟨i + 1, by omega, ?_⟩
    have hlt : 2 * 2 ^ i < 2 ^ w := by
      have : (2:Nat) ^ (i + 1) < 2 ^ w := Nat.pow_lt_pow_right (by omega) (by omega)
      rwa [Nat.pow_succ, Nat.mul_comm] at this
    have hs : signBit w (2 ^ i) = false := by
      simp only [signBit, Nat.testBit_two_pow, decide_eq_false_iff_not]
      omega
    rw [bitsW_of_lt hlt, hs]
    simp [Nat.pow_succ, Nat.mul_comm]

/-- A rotation to the right keeps a word one-hot (R246). -/
theorem oneHot_rotr {w : Nat} {x : Word} (h : oneHot w x = true) :
    oneHot w (x / 2 + (x.testBit 0).toNat * 2 ^ (w - 1)) = true := by
  simp only [oneHot, List.any_eq_true, List.mem_range, decide_eq_true_eq] at h ⊢
  obtain ⟨i, hi, rfl⟩ := h
  cases i with
  | zero => exact ⟨w - 1, by omega, by simp⟩
  | succ i =>
    refine ⟨i, by omega, ?_⟩
    have ht : (2 ^ (i + 1)).testBit 0 = false := by simp
    rw [ht]
    simp [Nat.pow_succ]

/-- A decimal count up keeps the digits digits (R239). -/
theorem bcdUpDigits_ok (b : Bool) (ds : List Nat) (h : ∀ d ∈ ds, d < 10) :
    (bcdUpDigits b ds).1.length = ds.length ∧ ∀ d ∈ (bcdUpDigits b ds).1, d < 10 := by
  induction ds generalizing b with
  | nil => cases b <;> simp [bcdUpDigits]
  | cons d rest ih =>
    have hd := h d (by simp)
    have hr := ih true fun x hx => h x (by simp [hx])
    cases b
    · exact ⟨rfl, h⟩
    · simp only [bcdUpDigits]
      split
      · simp only [List.length_cons, hr.1, List.mem_cons, forall_eq_or_imp, true_and]
        exact ⟨by omega, hr.2⟩
      · simp only [List.length_cons, List.mem_cons, forall_eq_or_imp, true_and]
        exact ⟨by omega, fun x hx => h x (by simp [hx])⟩

/-- A decimal count down keeps the digits digits (R240). -/
theorem bcdDownDigits_ok (b : Bool) (ds : List Nat) (h : ∀ d ∈ ds, d < 10) :
    (bcdDownDigits b ds).1.length = ds.length ∧ ∀ d ∈ (bcdDownDigits b ds).1, d < 10 := by
  induction ds generalizing b with
  | nil => cases b <;> simp [bcdDownDigits]
  | cons d rest ih =>
    have hd := h d (by simp)
    have hr := ih true fun x hx => h x (by simp [hx])
    cases b
    · exact ⟨rfl, h⟩
    · simp only [bcdDownDigits]
      split
      · simp only [List.length_cons, hr.1, List.mem_cons, forall_eq_or_imp, true_and]
        exact ⟨by omega, hr.2⟩
      · simp only [List.length_cons, List.mem_cons, forall_eq_or_imp, true_and]
        exact ⟨by omega, fun x hx => h x (by simp [hx])⟩

/-- A computed ALU result with its flags is in range (R322). -/
theorem alu_flagsOf_wf {p : Params} {w w' : Nat} (hp : p = .alu w) {x : Word} (hx : x < 2 ^ w) (carry ovf : Bool) :
    Regs.wf p (.alu x (flagsOf w' x carry ovf)) = true := by
  subst hp
  simp only [Regs.wf, Bool.and_eq_true, decide_eq_true_eq]
  exact ⟨hx, zero_not_sign _ _⟩

/-- A new Accumulator word with its re-derived flags is in range (R359). -/
theorem acc_flagsOf_wf {c : Comp} {w : Nat} (hp : c.params = .accumulator w) {x : Word} (hx : x < 2 ^ w)
    (carry ovf : Bool) : Regs.wf c.params (.acc x (flagsOf c.width x carry ovf)) = true := by
  simp [hp, Regs.wf, Flags.describe, flagsOf, Comp.width, Params.width, hx]

/-! ### The operations -/

theorem doNotGate_wf {c : Comp} (_hk : Params.kind c.params = .notGate) (h : c.wf = true) : (doNotGate c).1.wf = true := h

theorem doAndGate_wf {c : Comp} (_hk : Params.kind c.params = .andGate) (h : c.wf = true) : (doAndGate c).1.wf = true := h

theorem doOrGate_wf {c : Comp} (_hk : Params.kind c.params = .orGate) (h : c.wf = true) : (doOrGate c).1.wf = true := h

theorem doNandGate_wf {c : Comp} (_hk : Params.kind c.params = .nandGate) (h : c.wf = true) : (doNandGate c).1.wf = true := h

theorem doNorGate_wf {c : Comp} (_hk : Params.kind c.params = .norGate) (h : c.wf = true) : (doNorGate c).1.wf = true := h

theorem doXorGate_wf {c : Comp} (_hk : Params.kind c.params = .xorGate) (h : c.wf = true) : (doXorGate c).1.wf = true := h

theorem doHalfAdd_wf {c : Comp} (_hk : Params.kind c.params = .halfAdder) (h : c.wf = true) : (doHalfAdd c).1.wf = true := h

theorem doFullAdd_wf {c : Comp} (_hk : Params.kind c.params = .fullAdder) (h : c.wf = true) : (doFullAdd c).1.wf = true := h

theorem doSrlAreset_wf {c : Comp} (hk : Params.kind c.params = .srLatch) (h : c.wf = true) : (doSrlAreset c).1.wf = true := by
  have hp := params_of_srLatch hk
  exact Comp.wf_withQ h (by rw [hp]; rfl)

theorem doSrlAset_wf {c : Comp} (hk : Params.kind c.params = .srLatch) (h : c.wf = true) : (doSrlAset c).1.wf = true := by
  have hp := params_of_srLatch hk
  exact Comp.wf_withQ h (by rw [hp]; rfl)

theorem doSrlSet_wf {c : Comp} (hk : Params.kind c.params = .srLatch) (h : c.wf = true) : (doSrlSet c).1.wf = true := by
  have hp := params_of_srLatch hk
  exact Comp.wf_withQ h (by rw [hp]; rfl)

theorem doSrlReset_wf {c : Comp} (hk : Params.kind c.params = .srLatch) (h : c.wf = true) : (doSrlReset c).1.wf = true := by
  have hp := params_of_srLatch hk
  exact Comp.wf_withQ h (by rw [hp]; rfl)

theorem doSrlHold_wf {c : Comp} (_hk : Params.kind c.params = .srLatch) (h : c.wf = true) : (doSrlHold c).1.wf = true := h

theorem doSrlBoth_wf {c : Comp} (hk : Params.kind c.params = .srLatch) (h : c.wf = true) : (doSrlBoth c).1.wf = true := by
  have hp := params_of_srLatch hk
  exact Comp.wf_withQ h (by rw [hp]; rfl)

theorem doDlAreset_wf {c : Comp} (hk : Params.kind c.params = .dLatch) (h : c.wf = true) : (doDlAreset c).1.wf = true := by
  have hp := params_of_dLatch hk
  exact Comp.wf_withQ h (by rw [hp]; rfl)

theorem doDlAset_wf {c : Comp} (hk : Params.kind c.params = .dLatch) (h : c.wf = true) : (doDlAset c).1.wf = true := by
  have hp := params_of_dLatch hk
  exact Comp.wf_withQ h (by rw [hp]; rfl)

theorem doDlTrack_wf {c : Comp} (hk : Params.kind c.params = .dLatch) (h : c.wf = true) : (doDlTrack c).1.wf = true := by
  have hp := params_of_dLatch hk
  exact Comp.wf_withQ h (by rw [hp]; rfl)

theorem doDlHold_wf {c : Comp} (_hk : Params.kind c.params = .dLatch) (h : c.wf = true) : (doDlHold c).1.wf = true := h

theorem doDffAreset_wf {c : Comp} (hk : Params.kind c.params = .dff) (h : c.wf = true) : (doDffAreset c).1.wf = true := by
  have hp := params_of_dff hk
  exact Comp.wf_withBoth h (by rw [hk]; rfl) (by rw [hp]; rfl)

theorem doDffAset_wf {c : Comp} (hk : Params.kind c.params = .dff) (h : c.wf = true) : (doDffAset c).1.wf = true := by
  have hp := params_of_dff hk
  exact Comp.wf_withBoth h (by rw [hk]; rfl) (by rw [hp]; rfl)

theorem doDffCapture_wf {c : Comp} (hk : Params.kind c.params = .dff) (h : c.wf = true) : (doDffCapture c).1.wf = true := by
  have hp := params_of_dff hk
  exact Comp.wf_withM h (by rw [hk]; rfl) (by rw [hp]; rfl)

theorem doDffNoedge_wf {c : Comp} (_hk : Params.kind c.params = .dff) (h : c.wf = true) : (doDffNoedge c).1.wf = true := h

theorem doJkAreset_wf {c : Comp} (hk : Params.kind c.params = .jkff) (h : c.wf = true) : (doJkAreset c).1.wf = true := by
  have hp := params_of_jkff hk
  exact Comp.wf_withBoth h (by rw [hk]; rfl) (by rw [hp]; rfl)

theorem doJkAset_wf {c : Comp} (hk : Params.kind c.params = .jkff) (h : c.wf = true) : (doJkAset c).1.wf = true := by
  have hp := params_of_jkff hk
  exact Comp.wf_withBoth h (by rw [hk]; rfl) (by rw [hp]; rfl)

theorem doJkNoedge_wf {c : Comp} (_hk : Params.kind c.params = .jkff) (h : c.wf = true) : (doJkNoedge c).1.wf = true := h

theorem doJkHold_wf {c : Comp} (_hk : Params.kind c.params = .jkff) (h : c.wf = true) : (doJkHold c).1.wf = true := h

theorem doJkReset_wf {c : Comp} (hk : Params.kind c.params = .jkff) (h : c.wf = true) : (doJkReset c).1.wf = true := by
  have hp := params_of_jkff hk
  exact Comp.wf_withM h (by rw [hk]; rfl) (by rw [hp]; rfl)

theorem doJkSet_wf {c : Comp} (hk : Params.kind c.params = .jkff) (h : c.wf = true) : (doJkSet c).1.wf = true := by
  have hp := params_of_jkff hk
  exact Comp.wf_withM h (by rw [hk]; rfl) (by rw [hp]; rfl)

theorem doJkToggle_wf {c : Comp} (hk : Params.kind c.params = .jkff) (h : c.wf = true) : (doJkToggle c).1.wf = true := by
  have hp := params_of_jkff hk
  exact Comp.wf_withM h (by rw [hk]; rfl) (by rw [hp]; rfl)

theorem doTAreset_wf {c : Comp} (hk : Params.kind c.params = .tff) (h : c.wf = true) : (doTAreset c).1.wf = true := by
  have hp := params_of_tff hk
  exact Comp.wf_withBoth h (by rw [hk]; rfl) (by rw [hp]; rfl)

theorem doTAset_wf {c : Comp} (hk : Params.kind c.params = .tff) (h : c.wf = true) : (doTAset c).1.wf = true := by
  have hp := params_of_tff hk
  exact Comp.wf_withBoth h (by rw [hk]; rfl) (by rw [hp]; rfl)

theorem doTNoedge_wf {c : Comp} (_hk : Params.kind c.params = .tff) (h : c.wf = true) : (doTNoedge c).1.wf = true := h

theorem doTHold_wf {c : Comp} (_hk : Params.kind c.params = .tff) (h : c.wf = true) : (doTHold c).1.wf = true := h

theorem doTToggle_wf {c : Comp} (hk : Params.kind c.params = .tff) (h : c.wf = true) : (doTToggle c).1.wf = true := by
  have hp := params_of_tff hk
  exact Comp.wf_withM h (by rw [hk]; rfl) (by rw [hp]; rfl)

theorem doRegAreset_wf {c : Comp} (hk : Params.kind c.params = .register) (h : c.wf = true) : (doRegAreset c).1.wf = true := by
  obtain ⟨w, hp⟩ := params_of_register hk
  exact Comp.wf_withBoth h (by rw [hk]; rfl) (by simp [hp, Regs.wf])

theorem doRegAset_wf {c : Comp} (hk : Params.kind c.params = .register) (h : c.wf = true) : (doRegAset c).1.wf = true := by
  obtain ⟨w, hp⟩ := params_of_register hk
  exact Comp.wf_withBoth h (by rw [hk]; rfl) (by simpa [hp, Regs.wf, Comp.width, Params.width] using allOnes_lt w)

theorem doRegLoad_wf {c : Comp} (hk : Params.kind c.params = .register) (h : c.wf = true) : (doRegLoad c).1.wf = true := by
  obtain ⟨w, hp⟩ := params_of_register hk
  exact Comp.wf_withM h (by rw [hk]; rfl) (by simpa [hp, Regs.wf, Comp.width, Params.width] using c.opD_lt w)

theorem doRegNoedge_wf {c : Comp} (_hk : Params.kind c.params = .register) (h : c.wf = true) : (doRegNoedge c).1.wf = true := h

theorem doShregAreset_wf {c : Comp} (hk : Params.kind c.params = .shiftRegister) (h : c.wf = true) : (doShregAreset c).1.wf = true := by
  obtain ⟨w, hp⟩ := params_of_shiftRegister hk
  exact Comp.wf_withBoth h (by rw [hk]; rfl) (by simp [hp, Regs.wf])

theorem doShregAset_wf {c : Comp} (hk : Params.kind c.params = .shiftRegister) (h : c.wf = true) : (doShregAset c).1.wf = true := by
  obtain ⟨w, hp⟩ := params_of_shiftRegister hk
  exact Comp.wf_withBoth h (by rw [hk]; rfl) (by simpa [hp, Regs.wf, Comp.width, Params.width] using allOnes_lt w)

theorem doShregNoedge_wf {c : Comp} (_hk : Params.kind c.params = .shiftRegister) (h : c.wf = true) : (doShregNoedge c).1.wf = true := h

theorem doShregLoad_wf {c : Comp} (hk : Params.kind c.params = .shiftRegister) (h : c.wf = true) : (doShregLoad c).1.wf = true := by
  obtain ⟨w, hp⟩ := params_of_shiftRegister hk
  exact Comp.wf_withM h (by rw [hk]; rfl) (by simpa [hp, Regs.wf, Comp.width, Params.width] using c.opD_lt w)

theorem doShregShl_wf {c : Comp} (hk : Params.kind c.params = .shiftRegister) (h : c.wf = true) : (doShregShl c).1.wf = true := by
  obtain ⟨w, hp⟩ := params_of_shiftRegister hk
  exact Comp.wf_withM h (by rw [hk]; rfl) (by simpa [hp, Regs.wf, Comp.width, Params.width] using bitsW_lt w _)

theorem doShregShr_wf {c : Comp} (hk : Params.kind c.params = .shiftRegister) (h : c.wf = true) : (doShregShr c).1.wf = true := by
  obtain ⟨w, hp⟩ := params_of_shiftRegister hk
  exact Comp.wf_withM h (by rw [hk]; rfl) (by simpa [hp, Regs.wf, Comp.width, Params.width] using bitsW_lt w _)

theorem doUsrAreset_wf {c : Comp} (hk : Params.kind c.params = .univShiftRegister) (h : c.wf = true) : (doUsrAreset c).1.wf = true := by
  obtain ⟨w, hp⟩ := params_of_univShiftRegister hk
  exact Comp.wf_withBoth h (by rw [hk]; rfl) (by simp [hp, Regs.wf])

theorem doUsrAset_wf {c : Comp} (hk : Params.kind c.params = .univShiftRegister) (h : c.wf = true) : (doUsrAset c).1.wf = true := by
  obtain ⟨w, hp⟩ := params_of_univShiftRegister hk
  exact Comp.wf_withBoth h (by rw [hk]; rfl) (by simpa [hp, Regs.wf, Comp.width, Params.width] using allOnes_lt w)

theorem doUsrNoedge_wf {c : Comp} (_hk : Params.kind c.params = .univShiftRegister) (h : c.wf = true) : (doUsrNoedge c).1.wf = true := h

theorem doUsrNop_wf {c : Comp} (_hk : Params.kind c.params = .univShiftRegister) (h : c.wf = true) : (doUsrNop c).1.wf = true := h

theorem doUsrShr_wf {c : Comp} (hk : Params.kind c.params = .univShiftRegister) (h : c.wf = true) : (doUsrShr c).1.wf = true := by
  obtain ⟨w, hp⟩ := params_of_univShiftRegister hk
  exact Comp.wf_withM h (by rw [hk]; rfl) (by simpa [hp, Regs.wf, Comp.width, Params.width] using bitsW_lt w _)

theorem doUsrShl_wf {c : Comp} (hk : Params.kind c.params = .univShiftRegister) (h : c.wf = true) : (doUsrShl c).1.wf = true := by
  obtain ⟨w, hp⟩ := params_of_univShiftRegister hk
  exact Comp.wf_withM h (by rw [hk]; rfl) (by simpa [hp, Regs.wf, Comp.width, Params.width] using bitsW_lt w _)

theorem doUsrLoad_wf {c : Comp} (hk : Params.kind c.params = .univShiftRegister) (h : c.wf = true) : (doUsrLoad c).1.wf = true := by
  obtain ⟨w, hp⟩ := params_of_univShiftRegister hk
  exact Comp.wf_withM h (by rw [hk]; rfl) (by simpa [hp, Regs.wf, Comp.width, Params.width] using c.opD_lt w)

theorem doCtrAreset_wf {c : Comp} (hk : Params.kind c.params = .counter) (h : c.wf = true) : (doCtrAreset c).1.wf = true := by
  obtain ⟨w, m, st, hp⟩ := params_of_counter hk
  have hok : 1 ≤ m := by
    have := Comp.wf_params h
    simp only [hp, Params.ok, Bool.and_eq_true, decide_eq_true_eq] at this
    exact this.1.2
  exact Comp.wf_withBoth h (by rw [hk]; rfl) (by simp only [hp, Regs.wf, decide_eq_true_eq]; omega)

theorem doCtrNoedge_wf {c : Comp} (_hk : Params.kind c.params = .counter) (h : c.wf = true) : (doCtrNoedge c).1.wf = true := h

theorem doCtrLoad_wf {c : Comp} (hk : Params.kind c.params = .counter) (h : c.wf = true) : (doCtrLoad c).1.wf = true := by
  obtain ⟨w, m, st, hp⟩ := params_of_counter hk
  have hok : 1 ≤ m := by
    have := Comp.wf_params h
    simp only [hp, Params.ok, Bool.and_eq_true, decide_eq_true_eq] at this
    exact this.1.2
  exact Comp.wf_withM h (by rw [hk]; rfl) (by simpa [hp, Regs.wf, Params.modulus] using Nat.mod_lt _ hok)

theorem doCtrUp_wf {c : Comp} (hk : Params.kind c.params = .counter) (h : c.wf = true) : (doCtrUp c).1.wf = true := by
  obtain ⟨w, m, st, hp⟩ := params_of_counter hk
  have hok : 1 ≤ m := by
    have := Comp.wf_params h
    simp only [hp, Params.ok, Bool.and_eq_true, decide_eq_true_eq] at this
    exact this.1.2
  exact Comp.wf_withM h (by rw [hk]; rfl) (by simpa [hp, Regs.wf, Params.modulus] using Nat.mod_lt _ hok)

theorem doCtrDown_wf {c : Comp} (hk : Params.kind c.params = .counter) (h : c.wf = true) : (doCtrDown c).1.wf = true := by
  obtain ⟨w, m, st, hp⟩ := params_of_counter hk
  have hok : 1 ≤ m := by
    have := Comp.wf_params h
    simp only [hp, Params.ok, Bool.and_eq_true, decide_eq_true_eq] at this
    exact this.1.2
  exact Comp.wf_withM h (by rw [hk]; rfl) (by simpa [hp, Regs.wf, Params.modulus] using Nat.mod_lt _ hok)

theorem doCtrFreeze_wf {c : Comp} (hk : Params.kind c.params = .counter) (h : c.wf = true) : (doCtrFreeze c).1.wf = true := by
  obtain ⟨w, m, st, hp⟩ := params_of_counter hk
  have hm := Comp.wf_m h (by rw [hk]; rfl)
  refine Comp.wf_withM h (by rw [hk]; rfl) ?_
  rw [hp] at hm ⊢
  cases hr : c.m <;> rw [hr] at hm <;> simp_all [Regs.wf, Regs.asCount]

theorem doBcdAreset_wf {c : Comp} (hk : Params.kind c.params = .bcdCounter) (h : c.wf = true) : (doBcdAreset c).1.wf = true := by
  obtain ⟨k, hp⟩ := params_of_bcdCounter hk
  exact Comp.wf_withBoth h (by rw [hk]; rfl) (by simp [hp, Regs.wf, Params.digits])

theorem doBcdNoedge_wf {c : Comp} (_hk : Params.kind c.params = .bcdCounter) (h : c.wf = true) : (doBcdNoedge c).1.wf = true := h

theorem doBcdLoad_wf {c : Comp} (hk : Params.kind c.params = .bcdCounter) (h : c.wf = true) : (doBcdLoad c).1.wf = true := by
  obtain ⟨k, hp⟩ := params_of_bcdCounter hk
  exact Comp.wf_withM h (by rw [hk]; rfl) (by simp [hp, Regs.wf, Params.digits, Nat.mod_lt])

theorem doBcdUp_wf {c : Comp} (hk : Params.kind c.params = .bcdCounter) (h : c.wf = true) : (doBcdUp c).1.wf = true := by
  obtain ⟨k, hp⟩ := params_of_bcdCounter hk
  have hm := Comp.wf_m h (by rw [hk]; rfl)
  refine Comp.wf_withM h (by rw [hk]; rfl) ?_
  rw [hp] at hm ⊢
  cases hr : c.m <;> rw [hr] at hm <;> simp only [Regs.wf, Bool.false_eq_true, Bool.and_eq_true, decide_eq_true_eq, List.all_eq_true] at hm
  have := bcdUpDigits_ok true _ hm.2
  simp only [Regs.wf, Regs.asDigits, Bool.and_eq_true, List.all_eq_true]
  exact ⟨decide_eq_true (this.1.trans hm.1), fun d hd => decide_eq_true (this.2 d hd)⟩

theorem doBcdDown_wf {c : Comp} (hk : Params.kind c.params = .bcdCounter) (h : c.wf = true) : (doBcdDown c).1.wf = true := by
  obtain ⟨k, hp⟩ := params_of_bcdCounter hk
  have hm := Comp.wf_m h (by rw [hk]; rfl)
  refine Comp.wf_withM h (by rw [hk]; rfl) ?_
  rw [hp] at hm ⊢
  cases hr : c.m <;> rw [hr] at hm <;> simp only [Regs.wf, Bool.false_eq_true, Bool.and_eq_true, decide_eq_true_eq, List.all_eq_true] at hm
  have := bcdDownDigits_ok true _ hm.2
  simp only [Regs.wf, Regs.asDigits, Bool.and_eq_true, List.all_eq_true]
  exact ⟨decide_eq_true (this.1.trans hm.1), fun d hd => decide_eq_true (this.2 d hd)⟩

theorem doBcdFreeze_wf {c : Comp} (hk : Params.kind c.params = .bcdCounter) (h : c.wf = true) : (doBcdFreeze c).1.wf = true := by
  obtain ⟨k, hp⟩ := params_of_bcdCounter hk
  have hm := Comp.wf_m h (by rw [hk]; rfl)
  refine Comp.wf_withM h (by rw [hk]; rfl) ?_
  rw [hp] at hm ⊢
  cases hr : c.m <;> rw [hr] at hm <;> simp only [Regs.wf, Bool.false_eq_true, Bool.and_eq_true, decide_eq_true_eq, List.all_eq_true] at hm
  simp only [Regs.wf, Regs.asDigits, Bool.and_eq_true, List.all_eq_true]
  exact ⟨decide_eq_true hm.1, fun d hd => decide_eq_true (hm.2 d hd)⟩

theorem doRingAreset_wf {c : Comp} (hk : Params.kind c.params = .ringCounter) (h : c.wf = true) : (doRingAreset c).1.wf = true := by
  obtain ⟨w, hp⟩ := params_of_ringCounter hk
  have hok : 1 ≤ w := by
    simpa [hp, Params.ok] using Comp.wf_params h
  refine Comp.wf_withBoth h (by rw [hk]; rfl) ?_
  simp only [hp, Regs.wf, Comp.width, Params.width, oneHot, List.any_eq_true, List.mem_range, decide_eq_true_eq]
  exact ⟨0, by omega, bitsW_of_lt (Nat.one_lt_two_pow (by omega))⟩

theorem doRingNoedge_wf {c : Comp} (_hk : Params.kind c.params = .ringCounter) (h : c.wf = true) : (doRingNoedge c).1.wf = true := h

theorem doRingRotl_wf {c : Comp} (hk : Params.kind c.params = .ringCounter) (h : c.wf = true) : (doRingRotl c).1.wf = true := by
  obtain ⟨w, hp⟩ := params_of_ringCounter hk
  have hm := Comp.wf_m h (by rw [hk]; rfl)
  refine Comp.wf_withM h (by rw [hk]; rfl) ?_
  rw [hp] at hm ⊢
  cases hr : c.m <;> rw [hr] at hm <;> simp only [Regs.wf, Bool.false_eq_true] at hm
  simpa only [Regs.wf, Regs.asWord, Comp.width, hp, Params.width] using oneHot_rotl hm

theorem doRingRotr_wf {c : Comp} (hk : Params.kind c.params = .ringCounter) (h : c.wf = true) : (doRingRotr c).1.wf = true := by
  obtain ⟨w, hp⟩ := params_of_ringCounter hk
  have hm := Comp.wf_m h (by rw [hk]; rfl)
  refine Comp.wf_withM h (by rw [hk]; rfl) ?_
  rw [hp] at hm ⊢
  cases hr : c.m <;> rw [hr] at hm <;> simp only [Regs.wf, Bool.false_eq_true] at hm
  simpa only [Regs.wf, Regs.asWord, Comp.width, hp, Params.width] using oneHot_rotr hm

theorem doJohnsonAreset_wf {c : Comp} (hk : Params.kind c.params = .johnsonCounter) (h : c.wf = true) : (doJohnsonAreset c).1.wf = true := by
  obtain ⟨w, hp⟩ := params_of_johnsonCounter hk
  exact Comp.wf_withBoth h (by rw [hk]; rfl) (by simp [hp, Regs.wf])

theorem doJohnsonNoedge_wf {c : Comp} (_hk : Params.kind c.params = .johnsonCounter) (h : c.wf = true) : (doJohnsonNoedge c).1.wf = true := h

theorem doJohnsonStep_wf {c : Comp} (hk : Params.kind c.params = .johnsonCounter) (h : c.wf = true) : (doJohnsonStep c).1.wf = true := by
  obtain ⟨w, hp⟩ := params_of_johnsonCounter hk
  exact Comp.wf_withM h (by rw [hk]; rfl) (by simpa [hp, Regs.wf, Comp.width, Params.width] using bitsW_lt w _)

theorem doClkdivAreset_wf {c : Comp} (hk : Params.kind c.params = .clockDivider) (h : c.wf = true) : (doClkdivAreset c).1.wf = true := by
  obtain ⟨n, hp⟩ := params_of_clockDivider hk
  have hok : 1 ≤ n := by simpa [hp, Params.ok] using Comp.wf_params h
  exact Comp.wf_withBoth h (by rw [hk]; rfl) (by simp only [hp, Regs.wf, decide_eq_true_eq]; omega)

theorem doClkdivNoedge_wf {c : Comp} (_hk : Params.kind c.params = .clockDivider) (h : c.wf = true) : (doClkdivNoedge c).1.wf = true := h

theorem doClkdivCount_wf {c : Comp} (hk : Params.kind c.params = .clockDivider) (h : c.wf = true) : (doClkdivCount c).1.wf = true := by
  obtain ⟨n, hp⟩ := params_of_clockDivider hk
  have hm := Comp.wf_m h (by rw [hk]; rfl)
  refine Comp.wf_withM h (by rw [hk]; rfl) ?_
  rw [hp] at hm ⊢
  cases hr : c.m <;> rw [hr] at hm <;> simp only [Regs.wf, Bool.false_eq_true, decide_eq_true_eq] at hm
  rename_i cnt o
  show Regs.wf (.clockDivider n) (if cnt + 1 = n then .divide 0 (!o) else .divide (cnt + 1) o) = true
  split <;> exact decide_eq_true (by omega)

theorem doMuxSelect_wf {c : Comp} (_hk : Params.kind c.params = .mux) (h : c.wf = true) : (doMuxSelect c).1.wf = true := h

theorem doMuxDisabled_wf {c : Comp} (_hk : Params.kind c.params = .mux) (h : c.wf = true) : (doMuxDisabled c).1.wf = true := h

theorem doDemuxSelect_wf {c : Comp} (_hk : Params.kind c.params = .demux) (h : c.wf = true) : (doDemuxSelect c).1.wf = true := h

theorem doDemuxDisabled_wf {c : Comp} (_hk : Params.kind c.params = .demux) (h : c.wf = true) : (doDemuxDisabled c).1.wf = true := h

theorem doDecSelect_wf {c : Comp} (_hk : Params.kind c.params = .decoder) (h : c.wf = true) : (doDecSelect c).1.wf = true := h

theorem doDecDisabled_wf {c : Comp} (_hk : Params.kind c.params = .decoder) (h : c.wf = true) : (doDecDisabled c).1.wf = true := h

theorem doAdderAdd_wf {c : Comp} (hk : Params.kind c.params = .adder) (h : c.wf = true) : (doAdderAdd c).1.wf = true := by
  obtain ⟨w, hp⟩ := params_of_adder hk
  exact Comp.wf_withQ h (by simpa [hp, Regs.wf, Comp.width, Params.width] using bitsW_lt w _)

theorem doAdderSub_wf {c : Comp} (hk : Params.kind c.params = .adder) (h : c.wf = true) : (doAdderSub c).1.wf = true := by
  obtain ⟨w, hp⟩ := params_of_adder hk
  exact Comp.wf_withQ h (by simpa [hp, Regs.wf, Comp.width, Params.width] using bitsW_lt w _)

theorem doAdderInc_wf {c : Comp} (hk : Params.kind c.params = .adder) (h : c.wf = true) : (doAdderInc c).1.wf = true := by
  obtain ⟨w, hp⟩ := params_of_adder hk
  exact Comp.wf_withQ h (by simpa [hp, Regs.wf, Comp.width, Params.width] using bitsW_lt w _)

theorem doAdderInvalid_wf {c : Comp} (_hk : Params.kind c.params = .adder) (h : c.wf = true) : (doAdderInvalid c).1.wf = true := h

theorem doMul_wf {c : Comp} (_hk : Params.kind c.params = .multiplier) (h : c.wf = true) : (doMul c).1.wf = true := h

theorem doDivAreset_wf {c : Comp} (hk : Params.kind c.params = .divider) (h : c.wf = true) : (doDivAreset c).1.wf = true := by
  obtain ⟨w, hp⟩ := params_of_divider hk
  exact Comp.wf_withQ h (by rw [hp]; rfl)

theorem doDivEval_wf {c : Comp} (_hk : Params.kind c.params = .divider) (h : c.wf = true) : (doDivEval c).1.wf = true := h

theorem doBcdAdd_wf {c : Comp} (_hk : Params.kind c.params = .bcdAdder) (h : c.wf = true) : (doBcdAdd c).1.wf = true := h

theorem doAluAdd_wf {c : Comp} (hk : Params.kind c.params = .alu) (h : c.wf = true) : (doAluAdd c).1.wf = true := by
  obtain ⟨w, hp⟩ := params_of_alu hk
  exact Comp.wf_withQ h (alu_flagsOf_wf hp (by simpa only [hp, Comp.width, Params.width] using bitsW_lt w _) _ _)

theorem doAluSub_wf {c : Comp} (hk : Params.kind c.params = .alu) (h : c.wf = true) : (doAluSub c).1.wf = true := by
  obtain ⟨w, hp⟩ := params_of_alu hk
  exact Comp.wf_withQ h (alu_flagsOf_wf hp (by simpa only [hp, Comp.width, Params.width] using bitsW_lt w _) _ _)

theorem doAluAnd_wf {c : Comp} (hk : Params.kind c.params = .alu) (h : c.wf = true) : (doAluAnd c).1.wf = true := by
  obtain ⟨w, hp⟩ := params_of_alu hk
  exact Comp.wf_withQ h (alu_flagsOf_wf hp (by simpa only [hp, Comp.width, Params.width] using Nat.and_lt_two_pow (c.opA w) (c.opB_lt w)) _ _)

theorem doAluOr_wf {c : Comp} (hk : Params.kind c.params = .alu) (h : c.wf = true) : (doAluOr c).1.wf = true := by
  obtain ⟨w, hp⟩ := params_of_alu hk
  exact Comp.wf_withQ h (alu_flagsOf_wf hp (by simpa only [hp, Comp.width, Params.width] using Nat.or_lt_two_pow (c.opA_lt w) (c.opB_lt w)) _ _)

theorem doAluXor_wf {c : Comp} (hk : Params.kind c.params = .alu) (h : c.wf = true) : (doAluXor c).1.wf = true := by
  obtain ⟨w, hp⟩ := params_of_alu hk
  exact Comp.wf_withQ h (alu_flagsOf_wf hp (by simpa only [hp, Comp.width, Params.width] using Nat.xor_lt_two_pow (c.opA_lt w) (c.opB_lt w)) _ _)

theorem doAluNot_wf {c : Comp} (hk : Params.kind c.params = .alu) (h : c.wf = true) : (doAluNot c).1.wf = true := by
  obtain ⟨w, hp⟩ := params_of_alu hk
  exact Comp.wf_withQ h (alu_flagsOf_wf hp (by simpa only [hp, Comp.width, Params.width] using Nat.lt_of_le_of_lt (Nat.sub_le _ _) (allOnes_lt w)) _ _)

theorem doAluShl_wf {c : Comp} (hk : Params.kind c.params = .alu) (h : c.wf = true) : (doAluShl c).1.wf = true := by
  obtain ⟨w, hp⟩ := params_of_alu hk
  exact Comp.wf_withQ h (alu_flagsOf_wf hp (by simpa only [hp, Comp.width, Params.width] using bitsW_lt w _) _ _)

theorem doAluShr_wf {c : Comp} (hk : Params.kind c.params = .alu) (h : c.wf = true) : (doAluShr c).1.wf = true := by
  obtain ⟨w, hp⟩ := params_of_alu hk
  exact Comp.wf_withQ h (alu_flagsOf_wf hp (by simpa only [hp, Comp.width, Params.width] using bitsW_lt w _) _ _)

theorem doAluInc_wf {c : Comp} (hk : Params.kind c.params = .alu) (h : c.wf = true) : (doAluInc c).1.wf = true := by
  obtain ⟨w, hp⟩ := params_of_alu hk
  exact Comp.wf_withQ h (alu_flagsOf_wf hp (by simpa only [hp, Comp.width, Params.width] using bitsW_lt w _) _ _)

theorem doAluDec_wf {c : Comp} (hk : Params.kind c.params = .alu) (h : c.wf = true) : (doAluDec c).1.wf = true := by
  obtain ⟨w, hp⟩ := params_of_alu hk
  exact Comp.wf_withQ h (alu_flagsOf_wf hp (by simpa only [hp, Comp.width, Params.width] using bitsW_lt w _) _ _)

theorem doAluCompare_wf {c : Comp} (hk : Params.kind c.params = .alu) (h : c.wf = true) : (doAluCompare c).1.wf = true := by
  obtain ⟨w, hp⟩ := params_of_alu hk
  have hq := Comp.wf_q h
  refine Comp.wf_withQ h ?_
  rw [hp] at hq ⊢
  cases hr : c.q <;> rw [hr] at hq <;> simp only [Regs.wf, Bool.false_eq_true, Bool.and_eq_true, decide_eq_true_eq] at hq
  simp only [Regs.wf, Regs.asRes, Bool.and_eq_true]
  exact ⟨decide_eq_true hq.1, zero_not_sign _ _⟩

theorem doAluInvalidB_wf {c : Comp} (_hk : Params.kind c.params = .alu) (h : c.wf = true) : (doAluInvalidB c).1.wf = true := h

theorem doAluInvalidC_wf {c : Comp} (_hk : Params.kind c.params = .alu) (h : c.wf = true) : (doAluInvalidC c).1.wf = true := h

theorem doMemWrite_wf {c : Comp} (hk : Params.kind c.params = .memory) (h : c.wf = true) : (doMemWrite c).1.wf = true := by
  obtain ⟨a, d, hp⟩ := params_of_memory hk
  have hm := Comp.wf_m h (by rw [hk]; rfl)
  refine Comp.wf_withM h (by rw [hk]; rfl) ?_
  rw [hp] at hm ⊢
  cases hr : c.m <;> rw [hr] at hm <;> simp only [Regs.wf, Bool.false_eq_true, Bool.and_eq_true] at hm
  simp only [Regs.wf, Regs.asCells, Bool.and_eq_true, Comp.width, Params.width, Params.addressWidth, hp]
  exact ⟨Memory.write_wf _ _ hm.1, Memory.write_within hm.2 (wordOf_lt a _) (wordOf_lt d _)⟩

theorem doMemWidleNoedge_wf {c : Comp} (_hk : Params.kind c.params = .memory) (h : c.wf = true) : (doMemWidleNoedge c).1.wf = true := h

theorem doMemWidleNowe_wf {c : Comp} (_hk : Params.kind c.params = .memory) (h : c.wf = true) : (doMemWidleNowe c).1.wf = true := h

theorem doMemRead_wf {c : Comp} (_hk : Params.kind c.params = .memory) (h : c.wf = true) : (doMemRead c).1.wf = true := h

theorem doMemReadoff_wf {c : Comp} (_hk : Params.kind c.params = .memory) (h : c.wf = true) : (doMemReadoff c).1.wf = true := h

theorem doAccAreset_wf {c : Comp} (hk : Params.kind c.params = .accumulator) (h : c.wf = true) : (doAccAreset c).1.wf = true := by
  obtain ⟨w, hp⟩ := params_of_accumulator hk
  exact Comp.wf_withBoth h (by rw [hk]; rfl) (by simp [hp, Regs.wf, Flags.describe, clearFlags, signBit])

theorem doAccNoedge_wf {c : Comp} (_hk : Params.kind c.params = .accumulator) (h : c.wf = true) : (doAccNoedge c).1.wf = true := h

theorem doAccLoad_wf {c : Comp} (hk : Params.kind c.params = .accumulator) (h : c.wf = true) : (doAccLoad c).1.wf = true := by
  obtain ⟨w, hp⟩ := params_of_accumulator hk
  exact Comp.wf_withM h (by rw [hk]; rfl) (acc_flagsOf_wf hp (by simpa only [hp, Comp.width, Params.width] using c.opD_lt w) _ _)

theorem doAccClear_wf {c : Comp} (hk : Params.kind c.params = .accumulator) (h : c.wf = true) : (doAccClear c).1.wf = true := by
  obtain ⟨w, hp⟩ := params_of_accumulator hk
  exact Comp.wf_withM h (by rw [hk]; rfl) (by simp [hp, Regs.wf, Flags.describe, clearFlags, signBit])

theorem doAccInc_wf {c : Comp} (hk : Params.kind c.params = .accumulator) (h : c.wf = true) : (doAccInc c).1.wf = true := by
  obtain ⟨w, hp⟩ := params_of_accumulator hk
  exact Comp.wf_withM h (by rw [hk]; rfl) (acc_flagsOf_wf hp (by simpa only [hp, Comp.width, Params.width] using bitsW_lt w _) _ _)

theorem doAccShl_wf {c : Comp} (hk : Params.kind c.params = .accumulator) (h : c.wf = true) : (doAccShl c).1.wf = true := by
  obtain ⟨w, hp⟩ := params_of_accumulator hk
  exact Comp.wf_withM h (by rw [hk]; rfl) (acc_flagsOf_wf hp (by simpa only [hp, Comp.width, Params.width] using bitsW_lt w _) _ _)

theorem doAccShr_wf {c : Comp} (hk : Params.kind c.params = .accumulator) (h : c.wf = true) : (doAccShr c).1.wf = true := by
  obtain ⟨w, hp⟩ := params_of_accumulator hk
  exact Comp.wf_withM h (by rw [hk]; rfl) (acc_flagsOf_wf hp (by simpa only [hp, Comp.width, Params.width] using bitsW_lt w _) _ _)

theorem doAccInvalid5_wf {c : Comp} (_hk : Params.kind c.params = .accumulator) (h : c.wf = true) : (doAccInvalid5 c).1.wf = true := h

theorem doAccInvalid67_wf {c : Comp} (_hk : Params.kind c.params = .accumulator) (h : c.wf = true) : (doAccInvalid67 c).1.wf = true := h

/-- Every component operation keeps a component of its kind well formed. -/
theorem perform_wf {i : Instr} {h : Nat} {k : Kind} {c : Comp} (ht : rowTarget i = some (h, k))
    (hk : Params.kind c.params = k) (hc : c.wf = true) : (perform i c).1.wf = true := by
  cases i <;> simp only [rowTarget, Option.some.injEq, Prod.mk.injEq, reduceCtorEq] at ht <;> obtain ⟨rfl, rfl⟩ := ht
  · exact doNotGate_wf hk hc
  · exact doAndGate_wf hk hc
  · exact doOrGate_wf hk hc
  · exact doNandGate_wf hk hc
  · exact doNorGate_wf hk hc
  · exact doXorGate_wf hk hc
  · exact doHalfAdd_wf hk hc
  · exact doFullAdd_wf hk hc
  · exact doSrlAreset_wf hk hc
  · exact doSrlAset_wf hk hc
  · exact doSrlSet_wf hk hc
  · exact doSrlReset_wf hk hc
  · exact doSrlHold_wf hk hc
  · exact doSrlBoth_wf hk hc
  · exact doDlAreset_wf hk hc
  · exact doDlAset_wf hk hc
  · exact doDlTrack_wf hk hc
  · exact doDlHold_wf hk hc
  · exact doDffAreset_wf hk hc
  · exact doDffAset_wf hk hc
  · exact doDffCapture_wf hk hc
  · exact doDffNoedge_wf hk hc
  · exact doJkAreset_wf hk hc
  · exact doJkAset_wf hk hc
  · exact doJkNoedge_wf hk hc
  · exact doJkHold_wf hk hc
  · exact doJkReset_wf hk hc
  · exact doJkSet_wf hk hc
  · exact doJkToggle_wf hk hc
  · exact doTAreset_wf hk hc
  · exact doTAset_wf hk hc
  · exact doTNoedge_wf hk hc
  · exact doTHold_wf hk hc
  · exact doTToggle_wf hk hc
  · exact doRegAreset_wf hk hc
  · exact doRegAset_wf hk hc
  · exact doRegLoad_wf hk hc
  · exact doRegNoedge_wf hk hc
  · exact doShregAreset_wf hk hc
  · exact doShregAset_wf hk hc
  · exact doShregNoedge_wf hk hc
  · exact doShregLoad_wf hk hc
  · exact doShregShl_wf hk hc
  · exact doShregShr_wf hk hc
  · exact doUsrAreset_wf hk hc
  · exact doUsrAset_wf hk hc
  · exact doUsrNoedge_wf hk hc
  · exact doUsrNop_wf hk hc
  · exact doUsrShr_wf hk hc
  · exact doUsrShl_wf hk hc
  · exact doUsrLoad_wf hk hc
  · exact doCtrAreset_wf hk hc
  · exact doCtrNoedge_wf hk hc
  · exact doCtrLoad_wf hk hc
  · exact doCtrUp_wf hk hc
  · exact doCtrDown_wf hk hc
  · exact doCtrFreeze_wf hk hc
  · exact doBcdAreset_wf hk hc
  · exact doBcdNoedge_wf hk hc
  · exact doBcdLoad_wf hk hc
  · exact doBcdUp_wf hk hc
  · exact doBcdDown_wf hk hc
  · exact doBcdFreeze_wf hk hc
  · exact doRingAreset_wf hk hc
  · exact doRingNoedge_wf hk hc
  · exact doRingRotl_wf hk hc
  · exact doRingRotr_wf hk hc
  · exact doJohnsonAreset_wf hk hc
  · exact doJohnsonNoedge_wf hk hc
  · exact doJohnsonStep_wf hk hc
  · exact doClkdivAreset_wf hk hc
  · exact doClkdivNoedge_wf hk hc
  · exact doClkdivCount_wf hk hc
  · exact doMuxSelect_wf hk hc
  · exact doMuxDisabled_wf hk hc
  · exact doDemuxSelect_wf hk hc
  · exact doDemuxDisabled_wf hk hc
  · exact doDecSelect_wf hk hc
  · exact doDecDisabled_wf hk hc
  · exact doAdderAdd_wf hk hc
  · exact doAdderSub_wf hk hc
  · exact doAdderInc_wf hk hc
  · exact doAdderInvalid_wf hk hc
  · exact doMul_wf hk hc
  · exact doDivAreset_wf hk hc
  · exact doDivEval_wf hk hc
  · exact doBcdAdd_wf hk hc
  · exact doAluAdd_wf hk hc
  · exact doAluSub_wf hk hc
  · exact doAluAnd_wf hk hc
  · exact doAluOr_wf hk hc
  · exact doAluXor_wf hk hc
  · exact doAluNot_wf hk hc
  · exact doAluShl_wf hk hc
  · exact doAluShr_wf hk hc
  · exact doAluInc_wf hk hc
  · exact doAluDec_wf hk hc
  · exact doAluCompare_wf hk hc
  · exact doAluInvalidB_wf hk hc
  · exact doAluInvalidC_wf hk hc
  · exact doMemWrite_wf hk hc
  · exact doMemWidleNoedge_wf hk hc
  · exact doMemWidleNowe_wf hk hc
  · exact doMemRead_wf hk hc
  · exact doMemReadoff_wf hk hc
  · exact doAccAreset_wf hk hc
  · exact doAccNoedge_wf hk hc
  · exact doAccLoad_wf hk hc
  · exact doAccClear_wf hk hc
  · exact doAccInc_wf hk hc
  · exact doAccShl_wf hk hc
  · exact doAccShr_wf hk hc
  · exact doAccInvalid5_wf hk hc
  · exact doAccInvalid67_wf hk hc

end Sys2Proof.Machine
end

