-- ==== Sys2Proof/Laws/Contract.lean ====
section
/-! SUPPORT. What the contract operations keep: well-formedness of a component, and which operation a word selects. -/

namespace Sys2Proof.Machine

set_option Elab.async false

/-- An evaluation keeps a component well formed (R83, R47). -/
theorem evaluate_wf {c : Comp} (h : c.wf = true) (e : Bool) : (evaluate c e).1.wf = true := by
  cases hk : Params.kind c.params
  · rw [evaluate_notGate hk]
    exact doNotGate_wf hk h
  · rw [evaluate_andGate hk]
    exact doAndGate_wf hk h
  · rw [evaluate_orGate hk]
    exact doOrGate_wf hk h
  · rw [evaluate_nandGate hk]
    exact doNandGate_wf hk h
  · rw [evaluate_norGate hk]
    exact doNorGate_wf hk h
  · rw [evaluate_xorGate hk]
    exact doXorGate_wf hk h
  · rw [evaluate_halfAdder hk]
    exact doHalfAdd_wf hk h
  · rw [evaluate_fullAdder hk]
    exact doFullAdd_wf hk h
  · rw [evaluate_srLatch hk]
    repeat' split
    all_goals first | exact doSrlAreset_wf hk h | exact doSrlAset_wf hk h | exact doSrlBoth_wf hk h | exact doSrlSet_wf hk h | exact doSrlReset_wf hk h | exact doSrlHold_wf hk h
  · rw [evaluate_dLatch hk]
    repeat' split
    all_goals first | exact doDlAreset_wf hk h | exact doDlAset_wf hk h | exact doDlTrack_wf hk h | exact doDlHold_wf hk h
  · rw [evaluate_dff hk]
    repeat' split
    all_goals first | exact doDffAreset_wf hk h | exact doDffAset_wf hk h | exact doDffCapture_wf hk h | exact doDffNoedge_wf hk h
  · rw [evaluate_jkff hk]
    repeat' split
    all_goals first | exact doJkAreset_wf hk h | exact doJkAset_wf hk h | exact doJkToggle_wf hk h | exact doJkSet_wf hk h | exact doJkReset_wf hk h | exact doJkHold_wf hk h | exact doJkNoedge_wf hk h
  · rw [evaluate_tff hk]
    repeat' split
    all_goals first | exact doTAreset_wf hk h | exact doTAset_wf hk h | exact doTToggle_wf hk h | exact doTHold_wf hk h | exact doTNoedge_wf hk h
  · rw [evaluate_register hk]
    repeat' split
    all_goals first | exact doRegAreset_wf hk h | exact doRegAset_wf hk h | exact doRegLoad_wf hk h | exact doRegNoedge_wf hk h
  · rw [evaluate_shiftRegister hk]
    repeat' split
    all_goals first | exact doShregAreset_wf hk h | exact doShregAset_wf hk h | exact doShregLoad_wf hk h | exact doShregShr_wf hk h | exact doShregShl_wf hk h | exact doShregNoedge_wf hk h
  · rw [evaluate_univShiftRegister hk]
    repeat' split
    all_goals first | exact doUsrAreset_wf hk h | exact doUsrAset_wf hk h | exact doUsrLoad_wf hk h | exact doUsrShl_wf hk h | exact doUsrShr_wf hk h | exact doUsrNop_wf hk h | exact doUsrNoedge_wf hk h
  · rw [evaluate_counter hk]
    repeat' split
    all_goals first | exact doCtrAreset_wf hk h | exact doCtrLoad_wf hk h | exact doCtrDown_wf hk h | exact doCtrUp_wf hk h | exact doCtrFreeze_wf hk h | exact doCtrNoedge_wf hk h
  · rw [evaluate_bcdCounter hk]
    repeat' split
    all_goals first | exact doBcdAreset_wf hk h | exact doBcdLoad_wf hk h | exact doBcdDown_wf hk h | exact doBcdUp_wf hk h | exact doBcdFreeze_wf hk h | exact doBcdNoedge_wf hk h
  · rw [evaluate_ringCounter hk]
    repeat' split
    all_goals first | exact doRingAreset_wf hk h | exact doRingRotr_wf hk h | exact doRingRotl_wf hk h | exact doRingNoedge_wf hk h
  · rw [evaluate_johnsonCounter hk]
    repeat' split
    all_goals first | exact doJohnsonAreset_wf hk h | exact doJohnsonStep_wf hk h | exact doJohnsonNoedge_wf hk h
  · rw [evaluate_clockDivider hk]
    repeat' split
    all_goals first | exact doClkdivAreset_wf hk h | exact doClkdivCount_wf hk h | exact doClkdivNoedge_wf hk h
  · rw [evaluate_mux hk]
    repeat' split
    all_goals first | exact doMuxDisabled_wf hk h | exact doMuxSelect_wf hk h
  · rw [evaluate_demux hk]
    repeat' split
    all_goals first | exact doDemuxDisabled_wf hk h | exact doDemuxSelect_wf hk h
  · rw [evaluate_decoder hk]
    repeat' split
    all_goals first | exact doDecDisabled_wf hk h | exact doDecSelect_wf hk h
  · rw [evaluate_adder hk]
    repeat' split
    all_goals first | exact doAdderInvalid_wf hk h | exact doAdderInc_wf hk h | exact doAdderSub_wf hk h | exact doAdderAdd_wf hk h
  · rw [evaluate_multiplier hk]
    exact doMul_wf hk h
  · rw [evaluate_divider hk]
    repeat' split
    all_goals first | exact doDivAreset_wf hk h | exact doDivEval_wf hk h
  · rw [evaluate_bcdAdder hk]
    exact doBcdAdd_wf hk h
  · rw [evaluate_alu hk]
    repeat' split
    all_goals first | exact doAluInvalidC_wf hk h | exact doAluInvalidB_wf hk h | exact doAluCompare_wf hk h | exact doAluDec_wf hk h | exact doAluInc_wf hk h | exact doAluShr_wf hk h | exact doAluShl_wf hk h | exact doAluNot_wf hk h | exact doAluXor_wf hk h | exact doAluOr_wf hk h | exact doAluAnd_wf hk h | exact doAluSub_wf hk h | exact doAluAdd_wf hk h
  · rw [evaluate_memory hk]
    repeat' split
    all_goals first | exact doMemWrite_wf hk h | exact doMemWidleNowe_wf hk h | exact doMemWidleNoedge_wf hk h
  · rw [evaluate_accumulator hk]
    repeat' split
    all_goals first | exact doAccAreset_wf hk h | exact doAccInvalid67_wf hk h | exact doAccInvalid5_wf hk h | exact doAccShr_wf hk h | exact doAccShl_wf hk h | exact doAccInc_wf hk h | exact doAccClear_wf hk h | exact doAccLoad_wf hk h | exact doAccNoedge_wf hk h
  · have := Comp.wf_params h
    cases hp : c.params <;> rw [hp] at hk this <;> first | exact absurd this (by decide) | exact absurd hk (by simp [Params.kind])

/-- A stage after construction is in range (R46). -/
theorem resetRegs_wf {p : Params} (h : p.ok = true) : Regs.wf p (resetRegs p) = true := by
  cases p with
  | reserved => exact h
  | ringCounter w =>
    simp only [Params.ok, decide_eq_true_eq] at h
    simp only [resetRegs, Regs.wf, oneHot, List.any_eq_true, List.mem_range, decide_eq_true_eq]
    exact ⟨0, by omega, bitsW_of_lt (Nat.one_lt_two_pow (by omega))⟩
  | alu w => simp [resetRegs, Regs.wf, clearFlags]
  | accumulator w => simp [resetRegs, Regs.wf, Flags.describe, clearFlags, signBit]
  | counter w m st =>
    simp only [Params.ok, Bool.and_eq_true, decide_eq_true_eq] at h
    exact decide_eq_true (by omega)
  | clockDivider n =>
    simp only [Params.ok, decide_eq_true_eq] at h
    exact decide_eq_true (by omega)
  | bcdCounter k => simp [resetRegs, Regs.wf]
  | register w => exact decide_eq_true (Nat.two_pow_pos w)
  | shiftRegister w => exact decide_eq_true (Nat.two_pow_pos w)
  | univShiftRegister w => exact decide_eq_true (Nat.two_pow_pos w)
  | johnsonCounter w => exact decide_eq_true (Nat.two_pow_pos w)
  | adder w => exact decide_eq_true (Nat.two_pow_pos w)
  | _ => rfl

/-- A component after construction is well formed (R46). -/
theorem newComp_wf {config : CompConfig} (h : config.ok = true) : (newComp config).wf = true := by
  simp only [CompConfig.ok, Bool.and_eq_true] at h
  refine Comp.wf_iff.2 ⟨h.1, h.2, by simp [newComp, Function.comp_def], resetRegs_wf h.1, ?_⟩
  show (if Kind.isClocked (Params.kind config.params) then
    Regs.wf config.params (if Kind.isClocked (Params.kind config.params) then resetRegs config.params else .none)
    else decide ((if Kind.isClocked (Params.kind config.params) then resetRegs config.params else .none) = .none)) = true
  cases hc : Kind.isClocked (Params.kind config.params)
  · rfl
  · exact resetRegs_wf h.1

/-- `WritePin` keeps a component well formed (R104). -/
theorem Comp.writePin_wf {c : Comp} (h : c.wf = true) (p : Nat) (v : Voltage) : (c.writePin p v).1.wf = true := by
  rcases c.writePin_cases p v with ⟨_, hw⟩ | ⟨_, hw⟩ | ⟨_, hw⟩ | ⟨_, hw⟩ | ⟨P, _, _, _, _, ⟨_, hw⟩ | ⟨_, hw⟩⟩ <;> rw [hw]
  · exact h
  · exact h
  · exact h
  · exact evaluate_wf (c := c.withClkPrev v) h _
  · exact h
  · exact evaluate_wf (Comp.wf_withIn P v h) false

/-- `Tick` keeps a component well formed (R113). -/
theorem Comp.tick_wf {c : Comp} (h : c.wf = true) : c.tick.wf = true := by
  simp only [Comp.tick]
  split
  · exact evaluate_wf h false
  · exact evaluate_wf h false
  · next hk =>
    simp only [Comp.tickDivider]
    split
    · obtain ⟨w, hp⟩ := params_of_divider hk
      exact Comp.wf_withQ h (by rw [hp]; rfl)
    · exact h
  · split
    · next hk => exact Comp.wf_withQ h (Comp.wf_m h hk)
    · exact h

/-- Every operation word a component computes selects one operation of its kind, performed on that component (R83, R92). -/
theorem decodeRow_opWord (h : Nat) (c : Comp) (port e : Bool) (hk : Params.kind c.params ≠ .reserved) :
    ∃ i, decodeRow h (opWord c port e) = .ok i ∧ rowTarget i = some (h, Params.kind c.params) := by
  cases hp : Params.kind c.params
  · simp only [opWord, hp, controlFields, List.map_nil]
    exact ⟨_, rfl, rfl⟩
  · simp only [opWord, hp, controlFields, List.map_nil]
    exact ⟨_, rfl, rfl⟩
  · simp only [opWord, hp, controlFields, List.map_nil]
    exact ⟨_, rfl, rfl⟩
  · simp only [opWord, hp, controlFields, List.map_nil]
    exact ⟨_, rfl, rfl⟩
  · simp only [opWord, hp, controlFields, List.map_nil]
    exact ⟨_, rfl, rfl⟩
  · simp only [opWord, hp, controlFields, List.map_nil]
    exact ⟨_, rfl, rfl⟩
  · simp only [opWord, hp, controlFields, List.map_nil]
    exact ⟨_, rfl, rfl⟩
  · simp only [opWord, hp, controlFields, List.map_nil]
    exact ⟨_, rfl, rfl⟩
  · simp only [opWord, hp, controlFields, List.map_cons, List.map_nil, controlBit]
    cases c.inBit .reset <;> cases c.inBit .set <;> cases c.inBit .s <;> cases c.inBit .r <;> exact ⟨_, rfl, rfl⟩
  · simp only [opWord, hp, controlFields, List.map_cons, List.map_nil, controlBit]
    cases c.inBit .reset <;> cases c.inBit .set <;> cases c.inBit .en <;> exact ⟨_, rfl, rfl⟩
  · simp only [opWord, hp, controlFields, List.map_cons, List.map_nil, controlBit]
    cases c.inBit .reset <;> cases c.inBit .set <;> cases e <;> exact ⟨_, rfl, rfl⟩
  · simp only [opWord, hp, controlFields, List.map_cons, List.map_nil, controlBit]
    cases c.inBit .reset <;> cases c.inBit .set <;> cases c.inBit .j <;> cases c.inBit .k <;> cases e <;> exact ⟨_, rfl, rfl⟩
  · simp only [opWord, hp, controlFields, List.map_cons, List.map_nil, controlBit]
    cases c.inBit .reset <;> cases c.inBit .set <;> cases c.inBit .t <;> cases e <;> exact ⟨_, rfl, rfl⟩
  · simp only [opWord, hp, controlFields, List.map_cons, List.map_nil, controlBit]
    cases c.inBit .reset <;> cases c.inBit .set <;> cases e <;> exact ⟨_, rfl, rfl⟩
  · simp only [opWord, hp, controlFields, List.map_cons, List.map_nil, controlBit]
    cases c.inBit .reset <;> cases c.inBit .set <;> cases c.inBit .load <;> cases c.inBit .dir <;> cases e <;> exact ⟨_, rfl, rfl⟩
  · simp only [opWord, hp, controlFields, List.map_cons, List.map_nil, controlBit]
    cases c.inBit .reset <;> cases c.inBit .set <;> cases c.inBit (.mode 1) <;> cases c.inBit (.mode 0) <;> cases e <;> exact ⟨_, rfl, rfl⟩
  · simp only [opWord, hp, controlFields, List.map_cons, List.map_nil, controlBit]
    cases c.inBit .reset <;> cases c.inBit .load <;> cases c.inBit .enable <;> cases c.inBit .down <;> cases e <;> exact ⟨_, rfl, rfl⟩
  · simp only [opWord, hp, controlFields, List.map_cons, List.map_nil, controlBit]
    cases c.inBit .reset <;> cases c.inBit .load <;> cases c.inBit .enable <;> cases c.inBit .down <;> cases e <;> exact ⟨_, rfl, rfl⟩
  · simp only [opWord, hp, controlFields, List.map_cons, List.map_nil, controlBit]
    cases c.inBit .reset <;> cases c.inBit .dir <;> cases e <;> exact ⟨_, rfl, rfl⟩
  · simp only [opWord, hp, controlFields, List.map_cons, List.map_nil, controlBit]
    cases c.inBit .reset <;> cases e <;> exact ⟨_, rfl, rfl⟩
  · simp only [opWord, hp, controlFields, List.map_cons, List.map_nil, controlBit]
    cases c.inBit .reset <;> cases e <;> exact ⟨_, rfl, rfl⟩
  · simp only [opWord, hp, controlFields, List.map_cons, List.map_nil, controlBit]
    cases c.inBit .disable <;> exact ⟨_, rfl, rfl⟩
  · simp only [opWord, hp, controlFields, List.map_cons, List.map_nil, controlBit]
    cases c.inBit .disable <;> exact ⟨_, rfl, rfl⟩
  · simp only [opWord, hp, controlFields, List.map_cons, List.map_nil, controlBit]
    cases c.inBit .disable <;> exact ⟨_, rfl, rfl⟩
  · simp only [opWord, hp, controlFields, List.map_cons, List.map_nil, controlBit]
    cases c.inBit (.mode 1) <;> cases c.inBit (.mode 0) <;> exact ⟨_, rfl, rfl⟩
  · simp only [opWord, hp, controlFields, List.map_nil]
    exact ⟨_, rfl, rfl⟩
  · simp only [opWord, hp, controlFields, List.map_cons, List.map_nil, controlBit]
    cases c.inBit .reset <;> exact ⟨_, rfl, rfl⟩
  · simp only [opWord, hp, controlFields, List.map_nil]
    exact ⟨_, rfl, rfl⟩
  · simp only [opWord, hp, controlFields, List.map_cons, List.map_nil, controlBit]
    cases c.inBit (.op 3) <;> cases c.inBit (.op 2) <;> cases c.inBit (.op 1) <;> cases c.inBit (.op 0) <;> exact ⟨_, rfl, rfl⟩
  · cases port
    · simp only [opWord, hp, controlFields, List.map_cons, List.map_nil, controlBit, Bool.false_eq_true, if_false]
      cases c.inBit .we <;> cases e <;> exact ⟨_, rfl, rfl⟩
    · simp only [opWord, hp, controlFields, List.map_cons, List.map_nil, controlBit, if_true]
      cases c.inBit .re <;> exact ⟨_, rfl, rfl⟩
  · simp only [opWord, hp, controlFields, List.map_cons, List.map_nil, controlBit]
    cases c.inBit .reset <;> cases c.inBit (.op 2) <;> cases c.inBit (.op 1) <;> cases c.inBit (.op 0) <;> cases e <;> exact ⟨_, rfl, rfl⟩
  · exact absurd hp hk

/-! ### The write and the fetch -/

/-- The spelled operation word is the one the machine computes (R83 to R85). -/
theorem Comp.tableWord_eq (c : Comp) (port e : Bool) : c.tableWord port e = opWord c port e := by
  simp only [Comp.tableWord, opWord]
  cases Params.kind c.params <;> try rfl
  cases port <;> rfl

/-- No input pin is power or ground (R61). -/
theorem inputPins_not_power (p : Params) : ∀ P ∈ inputPins p, P ≠ .vcc ∧ P ≠ .gnd := by
  intro P hP
  constructor <;> rintro rfl <;> cases p <;> simp [inputPins, bus, channels] at hP

/-- The number of an input pin names it among all pins, and is no output's. -/
theorem pinAt_of_inputAt {p : Params} {id : Nat} {P : Pin} (h : inputAt p id = some P) :
    pinAt p id = some P ∧ isOutputId p id = false ∧ P ≠ .vcc ∧ P ≠ .gnd := by
  have hlt : id < (inputPins p).length := (List.getElem?_eq_some_iff.mp h).1
  refine ⟨?_, isOutputId_of_isInputId (decide_eq_true hlt), inputPins_not_power p P (List.mem_of_getElem? h)⟩
  rw [pinAt, pinMap, List.append_assoc, List.getElem?_append_left hlt]
  exact h

/-- A write to an input pin: the voltage is stored, then the selected operation performed (R104 to R107). -/
theorem Comp.writePin_input {c : Comp} {p : Nat} {P : Pin} (h : inputAt c.params p = some P) (v : Voltage) :
    c.writePin p v = evaluate (c.store P v).1 (c.store P v).2 := by
  obtain ⟨hp, ho, h1, h2⟩ := pinAt_of_inputAt h
  by_cases h3 : P = .clk
  · subst h3
    simp only [Comp.writePin, hp]
  · rcases c.writePin_cases p v with ⟨h, _⟩ | ⟨h, _⟩ | ⟨h, _⟩ | ⟨h, _⟩ | ⟨Q, h, _, _, _, ⟨h', _⟩ | ⟨_, h'⟩⟩ <;>
      rw [hp] at h
    · cases h
    · exact absurd (Option.some.inj h) h1
    · exact absurd (Option.some.inj h) h2
    · exact absurd (Option.some.inj h) h3
    · rw [ho] at h'; cases h'
    · rw [h', ← Option.some.inj h, c.store_of_ne h3]

/-- What is fetched for a write to an input pin of a component (R83). -/
theorem State.fetch_operate {s : State} {h p : Nat} {c : Comp} {P : Pin} (hc : s.comps[h]? = some c)
    (hp : inputAt c.params p = some P) (v : Voltage) (port : Bool) :
    s.fetch (.operate h p v port) =
      (s.setComp h (c.atLastLine P v port), .row h (opWord (c.atLastLine P v port) port (c.store P v).2)) := by
  simp only [State.fetch, State.comp?, hc, hp]

/-- What is fetched for a write that names no input pin of a component. -/
theorem State.fetch_operate_other {s : State} {h p : Nat} (hp : ∀ c, s.comps[h]? = some c → inputAt c.params p = none)
    (v : Voltage) (port : Bool) : s.fetch (.operate h p v port) = (s, .contract 0b00#2 h p v) := by
  cases hc : s.comps[h]? with
  | none => simp only [State.fetch, State.comp?, hc]
  | some c => simp only [State.fetch, State.comp?, hc, hp c hc]

end Sys2Proof.Machine
end

