-- ==== Sys2Proof/Laws/PerInstr.lean ====
section
/-! SUPPORT. The family of per-instruction lemmas: the encoding of an operation begins with the id of its kind and has the
length of its kind's operation word (R83, R84, R89). -/

namespace Sys2Proof.Laws.EncodeLength

open Sys2Proof.Machine

/-- A component operation's encoding is addressed to its component, begins with the five bits of its kind's id, and has one
of the lengths of its kind's words (the two differ for a Memory only); a contract operation or graph call has no operation
word. -/
def Statement (i : Instr) : Prop :=
  match rowTarget i, encode i with
  | some (h, k), .row h' code =>
    h' = h ∧ code.take 5 = bitsMsb 5 k.id ∧ (code.length = 5 + k.controlWidth false ∨ code.length = 5 + k.controlWidth true)
  | some _, .contract _ _ _ _ => False
  | some _, .graph _ _ => False
  | none, .row _ _ => False
  | none, .contract _ _ _ _ => True
  | none, .graph _ _ => True

theorem notGate (h : Nat) : Statement (.notGate h) := ⟨rfl, rfl, .inl rfl⟩

theorem andGate (h : Nat) : Statement (.andGate h) := ⟨rfl, rfl, .inl rfl⟩

theorem orGate (h : Nat) : Statement (.orGate h) := ⟨rfl, rfl, .inl rfl⟩

theorem nandGate (h : Nat) : Statement (.nandGate h) := ⟨rfl, rfl, .inl rfl⟩

theorem norGate (h : Nat) : Statement (.norGate h) := ⟨rfl, rfl, .inl rfl⟩

theorem xorGate (h : Nat) : Statement (.xorGate h) := ⟨rfl, rfl, .inl rfl⟩

theorem halfAdd (h : Nat) : Statement (.halfAdd h) := ⟨rfl, rfl, .inl rfl⟩

theorem fullAdd (h : Nat) : Statement (.fullAdd h) := ⟨rfl, rfl, .inl rfl⟩

theorem srlAreset (h : Nat) (set s r : Bool) : Statement (.srlAreset h set s r) := ⟨rfl, rfl, .inl rfl⟩

theorem srlAset (h : Nat) (s r : Bool) : Statement (.srlAset h s r) := ⟨rfl, rfl, .inl rfl⟩

theorem srlSet (h : Nat) : Statement (.srlSet h) := ⟨rfl, rfl, .inl rfl⟩

theorem srlReset (h : Nat) : Statement (.srlReset h) := ⟨rfl, rfl, .inl rfl⟩

theorem srlHold (h : Nat) : Statement (.srlHold h) := ⟨rfl, rfl, .inl rfl⟩

theorem srlBoth (h : Nat) : Statement (.srlBoth h) := ⟨rfl, rfl, .inl rfl⟩

theorem dlAreset (h : Nat) (set en : Bool) : Statement (.dlAreset h set en) := ⟨rfl, rfl, .inl rfl⟩

theorem dlAset (h : Nat) (en : Bool) : Statement (.dlAset h en) := ⟨rfl, rfl, .inl rfl⟩

theorem dlTrack (h : Nat) : Statement (.dlTrack h) := ⟨rfl, rfl, .inl rfl⟩

theorem dlHold (h : Nat) : Statement (.dlHold h) := ⟨rfl, rfl, .inl rfl⟩

theorem dffAreset (h : Nat) (set e : Bool) : Statement (.dffAreset h set e) := ⟨rfl, rfl, .inl rfl⟩

theorem dffAset (h : Nat) (e : Bool) : Statement (.dffAset h e) := ⟨rfl, rfl, .inl rfl⟩

theorem dffCapture (h : Nat) : Statement (.dffCapture h) := ⟨rfl, rfl, .inl rfl⟩

theorem dffNoedge (h : Nat) : Statement (.dffNoedge h) := ⟨rfl, rfl, .inl rfl⟩

theorem jkAreset (h : Nat) (set e j k : Bool) : Statement (.jkAreset h set e j k) := ⟨rfl, rfl, .inl rfl⟩

theorem jkAset (h : Nat) (e j k : Bool) : Statement (.jkAset h e j k) := ⟨rfl, rfl, .inl rfl⟩

theorem jkNoedge (h : Nat) (j k : Bool) : Statement (.jkNoedge h j k) := ⟨rfl, rfl, .inl rfl⟩

theorem jkHold (h : Nat) : Statement (.jkHold h) := ⟨rfl, rfl, .inl rfl⟩

theorem jkReset (h : Nat) : Statement (.jkReset h) := ⟨rfl, rfl, .inl rfl⟩

theorem jkSet (h : Nat) : Statement (.jkSet h) := ⟨rfl, rfl, .inl rfl⟩

theorem jkToggle (h : Nat) : Statement (.jkToggle h) := ⟨rfl, rfl, .inl rfl⟩

theorem tAreset (h : Nat) (set e t : Bool) : Statement (.tAreset h set e t) := ⟨rfl, rfl, .inl rfl⟩

theorem tAset (h : Nat) (e t : Bool) : Statement (.tAset h e t) := ⟨rfl, rfl, .inl rfl⟩

theorem tNoedge (h : Nat) (t : Bool) : Statement (.tNoedge h t) := ⟨rfl, rfl, .inl rfl⟩

theorem tHold (h : Nat) : Statement (.tHold h) := ⟨rfl, rfl, .inl rfl⟩

theorem tToggle (h : Nat) : Statement (.tToggle h) := ⟨rfl, rfl, .inl rfl⟩

theorem regAreset (h : Nat) (set e : Bool) : Statement (.regAreset h set e) := ⟨rfl, rfl, .inl rfl⟩

theorem regAset (h : Nat) (e : Bool) : Statement (.regAset h e) := ⟨rfl, rfl, .inl rfl⟩

theorem regLoad (h : Nat) : Statement (.regLoad h) := ⟨rfl, rfl, .inl rfl⟩

theorem regNoedge (h : Nat) : Statement (.regNoedge h) := ⟨rfl, rfl, .inl rfl⟩

theorem shregAreset (h : Nat) (set e load dir : Bool) : Statement (.shregAreset h set e load dir) := ⟨rfl, rfl, .inl rfl⟩

theorem shregAset (h : Nat) (e load dir : Bool) : Statement (.shregAset h e load dir) := ⟨rfl, rfl, .inl rfl⟩

theorem shregNoedge (h : Nat) (load dir : Bool) : Statement (.shregNoedge h load dir) := ⟨rfl, rfl, .inl rfl⟩

theorem shregLoad (h : Nat) (dir : Bool) : Statement (.shregLoad h dir) := ⟨rfl, rfl, .inl rfl⟩

theorem shregShl (h : Nat) : Statement (.shregShl h) := ⟨rfl, rfl, .inl rfl⟩

theorem shregShr (h : Nat) : Statement (.shregShr h) := ⟨rfl, rfl, .inl rfl⟩

theorem usrAreset (h : Nat) (set e mode1 mode0 : Bool) : Statement (.usrAreset h set e mode1 mode0) := ⟨rfl, rfl, .inl rfl⟩

theorem usrAset (h : Nat) (e mode1 mode0 : Bool) : Statement (.usrAset h e mode1 mode0) := ⟨rfl, rfl, .inl rfl⟩

theorem usrNoedge (h : Nat) (mode1 mode0 : Bool) : Statement (.usrNoedge h mode1 mode0) := ⟨rfl, rfl, .inl rfl⟩

theorem usrNop (h : Nat) : Statement (.usrNop h) := ⟨rfl, rfl, .inl rfl⟩

theorem usrShr (h : Nat) : Statement (.usrShr h) := ⟨rfl, rfl, .inl rfl⟩

theorem usrShl (h : Nat) : Statement (.usrShl h) := ⟨rfl, rfl, .inl rfl⟩

theorem usrLoad (h : Nat) : Statement (.usrLoad h) := ⟨rfl, rfl, .inl rfl⟩

theorem ctrAreset (h : Nat) (e load enable down : Bool) : Statement (.ctrAreset h e load enable down) := ⟨rfl, rfl, .inl rfl⟩

theorem ctrNoedge (h : Nat) (load enable down : Bool) : Statement (.ctrNoedge h load enable down) := ⟨rfl, rfl, .inl rfl⟩

theorem ctrLoad (h : Nat) (enable down : Bool) : Statement (.ctrLoad h enable down) := ⟨rfl, rfl, .inl rfl⟩

theorem ctrUp (h : Nat) : Statement (.ctrUp h) := ⟨rfl, rfl, .inl rfl⟩

theorem ctrDown (h : Nat) : Statement (.ctrDown h) := ⟨rfl, rfl, .inl rfl⟩

theorem ctrFreeze (h : Nat) (down : Bool) : Statement (.ctrFreeze h down) := ⟨rfl, rfl, .inl rfl⟩

theorem bcdAreset (h : Nat) (e load enable down : Bool) : Statement (.bcdAreset h e load enable down) := ⟨rfl, rfl, .inl rfl⟩

theorem bcdNoedge (h : Nat) (load enable down : Bool) : Statement (.bcdNoedge h load enable down) := ⟨rfl, rfl, .inl rfl⟩

theorem bcdLoad (h : Nat) (enable down : Bool) : Statement (.bcdLoad h enable down) := ⟨rfl, rfl, .inl rfl⟩

theorem bcdUp (h : Nat) : Statement (.bcdUp h) := ⟨rfl, rfl, .inl rfl⟩

theorem bcdDown (h : Nat) : Statement (.bcdDown h) := ⟨rfl, rfl, .inl rfl⟩

theorem bcdFreeze (h : Nat) (down : Bool) : Statement (.bcdFreeze h down) := ⟨rfl, rfl, .inl rfl⟩

theorem ringAreset (h : Nat) (e dir : Bool) : Statement (.ringAreset h e dir) := ⟨rfl, rfl, .inl rfl⟩

theorem ringNoedge (h : Nat) (dir : Bool) : Statement (.ringNoedge h dir) := ⟨rfl, rfl, .inl rfl⟩

theorem ringRotl (h : Nat) : Statement (.ringRotl h) := ⟨rfl, rfl, .inl rfl⟩

theorem ringRotr (h : Nat) : Statement (.ringRotr h) := ⟨rfl, rfl, .inl rfl⟩

theorem johnsonAreset (h : Nat) (e : Bool) : Statement (.johnsonAreset h e) := ⟨rfl, rfl, .inl rfl⟩

theorem johnsonNoedge (h : Nat) : Statement (.johnsonNoedge h) := ⟨rfl, rfl, .inl rfl⟩

theorem johnsonStep (h : Nat) : Statement (.johnsonStep h) := ⟨rfl, rfl, .inl rfl⟩

theorem clkdivAreset (h : Nat) (e : Bool) : Statement (.clkdivAreset h e) := ⟨rfl, rfl, .inl rfl⟩

theorem clkdivNoedge (h : Nat) : Statement (.clkdivNoedge h) := ⟨rfl, rfl, .inl rfl⟩

theorem clkdivCount (h : Nat) : Statement (.clkdivCount h) := ⟨rfl, rfl, .inl rfl⟩

theorem muxSelect (h : Nat) : Statement (.muxSelect h) := ⟨rfl, rfl, .inl rfl⟩

theorem muxDisabled (h : Nat) : Statement (.muxDisabled h) := ⟨rfl, rfl, .inl rfl⟩

theorem demuxSelect (h : Nat) : Statement (.demuxSelect h) := ⟨rfl, rfl, .inl rfl⟩

theorem demuxDisabled (h : Nat) : Statement (.demuxDisabled h) := ⟨rfl, rfl, .inl rfl⟩

theorem decSelect (h : Nat) : Statement (.decSelect h) := ⟨rfl, rfl, .inl rfl⟩

theorem decDisabled (h : Nat) : Statement (.decDisabled h) := ⟨rfl, rfl, .inl rfl⟩

theorem adderAdd (h : Nat) : Statement (.adderAdd h) := ⟨rfl, rfl, .inl rfl⟩

theorem adderSub (h : Nat) : Statement (.adderSub h) := ⟨rfl, rfl, .inl rfl⟩

theorem adderInc (h : Nat) : Statement (.adderInc h) := ⟨rfl, rfl, .inl rfl⟩

theorem adderInvalid (h : Nat) : Statement (.adderInvalid h) := ⟨rfl, rfl, .inl rfl⟩

theorem mul (h : Nat) : Statement (.mul h) := ⟨rfl, rfl, .inl rfl⟩

theorem divAreset (h : Nat) : Statement (.divAreset h) := ⟨rfl, rfl, .inl rfl⟩

theorem divEval (h : Nat) : Statement (.divEval h) := ⟨rfl, rfl, .inl rfl⟩

theorem bcdAdd (h : Nat) : Statement (.bcdAdd h) := ⟨rfl, rfl, .inl rfl⟩

theorem aluAdd (h : Nat) : Statement (.aluAdd h) := ⟨rfl, rfl, .inl rfl⟩

theorem aluSub (h : Nat) : Statement (.aluSub h) := ⟨rfl, rfl, .inl rfl⟩

theorem aluAnd (h : Nat) : Statement (.aluAnd h) := ⟨rfl, rfl, .inl rfl⟩

theorem aluOr (h : Nat) : Statement (.aluOr h) := ⟨rfl, rfl, .inl rfl⟩

theorem aluXor (h : Nat) : Statement (.aluXor h) := ⟨rfl, rfl, .inl rfl⟩

theorem aluNot (h : Nat) : Statement (.aluNot h) := ⟨rfl, rfl, .inl rfl⟩

theorem aluShl (h : Nat) : Statement (.aluShl h) := ⟨rfl, rfl, .inl rfl⟩

theorem aluShr (h : Nat) : Statement (.aluShr h) := ⟨rfl, rfl, .inl rfl⟩

theorem aluInc (h : Nat) : Statement (.aluInc h) := ⟨rfl, rfl, .inl rfl⟩

theorem aluDec (h : Nat) : Statement (.aluDec h) := ⟨rfl, rfl, .inl rfl⟩

theorem aluCompare (h : Nat) : Statement (.aluCompare h) := ⟨rfl, rfl, .inl rfl⟩

theorem aluInvalidB (h : Nat) : Statement (.aluInvalidB h) := ⟨rfl, rfl, .inl rfl⟩

theorem aluInvalidC (h : Nat) (op1 op0 : Bool) : Statement (.aluInvalidC h op1 op0) := ⟨rfl, rfl, .inl rfl⟩

theorem memWrite (h : Nat) : Statement (.memWrite h) := ⟨rfl, rfl, .inl rfl⟩

theorem memWidleNoedge (h : Nat) (we : Bool) : Statement (.memWidleNoedge h we) := ⟨rfl, rfl, .inl rfl⟩

theorem memWidleNowe (h : Nat) : Statement (.memWidleNowe h) := ⟨rfl, rfl, .inl rfl⟩

theorem memRead (h : Nat) : Statement (.memRead h) := ⟨rfl, rfl, .inr rfl⟩

theorem memReadoff (h : Nat) : Statement (.memReadoff h) := ⟨rfl, rfl, .inr rfl⟩

theorem accAreset (h : Nat) (e op2 op1 op0 : Bool) : Statement (.accAreset h e op2 op1 op0) := ⟨rfl, rfl, .inl rfl⟩

theorem accNoedge (h : Nat) (op2 op1 op0 : Bool) : Statement (.accNoedge h op2 op1 op0) := ⟨rfl, rfl, .inl rfl⟩

theorem accLoad (h : Nat) : Statement (.accLoad h) := ⟨rfl, rfl, .inl rfl⟩

theorem accClear (h : Nat) : Statement (.accClear h) := ⟨rfl, rfl, .inl rfl⟩

theorem accInc (h : Nat) : Statement (.accInc h) := ⟨rfl, rfl, .inl rfl⟩

theorem accShl (h : Nat) : Statement (.accShl h) := ⟨rfl, rfl, .inl rfl⟩

theorem accShr (h : Nat) : Statement (.accShr h) := ⟨rfl, rfl, .inl rfl⟩

theorem accInvalid5 (h : Nat) : Statement (.accInvalid5 h) := ⟨rfl, rfl, .inl rfl⟩

theorem accInvalid67 (h : Nat) (op0 : Bool) : Statement (.accInvalid67 h op0) := ⟨rfl, rfl, .inl rfl⟩

theorem writePin (h p : Nat) (v : Voltage) : Statement (.writePin h p v) := trivial

theorem readPin (h p : Nat) : Statement (.readPin h p) := trivial

theorem tick (h : Nat) : Statement (.tick h) := trivial

theorem gCreate (config : CompConfig) : Statement (.gCreate config) := trivial

theorem gConnect (fromH fromP toH toP : Nat) : Statement (.gConnect fromH fromP toH toP) := trivial

theorem gDrive (h p : Nat) (v : Voltage) : Statement (.gDrive h p v) := trivial

theorem gObserve (h p : Nat) : Statement (.gObserve h p) := trivial

theorem gTick : Statement (.gTick) := trivial

theorem gTickN (n : Nat) : Statement (.gTickN n) := trivial

end Sys2Proof.Laws.EncodeLength
end

