-- ==== Sys2Proof/Machine/Structure.lean ====
section
/-! DEFINITION. The structural forms of adder, multiplier and divider that the spec gives beside the normative arithmetic (R303,
R312, R317), and the wired pair of decoder and multiplexer (R290). `Laws/Structure.lean` proves that they compute the same. -/

namespace Sys2Proof.Machine

/-! ### The chain of full adders (R303) -/

/-- The B input of a stage of the chain, for ADD, SUB and INC. -/
inductive ChainMode where
  | add
  | sub
  | inc
deriving DecidableEq, Repr

/-- `b'_i` (R303). -/
def chainB (mode : ChainMode) (c : Comp) (i : Nat) : Bool :=
  match mode with
  | .add => c.inBit (.b i)
  | .sub => !c.inBit (.b i)
  | .inc => false

/-- `c_0` (R303). -/
def chainIn (mode : ChainMode) (c : Comp) : Bool :=
  match mode with
  | .add => c.inBit .cin
  | .sub => true
  | .inc => true

/-- `c_i`, the carry into stage `i` of a chain of full adders over the bits `f` and `g` (R303). -/
def chainCarry (f g : Nat → Bool) (cin : Bool) : Nat → Bool
  | 0 => cin
  | i + 1 => (f i && g i) || ((f i ^^ g i) && chainCarry f g cin i)

/-- `s_i`, the sum bit of stage `i` (R303, R138). -/
def chainSum (f g : Nat → Bool) (cin : Bool) (i : Nat) : Bool := (f i ^^ g i) ^^ chainCarry f g cin i

/-- The outputs of an Adder of `w` stages: S, COUT = `c_W` and OVF = `c_W xor c_(W-1)` (R303). -/
def chainOutputs (mode : ChainMode) (w : Nat) (c : Comp) : Regs :=
  .sum (wordOf w (chainSum (fun i => c.inBit (.a i)) (chainB mode c) (chainIn mode c)))
    (chainCarry (fun i => c.inBit (.a i)) (chainB mode c) (chainIn mode c) w)
    (chainCarry (fun i => c.inBit (.a i)) (chainB mode c) (chainIn mode c) w
      ^^ chainCarry (fun i => c.inBit (.a i)) (chainB mode c) (chainIn mode c) (w - 1))

/-! ### Shift and add (R312) -/

/-- The accumulator after the first `i` positions of the multiplier's loop (R312). -/
def shiftAdd (a : Nat) (B : Nat → Bool) : Nat → Nat
  | 0 => 0
  | i + 1 => shiftAdd a B i + if B i then a * 2 ^ i else 0

/-! ### Restoring division (R317) -/

/-- The divider's loop over the positions `i - 1` down to 0, from a partial remainder `r` and quotient `q`: the quotient and
the remainder it ends with (R317). -/
def restoring (A : Nat → Bool) (b : Nat) : Nat → Nat → Nat → Nat × Nat
  | 0, r, q => (q, r)
  | i + 1, r, q =>
    if b ≤ 2 * r + (A i).toNat then restoring A b i (2 * r + (A i).toNat - b) (q + 2 ^ i)
    else restoring A b i (2 * r + (A i).toNat) q

/-! ### Decoder into multiplexer (R290) -/

/-- The lines of a decoder stand at the one-bit channels of a multiplexer. -/
def linesFeed (x u : Comp) : Prop := ∀ ch, u.inBit (.chan ch 0) = x.outBit (.y ch)

end Sys2Proof.Machine
end

