-- ==== Sys2Proof/Laws/Structure.lean ====
section
/-! SUPPORT. The structural forms compute what the normative rules say (R290, R303, R308, R312, R317). -/

namespace Sys2Proof.Machine

/-! ### The chain of full adders (R303) -/

/-- One stage of the chain in plain naturals. -/
theorem chain_step {x y s p k f g u v cin : Nat} (ih : x + y + cin = s + k * p) (key : f + g + k = u + 2 * v) :
    x + f * p + (y + g * p) + cin = s + u * p + v * (p * 2) := by
  have hp := congrArg (· * p) key
  simp only [Nat.add_mul] at hp
  linarith

/-- The complement of a subtrahend in plain naturals. -/
theorem complement_step {a b nb p : Nat} (h : nb + b + 1 = p) : a + (p - 1 - b) + 1 = a + nb + 1 := by omega

/-- Sum bits and last carry of the chain are the exact sum. -/
theorem chain_value (w : Nat) (f g : Nat → Bool) (cin : Bool) :
    wordOf w f + wordOf w g + cin.toNat = wordOf w (chainSum f g cin) + (chainCarry f g cin w).toNat * 2 ^ w := by
  induction w with
  | zero => simp [wordOf, chainCarry]
  | succ w ih =>
    have key : (f w).toNat + (g w).toNat + (chainCarry f g cin w).toNat
        = (chainSum f g cin w).toNat + 2 * (chainCarry f g cin (w + 1)).toNat := by
      simp only [chainSum, chainCarry]
      cases f w <;> cases g w <;> cases chainCarry f g cin w <;> rfl
    simp only [wordOf, Nat.pow_succ]
    exact chain_step ih key

theorem chain_sum (w : Nat) (f g : Nat → Bool) (cin : Bool) :
    bitsW w (wordOf w f + wordOf w g + cin.toNat) = wordOf w (chainSum f g cin) := by
  rw [chain_value, bitsW, Nat.add_mul_mod_self_right, Nat.mod_eq_of_lt (wordOf_lt w _)]

theorem chain_carry (w : Nat) (f g : Nat → Bool) (cin : Bool) :
    carryOut w (wordOf w f + wordOf w g + cin.toNat) = chainCarry f g cin w := by
  rw [chain_value, carryOut, Nat.add_mul_div_right _ _ (Nat.two_pow_pos w), Nat.div_eq_of_lt (wordOf_lt w _)]
  cases chainCarry f g cin w <;> rfl

/-- The top bits of operands and sum, and the last two carries of a chain of `n + 1` stages. -/
theorem chain_sign (n : Nat) (f : Nat → Bool) : signBit (n + 1) (wordOf (n + 1) f) = f n :=
  testBit_wordOf f (Nat.lt_succ_self n)

/-- The complement of a word (R305). -/
theorem wordOf_not (w : Nat) (f : Nat → Bool) : wordOf w (fun i => !f i) + wordOf w f + 1 = 2 ^ w := by
  induction w with
  | zero => rfl
  | succ w ih =>
    simp only [wordOf, Nat.pow_succ]
    cases f w
    · exact (chain_step (cin := 1) (k := 1) (s := 0) (f := 1) (g := 0) (u := 0) (v := 1) (by simpa using ih) rfl).trans
        (by simp)
    · exact (chain_step (cin := 1) (k := 1) (s := 0) (f := 0) (g := 1) (u := 0) (v := 1) (by simpa using ih) rfl).trans
        (by simp)

theorem wordOf_false (w : Nat) : wordOf w (fun _ => false) = 0 := by
  induction w with
  | zero => rfl
  | succ w ih => simp [wordOf, ih]

/-- ADDER.ADD is the chain with B and CIN (R303, R304). -/
theorem adderAdd_chain (c : Comp) (n : Nat) (h : c.params = .adder (n + 1)) :
    doAdderAdd c = (c.withQ (chainOutputs .add (n + 1) c), .ok) := by
  have hw : c.width = n + 1 := by simp only [Comp.width, h]; rfl
  have hs := chain_sum (n + 1) (fun i => c.inBit (.a i)) (fun i => c.inBit (.b i)) (c.inBit .cin)
  have hc := chain_carry (n + 1) (fun i => c.inBit (.a i)) (fun i => c.inBit (.b i)) (c.inBit .cin)
  simp only [doAdderAdd, chainOutputs, chainIn, show chainB .add c = fun i => c.inBit (.b i) from rfl, hw, Comp.opA, Comp.opB, Comp.inWord]
  rw [hs, hc]
  simp only [ovfAdd, chain_sign, chainSum, chainCarry, Nat.add_sub_cancel]
  generalize chainCarry _ _ _ n = k
  cases c.inBit (.a n) <;> cases c.inBit (.b n) <;> cases k <;> rfl

/-- ADDER.SUB is the chain with the complement of B and carry in 1 (R303, R305). -/
theorem adderSub_chain (c : Comp) (n : Nat) (h : c.params = .adder (n + 1)) :
    doAdderSub c = (c.withQ (chainOutputs .sub (n + 1) c), .ok) := by
  have hw : c.width = n + 1 := by simp only [Comp.width, h]; rfl
  have hs := chain_sum (n + 1) (fun i => c.inBit (.a i)) (fun i => !c.inBit (.b i)) true
  have hc := chain_carry (n + 1) (fun i => c.inBit (.a i)) (fun i => !c.inBit (.b i)) true
  have hb := wordOf_not (n + 1) fun i => c.inBit (.b i)
  have ht : subSum (n + 1) (wordOf (n + 1) fun i => c.inBit (.a i)) (wordOf (n + 1) fun i => c.inBit (.b i))
      = wordOf (n + 1) (fun i => c.inBit (.a i)) + wordOf (n + 1) (fun i => !c.inBit (.b i)) + true.toNat := by
    exact complement_step hb
  simp only [doAdderSub, chainOutputs, chainIn, show chainB .sub c = fun i => !c.inBit (.b i) from rfl, hw, Comp.opA, Comp.opB, Comp.inWord]
  rw [ht, hs, hc]
  simp only [ovfSub, chain_sign, chainSum, chainCarry, Nat.add_sub_cancel]
  generalize chainCarry _ _ _ n = k
  cases c.inBit (.a n) <;> cases c.inBit (.b n) <;> cases k <;> rfl

/-- ADDER.INC is the chain with B input 0 and carry in 1 (R303, R306). -/
theorem adderInc_chain (c : Comp) (n : Nat) (h : c.params = .adder (n + 1)) :
    doAdderInc c = (c.withQ (chainOutputs .inc (n + 1) c), .ok) := by
  have hw : c.width = n + 1 := by simp only [Comp.width, h]; rfl
  have hs := chain_sum (n + 1) (fun i => c.inBit (.a i)) (fun _ => false) true
  have hc := chain_carry (n + 1) (fun i => c.inBit (.a i)) (fun _ => false) true
  rw [wordOf_false, Nat.add_zero] at hs hc
  simp only [doAdderInc, chainOutputs, chainIn, show chainB .inc c = fun _ => false from rfl, hw, Comp.opA, Comp.inWord]
  simp only [Bool.toNat_true] at hs hc
  rw [hs, hc]
  simp only [ovfInc, chain_sign, chainSum, chainCarry, Nat.add_sub_cancel]
  generalize chainCarry _ _ _ n = k
  cases c.inBit (.a n) <;> cases k <;> rfl

/-- In ADD, sum and carry out are the exact sum of the operands (R308 (c)). -/
theorem adderAdd_exact (w a b : Nat) (cin : Bool) (ha : a < 2 ^ w) (hb : b < 2 ^ w) :
    bitsW w (a + b + cin.toNat) + 2 ^ w * (carryOut w (a + b + cin.toNat)).toNat = a + b + cin.toNat := by
  have h := chain_value w a.testBit b.testBit cin
  have hs := chain_sum w a.testBit b.testBit cin
  have hc := chain_carry w a.testBit b.testBit cin
  rw [wordOf_testBit ha, wordOf_testBit hb] at h hs hc
  rw [hs, hc, h, Nat.mul_comm]

/-- SUB of `(a, b)` is ADD of `(a, 2^W - 1 - b)` with CIN high (R308 (d)). -/
theorem subSum_eq_add (w a b : Nat) : subSum w a b = a + (2 ^ w - 1 - b) + true.toNat := rfl

/-! ### Shift and add (R312) -/

/-- The multiplier's loop computes the product (R312). -/
theorem shiftAdd_eq (a : Nat) (B : Nat → Bool) (w : Nat) : shiftAdd a B w = a * wordOf w B := by
  induction w with
  | zero => rfl
  | succ w ih =>
    simp only [shiftAdd, wordOf, ih, Nat.mul_add]
    cases B w <;> simp

/-! ### Restoring division (R317) -/

theorem restoring_eq (A : Nat → Bool) {b : Nat} (hb : 0 < b) (w r q : Nat) (hr : r < b) :
    restoring A b w r q = (q + (r * 2 ^ w + wordOf w A) / b, (r * 2 ^ w + wordOf w A) % b) := by
  induction w generalizing r q with
  | zero => simp [restoring, wordOf, Nat.div_eq_of_lt hr, Nat.mod_eq_of_lt hr]
  | succ w ih =>
    have hsum : r * 2 ^ (w + 1) + wordOf (w + 1) A = (2 * r + (A w).toNat) * 2 ^ w + wordOf w A := by
      simp only [wordOf, pow_succ]; ring
    have hbit : (A w).toNat ≤ 1 := by cases A w <;> simp
    rw [hsum]
    simp only [restoring]
    split
    · next hle =>
      obtain ⟨d, hd⟩ := Nat.exists_eq_add_of_le hle
      rw [ih _ _ (by omega), hd, Nat.add_sub_cancel_left]
      have he : (b + d) * 2 ^ w + wordOf w A = (d * 2 ^ w + wordOf w A) + b * 2 ^ w := by ring
      rw [he, Nat.add_mul_div_left _ _ hb, Nat.add_mul_mod_self_left]
      congr 1
      omega
    · next hlt => rw [ih _ _ (by omega)]

/-- The divider's loop computes quotient and remainder (R317, R314). -/
theorem restoring_div (a b w : Nat) (ha : a < 2 ^ w) (hb : 0 < b) : restoring a.testBit b w 0 0 = (a / b, a % b) := by
  rw [restoring_eq _ hb _ _ _ hb, wordOf_testBit ha]
  simp

/-! ### Decoder into multiplexer (R290) -/

/-- The multiplexer fed by a decoder's lines is high exactly when both select the same channel (R290). -/
theorem decoder_mux_round_trip {x u : Comp} {k : Nat} (hx : x.params = .decoder k) (hu : u.params = .mux k 1)
    (hdx : x.inBit .disable = false) (hdu : u.inBit .disable = false) (hl : linesFeed x u) :
    u.outBit (.y 0) = decide (u.selector k = x.selector k) := by
  have h := hl (u.selector k)
  simp only [Comp.outBit, hx, hu, outMux, hdu, outMuxSelect, Params.selectWidth, outDecoder, hdx, outDecSelect] at h ⊢
  simpa using h

end Sys2Proof.Machine
end

