-- ==== Sys2Proof/Tests/Slice0.lean ====
section
/-! SUPPORT. The model's own tests: what the well-formedness checks refuse, the words of the opcode table written out bit by
bit, one-step results taken from spec/95_test_vectors.md or worked out from the rule named, and for every obligation with
hypotheses a concrete state that meets them. -/

namespace Sys2Proof.Tests

open Sys2Proof.Machine

set_option Elab.async false

/-! ### Helpers -/

/-- A fresh component with the default levels and a rising edge. -/
def fresh (p : Params) : Comp := newComp { params := p }

/-- A machine with one fresh component, handle 0. -/
def one (p : Params) : State := State.reset.addComp (fresh p)

/-- A machine with the one component `c`. -/
def just (c : Comp) : State := State.reset.addComp c

/-- A fresh component with `r` in its stage or stages and the pins of `high` at 5 V. -/
def staged (p : Params) (r : Regs) (high : List Pin) : Comp :=
  high.foldl (fun c P => c.withIn P (volts 5))
    { fresh p with m := if Kind.isClocked (Params.kind p) then r else .none, q := r }

/-- A fresh component with the pins of `high` at 5 V. -/
def pins (p : Params) (high : List Pin) : Comp := high.foldl (fun c P => c.withIn P (volts 5)) (fresh p)

/-- The state an outcome leaves, the reset state where it leaves none. -/
def stateOf : Outcome → State
  | .next t => t
  | .fault _ => State.reset
  | .refused _ => State.reset

/-- Both stages of component 0 after an operation. -/
def stages (i : Instr) (c : Comp) : Option (Regs × Regs) := ((stateOf (exec i (just c))).comps[0]?).map fun d => (d.m, d.q)

/-- What an operation on component 0 answers. -/
def answers (i : Instr) (c : Comp) : Result := (stateOf (exec i (just c))).result

/-- The logic values an operation on component 0 presents. -/
def shown (i : Instr) (c : Comp) : List Bool :=
  match answers i c with
  | .presents outs => outs
  | _ => []

/-- A number's bits, bit 0 first. -/
def lsb (w n : Nat) : List Bool := bitList w n

/-- What a hypothesis about a component asks: it is there, of the stated kind, and well formed. -/
abbrev fits (c : Comp) (p : Params) : Prop := (just c).comp? 0 = some c ∧ c.params = p ∧ c.wf = true

/-! ### What the well-formedness checks refuse (R4, R21, R89, R90) -/

/-- R21: low at most threshold, threshold strictly below high. -/
theorem test_cfg_refused :
    Cfg.ok { threshold := volts 5 } = false ∧ Cfg.ok { low := volts 3 } = false ∧ Cfg.ok { low := microvolts 2500000 } = true := by
  decide

/-- R4 and R139: a gate has 2 to 8 inputs. -/
theorem test_gate_inputs_refused :
    Params.ok (.andGate 1) = false ∧ Params.ok (.orGate 9) = false ∧ Params.ok (.nandGate 0) = false
      ∧ Params.ok (.norGate 9) = false ∧ Params.ok (.andGate 2) = true ∧ Params.ok (.norGate 8) = true := by decide

/-- R4: a width is at least 1. -/
theorem test_width_refused :
    [Params.register 0, .shiftRegister 0, .univShiftRegister 0, .ringCounter 0, .johnsonCounter 0, .adder 0, .multiplier 0,
      .divider 0, .alu 0, .accumulator 0].all (fun p => !p.ok) = true := by decide

/-- R4: a modulus is between 1 and 2^W. -/
theorem test_modulus_refused :
    Params.ok (.counter 0 1 .ripple) = false ∧ Params.ok (.counter 4 0 .ripple) = false
      ∧ Params.ok (.counter 4 17 .ripple) = false ∧ Params.ok (.counter 4 16 .ripple) = true := by decide

/-- R4: the defaults of a Counter's modulus and style, and of the number of decimal digits. -/
theorem test_parameter_defaults :
    Params.counter 4 = .counter 4 16 .synchronous ∧ Params.binaryCounter 4 = .counter 4 16 .synchronous
      ∧ (Params.bcdCounter : Params) = .bcdCounter 1 ∧ (Params.bcdAdder : Params) = .bcdAdder 1 := by decide

/-- R4: digits, selectors, channels, ratios and address widths are at least 1. -/
theorem test_counts_refused :
    [Params.bcdCounter 0, .bcdAdder 0, .decoder 0, .clockDivider 0, .mux 0 1, .mux 1 0, .demux 0 1, .demux 1 0, .memory 0 1,
      .memory 1 0].all (fun p => !p.ok) = true := by decide

/-- R84: kind id 31 has no component; R381: both arguments of a construction are checked. -/
theorem test_construction_refused :
    CompConfig.ok { params := .reserved } = false ∧ CompConfig.ok { params := .dff, cfg := { high := 0 } } = false
      ∧ CompConfig.ok { params := .dff } = true := by decide

/-- R90: a contract line with the reserved code or an operand its operation does not have. -/
theorem test_contract_line_refused :
    Line.wf (.contract 0b11#2 0 0 0) = false ∧ Line.wf (.contract 0b01#2 0 0 1) = false
      ∧ Line.wf (.contract 0b10#2 0 1 0) = false := by decide

/-- R90: a graph line with a reserved code or an operand its call does not have. -/
theorem test_graph_line_refused :
    Line.wf (.graph 0b110#3 {}) = false ∧ Line.wf (.graph 0b111#3 {}) = false ∧ Line.wf (.graph 0b100#3 { n := 1 }) = false
      ∧ Line.wf (.graph 0b010#3 { h2 := 1 }) = false := by decide

/-- R84, R89: an operation word of kind id 31, or shorter or longer than its kind's. -/
theorem test_row_line_refused :
    Line.wf (.row 0 (bitsMsb 5 0b11111)) = false ∧ Line.wf (.row 0 (bitsMsb 4 0b0000)) = false
      ∧ Line.wf (.row 0 (bitsMsb 6 0b000000)) = false ∧ Line.wf (.row 0 (bitsMsb 9 0b111100000)) = false := by decide

/-! ### Words of the opcode table, written out (R92) -/

/-- The kinds without a control word (R92); don't-care bits alternate 1, 0 in all these words. -/
theorem test_decode_plainKinds :
    decode (.row 7 (bitsMsb 5 0b00000)) = .ok (.notGate 7)
      ∧ decode (.row 7 (bitsMsb 5 0b00001)) = .ok (.andGate 7)
      ∧ decode (.row 7 (bitsMsb 5 0b00010)) = .ok (.orGate 7)
      ∧ decode (.row 7 (bitsMsb 5 0b00011)) = .ok (.nandGate 7)
      ∧ decode (.row 7 (bitsMsb 5 0b00100)) = .ok (.norGate 7)
      ∧ decode (.row 7 (bitsMsb 5 0b00101)) = .ok (.xorGate 7)
      ∧ decode (.row 7 (bitsMsb 5 0b00110)) = .ok (.halfAdd 7)
      ∧ decode (.row 7 (bitsMsb 5 0b00111)) = .ok (.fullAdd 7)
      ∧ decode (.row 7 (bitsMsb 5 0b11001)) = .ok (.mul 7)
      ∧ decode (.row 7 (bitsMsb 5 0b11011)) = .ok (.bcdAdd 7) := by
  and_intros <;> rfl

/-- The rows of srLatch (R92). -/
theorem test_decode_srLatch :
    decode (.row 7 (bitsMsb 9 0b010001101)) = .ok (.srlAreset 7 true false true)
      ∧ decode (.row 7 (bitsMsb 9 0b010000110)) = .ok (.srlAset 7 true false)
      ∧ decode (.row 7 (bitsMsb 9 0b010000010)) = .ok (.srlSet 7)
      ∧ decode (.row 7 (bitsMsb 9 0b010000001)) = .ok (.srlReset 7)
      ∧ decode (.row 7 (bitsMsb 9 0b010000000)) = .ok (.srlHold 7)
      ∧ decode (.row 7 (bitsMsb 9 0b010000011)) = .ok (.srlBoth 7) := by
  and_intros <;> rfl

/-- The rows of dLatch (R92). -/
theorem test_decode_dLatch :
    decode (.row 7 (bitsMsb 8 0b01001110)) = .ok (.dlAreset 7 true false)
      ∧ decode (.row 7 (bitsMsb 8 0b01001011)) = .ok (.dlAset 7 true)
      ∧ decode (.row 7 (bitsMsb 8 0b01001001)) = .ok (.dlTrack 7)
      ∧ decode (.row 7 (bitsMsb 8 0b01001000)) = .ok (.dlHold 7) := by
  and_intros <;> rfl

/-- The rows of dff (R92). -/
theorem test_decode_dff :
    decode (.row 7 (bitsMsb 8 0b01010110)) = .ok (.dffAreset 7 true false)
      ∧ decode (.row 7 (bitsMsb 8 0b01010011)) = .ok (.dffAset 7 true)
      ∧ decode (.row 7 (bitsMsb 8 0b01010001)) = .ok (.dffCapture 7)
      ∧ decode (.row 7 (bitsMsb 8 0b01010000)) = .ok (.dffNoedge 7) := by
  and_intros <;> rfl

/-- The rows of jkff (R92). -/
theorem test_decode_jkff :
    decode (.row 7 (bitsMsb 10 0b0101111010)) = .ok (.jkAreset 7 true false true false)
      ∧ decode (.row 7 (bitsMsb 10 0b0101101101)) = .ok (.jkAset 7 true false true)
      ∧ decode (.row 7 (bitsMsb 10 0b0101100010)) = .ok (.jkNoedge 7 true false)
      ∧ decode (.row 7 (bitsMsb 10 0b0101100100)) = .ok (.jkHold 7)
      ∧ decode (.row 7 (bitsMsb 10 0b0101100101)) = .ok (.jkReset 7)
      ∧ decode (.row 7 (bitsMsb 10 0b0101100110)) = .ok (.jkSet 7)
      ∧ decode (.row 7 (bitsMsb 10 0b0101100111)) = .ok (.jkToggle 7) := by
  and_intros <;> rfl

/-- The rows of tff (R92). -/
theorem test_decode_tff :
    decode (.row 7 (bitsMsb 9 0b011001101)) = .ok (.tAreset 7 true false true)
      ∧ decode (.row 7 (bitsMsb 9 0b011000110)) = .ok (.tAset 7 true false)
      ∧ decode (.row 7 (bitsMsb 9 0b011000001)) = .ok (.tNoedge 7 true)
      ∧ decode (.row 7 (bitsMsb 9 0b011000010)) = .ok (.tHold 7)
      ∧ decode (.row 7 (bitsMsb 9 0b011000011)) = .ok (.tToggle 7) := by
  and_intros <;> rfl

/-- The rows of register (R92). -/
theorem test_decode_register :
    decode (.row 7 (bitsMsb 8 0b01101110)) = .ok (.regAreset 7 true false)
      ∧ decode (.row 7 (bitsMsb 8 0b01101011)) = .ok (.regAset 7 true)
      ∧ decode (.row 7 (bitsMsb 8 0b01101001)) = .ok (.regLoad 7)
      ∧ decode (.row 7 (bitsMsb 8 0b01101000)) = .ok (.regNoedge 7) := by
  and_intros <;> rfl

/-- The rows of shiftRegister (R92). -/
theorem test_decode_shiftRegister :
    decode (.row 7 (bitsMsb 10 0b0111011010)) = .ok (.shregAreset 7 true false true false)
      ∧ decode (.row 7 (bitsMsb 10 0b0111001101)) = .ok (.shregAset 7 true false true)
      ∧ decode (.row 7 (bitsMsb 10 0b0111000010)) = .ok (.shregNoedge 7 true false)
      ∧ decode (.row 7 (bitsMsb 10 0b0111000111)) = .ok (.shregLoad 7 true)
      ∧ decode (.row 7 (bitsMsb 10 0b0111000100)) = .ok (.shregShl 7)
      ∧ decode (.row 7 (bitsMsb 10 0b0111000101)) = .ok (.shregShr 7) := by
  and_intros <;> rfl

/-- The rows of univShiftRegister (R92). -/
theorem test_decode_univShiftRegister :
    decode (.row 7 (bitsMsb 10 0b0111111010)) = .ok (.usrAreset 7 true false true false)
      ∧ decode (.row 7 (bitsMsb 10 0b0111101101)) = .ok (.usrAset 7 true false true)
      ∧ decode (.row 7 (bitsMsb 10 0b0111100010)) = .ok (.usrNoedge 7 true false)
      ∧ decode (.row 7 (bitsMsb 10 0b0111100100)) = .ok (.usrNop 7)
      ∧ decode (.row 7 (bitsMsb 10 0b0111100101)) = .ok (.usrShr 7)
      ∧ decode (.row 7 (bitsMsb 10 0b0111100110)) = .ok (.usrShl 7)
      ∧ decode (.row 7 (bitsMsb 10 0b0111100111)) = .ok (.usrLoad 7) := by
  and_intros <;> rfl

/-- The rows of counter (R92). -/
theorem test_decode_counter :
    decode (.row 7 (bitsMsb 10 0b1000011010)) = .ok (.ctrAreset 7 true false true false)
      ∧ decode (.row 7 (bitsMsb 10 0b1000000101)) = .ok (.ctrNoedge 7 true false true)
      ∧ decode (.row 7 (bitsMsb 10 0b1000001110)) = .ok (.ctrLoad 7 true false)
      ∧ decode (.row 7 (bitsMsb 10 0b1000001010)) = .ok (.ctrUp 7)
      ∧ decode (.row 7 (bitsMsb 10 0b1000001011)) = .ok (.ctrDown 7)
      ∧ decode (.row 7 (bitsMsb 10 0b1000001001)) = .ok (.ctrFreeze 7 true) := by
  and_intros <;> rfl

/-- The rows of bcdCounter (R92). -/
theorem test_decode_bcdCounter :
    decode (.row 7 (bitsMsb 10 0b1000111010)) = .ok (.bcdAreset 7 true false true false)
      ∧ decode (.row 7 (bitsMsb 10 0b1000100101)) = .ok (.bcdNoedge 7 true false true)
      ∧ decode (.row 7 (bitsMsb 10 0b1000101110)) = .ok (.bcdLoad 7 true false)
      ∧ decode (.row 7 (bitsMsb 10 0b1000101010)) = .ok (.bcdUp 7)
      ∧ decode (.row 7 (bitsMsb 10 0b1000101011)) = .ok (.bcdDown 7)
      ∧ decode (.row 7 (bitsMsb 10 0b1000101001)) = .ok (.bcdFreeze 7 true) := by
  and_intros <;> rfl

/-- The rows of ringCounter (R92). -/
theorem test_decode_ringCounter :
    decode (.row 7 (bitsMsb 8 0b10010110)) = .ok (.ringAreset 7 true false)
      ∧ decode (.row 7 (bitsMsb 8 0b10010001)) = .ok (.ringNoedge 7 true)
      ∧ decode (.row 7 (bitsMsb 8 0b10010010)) = .ok (.ringRotl 7)
      ∧ decode (.row 7 (bitsMsb 8 0b10010011)) = .ok (.ringRotr 7) := by
  and_intros <;> rfl

/-- The rows of johnsonCounter (R92). -/
theorem test_decode_johnsonCounter :
    decode (.row 7 (bitsMsb 7 0b1001111)) = .ok (.johnsonAreset 7 true)
      ∧ decode (.row 7 (bitsMsb 7 0b1001100)) = .ok (.johnsonNoedge 7)
      ∧ decode (.row 7 (bitsMsb 7 0b1001101)) = .ok (.johnsonStep 7) := by
  and_intros <;> rfl

/-- The rows of clockDivider (R92). -/
theorem test_decode_clockDivider :
    decode (.row 7 (bitsMsb 7 0b1010011)) = .ok (.clkdivAreset 7 true)
      ∧ decode (.row 7 (bitsMsb 7 0b1010000)) = .ok (.clkdivNoedge 7)
      ∧ decode (.row 7 (bitsMsb 7 0b1010001)) = .ok (.clkdivCount 7) := by
  and_intros <;> rfl

/-- The rows of mux (R92). -/
theorem test_decode_mux :
    decode (.row 7 (bitsMsb 6 0b101010)) = .ok (.muxSelect 7)
      ∧ decode (.row 7 (bitsMsb 6 0b101011)) = .ok (.muxDisabled 7) := by
  and_intros <;> rfl

/-- The rows of demux (R92). -/
theorem test_decode_demux :
    decode (.row 7 (bitsMsb 6 0b101100)) = .ok (.demuxSelect 7)
      ∧ decode (.row 7 (bitsMsb 6 0b101101)) = .ok (.demuxDisabled 7) := by
  and_intros <;> rfl

/-- The rows of decoder (R92). -/
theorem test_decode_decoder :
    decode (.row 7 (bitsMsb 6 0b101110)) = .ok (.decSelect 7)
      ∧ decode (.row 7 (bitsMsb 6 0b101111)) = .ok (.decDisabled 7) := by
  and_intros <;> rfl

/-- The rows of adder (R92). -/
theorem test_decode_adder :
    decode (.row 7 (bitsMsb 7 0b1100000)) = .ok (.adderAdd 7)
      ∧ decode (.row 7 (bitsMsb 7 0b1100001)) = .ok (.adderSub 7)
      ∧ decode (.row 7 (bitsMsb 7 0b1100010)) = .ok (.adderInc 7)
      ∧ decode (.row 7 (bitsMsb 7 0b1100011)) = .ok (.adderInvalid 7) := by
  and_intros <;> rfl

/-- The rows of divider (R92). -/
theorem test_decode_divider :
    decode (.row 7 (bitsMsb 6 0b110101)) = .ok (.divAreset 7)
      ∧ decode (.row 7 (bitsMsb 6 0b110100)) = .ok (.divEval 7) := by
  and_intros <;> rfl

/-- The rows of alu (R92). -/
theorem test_decode_alu :
    decode (.row 7 (bitsMsb 9 0b111000000)) = .ok (.aluAdd 7)
      ∧ decode (.row 7 (bitsMsb 9 0b111000001)) = .ok (.aluSub 7)
      ∧ decode (.row 7 (bitsMsb 9 0b111000010)) = .ok (.aluAnd 7)
      ∧ decode (.row 7 (bitsMsb 9 0b111000011)) = .ok (.aluOr 7)
      ∧ decode (.row 7 (bitsMsb 9 0b111000100)) = .ok (.aluXor 7)
      ∧ decode (.row 7 (bitsMsb 9 0b111000101)) = .ok (.aluNot 7)
      ∧ decode (.row 7 (bitsMsb 9 0b111000110)) = .ok (.aluShl 7)
      ∧ decode (.row 7 (bitsMsb 9 0b111000111)) = .ok (.aluShr 7)
      ∧ decode (.row 7 (bitsMsb 9 0b111001000)) = .ok (.aluInc 7)
      ∧ decode (.row 7 (bitsMsb 9 0b111001001)) = .ok (.aluDec 7)
      ∧ decode (.row 7 (bitsMsb 9 0b111001010)) = .ok (.aluCompare 7)
      ∧ decode (.row 7 (bitsMsb 9 0b111001011)) = .ok (.aluInvalidB 7)
      ∧ decode (.row 7 (bitsMsb 9 0b111001110)) = .ok (.aluInvalidC 7 true false) := by
  and_intros <;> rfl

/-- The rows of memory (R92). -/
theorem test_decode_memory :
    decode (.row 7 (bitsMsb 8 0b11101011)) = .ok (.memWrite 7)
      ∧ decode (.row 7 (bitsMsb 8 0b11101001)) = .ok (.memWidleNoedge 7 true)
      ∧ decode (.row 7 (bitsMsb 8 0b11101010)) = .ok (.memWidleNowe 7)
      ∧ decode (.row 7 (bitsMsb 7 0b1110111)) = .ok (.memRead 7)
      ∧ decode (.row 7 (bitsMsb 7 0b1110110)) = .ok (.memReadoff 7) := by
  and_intros <;> rfl

/-- The rows of accumulator (R92). -/
theorem test_decode_accumulator :
    decode (.row 7 (bitsMsb 10 0b1111011010)) = .ok (.accAreset 7 true false true false)
      ∧ decode (.row 7 (bitsMsb 10 0b1111000101)) = .ok (.accNoedge 7 true false true)
      ∧ decode (.row 7 (bitsMsb 10 0b1111001000)) = .ok (.accLoad 7)
      ∧ decode (.row 7 (bitsMsb 10 0b1111001001)) = .ok (.accClear 7)
      ∧ decode (.row 7 (bitsMsb 10 0b1111001010)) = .ok (.accInc 7)
      ∧ decode (.row 7 (bitsMsb 10 0b1111001011)) = .ok (.accShl 7)
      ∧ decode (.row 7 (bitsMsb 10 0b1111001100)) = .ok (.accShr 7)
      ∧ decode (.row 7 (bitsMsb 10 0b1111001101)) = .ok (.accInvalid5 7)
      ∧ decode (.row 7 (bitsMsb 10 0b1111001111)) = .ok (.accInvalid67 7 true) := by
  and_intros <;> rfl

/-- The contract codes (R90). -/
theorem test_decode_contract :
    decode (.contract 0b00#2 3 4 (volts 5)) = .ok (.writePin 3 4 (volts 5))
      ∧ decode (.contract 0b01#2 3 4 0) = .ok (.readPin 3 4)
      ∧ decode (.contract 0b10#2 3 0 0) = .ok (.tick 3) := by
  and_intros <;> rfl

/-- The graph codes (R90). -/
theorem test_decode_graph :
    decode (.graph 0b000#3 { config := { params := .alu 8, edge := .falling } }) = .ok (.gCreate { params := .alu 8, edge := .falling })
      ∧ decode (.graph 0b001#3 { h := 1, p := 2, h2 := 3, p2 := 4 }) = .ok (.gConnect 1 2 3 4)
      ∧ decode (.graph 0b010#3 { h := 1, p := 2, v := 9 }) = .ok (.gDrive 1 2 9)
      ∧ decode (.graph 0b011#3 { h := 1, p := 2 }) = .ok (.gObserve 1 2)
      ∧ decode (.graph 0b100#3 {}) = .ok .gTick
      ∧ decode (.graph 0b101#3 { n := 6 }) = .ok (.gTickN 6) := by
  and_intros <;> rfl

/-- Reserved codes and wrong lengths are rejected by name (R84, R89, R90). -/
theorem test_decode_reserved :
    decode (.row 7 (bitsMsb 5 0b11111)) = .error .reservedKind
      ∧ decode (.row 7 (bitsMsb 9 0b010110010)) = .error .badLength
      ∧ decode (.contract 0b11#2 0 0 0) = .error .reservedContractCode
      ∧ decode (.graph 0b110#3 {}) = .error .reservedGraphCode := by
  and_intros <;> rfl

/-- A code of the table at its exact width, and at its width in whole bytes (log entry 4). -/
theorem test_decodeTableWord :
    decodeTableWord 2 0b10 = some (.tick 0)
      ∧ decodeTableWord 3 0b101 = some (.gTickN 0)
      ∧ decodeTableWord 7 0b1100010 = some (.adderInc 0)
      ∧ decodeTableWord 8 0b01101001 = some (.regLoad 0)
      ∧ decodeTableWord 16 0b1111001011 = some (.accShl 0)
      ∧ decodeTableWord 16 0b111001010 = some (.aluCompare 0)
      ∧ decodeTableWord 8 0b11111 = none := by
  and_intros <;> rfl

/-! ### Fetching and stepping -/

/-- Words of the table, placed by `withFetchWord`, are what the first step after reset runs, and it answers what the component
presents: DFF.ARESET under a high SET shows Q low and QN high, DFF.ASET the reverse (R177, R178), RING.ROTL moves the master. -/
theorem test_fetch_row :
    (stateOf (step (State.reset.withFetchWord 8 0b01010110))).result = .presents [false, true]
      ∧ (stateOf (step (State.reset.placeLine (.row 0 (bitsMsb 8 0b01010011))))).result = .presents [true, false]
      ∧ (stateOf (step (State.reset.placeLine (.row 0 (bitsMsb 8 0b10010010))))).comps.map Comp.m = [.word 1] := by decide

/-- R48, R104: a clock write run as its component operation leaves the component that the WritePin leaves, and answers what the
component presents: Q stays low until the Tick, the master has taken D. -/
theorem test_operate :
    (stateOf (step { just (pins .dff [.d 0]) with script := [.operate 0 1 (volts 5) false] })).comps
        = (stateOf (exec (.writePin 0 1 (volts 5)) (just (pins .dff [.d 0])))).comps
      ∧ (stateOf (step { just (pins .dff [.d 0]) with script := [.operate 0 1 (volts 5) false] })).result
        = .presents [false, true]
      ∧ (stateOf (step { just (pins .dff [.d 0]) with script := [.operate 0 1 (volts 5) false] })).comps.map Comp.m
        = [.bit true] := by decide

/-- A contract code placed so (TICK with handle 0) addresses a component that does not exist (log entry 5). -/
theorem test_fetch_contract :
    (stateOf (step (State.reset.withFetchWord 2 0b10))).result = .failed .configurationError := by decide

/-- A graph code placed so: G.TICK of an empty graph (R385). -/
theorem test_fetch_graph :
    (stateOf (step (State.reset.withFetchWord 3 0b100))).result = .ok := by decide

/-- R10, R410: with nothing to issue nothing changes. -/
theorem test_step_idle : step State.reset = .next State.reset := rfl

/-- R90: the reserved contract code is refused by name. -/
theorem test_step_reserved :
    step { State.reset with script := [.contract 0b11#2 0 0 0] } = .refused (.undecodable .reservedContractCode) := rfl

/-! ### The contract (95_test_vectors.md, 2.1) -/

/-- The threshold itself reads 0 and anything above it 1. -/
theorem test_logic :
    ([volts (-3), 0, volts 2, microvolts 2500000, microvolts 2500100, volts 3, microvolts 7500000].map (logic {}))
      = [false, false, false, false, true, true, true] := by decide

/-- Rows of the edge table. -/
theorem test_edges :
    activeEdge {} .rising (microvolts 2500000) (microvolts 2600000) = true
      ∧ activeEdge {} .rising 0 (microvolts 2500000) = false ∧ activeEdge {} .rising (volts 3) (volts 5) = false
      ∧ activeEdge {} .falling (microvolts 2600000) (microvolts 2500000) = true ∧ activeEdge {} .falling 0 0 = false := by
  decide

/-- A NOT gate: a write to its output pin is ignored, one outside the map fails, power pins echo. -/
theorem test_writePin :
    answers (.writePin 0 1 (volts 5)) (fresh .notGate) = .ok ∧ answers (.writePin 0 4 (volts 5)) (fresh .notGate) = .failed .unknownPin
      ∧ (stateOf (exec (.writePin 0 2 (volts 1)) (one .notGate))).comps.map (fun c => c.readPin 2) = [.voltage (volts 1)] := by
  decide

/-- Reading the output, an input pin and a pin outside the map of a NOT gate. -/
theorem test_readPin :
    answers (.readPin 0 1) (fresh .notGate) = .voltage (volts 5) ∧ answers (.readPin 0 0) (fresh .notGate) = .failed .unknownPin
      ∧ answers (.readPin 0 4) (fresh .notGate) = .failed .unknownPin := by decide

/-- S2: an active edge writes the master; the Tick shows it. -/
theorem test_dff_edge_then_tick :
    stages (.writePin 0 1 (volts 5)) (pins .dff [.d 0]) = some (.bit true, .bit false)
      ∧ stages (.tick 0) { pins .dff [.d 0] with m := .bit true } = some (.bit true, .bit true) := by decide

/-- R442: a divider's Tick with divisor 0 sets the flag, and not while RESET is high. -/
theorem test_tick_divider :
    stages (.tick 0) (fresh (.divider 4)) = some (.none, .dz true)
      ∧ stages (.tick 0) (pins (.divider 4) [.reset]) = some (.none, .dz false) := by decide

/-! ### Combinational primitives (95_test_vectors.md, 2.2) -/

/-- Corner cases of the gates. -/
theorem test_gates :
    shown (.notGate 0) (fresh .notGate) = [true] ∧ shown (.andGate 0) (pins (.andGate 3) [.inp 0, .inp 1]) = [false]
      ∧ shown (.orGate 0) (pins (.orGate 8) [.inp 7]) = [true] ∧ shown (.nandGate 0) (pins (.nandGate 3) [.inp 0, .inp 2]) = [true]
      ∧ shown (.norGate 0) (pins (.norGate 3) [.inp 2]) = [false] ∧ shown (.xorGate 0) (pins .xorGate [.b 0]) = [true] := by decide

/-- Half and full adder. -/
theorem test_bit_adders :
    shown (.halfAdd 0) (pins .halfAdder [.a 0, .b 0]) = [false, true]
      ∧ shown (.fullAdd 0) (pins .fullAdder [.a 0, .cin]) = [false, true]
      ∧ shown (.fullAdd 0) (pins .fullAdder [.a 0, .b 0, .cin]) = [true, true] := by decide

/-! ### Latches and flip-flops (95_test_vectors.md, 2.3) -/

/-- The SR latch's rows. -/
theorem test_srLatch :
    shown (.srlAreset 0 true true true) (staged .srLatch (.bit true) [.reset, .set, .s, .r]) = [false, true]
      ∧ shown (.srlAset 0 true true) (pins .srLatch [.set, .s, .r]) = [true, false]
      ∧ shown (.srlSet 0) (pins .srLatch [.s]) = [true, false]
      ∧ shown (.srlReset 0) (staged .srLatch (.bit true) [.r]) = [false, true]
      ∧ shown (.srlHold 0) (staged .srLatch (.bit true) []) = [true, false]
      ∧ shown (.srlBoth 0) (staged .srLatch (.bit true) [.s, .r]) = [false, false]
      ∧ stages (.srlBoth 0) (staged .srLatch (.bit true) [.s, .r]) = some (.none, .bit false) := by decide

/-- The D latch's rows. -/
theorem test_dLatch :
    shown (.dlAreset 0 true true) (staged .dLatch (.bit true) [.reset, .set, .en, .d 0]) = [false, true]
      ∧ shown (.dlAset 0 true) (pins .dLatch [.set, .en]) = [true, false]
      ∧ shown (.dlTrack 0) (pins .dLatch [.en, .d 0]) = [true, false]
      ∧ shown (.dlHold 0) (pins .dLatch [.d 0]) = [false, true] := by decide

/-- The D flip-flop's rows: master, slave. -/
theorem test_dff :
    stages (.dffAreset 0 true false) (staged .dff (.bit true) [.reset, .set]) = some (.bit false, .bit false)
      ∧ stages (.dffAset 0 true) (fresh .dff) = some (.bit true, .bit true)
      ∧ stages (.dffCapture 0) (pins .dff [.d 0]) = some (.bit true, .bit false)
      ∧ stages (.dffNoedge 0) (pins .dff [.d 0]) = some (.bit false, .bit false) := by decide

/-- The JK flip-flop's rows from 1. -/
theorem test_jkff :
    stages (.jkAreset 0 true true true true) (staged .jkff (.bit true) []) = some (.bit false, .bit false)
      ∧ stages (.jkAset 0 true false true) (fresh .jkff) = some (.bit true, .bit true)
      ∧ stages (.jkNoedge 0 true true) (fresh .jkff) = some (.bit false, .bit false)
      ∧ stages (.jkHold 0) (staged .jkff (.bit true) []) = some (.bit true, .bit true)
      ∧ stages (.jkReset 0) (staged .jkff (.bit true) []) = some (.bit false, .bit true)
      ∧ stages (.jkSet 0) (fresh .jkff) = some (.bit true, .bit false)
      ∧ stages (.jkToggle 0) (staged .jkff (.bit true) []) = some (.bit false, .bit true) := by decide

/-- The T flip-flop's rows. -/
theorem test_tff :
    stages (.tAreset 0 true true true) (staged .tff (.bit true) []) = some (.bit false, .bit false)
      ∧ stages (.tAset 0 true true) (fresh .tff) = some (.bit true, .bit true)
      ∧ stages (.tNoedge 0 true) (fresh .tff) = some (.bit false, .bit false)
      ∧ stages (.tHold 0) (staged .tff (.bit true) []) = some (.bit true, .bit true)
      ∧ stages (.tToggle 0) (fresh .tff) = some (.bit true, .bit false) := by decide

/-! ### Registers and counters (95_test_vectors.md, 2.4) -/

/-- The register's rows. -/
theorem test_register :
    stages (.regAreset 0 true true) (staged (.register 4) (.word 15) []) = some (.word 0, .word 0)
      ∧ stages (.regAset 0 true) (fresh (.register 4)) = some (.word 15, .word 15)
      ∧ stages (.regLoad 0) (pins (.register 4) [.d 1, .d 3]) = some (.word 0b1010, .word 0)
      ∧ stages (.regNoedge 0) (pins (.register 4) [.d 1]) = some (.word 0, .word 0) := by decide

/-- The shift register's rows: 1011 left with 0 is 0110, 0110 right with 1 is 1011. -/
theorem test_shiftRegister :
    stages (.shregAreset 0 true true true true) (staged (.shiftRegister 4) (.word 15) []) = some (.word 0, .word 0)
      ∧ stages (.shregAset 0 true true true) (fresh (.shiftRegister 4)) = some (.word 15, .word 15)
      ∧ stages (.shregNoedge 0 true true) (staged (.shiftRegister 4) (.word 5) []) = some (.word 5, .word 5)
      ∧ stages (.shregLoad 0 true) (pins (.shiftRegister 4) [.d 0, .d 1, .d 3]) = some (.word 0b1011, .word 0)
      ∧ stages (.shregShl 0) (staged (.shiftRegister 4) (.word 0b1011) []) = some (.word 0b0110, .word 0b1011)
      ∧ stages (.shregShr 0) (staged (.shiftRegister 4) (.word 0b0110) [.serIn]) = some (.word 0b1011, .word 0b0110)
      ∧ shown (.shregNoedge 0 false false) (staged (.shiftRegister 4) (.word 0b0101) []) = [true, false, true, false, false, true] := by
  decide

/-- S6: the universal shift register's rows. -/
theorem test_univShiftRegister :
    stages (.usrAreset 0 true true true true) (staged (.univShiftRegister 4) (.word 15) []) = some (.word 0, .word 0)
      ∧ stages (.usrAset 0 true true true) (fresh (.univShiftRegister 4)) = some (.word 15, .word 15)
      ∧ stages (.usrNoedge 0 true true) (staged (.univShiftRegister 4) (.word 5) []) = some (.word 5, .word 5)
      ∧ stages (.usrNop 0) (staged (.univShiftRegister 4) (.word 5) [.serIn]) = some (.word 5, .word 5)
      ∧ stages (.usrShr 0) (staged (.univShiftRegister 4) (.word 0b1011) [.serIn]) = some (.word 0b1101, .word 0b1011)
      ∧ stages (.usrShl 0) (staged (.univShiftRegister 4) (.word 0b0110) [.serIn]) = some (.word 0b1101, .word 0b0110)
      ∧ stages (.usrLoad 0) (pins (.univShiftRegister 4) [.d 1]) = some (.word 0b0010, .word 0) := by decide

/-- The counter's rows: 13 loads as 3 modulo 10, both wraps carry. -/
theorem test_counter :
    stages (.ctrAreset 0 true true true true) (staged (.counter 4 10 .ripple) (.count 9 true) []) = some (.count 0 false, .count 0 false)
      ∧ stages (.ctrNoedge 0 true true true) (staged (.counter 4 10 .ripple) (.count 9 true) []) = some (.count 9 true, .count 9 true)
      ∧ stages (.ctrLoad 0 true true) (pins (.counter 4 10 .ripple) [.d 0, .d 2, .d 3]) = some (.count 3 false, .count 0 false)
      ∧ stages (.ctrUp 0) (staged (.counter 4 10 .ripple) (.count 9 false) []) = some (.count 0 true, .count 9 false)
      ∧ stages (.ctrDown 0) (staged (.counter 4 10 .ripple) (.count 0 false) []) = some (.count 9 true, .count 0 false)
      ∧ stages (.ctrFreeze 0 true) (staged (.counter 4 10 .ripple) (.count 9 true) []) = some (.count 9 false, .count 9 true) := by
  decide

/-- The BCD counter's rows: 99 up is 00 with carry, 00 down 99 with carry, nibble C loads as 2. -/
theorem test_bcdCounter :
    stages (.bcdAreset 0 true true true true) (staged (.bcdCounter 2) (.digits [9, 9] true) [])
        = some (.digits [0, 0] false, .digits [0, 0] false)
      ∧ stages (.bcdNoedge 0 true true true) (staged (.bcdCounter 2) (.digits [9, 9] true) [])
        = some (.digits [9, 9] true, .digits [9, 9] true)
      ∧ stages (.bcdLoad 0 true true) (pins (.bcdCounter 2) [.d 2, .d 3, .d 4]) = some (.digits [2, 1] false, .digits [0, 0] false)
      ∧ stages (.bcdUp 0) (staged (.bcdCounter 2) (.digits [9, 9] false) []) = some (.digits [0, 0] true, .digits [9, 9] false)
      ∧ stages (.bcdDown 0) (staged (.bcdCounter 2) (.digits [0, 0] false) []) = some (.digits [9, 9] true, .digits [0, 0] false)
      ∧ stages (.bcdFreeze 0 true) (staged (.bcdCounter 2) (.digits [9, 9] true) [])
        = some (.digits [9, 9] false, .digits [9, 9] true)
      ∧ stages (.bcdUp 0) (staged (.bcdCounter 2) (.digits [9, 0] true) []) = some (.digits [0, 1] false, .digits [9, 0] true) := by
  decide

/-- The ring counter's rows. -/
theorem test_ringCounter :
    stages (.ringAreset 0 true true) (staged (.ringCounter 4) (.word 4) []) = some (.word 1, .word 1)
      ∧ stages (.ringNoedge 0 true) (staged (.ringCounter 4) (.word 4) []) = some (.word 4, .word 4)
      ∧ stages (.ringRotl 0) (staged (.ringCounter 4) (.word 8) []) = some (.word 1, .word 8)
      ∧ stages (.ringRotr 0) (fresh (.ringCounter 4)) = some (.word 8, .word 1) := by decide

/-- The Johnson counter's rows: 0111 is followed by 1111, 1111 by 1110. -/
theorem test_johnsonCounter :
    stages (.johnsonAreset 0 true) (staged (.johnsonCounter 4) (.word 3) []) = some (.word 0, .word 0)
      ∧ stages (.johnsonNoedge 0) (staged (.johnsonCounter 4) (.word 3) []) = some (.word 3, .word 3)
      ∧ stages (.johnsonStep 0) (staged (.johnsonCounter 4) (.word 7) []) = some (.word 15, .word 7)
      ∧ stages (.johnsonStep 0) (staged (.johnsonCounter 4) (.word 15) []) = some (.word 14, .word 15) := by decide

/-- The clock divider's rows for N = 3. -/
theorem test_clockDivider :
    stages (.clkdivAreset 0 true) (staged (.clockDivider 3) (.divide 2 true) []) = some (.divide 0 false, .divide 0 false)
      ∧ stages (.clkdivNoedge 0) (staged (.clockDivider 3) (.divide 2 true) []) = some (.divide 2 true, .divide 2 true)
      ∧ stages (.clkdivCount 0) (staged (.clockDivider 3) (.divide 1 true) []) = some (.divide 2 true, .divide 1 true)
      ∧ stages (.clkdivCount 0) (staged (.clockDivider 3) (.divide 2 true) []) = some (.divide 0 false, .divide 2 true) := by decide

/-! ### Interconnect and arithmetic (95_test_vectors.md, 1.1, 2.5, 2.6) -/

/-- S4 and the tables of 2.5. -/
theorem test_interconnect :
    shown (.muxSelect 0) (pins (.mux 2 1) [.chan 0 0, .chan 2 0, .chan 3 0, .sel 1]) = [true]
      ∧ shown (.muxDisabled 0) (pins (.mux 2 1) [.chan 0 0, .disable]) = [false]
      ∧ shown (.demuxSelect 0) (pins (.demux 2 1) [.x 0, .sel 1]) = [false, false, true, false]
      ∧ shown (.demuxDisabled 0) (pins (.demux 2 1) [.x 0, .sel 1, .disable]) = [false, false, false, false]
      ∧ shown (.decSelect 0) (pins (.decoder 2) [.sel 0, .sel 1]) = [false, false, false, true]
      ∧ shown (.decDisabled 0) (pins (.decoder 2) [.sel 0, .disable]) = [false, false, false, false] := by decide

/-- S1 (6 + 11), 8 - 1, 7 + 1 on four bits, and the reserved mode. -/
theorem test_adder :
    stages (.adderAdd 0) (pins (.adder 4) [.a 1, .a 2, .b 0, .b 1, .b 3]) = some (.none, .sum 1 true false)
      ∧ stages (.adderSub 0) (pins (.adder 4) [.a 3, .b 0]) = some (.none, .sum 7 true true)
      ∧ stages (.adderInc 0) (pins (.adder 4) [.a 0, .a 1, .a 2, .cin]) = some (.none, .sum 8 false true)
      ∧ answers (.adderInvalid 0) (staged (.adder 4) (.sum 2 true false) []) = .failed .invalidOperation
      ∧ stages (.adderInvalid 0) (staged (.adder 4) (.sum 2 true false) []) = some (.none, .sum 2 true false) := by decide

/-- 6 * 7 = 42 and 3 * 5 = 15 on four bits. -/
theorem test_multiplier :
    shown (.mul 0) (pins (.multiplier 4) [.a 1, .a 2, .b 0, .b 1, .b 2]) = lsb 4 10 ++ [true, true]
      ∧ shown (.mul 0) (pins (.multiplier 4) [.a 0, .a 1, .b 0, .b 2]) = lsb 4 15 ++ [false, false] := by decide

/-- 13 = 4 * 3 + 1, the sentinel, and the reset of the flag. -/
theorem test_divider :
    shown (.divEval 0) (pins (.divider 4) [.a 0, .a 2, .a 3, .b 2]) = lsb 4 3 ++ lsb 4 1 ++ [false]
      ∧ shown (.divEval 0) (fresh (.divider 4)) = lsb 4 15 ++ lsb 4 15 ++ [false]
      ∧ stages (.divAreset 0) (staged (.divider 4) (.dz true) [.reset]) = some (.none, .dz false) := by decide

/-- 9 + 9 + 1 in decimal, and the invalid digits 12 + 1. -/
theorem test_bcdAdder :
    shown (.bcdAdd 0) (pins (.bcdAdder 1) [.a 0, .a 3, .b 0, .b 3, .cin]) = lsb 4 9 ++ [true]
      ∧ shown (.bcdAdd 0) (pins (.bcdAdder 1) [.a 2, .a 3, .b 0]) = lsb 4 3 ++ [true] := by decide

/-- ALU rows: 8 + 8, 3 - 5, 7 + 1, 8 - 1, and the comparison of 9 with 2, which keeps R. -/
theorem test_alu_arithmetic :
    stages (.aluAdd 0) (pins (.alu 4) [.a 3, .b 3]) = some (.none, .alu 0 ⟨true, false, true, true⟩)
      ∧ stages (.aluSub 0) (pins (.alu 4) [.a 0, .a 1, .b 0, .b 2]) = some (.none, .alu 14 ⟨false, true, false, false⟩)
      ∧ stages (.aluInc 0) (pins (.alu 4) [.a 0, .a 1, .a 2]) = some (.none, .alu 8 ⟨false, true, false, true⟩)
      ∧ stages (.aluDec 0) (pins (.alu 4) [.a 3]) = some (.none, .alu 7 ⟨false, false, true, true⟩)
      ∧ stages (.aluCompare 0) (staged (.alu 4) (.alu 13 clearFlags) [.a 0, .a 3, .b 1])
        = some (.none, .alu 13 ⟨false, false, true, true⟩) := by decide

/-- ALU rows: 12 and 10, NOT 15, both shifts of 9, and the reserved codes. -/
theorem test_alu_logic :
    stages (.aluAnd 0) (pins (.alu 4) [.a 2, .a 3, .b 1, .b 3]) = some (.none, .alu 8 ⟨false, true, false, false⟩)
      ∧ stages (.aluOr 0) (pins (.alu 4) [.a 2, .a 3, .b 1, .b 3]) = some (.none, .alu 14 ⟨false, true, false, false⟩)
      ∧ stages (.aluXor 0) (pins (.alu 4) [.a 2, .a 3, .b 1, .b 3]) = some (.none, .alu 6 ⟨false, false, false, false⟩)
      ∧ stages (.aluNot 0) (pins (.alu 4) [.a 0, .a 1, .a 2, .a 3]) = some (.none, .alu 0 ⟨true, false, false, false⟩)
      ∧ stages (.aluShl 0) (pins (.alu 4) [.a 0, .a 3]) = some (.none, .alu 2 ⟨false, false, true, false⟩)
      ∧ stages (.aluShr 0) (pins (.alu 4) [.a 0, .a 3]) = some (.none, .alu 4 ⟨false, false, true, false⟩)
      ∧ answers (.aluInvalidB 0) (fresh (.alu 4)) = .failed .invalidOperation
      ∧ answers (.aluInvalidC 0 true true) (fresh (.alu 4)) = .failed .invalidOperation := by decide

/-! ### Memory and accumulator (95_test_vectors.md, 2.7) -/

/-- Writing 1001 at address 1 stages it; the read port shows the slave map; writing 0 removes the entry. -/
theorem test_memory :
    stages (.memWrite 0) (pins (.memory 2 4) [.addr 0, .wdata 0, .wdata 3, .we]) = some (.cells [(1, 9)], .cells [])
      ∧ stages (.memWrite 0) (staged (.memory 2 4) (.cells [(0, 3), (1, 9), (3, 1)]) [.addr 0])
        = some (.cells [(0, 3), (3, 1)], .cells [(0, 3), (1, 9), (3, 1)])
      ∧ stages (.memWidleNoedge 0 true) (pins (.memory 2 4) [.wdata 0]) = some (.cells [], .cells [])
      ∧ stages (.memWidleNowe 0) (pins (.memory 2 4) [.wdata 0]) = some (.cells [], .cells [])
      ∧ shown (.memRead 0) { pins (.memory 2 4) [.re, .addr 0] with m := .cells [(1, 2)], q := .cells [(1, 9)] } = lsb 4 9
      ∧ shown (.memReadoff 0) (staged (.memory 2 4) (.cells [(0, 9)]) []) = lsb 4 0 := by decide

/-- S5: an active edge with WE high performs the write port's operation. -/
theorem test_memory_edge :
    stages (.writePin 0 9 (volts 5)) (pins (.memory 3 4) [.addr 0, .addr 1, .wdata 1, .wdata 3, .we])
      = some (.cells [(3, 0b1010)], .cells []) := by decide

/-- The accumulator's rows. -/
theorem test_accumulator :
    stages (.accAreset 0 true true true true) (staged (.accumulator 4) (.acc 9 ⟨false, true, false, false⟩) [])
        = some (.acc 0 clearFlags, .acc 0 clearFlags)
      ∧ stages (.accLoad 0) (pins (.accumulator 4) [.d 0, .d 3]) = some (.acc 9 ⟨false, true, false, false⟩, .acc 0 clearFlags)
      ∧ stages (.accClear 0) (staged (.accumulator 4) (.acc 9 ⟨false, true, true, true⟩) [])
        = some (.acc 0 ⟨true, false, false, false⟩, .acc 9 ⟨false, true, true, true⟩)
      ∧ stages (.accInc 0) (staged (.accumulator 4) (.acc 7 ⟨false, false, false, false⟩) [])
        = some (.acc 8 ⟨false, true, false, true⟩, .acc 7 ⟨false, false, false, false⟩)
      ∧ stages (.accShl 0) (staged (.accumulator 4) (.acc 8 ⟨false, true, false, true⟩) [])
        = some (.acc 0 ⟨true, false, true, false⟩, .acc 8 ⟨false, true, false, true⟩)
      ∧ stages (.accShr 0) (staged (.accumulator 4) (.acc 9 ⟨false, true, false, false⟩) [])
        = some (.acc 4 ⟨false, false, true, false⟩, .acc 9 ⟨false, true, false, false⟩) := by decide

/-- The accumulator's rows that hold, and the failure of an edge with a reserved selector. -/
theorem test_accumulator_holds :
    stages (.accNoedge 0 true true true) (staged (.accumulator 4) (.acc 9 ⟨false, true, false, false⟩) [])
        = some (.acc 9 ⟨false, true, false, false⟩, .acc 9 ⟨false, true, false, false⟩)
      ∧ answers (.accInvalid5 0) (fresh (.accumulator 4)) = .failed .invalidOperation
      ∧ answers (.accInvalid67 0 true) (fresh (.accumulator 4)) = .failed .invalidOperation
      ∧ answers (.writePin 0 7 (volts 5)) (pins (.accumulator 4) [.op 0, .op 2]) = .failed .invalidOperation := by decide

/-! ### The graph (95_test_vectors.md, 2.8) -/

/-- Two NOT gates, the output of the first wired to the input of the second. -/
def chain : State := { State.reset with comps := [fresh .notGate, fresh .notGate], wires := [⟨0, 1, 1, 0⟩] }

/-- Two NOT gates in a loop. -/
def loop : State := { State.reset with comps := [fresh .notGate, fresh .notGate], wires := [⟨0, 1, 1, 0⟩, ⟨1, 1, 0, 0⟩] }

/-- `chain` after its first tick. -/
def chainRunning : State := stateOf (exec .gTick chain)

/-- G.CREATE: a gate of one input is refused, a D flip-flop gets the next handle. -/
theorem test_create :
    (stateOf (exec (.gCreate { params := .andGate 1 }) State.reset)).result = .failed .configurationError
      ∧ (stateOf (exec (.gCreate { params := .dff }) chain)).result = .handle 2
      ∧ (stateOf (exec (.gCreate { params := .notGate }) chainRunning)).result = .failed .configurationError := by decide

/-- G.CONNECT: a wired pin, a source that is an input, a power pin, a number outside the map, and a good wire. -/
theorem test_connect :
    (stateOf (exec (.gConnect 0 1 1 0) chain)).result = .failed .configurationError
      ∧ (stateOf (exec (.gConnect 0 0 0 0) chain)).result = .failed .configurationError
      ∧ (stateOf (exec (.gConnect 0 1 0 2) chain)).result = .failed .configurationError
      ∧ (stateOf (exec (.gConnect 0 1 0 9) chain)).result = .failed .unknownPin
      ∧ (stateOf (exec (.gConnect 1 1 0 0) chain)).wires = [⟨0, 1, 1, 0⟩, ⟨1, 1, 0, 0⟩] := by decide

/-- G.DRIVE: a wired pin, a number outside the map, and a queued drive. -/
theorem test_drive :
    (stateOf (exec (.gDrive 1 0 (volts 5)) chain)).result = .failed .configurationError
      ∧ (stateOf (exec (.gDrive 1 7 (volts 5)) chain)).result = .failed .unknownPin
      ∧ (stateOf (exec (.gDrive 0 0 (volts 5)) chain)).pending = [⟨0, 0, volts 5⟩] := by decide

/-- G.OBSERVE and G.TICK: the wire carries the first gate's high output, so the second presents low. -/
theorem test_graph_tick :
    (stateOf (exec (.gObserve 1 1) chain)).result = .voltage (volts 5)
      ∧ (stateOf (exec (.gObserve 1 1) chainRunning)).result = .voltage 0 ∧ chainRunning.order = [0, 1]
      ∧ (stateOf (exec .gTick loop)).result = .failed .configurationError := by decide

/-- R387: the order follows the data, not the handles; a D pin cuts a loop, an asynchronous pin does not. -/
theorem test_order :
    topoOrder [fresh .notGate, fresh .notGate, fresh .notGate] [⟨2, 1, 1, 0⟩, ⟨1, 1, 0, 0⟩] = some [2, 1, 0]
      ∧ topoOrder [fresh .dff, fresh .notGate] [⟨0, 4, 1, 0⟩, ⟨1, 1, 0, 0⟩] = some [0, 1]
      ∧ topoOrder [fresh .dff, fresh .notGate] [⟨0, 4, 1, 0⟩, ⟨1, 1, 0, 3⟩] = none
      ∧ topoOrder [fresh .srLatch, fresh .notGate] [⟨0, 4, 1, 0⟩, ⟨1, 1, 0, 0⟩] = none := by decide

/-- G.TICKN of a loop fails; of no ticks it does nothing (R386). -/
theorem test_tickN :
    (stateOf (exec (.gTickN 2) loop)).result = .failed .configurationError ∧ (stateOf (exec (.gTickN 0) loop)).result = .ok
      ∧ (stateOf (exec (.gTickN 2) chain)).phase = .running := by decide

/-- 95_test_vectors.md 2.4: 0x1A5 written to an eight-bit port is a warning, and the low bits are written. -/
theorem test_outOfRange :
    (registerLoad 0 (fresh (.register 8)) 0x1A5).warning = some .outOfRange
      ∧ (registerLoad 0 (fresh (.register 8)) 0x1A5).ops = (registerLoad 0 (fresh (.register 8)) 0xA5).ops := by decide

/-- R403, R414: an Adder call with an operand of five bits and mode 11 is told both; the Accumulator's methods pass a warning
on. -/
theorem test_word_call_warnings :
    ((adderCall 0 (fresh (.adder 4)) 3 16 1 false).run (one (.adder 4))).2.2 = some .outOfRange
      ∧ .failed .invalidOperation ∈ ((adderCall 0 (fresh (.adder 4)) 3 16 1 false).run (one (.adder 4))).2.1
      ∧ (adderCall 0 (fresh (.adder 4)) 0 15 16 false).warning = some .outOfRange
      ∧ (adderCall 0 (fresh (.adder 4)) 4 15 15 false).warning = some .outOfRange
      ∧ (adderCall 0 (fresh (.adder 4)) 1 15 15 true).warning = none
      ∧ (accumulatorCall 0 (fresh (.accumulator 4)) 8).warning = some .outOfRange
      ∧ (accumulatorLoad 0 (fresh (.accumulator 4)) 16).warning = some .outOfRange := by decide

/-- R95, R304: the call A(9, 8, 1) in mode 00 of a four-bit Adder reads S = 2, COUT = 1 and OVF = 1. -/
theorem test_adderCall :
    ((adderCall 0 (fresh (.adder 4)) 0 9 8 true).run (one (.adder 4))).2.1.drop 12
      = [.voltage 0, .voltage (volts 5), .voltage 0, .voltage 0, .voltage (volts 5), .voltage (volts 5)] := by decide

/-! ### States that meet the hypotheses of the obligations -/



theorem witness_LinesSurviveDecoding :
    Line.wf (.contract 0b00#2 1 2 (volts 5)) = true ∧ Line.wf (.contract 0b10#2 1 0 0) = true
      ∧ Line.wf (.graph 0b101#3 { n := 3 }) = true ∧ Line.wf (.row 1 (bitsMsb 5 0b00000)) = true
      ∧ Line.wf (.row 1 (bitsMsb 10 0b1111011111)) = true := by decide

theorem witness_ReservedCodesAreRejected :
    (([] : List Bool).take 5 ≠ [true, true, true, true, true] ∧ Line.rowOk [] = false)
      ∧ ((bitsMsb 6 0b000000).take 5 ≠ [true, true, true, true, true] ∧ Line.rowOk (bitsMsb 6 0b000000) = false)
      ∧ ((bitsMsb 9 0b111100000).take 5 ≠ [true, true, true, true, true] ∧ Line.rowOk (bitsMsb 9 0b111100000) = false) := by
  decide

theorem witness_StepRunsTheDecodedOperation :
    (∃ s : State, s.script = [.operate 0 1 (volts 5) false]
        ∧ decode (s.fetch (.operate 0 1 (volts 5) false)).2 = .ok (.dffCapture 0))
      ∧ State.reset.script = []
      ∧ (∀ c, State.reset.comp? 0 = some c → (inputPins c.params).length ≤ 0)
      ∧ ((one .dff).comp? 0 = some (fresh .dff) ∧ (inputPins (fresh .dff).params)[0]? = some (.d 0) ∧ Pin.d 0 ≠ .clk
        ∧ Params.kind (fresh .dff).params ≠ .memory ∧ (inputPins (fresh .dff).params)[1]? = some .clk)
      ∧ ((one (.memory 1 1)).comp? 0 = some (fresh (.memory 1 1)) ∧ Params.kind (fresh (.memory 1 1)).params = .memory
        ∧ 4 < (inputPins (fresh (.memory 1 1)).params).length) :=
  ⟨⟨{ one .dff with script := [.operate 0 1 (volts 5) false] }, rfl, rfl⟩, rfl, (fun _ h => nomatch h), by decide, by decide⟩

theorem witness_LogicIsStrictlyAboveThreshold :
    Cfg.ok {} = true ∧ (({} : Cfg).high ≤ volts 5) ∧ (volts 0 ≤ ({} : Cfg).low) := by decide

theorem witness_VoltageOfABit : Cfg.ok {} = true := by decide

theorem witness_ActiveEdges : Cfg.ok {} = true ∧ logic {} 0 = logic {} (microvolts 2500000) := by decide

theorem witness_WritePinWithoutEvaluation :
    (one (.halfAdder)).comp? 0 = some (fresh .halfAdder) ∧ isOutputId (fresh .halfAdder).params 2 = true
      ∧ isOutputId (fresh .halfAdder).params 3 = true ∧ npins (fresh .halfAdder).params ≤ 6 := by decide

theorem witness_WritePinToAnInput :
    (fits (fresh .srLatch) .srLatch ∧ (inputPins (fresh .srLatch).params)[0]? = some .s ∧ Pin.s ≠ .clk
        ∧ Params.kind (fresh .srLatch).params ≠ .memory)
      ∧ (inputPins (fresh .srLatch).params)[3]? = some .reset
      ∧ (fits (fresh (.memory 1 1)) (.memory 1 1) ∧ (inputPins (fresh (.memory 1 1)).params)[0]? = some (.addr 0)
        ∧ (inputPins (fresh (.memory 1 1)).params)[3]? = some .re ∧ Params.kind (fresh (.memory 1 1)).params = .memory) := by
  decide

theorem witness_WritePinToTheClock :
    (fits (fresh .dff) .dff ∧ (inputPins (fresh .dff).params)[1]? = some .clk ∧ Params.kind (fresh .dff).params ≠ .memory)
      ∧ (fits (fresh (.memory 1 1)) (.memory 1 1) ∧ (inputPins (fresh (.memory 1 1)).params)[4]? = some .clk
        ∧ Params.kind (fresh (.memory 1 1)).params = .memory) := by decide

theorem witness_ClockWritesThatChangeNothingElse :
    (fits (fresh .dff) .dff ∧ (fresh .dff).settled = true ∧ (inputPins (fresh .dff).params)[1]? = some .clk
        ∧ activeEdge (fresh .dff).cfg (fresh .dff).edge (fresh .dff).clkPrev (microvolts 2500000) = false)
      ∧ (fits (pins .dff [.reset]) .dff ∧ (pins .dff [.reset]).settled = true
        ∧ (inputPins (pins .dff [.reset]).params)[1]? = some .clk ∧ .reset ∈ inputPins (pins .dff [.reset]).params
        ∧ (pins .dff [.reset]).inBit .reset = true
        ∧ activeEdge (pins .dff [.reset]).cfg .rising (pins .dff [.reset]).clkPrev (volts 5) = true)
      ∧ (fits (staged .dff (.bit true) [.set]) .dff ∧ (staged .dff (.bit true) [.set]).settled = true
        ∧ (inputPins (staged .dff (.bit true) [.set]).params)[1]? = some .clk
        ∧ .set ∈ inputPins (staged .dff (.bit true) [.set]).params ∧ (staged .dff (.bit true) [.set]).inBit .set = true
        ∧ (staged .dff (.bit true) [.set]).inBit .reset = false
        ∧ activeEdge (staged .dff (.bit true) [.set]).cfg .rising (staged .dff (.bit true) [.set]).clkPrev (volts 5) = true) := by
  decide

theorem witness_ReadPinValues :
    (one .halfAdder).comp? 0 = some (fresh .halfAdder) ∧ (outputPins (fresh .halfAdder).params)[0]? = some (.sum 0)
      ∧ (outputPins (fresh .halfAdder).params)[1]? = some .carry ∧ 1 < (inputPins (fresh .halfAdder).params).length
      ∧ npins (fresh .halfAdder).params ≤ 6 := by decide

theorem witness_TickOfEachKind :
    (fits (fresh .dff) .dff ∧ Kind.isClocked (Params.kind (fresh .dff).params) = true)
      ∧ (fits (fresh .dLatch) .dLatch ∧ Params.kind (fresh .dLatch).params = .dLatch)
      ∧ (fits (fresh (.adder 1)) (.adder 1) ∧ Params.kind (fresh (.adder 1)).params = .adder)
      ∧ (fits (fresh (.alu 1)) (.alu 1) ∧ Params.kind (fresh (.alu 1)).params = .alu)
      ∧ (fits (fresh (.divider 1)) (.divider 1) ∧ (fresh (.divider 1)).inBit .reset = false ∧ (fresh (.divider 1)).opB 1 = 0)
      ∧ (fits (pins (.divider 1) [.reset]) (.divider 1) ∧ (pins (.divider 1) [.reset]).inBit .reset = true)
      ∧ (fits (pins (.divider 1) [.b 0]) (.divider 1) ∧ (pins (.divider 1) [.b 0]).opB 1 ≠ 0) := by decide

theorem witness_TickNeverFails :
    (fits (pins (.adder 1) [.mode 0, .mode 1]) (.adder 1) ∧ (pins (.adder 1) [.mode 0, .mode 1]).inBit (.mode 1) = true
        ∧ (pins (.adder 1) [.mode 0, .mode 1]).inBit (.mode 0) = true)
      ∧ (fits (pins (.alu 1) [.op 3, .op 2]) (.alu 1) ∧ (pins (.alu 1) [.op 3, .op 2]).inBit (.op 3) = true
        ∧ (pins (.alu 1) [.op 3, .op 2]).inBit (.op 2) = true)
      ∧ (fits (pins (.alu 1) [.op 3, .op 1, .op 0]) (.alu 1) ∧ (pins (.alu 1) [.op 3, .op 1, .op 0]).inBit (.op 3) = true
        ∧ (pins (.alu 1) [.op 3, .op 1, .op 0]).inBit (.op 1) = true ∧ (pins (.alu 1) [.op 3, .op 1, .op 0]).inBit (.op 0) = true)
      ∧ (fits (fresh (.divider 1)) (.divider 1) ∧ (fresh (.divider 1)).opB 1 = 0 ∧ (fresh (.divider 1)).inBit .reset = false) := by
  decide

theorem witness_TickIsIdempotent : (one (.alu 2)).comp? 0 = some (fresh (.alu 2)) := rfl

theorem witness_ResetPinForcesTheResetState :
    (fits (fresh (.ringCounter 1)) (.ringCounter 1) ∧ .reset ∈ inputPins (fresh (.ringCounter 1)).params
        ∧ logic (fresh (.ringCounter 1)).cfg (microvolts 2500001) = true)
      ∧ (fits (fresh .srLatch) .srLatch ∧ .reset ∈ inputPins (fresh .srLatch).params
        ∧ logic (fresh .srLatch).cfg (volts 5) = true) := by decide

theorem witness_SetPinForcesOnes :
    (fits (fresh .dff) .dff ∧ .set ∈ inputPins (fresh .dff).params ∧ (fresh .dff).inBit .reset = false
        ∧ logic (fresh .dff).cfg (volts 5) = true ∧ (fresh .dff).width = 0)
      ∧ (fits (fresh (.register 1)) (.register 1) ∧ .set ∈ inputPins (fresh (.register 1)).params
        ∧ (fresh (.register 1)).inBit .reset = false ∧ (fresh (.register 1)).width = 1) := by decide

theorem witness_InvalidOperationHolds :
    (∃ c : Comp, (just c).has 0 .adder c ∧ (inputPins c.params)[0]? = some (.a 0)
        ∧ (c.withIn (.a 0) 0).inBit (.mode 1) = true ∧ (c.withIn (.a 0) 0).inBit (.mode 0) = true)
      ∧ (∃ c : Comp, (just c).has 0 .alu c ∧ (inputPins c.params)[0]? = some (.a 0) ∧ (c.withIn (.a 0) 0).inBit (.op 3) = true
        ∧ (c.withIn (.a 0) 0).inBit (.op 2) = true)
      ∧ (∃ c : Comp, (just c).has 0 .alu c ∧ (inputPins c.params)[0]? = some (.a 0) ∧ (c.withIn (.a 0) 0).inBit (.op 3) = true
        ∧ (c.withIn (.a 0) 0).inBit (.op 1) = true ∧ (c.withIn (.a 0) 0).inBit (.op 0) = true)
      ∧ (∃ c : Comp, (just c).has 0 .accumulator c ∧ (inputPins c.params)[4]? = some .clk ∧ c.inBit .reset = false
        ∧ activeEdge c.cfg c.edge c.clkPrev (volts 5) = true ∧ c.inBit (.op 2) = true ∧ c.inBit (.op 0) = true) :=
  ⟨⟨pins (.adder 1) [.mode 0, .mode 1], ⟨rfl, rfl⟩, rfl, by decide, by decide⟩,
    ⟨pins (.alu 1) [.op 3, .op 2], ⟨rfl, rfl⟩, rfl, by decide, by decide⟩,
    ⟨pins (.alu 1) [.op 3, .op 1, .op 0], ⟨rfl, rfl⟩, rfl, by decide, by decide, by decide⟩,
    ⟨pins (.accumulator 1) [.op 2, .op 0], ⟨rfl, rfl⟩, rfl, by decide, by decide, by decide, by decide⟩⟩

theorem witness_GatesPresentTheirFunction :
    fits (fresh .notGate) .notGate ∧ fits (fresh (.andGate 2)) (.andGate 2) ∧ fits (fresh (.orGate 8)) (.orGate 8)
      ∧ fits (fresh (.nandGate 2)) (.nandGate 2) ∧ fits (fresh (.norGate 8)) (.norGate 8) ∧ fits (fresh .xorGate) .xorGate
      ∧ fits (fresh .halfAdder) .halfAdder ∧ fits (fresh .fullAdder) .fullAdder := by decide

theorem witness_SrLatchOperations :
    (just (pins .srLatch [.reset])).has 0 .srLatch (pins .srLatch [.reset]) ∧ (pins .srLatch [.reset]).inBit .reset = true
      ∧ (just (pins .srLatch [.set])).has 0 .srLatch (pins .srLatch [.set]) ∧ (pins .srLatch [.set]).inBit .reset = false
      ∧ (pins .srLatch [.set]).inBit .set = true
      ∧ (∀ s r : Bool, ∃ c : Comp, (just c).has 0 .srLatch c ∧ c.inBit .reset = false ∧ c.inBit .set = false
        ∧ c.inBit .s = s ∧ c.inBit .r = r ∧ c.q = .bit false) := by
  refine ⟨⟨rfl, rfl⟩, by decide, ⟨rfl, rfl⟩, by decide, by decide, ?_⟩
  rintro (_ | _) (_ | _)
  · exact ⟨fresh .srLatch, ⟨rfl, rfl⟩, by decide⟩
  · exact ⟨pins .srLatch [.r], ⟨rfl, rfl⟩, by decide⟩
  · exact ⟨pins .srLatch [.s], ⟨rfl, rfl⟩, by decide⟩
  · exact ⟨pins .srLatch [.s, .r], ⟨rfl, rfl⟩, by decide⟩

theorem witness_DLatchOperations : (one .dLatch).has 0 .dLatch (fresh .dLatch) := ⟨rfl, rfl⟩

theorem witness_DFlipFlopOperations : (one .dff).has 0 .dff (fresh .dff) := ⟨rfl, rfl⟩

theorem witness_JkAndTFlipFlopOperations :
    ((one .jkff).has 0 .jkff (fresh .jkff) ∧ (fresh .jkff).m = .bit false)
      ∧ ((one .tff).has 0 .tff (fresh .tff) ∧ (fresh .tff).m = .bit false) := ⟨⟨⟨rfl, rfl⟩, rfl⟩, ⟨⟨rfl, rfl⟩, rfl⟩⟩

theorem witness_RegisterOperations : fits (fresh (.register 1)) (.register 1) := by decide

theorem witness_ShiftRegisterOperations :
    (fits (fresh (.shiftRegister 1)) (.shiftRegister 1) ∧ (fresh (.shiftRegister 1)).m = .word 0)
      ∧ (fits (staged (.shiftRegister 4) (.word 15) []) (.shiftRegister 4)
        ∧ (staged (.shiftRegister 4) (.word 15) []).m = .word 15) := by decide

theorem witness_UniversalShiftRegisterOperations :
    (fits (fresh (.univShiftRegister 1)) (.univShiftRegister 1) ∧ (fresh (.univShiftRegister 1)).m = .word 0)
      ∧ (fits (staged (.univShiftRegister 4) (.word 15) []) (.univShiftRegister 4)
        ∧ (staged (.univShiftRegister 4) (.word 15) []).m = .word 15) := by decide

theorem witness_CounterOperations :
    (fits (fresh (.counter 2 1 .ripple)) (.counter 2 1 .ripple) ∧ (fresh (.counter 2 1 .ripple)).m = .count 0 false)
      ∧ (fits (staged (.counter 4 10 .synchronous) (.count 9 true) []) (.counter 4 10 .synchronous)
        ∧ (staged (.counter 4 10 .synchronous) (.count 9 true) []).m = .count 9 true) := by decide

theorem witness_BcdCounterOperations :
    (fits (fresh (.bcdCounter 1)) (.bcdCounter 1) ∧ (fresh (.bcdCounter 1)).m = .digits [0] false)
      ∧ (fits (staged (.bcdCounter 2) (.digits [9, 9] true) []) (.bcdCounter 2)
        ∧ (staged (.bcdCounter 2) (.digits [9, 9] true) []).m = .digits [9, 9] true) := by decide

theorem witness_RingAndJohnsonOperations :
    (fits (fresh (.ringCounter 1)) (.ringCounter 1) ∧ (fresh (.ringCounter 1)).m = .word 1)
      ∧ (fits (staged (.ringCounter 4) (.word 8) []) (.ringCounter 4) ∧ (staged (.ringCounter 4) (.word 8) []).m = .word 8)
      ∧ (fits (fresh (.johnsonCounter 1)) (.johnsonCounter 1) ∧ (fresh (.johnsonCounter 1)).m = .word 0) := by decide

theorem witness_ClockDividerOperations :
    (fits (fresh (.clockDivider 1)) (.clockDivider 1) ∧ (fresh (.clockDivider 1)).m = .divide 0 false ∧ 0 + 1 = 1)
      ∧ (fits (fresh (.clockDivider 2)) (.clockDivider 2) ∧ (fresh (.clockDivider 2)).m = .divide 0 false ∧ 0 + 1 ≠ 2) := by decide

theorem witness_InterconnectOperations :
    (fits (fresh (.mux 1 1)) (.mux 1 1) ∧ (fresh (.mux 1 1)).inBit .disable = false)
      ∧ (fits (pins (.mux 1 1) [.disable]) (.mux 1 1) ∧ (pins (.mux 1 1) [.disable]).inBit .disable = true)
      ∧ (fits (fresh (.demux 1 1)) (.demux 1 1) ∧ (fresh (.demux 1 1)).inBit .disable = false)
      ∧ (fits (pins (.demux 1 1) [.disable]) (.demux 1 1) ∧ (pins (.demux 1 1) [.disable]).inBit .disable = true)
      ∧ (fits (fresh (.decoder 1)) (.decoder 1) ∧ (fresh (.decoder 1)).inBit .disable = false)
      ∧ (fits (pins (.decoder 1) [.disable]) (.decoder 1) ∧ (pins (.decoder 1) [.disable]).inBit .disable = true) := by decide

theorem witness_AdderOperations :
    fits (pins (.adder 1) [.a 0]) (.adder 1) ∧ 1 = (wordOf 1 fun i => (pins (.adder 1) [.a 0]).inBit (.a i))
      ∧ 0 = (wordOf 1 fun i => (pins (.adder 1) [.a 0]).inBit (.b i)) := by decide

theorem witness_MultiplierAndDividerOperations :
    (fits (pins (.multiplier 1) [.a 0]) (.multiplier 1) ∧ 1 = (wordOf 1 fun i => (pins (.multiplier 1) [.a 0]).inBit (.a i))
        ∧ 0 = (wordOf 1 fun i => (pins (.multiplier 1) [.a 0]).inBit (.b i)))
      ∧ (fits (fresh (.divider 1)) (.divider 1) ∧ (fresh (.divider 1)).q = .dz false
        ∧ 0 = (wordOf 1 fun i => (fresh (.divider 1)).inBit (.a i)) ∧ 0 = (wordOf 1 fun i => (fresh (.divider 1)).inBit (.b i)))
      ∧ (fits (pins (.divider 1) [.b 0]) (.divider 1) ∧ (pins (.divider 1) [.b 0]).q = .dz false
        ∧ 0 = (wordOf 1 fun i => (pins (.divider 1) [.b 0]).inBit (.a i))
        ∧ 1 = (wordOf 1 fun i => (pins (.divider 1) [.b 0]).inBit (.b i)) ∧ 1 ≠ 0) := by decide

theorem witness_BcdAdderOperation : fits (pins (.bcdAdder 1) [.a 0, .a 3]) (.bcdAdder 1) := by decide

theorem witness_AluArithmetic :
    fits (pins (.alu 1) [.a 0]) (.alu 1) ∧ (pins (.alu 1) [.a 0]).q = .alu 0 clearFlags
      ∧ 1 = (wordOf 1 fun i => (pins (.alu 1) [.a 0]).inBit (.a i)) ∧ 0 = (wordOf 1 fun i => (pins (.alu 1) [.a 0]).inBit (.b i)) := by
  decide

theorem witness_AluLogicAndShifts :
    fits (pins (.alu 1) [.b 0]) (.alu 1) ∧ 0 = (wordOf 1 fun i => (pins (.alu 1) [.b 0]).inBit (.a i))
      ∧ 1 = (wordOf 1 fun i => (pins (.alu 1) [.b 0]).inBit (.b i)) := by decide

theorem witness_MemoryOperations :
    (fits (fresh (.memory 1 1)) (.memory 1 1) ∧ (fresh (.memory 1 1)).m = .cells [] ∧ (fresh (.memory 1 1)).q = .cells []
        ∧ (fresh (.memory 1 1)).inBit .re = false)
      ∧ (fits (staged (.memory 1 1) (.cells [(1, 1)]) [.re]) (.memory 1 1)
        ∧ (staged (.memory 1 1) (.cells [(1, 1)]) [.re]).m = .cells [(1, 1)]
        ∧ (staged (.memory 1 1) (.cells [(1, 1)]) [.re]).q = .cells [(1, 1)]
        ∧ (staged (.memory 1 1) (.cells [(1, 1)]) [.re]).inBit .re = true) := by decide

theorem witness_AccumulatorOperations :
    (fits (fresh (.accumulator 1)) (.accumulator 1) ∧ (fresh (.accumulator 1)).m = .acc 0 clearFlags)
      ∧ (fits (staged (.accumulator 1) (.acc 1 ⟨false, true, false, false⟩) []) (.accumulator 1)
        ∧ (staged (.accumulator 1) (.acc 1 ⟨false, true, false, false⟩) []).m = .acc 1 ⟨false, true, false, false⟩) := by decide

theorem witness_StoredOutputs :
    ((fresh (.ringCounter 1)).q = .word 1 ∧ (fresh (.ringCounter 1)).params ∈ [Params.register 1, .univShiftRegister 1,
        .ringCounter 1, .johnsonCounter 1])
      ∧ ((fresh (.shiftRegister 1)).q = .word 0 ∧ (fresh (.shiftRegister 1)).params = .shiftRegister 1)
      ∧ ((fresh .dff).params ∈ [Params.dff, .jkff, .tff] ∧ (fresh .dff).q = .bit false)
      ∧ ((fresh .tff).params ∈ [Params.dff, .jkff, .tff] ∧ (fresh .tff).q = .bit false)
      ∧ (fits (fresh (.counter 1 2 .ripple)) (.counter 1 2 .ripple) ∧ (fresh (.counter 1 2 .ripple)).q = .count 0 false)
      ∧ (fits (fresh (.bcdCounter 1)) (.bcdCounter 1) ∧ (fresh (.bcdCounter 1)).q = .digits [0] false)
      ∧ ((fresh (.clockDivider 1)).params = .clockDivider 1 ∧ (fresh (.clockDivider 1)).q = .divide 0 false)
      ∧ ((fresh (.adder 1)).params = .adder 1 ∧ (fresh (.adder 1)).q = .sum 0 false false)
      ∧ ((fresh (.alu 1)).params = .alu 1 ∧ (fresh (.alu 1)).q = .alu 0 clearFlags)
      ∧ ((fresh (.accumulator 1)).params = .accumulator 1 ∧ (fresh (.accumulator 1)).q = .acc 0 clearFlags) := by decide

theorem witness_CounterPeriodIsM :
    (fits (fresh (.counter 2 1 .ripple)) (.counter 2 1 .ripple) ∧ (fresh (.counter 2 1 .ripple)).m = .count 0 false)
      ∧ (fits (staged (.counter 4 10 .ripple) (.count 9 false) []) (.counter 4 10 .ripple)
        ∧ (staged (.counter 4 10 .ripple) (.count 9 false) []).m = .count 9 false) := by decide

theorem witness_JohnsonPeriodIsTwiceW :
    fits (fresh (.johnsonCounter 2)) (.johnsonCounter 2) ∧ (fresh (.johnsonCounter 2)).m = .word 0 ∧ 0 < 3 ∧ 3 < 2 * 2 := by decide

theorem witness_OverflowIsSignedOverflow : 1 ≤ 1 ∧ 1 < 2 ^ 1 ∧ 7 < 2 ^ 4 ∧ 15 < 2 ^ 4 := by decide

theorem witness_MemoryReadAfterWrite :
    fits (staged (.memory 1 1) (.cells [(1, 1)]) [.we]) (.memory 1 1)
      ∧ (staged (.memory 1 1) (.cells [(1, 1)]) [.we]).m = .cells [(1, 1)]
      ∧ (staged (.memory 1 1) (.cells [(1, 1)]) [.we]).q = .cells [(1, 1)] ∧ 1 ≠ (wordOf 1 fun i =>
        (staged (.memory 1 1) (.cells [(1, 1)]) [.we]).inBit (.addr i)) := by decide

theorem witness_RegisterLoadClockRead :
    fits (fresh (.register 1)) (.register 1) ∧ (fresh (.register 1)).inBit .set = false
      ∧ (fresh (.register 1)).inBit .reset = false := by decide

theorem witness_CreateComponent :
    (State.reset.phase = .building ∧ Params.ok (.andGate 2) = true ∧ Cfg.ok {} = true) ∧ chainRunning.phase = .running
      ∧ Params.ok (.andGate 1) = false ∧ Params.ok .reserved = false ∧ Cfg.ok { threshold := volts 5 } = false := by decide

theorem witness_StateAfterConstruction :
    CompConfig.ok { params := .notGate } = true ∧ CompConfig.ok { params := .nandGate 2 } = true
      ∧ CompConfig.ok { params := .norGate 8 } = true
      ∧ CompConfig.ok { params := .srLatch } = true ∧ CompConfig.ok { params := .alu 1 } = true
      ∧ CompConfig.ok { params := .accumulator 1 } = true ∧ CompConfig.ok { params := .decoder 1 } = true
      ∧ CompConfig.ok { params := .divider 1 } = true ∧ (Pin.inp 0) ∈ bufferedPins .notGate
      ∧ ([Params.dLatch, .dff, .tff, .register 1, .johnsonCounter 1, .ringCounter 1, .counter 1, .counter 1 1, .bcdCounter,
          .clockDivider 1, .adder 1, .memory 1 1].all fun p => CompConfig.ok { params := p }) = true := by decide

theorem witness_ConnectChecks :
    chainRunning.phase = .running ∧ chain.comp? 2 = none
      ∧ (chain.phase = .building ∧ chain.comp? 0 = some (fresh .notGate) ∧ chain.comp? 1 = some (fresh .notGate))
      ∧ npins (fresh .notGate).params ≤ 4
      ∧ (3 < npins (fresh .notGate).params ∧ isOutputId (fresh .notGate).params 0 = false
        ∧ isInputId (fresh .notGate).params 1 = false ∧ (∃ w ∈ chain.wires, w.toH = 1 ∧ w.toP = 0))
      ∧ (isOutputId (fresh .notGate).params 1 = true ∧ isInputId (fresh .notGate).params 0 = true
        ∧ ∀ w ∈ chain.wires, ¬(w.toH = 0 ∧ w.toP = 0)) := by decide

theorem witness_DriveQueuesAndObserveReads :
    chain.comp? 2 = none ∧ chain.comp? 1 = some (fresh .notGate) ∧ npins (fresh .notGate).params ≤ 4
      ∧ 0 < npins (fresh .notGate).params ∧ (∃ w ∈ chain.wires, w.toH = 1 ∧ w.toP = 0)
      ∧ 3 < npins (fresh .notGate).params ∧ (∀ w ∈ chain.wires, ¬(w.toH = 1 ∧ w.toP = 3)) := by decide

/-- `chainRunning` with two drives of the same pin and one of a power pin pending. -/
def driven : State := { chainRunning with pending := [⟨0, 0, volts 5⟩, ⟨0, 0, volts 1⟩, ⟨1, 2, volts 4⟩] }

theorem witness_GraphTickSteps :
    chainRunning.phase = .running ∧ (chain.phase = .building ∧ topoOrder chain.comps chain.wires = some [0, 1])
      ∧ (loop.phase = .building ∧ topoOrder loop.comps loop.wires = none)
      ∧ (∃ t, exec (.readPin 0 1) chain = .next t ∧ t.result = .voltage (volts 5))
      ∧ (driven.wf = true ∧ driven.pending = [⟨0, 0, volts 5⟩] ++ ⟨0, 0, volts 1⟩ :: [⟨1, 2, volts 4⟩]
        ∧ (∀ e ∈ [(⟨1, 2, volts 4⟩ : DriveReq)], ¬(e.h = 0 ∧ e.p = 0)) ∧ (∀ w ∈ driven.wires, ¬(w.toH = 0 ∧ w.toP = 0))
        ∧ ∃ t c, exec .gTick driven = .next t ∧ t.result = .ok ∧ t.comp? 0 = some c ∧ 0 < (inputPins c.params).length) :=
  ⟨rfl, ⟨rfl, by decide⟩, ⟨rfl, by decide⟩, ⟨_, rfl, rfl⟩,
    by decide, rfl, by decide, by decide, ⟨_, _, rfl, rfl, rfl, by decide⟩⟩

theorem witness_TickNIsSuccessiveTicks :
    (∃ t, chain.graphTick = some t) ∧ loop.graphTick = none ∧ (∃ t, iterate .gTick 3 chain = some t ∧ t.result = .ok) :=
  ⟨⟨_, rfl⟩, rfl, ⟨_, rfl, rfl⟩⟩

theorem witness_OrderExistsIffAcyclic :
    (chain.wires.all (wireOk chain.comps) = true ∧ topoOrder chain.comps chain.wires = some [0, 1])
      ∧ (loop.wires.all (wireOk loop.comps) = true ∧ topoOrder loop.comps loop.wires = none) := by decide

theorem witness_OrderTakesTheLowestHandle :
    (topoOrder chain.comps chain.wires = some [0, 1] ∧ [0, 1][0]? = some 0 ∧ [0, 1][1]? = some 1)
      ∧ ([fresh .dff][0]? = some (fresh .dff) ∧ (inputPins (fresh .dff).params)[0]? = some (.d 0)
        ∧ (inputPins (fresh .dff).params)[1]? = some .clk ∧ (inputPins (fresh .dff).params)[2]? = some .set)
      ∧ ([fresh (.memory 1 1)][0]? = some (fresh (.memory 1 1)) ∧ (inputPins (fresh (.memory 1 1)).params)[0]? = some (.addr 0)
        ∧ (inputPins (fresh (.memory 1 1)).params)[1]? = some (.wdata 0)) := by decide

theorem witness_SweepSettlesEveryWire :
    chain.wf = true ∧ chain.comps.all Comp.settled = true
      ∧ ∃ t, chain.graphTick = some t ∧ ⟨0, 1, 1, 0⟩ ∈ t.wires ∧ (∃ a, t.comps[0]? = some a) ∧ ∃ b, t.comps[1]? = some b :=
  ⟨by decide, by decide, ⟨_, rfl, by decide, ⟨_, rfl⟩, ⟨_, rfl⟩⟩⟩

/-- `chain` with one call of each form on its script. -/
def scripted : State :=
  { chain with script := [.graph 0b100#3 {}, .contract 0b00#2 0 0 (volts 5), .operate 1 0 (volts 5) false,
      .operate 9 0 0 false] }

theorem witness_StepsKeepTheInvariant : scripted.wf = true ∧ ∃ t, step scripted = .next t := ⟨by decide, ⟨_, rfl⟩⟩

theorem witness_StepsKeepComponentsSettled :
    scripted.wf = true ∧ scripted.comps.all Comp.settled = true ∧ ∃ t, step scripted = .next t :=
  ⟨by decide, by decide, ⟨_, rfl⟩⟩

theorem witness_WellFormedScriptsNeverStop : scripted.wf = true ∧ scriptOk scripted = true := by decide

theorem witness_OperationsTouchOneComponent :
    (handleOf? (.srlSet 0) = some 0 ∧ (∃ t, exec (.srlSet 0) (one .srLatch) = .next t) ∧ (rowTarget (.srlSet 0)).isSome = true
        ∧ (one .srLatch).comps[0]? = some (fresh .srLatch) ∧ ∃ d, (stateOf (exec (.srlSet 0) (one .srLatch))).comps[0]? = some d)
      ∧ (handleOf? (.writePin 0 0 0) = some 0 ∧ (∃ t, exec (.writePin 0 0 0) (one .srLatch) = .next t) ∧ 1 ≠ 0)
      ∧ (∃ s t : State, s.script = [.operate 0 1 (volts 5) false] ∧ step s = .next t) :=
  ⟨⟨rfl, ⟨_, rfl⟩, rfl, rfl, ⟨_, rfl⟩⟩, ⟨rfl, ⟨_, rfl⟩, by decide⟩,
    ⟨{ one .dff with script := [.operate 0 1 (volts 5) false] }, _, rfl, rfl⟩⟩

theorem witness_FailuresStoreAtMostTheWrittenVoltage :
    (∃ t, exec (.readPin 0 9) (one .notGate) = .next t ∧ t.result = .failed .unknownPin)
      ∧ (∃ t, exec .gTick loop = .next t ∧ t.result = .failed .configurationError)
      ∧ (∃ t, exec (.writePin 0 0 0) (just (pins (.adder 1) [.mode 0, .mode 1])) = .next t
        ∧ t.result = .failed .invalidOperation)
      ∧ (∃ t, exec (.writePin 0 4 (volts 5)) (just (pins (.accumulator 1) [.op 2, .op 0])) = .next t
        ∧ t.result = .failed .invalidOperation)
      ∧ (∃ t, exec (.adderInvalid 0) (one (.adder 1)) = .next t ∧ t.result = .failed .invalidOperation)
      ∧ (handleOf? (.tick 3) = some 3 ∧ (one .notGate).comp? 3 = none) :=
  ⟨⟨_, rfl, rfl⟩, ⟨_, rfl, rfl⟩, ⟨_, rfl, rfl⟩, ⟨_, rfl, rfl⟩, ⟨_, rfl, rfl⟩, ⟨rfl, rfl⟩⟩

end Sys2Proof.Tests
end

section
/-! What one step of the machine does with the head of the script: the decoder's codes, a Memory's
two ports, and a write run as the component operation of its last line (R42, R83, R90, R104 to R107). -/

namespace Sys2Proof.Machine

set_option Elab.async false

/-! ### The codes of the decoder (R90) -/

/-- The three contract codes. -/
theorem decodeContract_eq_ok {code : BitVec 2} {h p : Nat} {v : Voltage} {i : Instr}
    (hd : decodeContract code h p v = .ok i) :
    (code = 0b00#2 ∧ i = .writePin h p v) ∨ (code = 0b01#2 ∧ i = .readPin h p) ∨ (code = 0b10#2 ∧ i = .tick h) := by
  unfold decodeContract at hd
  split at hd <;> cases hd
  case h_1 hc => exact .inl ⟨BitVec.eq_of_toNat_eq hc, rfl⟩
  case h_2 hc => exact .inr (.inl ⟨BitVec.eq_of_toNat_eq hc, rfl⟩)
  case h_3 hc => exact .inr (.inr ⟨BitVec.eq_of_toNat_eq hc, rfl⟩)

/-- The six graph codes. -/
theorem decodeGraph_eq_ok {code : BitVec 3} {o : GraphOperands} {i : Instr} (hd : decodeGraph code o = .ok i) :
    (code = 0b000#3 ∧ i = .gCreate o.config) ∨ (code = 0b001#3 ∧ i = .gConnect o.h o.p o.h2 o.p2)
      ∨ (code = 0b010#3 ∧ i = .gDrive o.h o.p o.v) ∨ (code = 0b011#3 ∧ i = .gObserve o.h o.p)
      ∨ (code = 0b100#3 ∧ i = .gTick) ∨ (code = 0b101#3 ∧ i = .gTickN o.n) := by
  unfold decodeGraph at hd
  split at hd <;> cases hd
  case h_1 hc => exact .inl ⟨BitVec.eq_of_toNat_eq hc, rfl⟩
  case h_2 hc => exact .inr (.inl ⟨BitVec.eq_of_toNat_eq hc, rfl⟩)
  case h_3 hc => exact .inr (.inr (.inl ⟨BitVec.eq_of_toNat_eq hc, rfl⟩))
  case h_4 hc => exact .inr (.inr (.inr (.inl ⟨BitVec.eq_of_toNat_eq hc, rfl⟩)))
  case h_5 hc => exact .inr (.inr (.inr (.inr (.inl ⟨BitVec.eq_of_toNat_eq hc, rfl⟩))))
  case h_6 hc => exact .inr (.inr (.inr (.inr (.inr ⟨BitVec.eq_of_toNat_eq hc, rfl⟩))))

/-- A contract code of the spec decodes, to no component operation. -/
theorem exists_decodeContract_of_lt {code : BitVec 2} (hlt : code.toNat < 3) (h p : Nat) (v : Voltage) :
    ∃ i, decodeContract code h p v = .ok i ∧ rowTarget i = none := by
  have hc : code.toNat = 0 ∨ code.toNat = 1 ∨ code.toNat = 2 := by omega
  unfold decodeContract
  rcases hc with hc | hc | hc <;> rw [hc] <;> exact ⟨_, rfl, rfl⟩

/-- A graph code of the spec decodes, to no component operation. -/
theorem exists_decodeGraph_of_lt {code : BitVec 3} (hlt : code.toNat < 6) (o : GraphOperands) :
    ∃ i, decodeGraph code o = .ok i ∧ rowTarget i = none := by
  have hc : code.toNat = 0 ∨ code.toNat = 1 ∨ code.toNat = 2 ∨ code.toNat = 3 ∨ code.toNat = 4 ∨ code.toNat = 5 := by
    omega
  unfold decodeGraph
  rcases hc with hc | hc | hc | hc | hc | hc <;> rw [hc] <;> exact ⟨_, rfl, rfl⟩

/-- The operation a word selects does not depend on the handle it is decoded for (R83). -/
theorem map_perform_decodeRow (h h' : Nat) (code : List Bool) :
    (decodeRow h code).map perform = (decodeRow h' code).map perform := by
  unfold decodeRow
  split
  case h_32 | h_33 => rfl
  all_goals
    simp only [decodePlain, decodeSrLatch, decodeDLatch, decodeDff, decodeJkff, decodeTff, decodeRegister,
      decodeShiftRegister, decodeUnivShiftRegister, decodeCounter, decodeBcdCounter, decodeRingCounter,
      decodeJohnsonCounter, decodeClockDivider, decodeMux, decodeDemux, decodeDecoder, decodeAdder, decodeDivider,
      decodeAlu, decodeMemory, decodeAccumulator]
    split <;> rfl

/-- The row decoded for component `h` performs what the component's operation word selects (R83). -/
theorem perform_of_decodeRow {h : Nat} {c : Comp} {port e : Bool} {i : Instr}
    (hd : decodeRow h (opWord c port e) = .ok i) : perform i c = performSelected c port e := by
  have hm := map_perform_decodeRow h 0 (opWord c port e)
  rw [hd] at hm
  unfold performSelected
  split
  case h_1 j hj =>
    rw [hj] at hm
    exact congrFun (Except.ok.inj hm) c
  case h_2 j hj =>
    rw [hj] at hm
    cases hm

/-! ### The two ports of a Memory (R85) -/

/-- Only a Memory's operation word names a port. -/
theorem opWord_port_irrel {c : Comp} (hk : Params.kind c.params ≠ .memory) (port e : Bool) :
    opWord c port e = opWord c false e := by
  unfold opWord
  cases hp : Params.kind c.params
  case memory => exact absurd hp hk
  all_goals rfl

/-- A Memory's read port changes nothing and does not fail. -/
theorem performSelected_readPort {c : Comp} (hk : Params.kind c.params = .memory) (e : Bool) :
    performSelected c true e = (c, .ok) := by
  simp only [performSelected, opWord, hk, controlFields, List.map_cons, List.map_nil, controlBit, if_true]
  cases c.inBit .re <;> rfl

/-- A Memory's write port does not fail. -/
theorem performSelected_writePort_ok {c : Comp} (hk : Params.kind c.params = .memory) (e : Bool) :
    (performSelected c false e).2 = .ok := by
  simp only [performSelected, opWord, hk, controlFields, List.map_cons, List.map_nil, controlBit, Bool.false_eq_true,
    if_false]
  cases e <;> cases c.inBit .we <;> rfl

theorem performSelected_params (c : Comp) (port e : Bool) : (performSelected c port e).1.params = c.params := by
  obtain ⟨m, q, h⟩ := performSelected_frame c port e
  rw [h]

/-- An evaluation is one operation, for a Memory its write port's: the read port that follows adds nothing (R85). -/
theorem evaluate_eq_performSelected (c : Comp) (e : Bool) : evaluate c e = performSelected c false e := by
  unfold evaluate
  split
  · next hk =>
    rw [performSelected_readPort (by rw [performSelected_params, hk]), ← performSelected_writePort_ok hk e]
  · rfl

/-! ### The last line of a write (R104 to R107) -/

theorem Comp.atLastLine_of_ne_memory {c : Comp} (hk : Params.kind c.params ≠ .memory) (P : Pin) (v : Voltage)
    (port : Bool) : c.atLastLine P v port = (c.store P v).1 := by
  unfold Comp.atLastLine
  split
  · contradiction
  · rfl

@[simp] theorem Comp.atLastLine_false (c : Comp) (P : Pin) (v : Voltage) :
    c.atLastLine P v false = (c.store P v).1 := by
  unfold Comp.atLastLine
  split
  · contradiction
  · rfl

/-- Where the read port answers, the write port has acted. -/
theorem Comp.atLastLine_readPort {c : Comp} (hk : Params.kind c.params = .memory) (P : Pin) (v : Voltage) :
    c.atLastLine P v true = (performSelected (c.store P v).1 false (c.store P v).2).1 := by
  simp only [Comp.atLastLine, hk]

/-- Without a read port to wait for, the last line runs on the stored voltage. -/
theorem Comp.atLastLine_eq_store {c : Comp} {port : Bool} (hport : Params.kind c.params = .memory → port = false)
    (P : Pin) (v : Voltage) : c.atLastLine P v port = (c.store P v).1 := by
  by_cases hk : Params.kind c.params = .memory
  · rw [hport hk, Comp.atLastLine_false]
  · exact Comp.atLastLine_of_ne_memory hk P v port

@[simp] theorem Comp.atLastLine_params (c : Comp) (P : Pin) (v : Voltage) (port : Bool) :
    (c.atLastLine P v port).params = c.params := by
  unfold Comp.atLastLine
  split
  · rw [performSelected_params, Comp.store_params]
  · exact Comp.store_params c P v

/-- The operation run at the last line of a write is the whole evaluation of that write, whichever port answers. -/
theorem performSelected_atLastLine (c : Comp) (P : Pin) (v : Voltage) (port : Bool) :
    performSelected (c.atLastLine P v port) port (c.store P v).2 = evaluate (c.store P v).1 (c.store P v).2 := by
  rw [evaluate_eq_performSelected]
  by_cases hk : Params.kind c.params = .memory
  · have hk' : Params.kind (c.store P v).1.params = .memory := by rw [Comp.store_params, hk]
    cases port
    case false => rw [Comp.atLastLine_false]
    case true =>
      rw [Comp.atLastLine_readPort hk, performSelected_readPort (by rw [performSelected_params, hk']),
        ← performSelected_writePort_ok hk']
  · have hk' : Params.kind (c.store P v).1.params ≠ .memory := by rwa [Comp.store_params]
    rw [Comp.atLastLine_of_ne_memory hk, performSelected, performSelected, opWord_port_irrel hk']

/-- A kind with an input pin is a kind of R84. -/
theorem kind_ne_reserved_of_inputAt {p : Params} {id : Nat} {P : Pin} (h : inputAt p id = some P) :
    Params.kind p ≠ .reserved := by
  intro hk
  cases p <;> cases hk
  cases h

/-- A component operation answers a failure exactly where it fails. -/
theorem rowResult_eq_failed_iff (r : Comp × Status) (e : Err) :
    rowResult r = .failed e ↔ r.2.toResult = .failed e := by
  obtain ⟨d, _ | _⟩ := r
  case ok => exact ⟨fun h => Result.noConfusion h, fun h => Result.noConfusion h⟩
  case failed => exact Iff.rfl

/-! ### Replacing a component -/

theorem State.setComp_setComp (s : State) (h : Nat) (c d : Comp) : (s.setComp h c).setComp h d = s.setComp h d := by
  simp only [State.setComp, List.set_set]

theorem State.getElem?_setComp_self {s : State} {h : Nat} {c : Comp} (hc : s.comps[h]? = some c) (d : Comp) :
    (s.setComp h d).comps[h]? = some d :=
  List.getElem?_set_self (List.getElem?_eq_some_iff.mp hc).1

/-! ### Stepping -/

/-- The step runs the operation that the fetched line decodes to (R9, R42). -/
theorem step_of_decode {s : State} {r : Request} {rest : List Request} {i : Instr} (hs : s.script = r :: rest)
    (hd : decode (s.fetch r).2 = .ok i) : step s = exec i ((s.fetch r).1.withScript rest) := by
  simp only [step_cons hs, hd]

/-- A step that ends in a next state has decoded its line. -/
theorem decode_of_step_next {s t : State} {r : Request} {rest : List Request} (hs : s.script = r :: rest)
    (ht : step s = .next t) :
    ∃ i, decode (s.fetch r).2 = .ok i ∧ exec i ((s.fetch r).1.withScript rest) = .next t := by
  cases hd : decode (s.fetch r).2 with
  | error e => simp only [step_cons hs, hd, reduceCtorEq] at ht
  | ok i => exact ⟨i, rfl, step_of_decode hs hd ▸ ht⟩

/-- A `WritePin` on a component that is there. -/
theorem exec_writePin_some {s : State} {h : Nat} {c : Comp} (hc : s.comps[h]? = some c) (p : Nat) (v : Voltage) :
    exec (.writePin h p v) s =
      .next ((s.setComp h (c.writePin p v).1).answer (c.writePin p v).2.toResult) :=
  State.onComp_some hc _

/-- A write that names no input pin is stepped as the plain `WritePin`. -/
theorem step_operate_other {s : State} {h p : Nat} {v : Voltage} {port : Bool} {rest : List Request}
    (hs : s.script = .operate h p v port :: rest)
    (hp : ∀ c, s.comps[h]? = some c → inputAt c.params p = none) :
    step s = exec (.writePin h p v) (s.withScript rest) := by
  have hf := State.fetch_operate_other hp v port
  rw [step_of_decode (i := .writePin h p v) hs (by rw [hf]; rfl), hf]

/-- A write to an input pin, stepped as the component operation of its last line, leaves what `WritePin` leaves and answers
what the component then presents, or the failure (R48, R104). -/
theorem step_operate_input {s : State} {h p : Nat} {v : Voltage} {port : Bool} {rest : List Request} {c : Comp} {P : Pin}
    (hs : s.script = .operate h p v port :: rest) (hc : s.comps[h]? = some c) (hp : inputAt c.params p = some P) :
    step s = .next (((s.withScript rest).setComp h (c.writePin p v).1).answer (rowResult (c.writePin p v))) := by
  have hf := State.fetch_operate hc hp v port
  have hk : Params.kind (c.atLastLine P v port).params ≠ .reserved := by
    rw [Comp.atLastLine_params]; exact kind_ne_reserved_of_inputAt hp
  obtain ⟨i, hd, hrow⟩ := decodeRow_opWord h (c.atLastLine P v port) port (c.store P v).2 hk
  have hperf : perform i (c.atLastLine P v port) = c.writePin p v := by
    rw [perform_of_decodeRow hd, performSelected_atLastLine, Comp.writePin_input hp]
  have hself : ((s.setComp h (c.atLastLine P v port)).withScript rest).comps[h]? = some (c.atLastLine P v port) :=
    State.getElem?_setComp_self hc _
  rw [step_of_decode (i := i) hs (by rw [hf]; exact hd), hf, exec_row hrow, runRow_of_kind hself rfl, hperf]
  exact congrArg (fun u : State => Host.Outcome.next ((u.withScript rest).answer (rowResult (c.writePin p v))))
    (State.setComp_setComp s h _ _)

end Sys2Proof.Machine
end

section
/-! What the operations that are no component operation can do: contract operations and graph calls always end in a next
state (R8), and only `WritePin`, `Tick` and the graph's tick change a component (R48). -/

namespace Sys2Proof.Machine

set_option Elab.async false

/-! ### Every contract operation and graph call ends in a next state -/

/-- An operation on one component ends in a next state where its meaning does. -/
theorem State.onComp_ends {f : Comp → Outcome} (hf : ∀ c, ∃ t, f c = .next t) (s : State) (h : Nat) :
    ∃ t, s.onComp h f = .next t := by
  cases hc : s.comps[h]? with
  | none => exact ⟨_, State.onComp_none hc f⟩
  | some c => exact (State.onComp_some hc f).symm ▸ hf c

/-- All that an operation on one component can do: fail for want of it, or act on it. -/
theorem State.onComp_next {f : Comp → Outcome} {s t : State} {h : Nat} (ht : s.onComp h f = .next t) :
    t = s.fail .configurationError ∨ ∃ c, s.comps[h]? = some c ∧ f c = .next t := by
  cases hc : s.comps[h]? with
  | none => exact .inl (Host.Outcome.next.inj ((State.onComp_none hc f).symm.trans ht)).symm
  | some c => exact .inr ⟨c, rfl, (State.onComp_some hc f).symm.trans ht⟩

/-- `CreateComponent` answers the first check that fails, or appends the component (R381). -/
theorem exec_gCreate_cases (config : CompConfig) (s : State) :
    (∃ e, s.createError config = some e ∧ exec (.gCreate config) s = .next (s.fail e)) ∨
      (s.createError config = none ∧
        exec (.gCreate config) s = .next ((s.addComp (newComp config)).answer (.handle s.comps.length))) := by
  change (∃ e, _ ∧ execGCreate config s = _) ∨ (_ ∧ execGCreate config s = _)
  unfold execGCreate
  cases hc : s.createError config with
  | some e => exact .inl ⟨e, rfl, rfl⟩
  | none => exact .inr ⟨rfl, rfl⟩

/-- `Connect` answers the first check that fails, or appends the wire (R382). -/
theorem exec_gConnect_cases (w : Wire) (s : State) :
    (∃ e, s.connectError w = some e ∧ exec (.gConnect w.fromH w.fromP w.toH w.toP) s = .next (s.fail e)) ∨
      (s.connectError w = none ∧
        exec (.gConnect w.fromH w.fromP w.toH w.toP) s = .next ((s.addWire w).answer .ok)) := by
  change (∃ e, _ ∧ execGConnect w.fromH w.fromP w.toH w.toP s = _) ∨ (_ ∧ execGConnect w.fromH w.fromP w.toH w.toP s = _)
  unfold execGConnect
  cases hc : s.connectError w with
  | some e => exact .inl ⟨e, rfl, rfl⟩
  | none => exact .inr ⟨rfl, rfl⟩

/-- `Drive` answers the first check that fails, or queues the write (R383). -/
theorem exec_gDrive_cases (h p : Nat) (v : Voltage) (s : State) :
    (∃ e, s.driveError h p = some e ∧ exec (.gDrive h p v) s = .next (s.fail e)) ∨
      (s.driveError h p = none ∧
        exec (.gDrive h p v) s = .next ((s.addDrive { h := h, p := p, v := v }).answer .ok)) := by
  change (∃ e, _ ∧ execGDrive h p v s = _) ∨ (_ ∧ execGDrive h p v s = _)
  unfold execGDrive
  cases hc : s.driveError h p with
  | some e => exact .inl ⟨e, rfl, rfl⟩
  | none => exact .inr ⟨rfl, rfl⟩

/-- The graph's `Tick` fails for want of an order, or runs (R385). -/
theorem exec_gTick_cases (s : State) :
    (s.graphTick = none ∧ exec .gTick s = .next (s.fail .configurationError)) ∨
      ∃ t, s.graphTick = some t ∧ exec .gTick s = .next (t.answer .ok) := by
  change (_ ∧ execGTick s = _) ∨ (∃ t, _ ∧ execGTick s = _)
  unfold execGTick
  cases hg : s.graphTick with
  | none => exact .inl ⟨rfl, rfl⟩
  | some t => exact .inr ⟨t, rfl, rfl⟩

/-- `TickN` fails for want of an order, or runs (R386). -/
theorem exec_gTickN_cases (n : Nat) (s : State) :
    (s.graphTickN n = none ∧ exec (.gTickN n) s = .next (s.fail .configurationError)) ∨
      ∃ t, s.graphTickN n = some t ∧ exec (.gTickN n) s = .next (t.answer .ok) := by
  change (_ ∧ execGTickN n s = _) ∨ (∃ t, _ ∧ execGTickN n s = _)
  unfold execGTickN
  cases hg : s.graphTickN n with
  | none => exact .inl ⟨rfl, rfl⟩
  | some t => exact .inr ⟨t, rfl, rfl⟩

/-- A failed contract operation or graph call is an answer in a next state (R8, R400). -/
theorem exec_ends_of_rowTarget_none {i : Instr} (hi : rowTarget i = none) (s : State) : ∃ t, exec i s = .next t := by
  cases i with
  | writePin h p v => exact State.onComp_ends (fun _ => ⟨_, rfl⟩) s h
  | readPin h p => exact State.onComp_ends (fun _ => ⟨_, rfl⟩) s h
  | tick h => exact State.onComp_ends (fun _ => ⟨_, rfl⟩) s h
  | gCreate config => obtain ⟨e, _, hx⟩ | ⟨_, hx⟩ := exec_gCreate_cases config s <;> exact ⟨_, hx⟩
  | gConnect fromH fromP toH toP =>
    obtain ⟨e, _, hx⟩ | ⟨_, hx⟩ := exec_gConnect_cases ⟨fromH, fromP, toH, toP⟩ s <;> exact ⟨_, hx⟩
  | gDrive h p v => obtain ⟨e, _, hx⟩ | ⟨_, hx⟩ := exec_gDrive_cases h p v s <;> exact ⟨_, hx⟩
  | gObserve h p => exact State.onComp_ends (fun _ => ⟨_, rfl⟩) s h
  | gTick => obtain ⟨_, hx⟩ | ⟨t, _, hx⟩ := exec_gTick_cases s <;> exact ⟨_, hx⟩
  | gTickN n => obtain ⟨_, hx⟩ | ⟨t, _, hx⟩ := exec_gTickN_cases n s <;> exact ⟨_, hx⟩
  | _ => cases hi

/-! ### Operations that leave every component as it is -/

/-- Building, driving and reading: no component changes, and at most some are appended (R381 to R384, R111). -/
def KeepsComps (i : Instr) : Prop :=
  ∀ s t : State, exec i s = .next t → ∃ new, t.comps = s.comps ++ new

theorem keepsComps_readPin (h p : Nat) : KeepsComps (.readPin h p) := by
  intro s t ht
  obtain rfl | ⟨c, _, hr⟩ := State.onComp_next (show execReadPin h p s = .next t from ht)
  · exact ⟨[], (List.append_nil _).symm⟩
  · cases hr
    exact ⟨[], (List.append_nil _).symm⟩

theorem keepsComps_gObserve (h p : Nat) : KeepsComps (.gObserve h p) :=
  keepsComps_readPin h p

theorem keepsComps_gCreate (config : CompConfig) : KeepsComps (.gCreate config) := by
  intro s t ht
  obtain ⟨e, _, hx⟩ | ⟨_, hx⟩ := exec_gCreate_cases config s <;> cases hx.symm.trans ht
  · exact ⟨[], (List.append_nil _).symm⟩
  · exact ⟨[newComp config], rfl⟩

theorem keepsComps_gConnect (fromH fromP toH toP : Nat) : KeepsComps (.gConnect fromH fromP toH toP) := by
  intro s t ht
  obtain ⟨e, _, hx⟩ | ⟨_, hx⟩ := exec_gConnect_cases ⟨fromH, fromP, toH, toP⟩ s <;> cases hx.symm.trans ht <;>
    exact ⟨[], (List.append_nil _).symm⟩

theorem keepsComps_gDrive (h p : Nat) (v : Voltage) : KeepsComps (.gDrive h p v) := by
  intro s t ht
  obtain ⟨e, _, hx⟩ | ⟨_, hx⟩ := exec_gDrive_cases h p v s <;> cases hx.symm.trans ht <;>
    exact ⟨[], (List.append_nil _).symm⟩

/-- Each component stands in the next state as it was. -/
theorem KeepsComps.getElem? {i : Instr} (hi : KeepsComps i) {s t : State} (ht : exec i s = .next t) {j : Nat} {c : Comp}
    (hc : s.comps[j]? = some c) : t.comps[j]? = some c := by
  obtain ⟨new, hnew⟩ := hi s t ht
  rw [hnew, List.getElem?_append_left (List.getElem?_eq_some_iff.mp hc).1, hc]

/-! ### Operations on one component -/

/-- What no operation changes of a component (R20). -/
def Comp.SameMake (c d : Comp) : Prop := d.params = c.params ∧ d.cfg = c.cfg ∧ d.edge = c.edge

/-- The voltages that stand at a component's input ends, clock and power pins (R22 to R24). -/
def Comp.SameInputs (c d : Comp) : Prop := d.ins = c.ins ∧ d.clkPrev = c.clkPrev ∧ d.vcc = c.vcc ∧ d.gnd = c.gnd

theorem Comp.writePin_sameMake (c : Comp) (p : Nat) (v : Voltage) : c.SameMake (c.writePin p v).1 :=
  ⟨c.writePin_params p v, c.writePin_cfg p v, c.writePin_edge p v⟩

theorem Comp.tick_sameMake (c : Comp) : c.SameMake c.tick := by
  obtain ⟨m, q, h⟩ := c.tick_frame
  rw [h]
  exact ⟨rfl, rfl, rfl⟩

theorem perform_sameMake (i : Instr) (c : Comp) : c.SameMake (perform i c).1 := by
  obtain ⟨m, q, h⟩ := perform_frame i c
  rw [h]
  exact ⟨rfl, rfl, rfl⟩

theorem perform_sameInputs (i : Instr) (c : Comp) : c.SameInputs (perform i c).1 := by
  obtain ⟨m, q, h⟩ := perform_frame i c
  rw [h]
  exact ⟨rfl, rfl, rfl, rfl⟩

/-- The operations that work on one component: the component operations and the three contract operations. -/
theorem handleOf?_eq_some {i : Instr} {h : Nat} (hh : handleOf? i = some h) :
    (∃ k, rowTarget i = some (h, k)) ∨ (∃ p v, i = .writePin h p v) ∨ (∃ p, i = .readPin h p) ∨ i = .tick h := by
  unfold handleOf? at hh
  split at hh
  case h_1 h' p v => cases hh; exact .inr (.inl ⟨p, v, rfl⟩)
  case h_2 h' p => cases hh; exact .inr (.inr (.inl ⟨p, rfl⟩))
  case h_3 h' => cases hh; exact .inr (.inr (.inr rfl))
  case h_4 =>
    obtain ⟨⟨h', k⟩, hk, rfl⟩ := Option.map_eq_some_iff.mp hh
    exact .inl ⟨k, hk⟩

/-- All that an operation with one component can do: answer, or replace that component and answer. -/
theorem exec_next_of_handle {i : Instr} {s t : State} {h : Nat} (hh : handleOf? i = some h) (ht : exec i s = .next t) :
    (∃ r, t = s.answer r) ∨
      ∃ c d r, s.comps[h]? = some c ∧ t = (s.setComp h d).answer r ∧ c.SameMake d ∧
        ((rowTarget i).isSome = true → c.SameInputs d) := by
  obtain ⟨k, hrow⟩ | ⟨p, v, rfl⟩ | ⟨p, rfl⟩ | rfl := handleOf?_eq_some hh
  · rw [exec_row hrow] at ht
    obtain ⟨_, rfl⟩ | ⟨c, hc, _, rfl⟩ := runRow_next ht
    · exact .inl ⟨_, rfl⟩
    · exact .inr ⟨c, _, _, hc, rfl, perform_sameMake i c, fun _ => perform_sameInputs i c⟩
  · obtain rfl | ⟨c, hc, hr⟩ := State.onComp_next (show execWritePin h p v s = .next t from ht)
    · exact .inl ⟨_, rfl⟩
    · cases hr
      exact .inr ⟨c, _, _, hc, rfl, c.writePin_sameMake p v, fun hrow => nomatch hrow⟩
  · obtain rfl | ⟨c, _, hr⟩ := State.onComp_next (show execReadPin h p s = .next t from ht)
    · exact .inl ⟨_, rfl⟩
    · cases hr
      exact .inl ⟨_, rfl⟩
  · obtain rfl | ⟨c, hc, hr⟩ := State.onComp_next (show execTick h s = .next t from ht)
    · exact .inl ⟨_, rfl⟩
    · cases hr
      exact .inr ⟨c, _, _, hc, rfl, c.tick_sameMake, fun hrow => nomatch hrow⟩

end Sys2Proof.Machine
end

section
/-! The statements of the scope rules (spec/00_scope.md): progress, noninterference, and what a step runs. -/

namespace Sys2Proof.Machine

set_option Elab.async false

/-! ### Progress -/

/-- A script entry with a code of the spec is stepped to a next state, from every state. -/
theorem step_ends {s : State} (hok : scriptOk s = true) : ∃ t, step s = .next t := by
  cases hs : s.script with
  | nil => exact ⟨s, step_nil hs⟩
  | cons r rest =>
    rw [scriptOk, hs, List.all_cons, Bool.and_eq_true] at hok
    obtain ⟨hr, -⟩ := hok
    cases r with
    | contract code h p v =>
      obtain ⟨i, hd, hi⟩ := exists_decodeContract_of_lt (of_decide_eq_true hr) h p v
      rw [step_of_decode hs hd]
      exact exec_ends_of_rowTarget_none hi _
    | graph code o =>
      obtain ⟨i, hd, hi⟩ := exists_decodeGraph_of_lt (of_decide_eq_true hr) o
      rw [step_of_decode hs hd]
      exact exec_ends_of_rowTarget_none hi _
    | operate h p v port =>
      by_cases hp : ∀ c, s.comps[h]? = some c → inputAt c.params p = none
      · rw [step_operate_other hs hp]
        exact exec_ends_of_rowTarget_none rfl _
      · push Not at hp
        obtain ⟨c, hc, hP⟩ := hp
        obtain ⟨P, hP⟩ := Option.ne_none_iff_exists'.mp hP
        exact ⟨_, step_operate_input hs hc hP⟩

/-- Settles O58: contract operations and graph calls always end in a next state, and a write run as its component operation
either is the plain `WritePin` or ends in the state of that write. -/
theorem wellFormedScriptsNeverStop : Obligations.WellFormedScriptsNeverStop :=
  fun _ _ hok => step_ends hok

/-! ### Noninterference -/

/-- An operation with one component leaves the graph, the script and every other component. -/
theorem exec_handle_frame {i : Instr} {s t : State} {h : Nat} (hh : handleOf? i = some h) (ht : exec i s = .next t) :
    t.wires = s.wires ∧ t.pending = s.pending ∧ t.order = s.order ∧ t.phase = s.phase ∧ t.script = s.script
      ∧ t.comps.length = s.comps.length ∧ (∀ j, j ≠ h → t.comps[j]? = s.comps[j]?) := by
  obtain ⟨r, rfl⟩ | ⟨c, d, r, _, rfl, _, _⟩ := exec_next_of_handle hh ht
  · exact ⟨rfl, rfl, rfl, rfl, rfl, rfl, fun _ _ => rfl⟩
  · exact ⟨rfl, rfl, rfl, rfl, rfl, List.length_set, fun j hj => List.getElem?_set_ne hj.symm⟩

/-- What an operation with one component keeps of that component. -/
theorem exec_handle_keeps {i : Instr} {s t : State} {h : Nat} {c d : Comp} (hh : handleOf? i = some h)
    (ht : exec i s = .next t) (hc : s.comps[h]? = some c) (hd : t.comps[h]? = some d) :
    c.SameMake d ∧ ((rowTarget i).isSome = true → c.SameInputs d) := by
  obtain ⟨r, rfl⟩ | ⟨c', d', r, hc', rfl, hmake, hins⟩ := exec_next_of_handle hh ht
  · obtain rfl : c = d := Option.some.inj (hc.symm.trans hd)
    exact ⟨⟨rfl, rfl, rfl⟩, fun _ => ⟨rfl, rfl, rfl, rfl⟩⟩
  · obtain rfl : c' = c := Option.some.inj (hc'.symm.trans hc)
    obtain rfl : d' = d := Option.some.inj ((State.getElem?_setComp_self hc' d').symm.trans hd)
    exact ⟨hmake, hins⟩

/-- A step that runs a write as its component operation leaves the state of that `WritePin` but for the answer, and fails
exactly where it fails (R48). -/
theorem step_operate_eq_writePin {s t : State} {h p : Nat} {v : Voltage} {port : Bool} {rest : List Request}
    (hs : s.script = .operate h p v port :: rest) (ht : step s = .next t) :
    ∃ u, exec (.writePin h p v) (s.withScript rest) = .next u ∧ t = u.answer t.result
      ∧ ∀ e, t.result = .failed e ↔ u.result = .failed e := by
  by_cases hp : ∀ c, s.comps[h]? = some c → inputAt c.params p = none
  · rw [step_operate_other hs hp] at ht
    exact ⟨t, ht, rfl, fun _ => Iff.rfl⟩
  · push Not at hp
    obtain ⟨c, hc, hP⟩ := hp
    obtain ⟨P, hP⟩ := Option.ne_none_iff_exists'.mp hP
    rw [step_operate_input hs hc hP] at ht
    cases ht
    exact ⟨_, exec_writePin_some (s := s.withScript rest) hc p v, rfl, rowResult_eq_failed_iff (c.writePin p v)⟩

/-- Only `WritePin`, `Tick`, a write run as its component operation and the graph's ticks change a component (R48). -/
theorem step_keeps_comps_or {s t : State} {r : Request} {rest : List Request} (hs : s.script = r :: rest)
    (ht : step s = .next t) :
    (∃ h p v, r = .contract 0b00#2 h p v) ∨ (∃ h p v, r = .contract 0b10#2 h p v) ∨ (∃ h p v port, r = .operate h p v port)
      ∨ (∃ o, r = .graph 0b100#3 o ∨ r = .graph 0b101#3 o)
      ∨ ∀ (j : Nat) (c : Comp), s.comps[j]? = some c → t.comps[j]? = some c := by
  obtain ⟨i, hd, hx⟩ := decode_of_step_next hs ht
  cases r with
  | operate h p v port => exact .inr (.inr (.inl ⟨h, p, v, port, rfl⟩))
  | contract code h p v =>
    obtain ⟨rfl, rfl⟩ | ⟨rfl, rfl⟩ | ⟨rfl, rfl⟩ := decodeContract_eq_ok hd
    · exact .inl ⟨h, p, v, rfl⟩
    · exact .inr (.inr (.inr (.inr fun _ _ => (keepsComps_readPin h p).getElem? hx)))
    · exact .inr (.inl ⟨h, p, v, rfl⟩)
  | graph code o =>
    obtain ⟨rfl, rfl⟩ | ⟨rfl, rfl⟩ | ⟨rfl, rfl⟩ | ⟨rfl, rfl⟩ | ⟨rfl, rfl⟩ | ⟨rfl, rfl⟩ := decodeGraph_eq_ok hd
    · exact .inr (.inr (.inr (.inr fun _ _ => (keepsComps_gCreate _).getElem? hx)))
    · exact .inr (.inr (.inr (.inr fun _ _ => (keepsComps_gConnect _ _ _ _).getElem? hx)))
    · exact .inr (.inr (.inr (.inr fun _ _ => (keepsComps_gDrive _ _ _).getElem? hx)))
    · exact .inr (.inr (.inr (.inr fun _ _ => (keepsComps_gObserve _ _).getElem? hx)))
    · exact .inr (.inr (.inr (.inl ⟨o, .inl rfl⟩)))
    · exact .inr (.inr (.inr (.inl ⟨o, .inr rfl⟩)))

/-- Settles O59: an operation with one component answers or replaces that component, whose make it keeps; a component
operation writes the stages alone. -/
theorem operationsTouchOneComponent : Obligations.OperationsTouchOneComponent := by
  refine ⟨fun i s t h hh ht => ?_, fun _ _ _ _ _ _ _ => step_operate_eq_writePin, fun _ _ _ _ => step_keeps_comps_or⟩
  obtain ⟨hwires, hpending, horder, hphase, hscript, hlength, hothers⟩ := exec_handle_frame hh ht
  refine ⟨hwires, hpending, horder, hphase, hscript, hlength, hothers, fun c d hc hd => ?_⟩
  obtain ⟨⟨hparams, hcfg, hedge⟩, hins⟩ := exec_handle_keeps hh ht hc hd
  exact ⟨hparams, hcfg, hedge, hins⟩

/-! ### What a step runs -/

/-- A write that is the last line itself is fetched with the voltage stored, as the word the pins then spell (R83). -/
theorem State.fetch_operate_store {s : State} {h p : Nat} {c : Comp} {P : Pin} {port : Bool} (hc : s.comps[h]? = some c)
    (hp : inputAt c.params p = some P) (v : Voltage) (hport : Params.kind c.params = .memory → port = false) :
    s.fetch (.operate h p v port) =
      (s.setComp h (c.store P v).1, .row h (Comp.tableWord (c.store P v).1 port (c.store P v).2)) := by
  rw [State.fetch_operate hc hp, Comp.atLastLine_eq_store hport, Comp.tableWord_eq]

/-- The word of a Memory's read port (R85). -/
theorem Comp.tableWord_readPort {c : Comp} (hk : Params.kind c.params = .memory) (e : Bool) :
    c.tableWord true e = [true, true, true, false, true, true, c.inBit .re] := by
  simp only [Comp.tableWord, hk, if_true]

/-- A Memory's read port is fetched in the state its write port's operation leaves (R85, R104). -/
theorem State.fetch_operate_readPort {s : State} {h p : Nat} {c : Comp} {P : Pin} (hc : s.comps[h]? = some c)
    (hk : Params.kind c.params = .memory) (hp : inputAt c.params p = some P) (v : Voltage) :
    ∃ i u d, decode (s.fetch (.operate h p v false)).2 = .ok i
      ∧ exec i (s.fetch (.operate h p v false)).1 = .next u ∧ u.comp? h = some d
      ∧ s.fetch (.operate h p v true) = (u.answer s.result, .row h [true, true, true, false, true, true, d.inBit .re]) := by
  have hk' : Params.kind (c.store P v).1.params = .memory := by rw [Comp.store_params, hk]
  obtain ⟨i, hd, hrow⟩ := decodeRow_opWord h (c.store P v).1 false (c.store P v).2 (by rw [hk']; decide)
  have hself := State.getElem?_setComp_self hc (c.store P v).1
  have hrun := (exec_row hrow _).trans (runRow_of_kind hself rfl (perform i))
  rw [perform_of_decodeRow hd] at hrun
  have hkd : Params.kind (performSelected (c.store P v).1 false (c.store P v).2).1.params = .memory := by
    rw [performSelected_params, hk']
  rw [State.fetch_operate hc hp, State.fetch_operate hc hp, Comp.atLastLine_false, Comp.atLastLine_readPort hk,
    ← Comp.tableWord_eq _ true, Comp.tableWord_readPort hkd]
  refine ⟨i, _, _, hd, hrun, State.getElem?_setComp_self hself _, ?_⟩
  rw [State.setComp_setComp]
  rfl

/-- Settles O5: the fetch of each form of script entry, and the step as the decoded operation in the state it leaves. -/
theorem stepRunsTheDecodedOperation : Obligations.StepRunsTheDecodedOperation := by
  refine ⟨fun _ _ _ _ => step_of_decode, fun _ => step_nil, fun _ _ _ _ _ => rfl, fun _ _ _ => rfl, ?_, ?_, ?_, ?_⟩
  · intro s h p v port hp
    exact State.fetch_operate_other (fun c hc => List.getElem?_eq_none (hp c hc)) v port
  · intro s h c p P v port hc hp hP hport
    have hf := State.fetch_operate_store hc hp v hport
    rw [Comp.store_of_ne c hP] at hf
    exact hf
  · intro s h c p v port hc hp hport
    exact State.fetch_operate_store hc hp v hport
  · intro s h c p v hc hk hp
    exact State.fetch_operate_readPort hc hk (List.getElem?_eq_getElem hp) v

end Sys2Proof.Machine
end

section
/-! The state after reset and after construction (R22 to R24, R40, R46, R441), and the asynchronous pins that force a
component's stages inside the write (R107, R413). -/

namespace Sys2Proof.Machine

set_option Elab.async false

/-! ### Reset (R40) -/

/-- Settles O55: a new graph is empty, so nothing in it can be ill formed or unsettled. -/
theorem resetState : Obligations.ResetState :=
  ⟨State.reset_comps, State.reset_wires, State.reset_pending, State.reset_order, State.reset_phase, rfl, rfl⟩

/-! ### The inputs of a new component (R22, R441) -/

@[simp] theorem newComp_params (config : CompConfig) : (newComp config).params = config.params := rfl

/-- Buffers that all hold one voltage. -/
theorem readBuffer_const {P : Pin} {pins : List Pin} (v : Voltage) (h : P ∈ pins) :
    readBuffer P (pins.map fun Q => (Q, v)) = some v := by
  induction pins with
  | nil => cases h
  | cons Q rest ih =>
    rw [List.map_cons, readBuffer]
    split
    · rfl
    · next hQ => exact ih ((List.mem_cons.1 h).resolve_left fun e => hQ e.symm)

theorem readBuffer_of_notMem {P : Pin} {ins : List (Pin × Voltage)} (h : P ∉ ins.map Prod.fst) :
    readBuffer P ins = none := by
  induction ins with
  | nil => rfl
  | cons c rest ih =>
    obtain ⟨Q, u⟩ := c
    rw [List.map_cons, List.mem_cons, not_or] at h
    rw [readBuffer, if_neg (Ne.symm h.1), ih h.2]

theorem readBuffer_newComp {config : CompConfig} {P : Pin} (h : P ∈ bufferedPins config.params) :
    readBuffer P (newComp config).ins = some config.cfg.low :=
  readBuffer_const config.cfg.low h

theorem buffer_newComp (config : CompConfig) (P : Pin) : (newComp config).buffer P = config.cfg.low := by
  by_cases h : P ∈ bufferedPins config.params
  · rw [Comp.buffer, readBuffer_newComp h, Option.getD_some]
  · have hn : P ∉ (newComp config).ins.map Prod.fst := by simpa [newComp, Function.comp_def] using h
    rw [Comp.buffer, readBuffer_of_notMem hn, Option.getD_none]
    rfl

/-- The low level reads as 0 (R21, R100). -/
theorem logic_low {cfg : Cfg} (h : cfg.ok = true) : logic cfg cfg.low = false := by
  simp only [Cfg.ok, Bool.and_eq_true, decide_eq_true_eq] at h
  exact decide_eq_false (Int.not_lt.2 h.1)

theorem CompConfig.ok_iff {config : CompConfig} :
    config.ok = true ↔ config.params.ok = true ∧ config.cfg.ok = true := by
  rw [CompConfig.ok, Bool.and_eq_true]

theorem inBit_newComp {config : CompConfig} (h : config.ok = true) (P : Pin) : (newComp config).inBit P = false := by
  rw [Comp.inBit, buffer_newComp]
  exact logic_low (CompConfig.ok_iff.1 h).2

theorem inWord_newComp {config : CompConfig} (h : config.ok = true) (w : Nat) (X : Nat → Pin) :
    (newComp config).inWord w X = 0 := by
  simp only [Comp.inWord, inBit_newComp h, wordOf_false]

/-! ### The stages of a new component (R46) -/

theorem newComp_m {config : CompConfig} (h : Kind.isClocked (Params.kind config.params) = true) :
    (newComp config).m = resetRegs config.params :=
  if_pos h

theorem newComp_q (config : CompConfig) : (newComp config).q = resetRegs config.params := rfl

/-! ### The outputs of a new component (R441) -/

/-- A bus on which every pin shows the same bit. -/
theorem map_bus_const {n : Nat} {f : Nat → Pin} {g : Pin → Bool} {b : Bool} (h : ∀ i < n, g (f i) = b) :
    (bus n f).map g = List.replicate n b := by
  refine List.eq_replicate_iff.2 ⟨by simp [bus], fun x hx => ?_⟩
  simp only [bus, List.map_map, List.mem_map, List.mem_range] at hx
  obtain ⟨i, hi, rfl⟩ := hx
  exact h i hi

/-- A bus on which pin 0 alone shows 1. -/
theorem map_bus_first {n : Nat} {f : Nat → Pin} {g : Pin → Bool} (h : ∀ i, g (f i) = decide (i = 0)) (hn : 1 ≤ n) :
    (bus n f).map g = true :: List.replicate (n - 1) false := by
  obtain ⟨n, rfl⟩ := Nat.exists_eq_add_of_le' hn
  rw [bus, List.range_succ_eq_map]
  simp [h, Function.comp_def]

/-- NOT presents the complement of its low input. -/
theorem outputs_newComp_not {config : CompConfig} (h : config.ok = true) (hp : config.params = .notGate) :
    (newComp config).outputs = [true] := by
  simp [Comp.outputs, Comp.outBit, outNot, hp, outputPins, inBit_newComp h]

theorem gateInputs_newComp {config : CompConfig} (h : config.ok = true) :
    gateInputs (newComp config) = List.replicate (Params.count config.params) false := by
  simp [gateInputs, inBit_newComp h, List.map_const']

/-- NAND has an input, and it is low; NOR has none that is high. -/
theorem outputs_newComp_nand_nor {config : CompConfig} (h : config.ok = true) {n : Nat}
    (hp : config.params = .nandGate n ∨ config.params = .norGate n) : (newComp config).outputs = [true] := by
  have hok := (CompConfig.ok_iff.1 h).1
  obtain hp | hp := hp <;> rw [hp] at hok
  · have hn : n ≠ 0 := by
      simp only [Params.ok, Bool.and_eq_true, decide_eq_true_eq] at hok
      omega
    simp [Comp.outputs, Comp.outBit, outNand, hp, outputPins, gateInputs_newComp h, Params.count, hn]
  · simp [Comp.outputs, Comp.outBit, outNor, hp, outputPins, gateInputs_newComp h, Params.count]

/-- A latch or flip-flop stores 0, and presents it with its complement. -/
theorem outputs_newComp_bit {config : CompConfig} (h : config.ok = true)
    (hp : config.params ∈ [.srLatch, .dLatch, .dff, .jkff, .tff]) : (newComp config).outputs = [false, true] := by
  simp only [List.mem_cons, List.not_mem_nil, or_false] at hp
  obtain hp | hp | hp | hp | hp := hp
  · simp [Comp.outputs, Comp.outBit, outSrLatch, srBoth, hp, outputPins, inBit_newComp h, newComp_q, resetRegs,
      Regs.asBit]
  all_goals simp [Comp.outputs, Comp.outBit, outBitStage, hp, outputPins, newComp_q, resetRegs, Regs.asBit]

/-- An ALU or Accumulator holds 0 with ZERO set. -/
theorem outputs_newComp_zero {config : CompConfig} {w : Nat}
    (hp : config.params = .alu w ∨ config.params = .accumulator w) :
    (newComp config).outputs = List.replicate w false ++ [true, false, false, false] := by
  obtain hp | hp := hp <;>
    rw [Comp.outputs, newComp_params, hp, outputPins, List.map_append] <;> congr 1
  · exact map_bus_const fun i _ => by simp [Comp.outBit, outAlu, hp, newComp_q, resetRegs, Regs.asRes]
  · simp [Comp.outBit, outAlu, hp, newComp_q, resetRegs, Regs.asFlags, clearFlags]
  · exact map_bus_const fun i _ => by simp [Comp.outBit, outAccumulator, hp, newComp_q, resetRegs, Regs.asWord]
  · simp [Comp.outBit, outAccumulator, hp, newComp_q, resetRegs, Regs.asFlags, clearFlags]

/-- A decoder selects line 0. -/
theorem outputs_newComp_decoder {config : CompConfig} (h : config.ok = true) {k : Nat}
    (hp : config.params = .decoder k) :
    (newComp config).outputs = true :: List.replicate (2 ^ k - 1) false := by
  rw [Comp.outputs, newComp_params, hp, outputPins]
  refine map_bus_first (fun i => ?_) Nat.one_le_two_pow
  simp [Comp.outBit, outDecoder, outDecSelect, hp, inBit_newComp h, Comp.selector, inWord_newComp h]

/-- A divider divides by 0: quotient and remainder are all ones (R314). -/
theorem outputs_newComp_divider {config : CompConfig} (h : config.ok = true) {w : Nat}
    (hp : config.params = .divider w) :
    (newComp config).outputs = List.replicate (2 * w) true ++ [false] := by
  have hw : (newComp config).width = w := by rw [Comp.width, newComp_params, hp, Params.width]
  have hb : (newComp config).opB w = 0 := inWord_newComp h w .b
  have hones : ∀ i < w, (allOnes w).testBit i = true := fun i hi => by simp [allOnes, Nat.testBit_two_pow_sub_one, hi]
  rw [Comp.outputs, newComp_params, hp, outputPins, List.map_append, List.map_append, Nat.two_mul, List.replicate_add]
  congr 1
  · congr 1
    · exact map_bus_const fun i hi => by simp [Comp.outBit, outDivider, hp, quotient, hw, hb, hones i hi]
    · exact map_bus_const fun i hi => by simp [Comp.outBit, outDivider, hp, remainder, hw, hb, hones i hi]
  · simp [Comp.outBit, outDivider, hp, newComp_q, resetRegs, Regs.asDz]

/-- Both stages of a new clocked component hold its construction value (R26, R46). -/
theorem newComp_stages {config : CompConfig} {p : Params} (hp : config.params = p)
    (hk : Kind.isClocked (Params.kind p) = true) :
    (newComp config).m = resetRegs p ∧ (newComp config).q = resetRegs p := by
  subst hp
  exact ⟨newComp_m hk, newComp_q config⟩

/-- Settles O47: every input reads 0, so each output is its kind's function of low inputs and of the construction value,
which both stages hold. -/
theorem stateAfterConstruction : Obligations.StateAfterConstruction := by
  intro config h
  refine ⟨rfl, rfl, rfl, newComp_wf h, fun P => readBuffer_newComp, inBit_newComp h, outputs_newComp_not h,
    fun n => outputs_newComp_nand_nor h, outputs_newComp_bit h, fun w => outputs_newComp_zero,
    fun k => outputs_newComp_decoder h, fun w => outputs_newComp_divider h, ?latch, ?flipFlop, ?word, ?ring,
    fun w m st hp => newComp_stages hp rfl, fun k hp => newComp_stages hp rfl, fun n hp => newComp_stages hp rfl,
    fun w hp => (newComp_q config).trans (congrArg resetRegs hp),
    fun w hp => (newComp_q config).trans (congrArg resetRegs hp),
    fun w hp => (newComp_q config).trans (congrArg resetRegs hp), fun w hp => newComp_stages hp rfl, ?memory⟩
  case latch =>
    intro hp
    simp only [List.mem_cons, List.not_mem_nil, or_false] at hp
    obtain hp | hp := hp <;> exact (newComp_q config).trans (congrArg resetRegs hp)
  case flipFlop =>
    intro hp
    simp only [List.mem_cons, List.not_mem_nil, or_false] at hp
    obtain hp | hp | hp := hp <;> exact newComp_stages hp rfl
  case word =>
    intro w hp
    simp only [List.mem_cons, List.not_mem_nil, or_false] at hp
    obtain hp | hp | hp | hp := hp <;> exact newComp_stages hp rfl
  case ring =>
    intro w hp
    have hw : 1 ≤ w := of_decide_eq_true (hp ▸ (CompConfig.ok_iff.1 h).1 :)
    have hone : bitsW w 1 = 1 := bitsW_of_lt (Nat.one_lt_two_pow (Nat.ne_of_gt hw))
    rw [← hone]
    exact newComp_stages hp rfl
  case memory =>
    intro a d hp
    obtain ⟨hm, hq⟩ := newComp_stages hp rfl
    exact ⟨[], [], hm, hq, fun x => ⟨rfl, rfl⟩⟩

/-! ### The asynchronous pins (R107) -/

/-- The number of an input pin names it (R61). -/
theorem inputAt_pinId {p : Params} {P : Pin} (h : P ∈ inputPins p) : inputAt p (pinId p P) = some P := by
  rw [inputAt, pinId, pinMap, List.append_assoc, List.idxOf_append_of_mem h]
  exact List.getElem?_idxOf h

/-- A write to an input pin by its name, other than the clock: the voltage is stored and the component evaluated. -/
theorem exec_writePin_pinId {s : State} {h : Nat} {c : Comp} {P : Pin} (hc : s.comps[h]? = some c)
    (hP : P ∈ inputPins c.params) (hclk : P ≠ .clk) (v : Voltage) :
    exec (.writePin h (pinId c.params P) v) s =
      .next ((s.setComp h (evaluate (c.withIn P v) false).1).answer (evaluate (c.withIn P v) false).2.toResult) := by
  rw [exec_writePin_some hc, Comp.writePin_input (inputAt_pinId hP), c.store_of_ne hclk]

/-- An input pin other than the clock reads what is written to it. -/
theorem Comp.inBit_written {c : Comp} (hw : c.wf = true) {P : Pin} (hP : P ∈ inputPins c.params) (hclk : P ≠ .clk)
    (v : Voltage) : (c.withIn P v).inBit P = logic c.cfg v := by
  refine Comp.inBit_withIn_same v ?_
  rw [Comp.wf_ins hw]
  exact List.mem_filter.2 ⟨hP, decide_eq_true hclk⟩

/-- The component with every stage of its kind at the construction value (R46). -/
def Comp.forcedReset (c : Comp) : Comp :=
  { c with
    m := if Kind.isClocked (Params.kind c.params) then resetRegs c.params else c.m
    q := resetRegs c.params }

/-- RESET goes before every other control bit, on every kind that has the pin (R107, R413). -/
theorem evaluate_of_reset {c : Comp} (hP : .reset ∈ inputPins c.params) (hr : c.inBit .reset = true) (e : Bool) :
    evaluate c e = (c.forcedReset, .ok) := by
  obtain ⟨p, cfg, edge, ins, clkPrev, vcc, gnd, m, q⟩ := c
  cases p
  case srLatch => rw [evaluate_srLatch rfl, if_pos hr]; rfl
  case dLatch => rw [evaluate_dLatch rfl, if_pos hr]; rfl
  case dff => rw [evaluate_dff rfl, if_pos hr]; rfl
  case jkff => rw [evaluate_jkff rfl, if_pos hr]; rfl
  case tff => rw [evaluate_tff rfl, if_pos hr]; rfl
  case register => rw [evaluate_register rfl, if_pos hr]; rfl
  case shiftRegister => rw [evaluate_shiftRegister rfl, if_pos hr]; rfl
  case univShiftRegister => rw [evaluate_univShiftRegister rfl, if_pos hr]; rfl
  case counter => rw [evaluate_counter rfl, if_pos hr]; rfl
  case bcdCounter => rw [evaluate_bcdCounter rfl, if_pos hr]; rfl
  case ringCounter => rw [evaluate_ringCounter rfl, if_pos hr]; rfl
  case johnsonCounter => rw [evaluate_johnsonCounter rfl, if_pos hr]; rfl
  case clockDivider => rw [evaluate_clockDivider rfl, if_pos hr]; rfl
  case divider => rw [evaluate_divider rfl, if_pos hr]; rfl
  case accumulator => rw [evaluate_accumulator rfl, if_pos hr]; rfl
  all_goals simp [inputPins, bus, channels] at hP

/-- Settles O17: the write stores a RESET that reads high, and under it the evaluation forces the construction state. -/
theorem resetPinForcesTheResetState : Obligations.ResetPinForcesTheResetState := by
  intro s h c v hc hw hP hv
  have hhigh : (c.withIn .reset v).inBit .reset = true := (Comp.inBit_written hw hP nofun v).trans hv
  have hpin : .reset ∈ inputPins (c.withIn .reset v).params := hP
  rw [exec_writePin_pinId hc hP nofun, evaluate_of_reset hpin hhigh]
  rfl

/-- The value that SET forces: a latch's or flip-flop's bit 1, a register's word of ones (R166, R202). -/
def Comp.setRegs (c : Comp) : Regs := if c.width = 0 then .bit true else .word (2 ^ c.width - 1)

/-- The component with every stage of its kind at the value SET forces. -/
def Comp.forcedSet (c : Comp) : Comp :=
  { c with m := if Kind.isClocked (Params.kind c.params) then c.setRegs else c.m, q := c.setRegs }

theorem Comp.forcedSet_of_width {c : Comp} (hk : Kind.isClocked (Params.kind c.params) = true) (hw : 1 ≤ c.width) :
    (c.withBoth (.word (allOnes c.width)), Status.ok) = (c.forcedSet, .ok) := by
  have hset : c.setRegs = .word (allOnes c.width) := if_neg (Nat.ne_of_gt hw)
  rw [Comp.forcedSet, if_pos hk, hset]
  rfl

/-- SET goes before every control bit but RESET, on every kind that has the pin (R107, R413). -/
theorem evaluate_of_set {c : Comp} (hok : c.params.ok = true) (hP : .set ∈ inputPins c.params)
    (hr : c.inBit .reset = false) (hs : c.inBit .set = true) (e : Bool) :
    evaluate c e = (c.forcedSet, .ok) := by
  have hr : ¬c.inBit .reset = true := Bool.eq_false_iff.1 hr
  obtain ⟨p, cfg, edge, ins, clkPrev, vcc, gnd, m, q⟩ := c
  cases p
  case srLatch => rw [evaluate_srLatch rfl, if_neg hr, if_pos hs]; rfl
  case dLatch => rw [evaluate_dLatch rfl, if_neg hr, if_pos hs]; rfl
  case dff => rw [evaluate_dff rfl, if_neg hr, if_pos hs]; rfl
  case jkff => rw [evaluate_jkff rfl, if_neg hr, if_pos hs]; rfl
  case tff => rw [evaluate_tff rfl, if_neg hr, if_pos hs]; rfl
  case register w =>
    rw [evaluate_register rfl, if_neg hr, if_pos hs]
    exact Comp.forcedSet_of_width rfl (of_decide_eq_true hok)
  case shiftRegister w =>
    rw [evaluate_shiftRegister rfl, if_neg hr, if_pos hs]
    exact Comp.forcedSet_of_width rfl (of_decide_eq_true hok)
  case univShiftRegister w =>
    rw [evaluate_univShiftRegister rfl, if_neg hr, if_pos hs]
    exact Comp.forcedSet_of_width rfl (of_decide_eq_true hok)
  all_goals simp [inputPins, bus, channels] at hP

/-- Settles O18: the write stores a SET that reads high and leaves RESET low, and under these the evaluation forces
ones. -/
theorem setPinForcesOnes : Obligations.SetPinForcesOnes := by
  intro s h c v hc hw hP hr hv
  have hhigh : (c.withIn .set v).inBit .set = true := (Comp.inBit_written hw hP nofun v).trans hv
  have hlow : (c.withIn .set v).inBit .reset = false := (Comp.inBit_withIn_other v (by decide)).trans hr
  have hok : (c.withIn .set v).params.ok = true := Comp.wf_params (Comp.wf_withIn .set v hw)
  rw [exec_writePin_pinId hc hP nofun, evaluate_of_set hok hP hlow hhigh]
  rfl

end Sys2Proof.Machine
end

section
/-! What every step keeps (R47): the checks on wires, drives and the order read only the components' parameters, which
no operation changes; so an operation keeps the state well formed where it keeps each component well formed, and the three
calls that build the graph check what they add. -/

namespace Sys2Proof.Machine

set_option Elab.async false

/-! ### The graph's checks read the components' parameters alone -/

theorem getElem?_params (cs : List Comp) (h : Nat) : (cs.map Comp.params)[h]? = cs[h]?.map Comp.params :=
  List.getElem?_map ..

/-- Further components leave the earlier ones their parameters. -/
theorem getElem?_params_mono {cs ds : List Comp} {h : Nat} {p : Params}
    (hpre : cs.map Comp.params <+: ds.map Comp.params) (hp : (cs.map Comp.params)[h]? = some p) :
    (ds.map Comp.params)[h]? = some p := by
  obtain ⟨new, hnew⟩ := hpre
  rw [← hnew, List.getElem?_append_left (List.getElem?_eq_some_iff.1 hp).1, hp]

theorem wireOk_iff {cs : List Comp} {w : Wire} : wireOk cs w = true ↔
    ∃ a b, (cs.map Comp.params)[w.fromH]? = some a ∧ (cs.map Comp.params)[w.toH]? = some b ∧
      isOutputId a w.fromP = true ∧ isInputId b w.toP = true := by
  rw [wireOk, getElem?_params, getElem?_params]
  cases cs[w.fromH]? <;> cases cs[w.toH]? <;> simp

theorem driveOk_iff {cs : List Comp} {d : DriveReq} :
    driveOk cs d = true ↔ ∃ p, (cs.map Comp.params)[d.h]? = some p ∧ d.p < npins p := by
  rw [driveOk, getElem?_params]
  cases cs[d.h]? <;> simp

/-- Further components leave a wire as good as it was (R381). -/
theorem wireOk_mono {cs ds : List Comp} {w : Wire} (h : cs.map Comp.params <+: ds.map Comp.params)
    (hw : wireOk cs w = true) : wireOk ds w = true := by
  obtain ⟨a, b, ha, hb, hout, hin⟩ := wireOk_iff.1 hw
  exact wireOk_iff.2 ⟨a, b, getElem?_params_mono h ha, getElem?_params_mono h hb, hout, hin⟩

theorem driveOk_mono {cs ds : List Comp} {d : DriveReq} (h : cs.map Comp.params <+: ds.map Comp.params)
    (hd : driveOk cs d = true) : driveOk ds d = true := by
  obtain ⟨p, hp, hlt⟩ := driveOk_iff.1 hd
  exact driveOk_iff.2 ⟨p, getElem?_params_mono h hp, hlt⟩

theorem dependency_congr {cs ds : List Comp} (h : ds.map Comp.params = cs.map Comp.params) (w : Wire) :
    dependency ds w = dependency cs w := by
  have hget : ds[w.toH]?.map Comp.params = cs[w.toH]?.map Comp.params := by
    rw [← getElem?_params, h, getElem?_params]
  rw [dependency, dependency, cutAt, cutAt]
  cases hd : ds[w.toH]? <;> cases hc : cs[w.toH]? <;> rw [hd, hc] at hget
  case none.some => cases hget
  case some.none => cases hget
  case some.some => simp only [Option.some.inj hget]

theorem isTopoOrder_congr {cs ds : List Comp} (h : ds.map Comp.params = cs.map Comp.params) (wires : List Wire)
    (order : List Nat) : isTopoOrder ds wires order = isTopoOrder cs wires order := by
  have hlen : ds.length = cs.length := by simpa using congrArg List.length h
  simp only [isTopoOrder, hlen, dependency_congr h]

/-! ### Parts of a state's well-formedness -/

theorem State.wf_iff {s : State} : s.wf = true ↔
    (∀ c ∈ s.comps, c.wf = true) ∧ (∀ w ∈ s.wires, wireOk s.comps w = true) ∧ singleWriter s.wires = true ∧
      (∀ d ∈ s.pending, driveOk s.comps d = true) ∧ s.orderOk = true := by
  simp only [State.wf, Bool.and_eq_true, List.all_eq_true, and_assoc]

theorem State.wf_comp {s : State} (hs : s.wf = true) {h : Nat} {c : Comp} (hc : s.comps[h]? = some c) : c.wf = true :=
  (State.wf_iff.1 hs).1 c (List.mem_of_getElem? hc)

/-- While building, the check on the order reads neither components nor wires. -/
theorem State.orderOk_of_building {s t : State} (hp : s.phase = .building) (hphase : t.phase = s.phase)
    (horder : t.order = s.order) (hok : s.orderOk = true) : t.orderOk = true := by
  rw [← hok, State.orderOk, State.orderOk, hphase, horder, hp]

/-- The answer and the script are no part of the invariant (R42). -/
@[simp] theorem State.wf_answer (s : State) (r : Result) : (s.answer r).wf = s.wf := rfl
@[simp] theorem State.wf_fail (s : State) (e : Err) : (s.fail e).wf = s.wf := rfl
@[simp] theorem State.wf_withScript (s : State) (rest : List Request) : (s.withScript rest).wf = s.wf := rfl

/-! ### Operations on the components -/

/-- Each component keeps its parameters, and the list stays well formed. -/
structure CompsKept (cs ds : List Comp) : Prop where
  params : ds.map Comp.params = cs.map Comp.params
  wf : (∀ c ∈ cs, c.wf = true) → ∀ d ∈ ds, d.wf = true

theorem CompsKept.refl (cs : List Comp) : CompsKept cs cs := ⟨rfl, id⟩

theorem CompsKept.trans {cs ds es : List Comp} (h : CompsKept cs ds) (h' : CompsKept ds es) : CompsKept cs es :=
  ⟨h'.params.trans h.params, fun hcs => h'.wf (h.wf hcs)⟩

/-- A run of operations that each keep the components keeps them. -/
theorem CompsKept.foldl {α : Type} {f : List Comp → α → List Comp} (hf : ∀ cs a, CompsKept cs (f cs a)) (l : List α)
    (cs : List Comp) : CompsKept cs (l.foldl f cs) := by
  induction l generalizing cs with
  | nil => exact .refl cs
  | cons a rest ih => exact (hf cs a).trans (ih (f cs a))

/-- Replacing a component by one of its parameters, well formed if it was, keeps the components. -/
theorem CompsKept.set {cs : List Comp} {h : Nat} {c d : Comp} (hc : cs[h]? = some c) (hp : d.params = c.params)
    (hw : c.wf = true → d.wf = true) : CompsKept cs (cs.set h d) where
  params := by
    obtain ⟨hlt, rfl⟩ := List.getElem?_eq_some_iff.1 hc
    rw [← List.set_getElem_self (as := cs.map Comp.params) (i := h) (by simpa using hlt), List.map_set, hp,
      List.getElem_map]
  wf hcs e he := by
    obtain he | rfl := List.mem_or_eq_of_mem_set he
    · exact hcs e he
    · exact hw (hcs c (List.mem_of_getElem? hc))

theorem CompsKept.writeComp (cs : List Comp) (h p : Nat) (v : Voltage) : CompsKept cs (writeComp cs h p v) := by
  unfold Machine.writeComp
  split
  · exact .refl cs
  · next c hc => exact .set hc (c.writePin_params p v) fun hw => Comp.writePin_wf hw p v

theorem CompsKept.tickComp (cs : List Comp) (h : Nat) : CompsKept cs (tickComp cs h) := by
  unfold Machine.tickComp
  split
  · exact .refl cs
  · next c hc => exact .set hc c.tick_params Comp.tick_wf

theorem CompsKept.copyWire (cs : List Comp) (w : Wire) : CompsKept cs (copyWire cs w) := by
  unfold Machine.copyWire
  split
  · exact .refl cs
  · split
    · exact .refl cs
    · exact .writeComp cs w.toH w.toP _

theorem CompsKept.applyDrives (cs : List Comp) (drives : List DriveReq) : CompsKept cs (applyDrives cs drives) :=
  .foldl (fun cs (d : DriveReq) => CompsKept.writeComp cs d.h d.p d.v) drives cs

theorem CompsKept.tickComps (cs : List Comp) (order : List Nat) : CompsKept cs (tickComps cs order) :=
  .foldl CompsKept.tickComp order cs

theorem CompsKept.propagate (cs : List Comp) (wires : List Wire) (order : List Nat) :
    CompsKept cs (propagate cs wires order) :=
  .foldl (fun cs h => CompsKept.foldl CompsKept.copyWire (wiresFrom wires h) cs) order cs

/-- An operation on the components keeps the state well formed where it keeps them; drives may leave the queue. -/
theorem State.wf_of_compsKept {s t : State} (hs : s.wf = true) (hc : CompsKept s.comps t.comps)
    (hwires : t.wires = s.wires) (hpending : t.pending ⊆ s.pending) (horder : t.order = s.order)
    (hphase : t.phase = s.phase) : t.wf = true := by
  obtain ⟨hcomps, hwire, hsingle, hdrive, hok⟩ := State.wf_iff.1 hs
  have hpre : s.comps.map Comp.params <+: t.comps.map Comp.params := ⟨[], by rw [List.append_nil, hc.params]⟩
  refine State.wf_iff.2 ⟨hc.wf hcomps, ?_, hwires ▸ hsingle, ?_, ?_⟩
  · exact fun w hw => wireOk_mono hpre (hwire w (hwires ▸ hw))
  · exact fun d hd => driveOk_mono hpre (hdrive d (hpending hd))
  · rw [← hok, State.orderOk, State.orderOk, hphase, horder, hwires, isTopoOrder_congr hc.params]

/-- Replacing one component by a well-formed one of its parameters. -/
theorem State.wf_setComp {s : State} (hs : s.wf = true) {h : Nat} {c d : Comp} (hc : s.comps[h]? = some c)
    (hp : d.params = c.params) (hd : d.wf = true) : (s.setComp h d).wf = true :=
  State.wf_of_compsKept hs (.set hc hp fun _ => hd) rfl (List.Subset.refl _) rfl rfl

theorem State.wf_tickRunning {s : State} (hs : s.wf = true) : s.tickRunning.wf = true :=
  have kept : CompsKept s.comps s.tickRunning.comps :=
    (CompsKept.applyDrives s.comps s.pending).trans
      ((CompsKept.tickComps _ s.order).trans (.propagate _ s.wires s.order))
  State.wf_of_compsKept hs kept rfl (List.nil_subset _) rfl rfl

/-! ### Building the graph (R381 to R383) -/

theorem building_of_createError {s : State} {config : CompConfig} (h : s.createError config = none) :
    s.phase = .building ∧ config.ok = true := by
  unfold State.createError at h
  split at h
  · cases h
  · next hp =>
    split at h
    · cases h
    · next hok => exact ⟨Decidable.not_not.1 hp, by simpa using hok⟩

/-- A new component is well formed and disturbs nothing that stands (R381). -/
theorem State.wf_addComp {s : State} (hs : s.wf = true) (hp : s.phase = .building) {c : Comp} (hc : c.wf = true) :
    (s.addComp c).wf = true := by
  obtain ⟨hcomps, hwire, hsingle, hdrive, hok⟩ := State.wf_iff.1 hs
  have hpre : s.comps.map Comp.params <+: (s.comps ++ [c]).map Comp.params :=
    ⟨[c.params], by rw [List.map_append, List.map_singleton]⟩
  refine State.wf_iff.2 ⟨?_, fun w hw => wireOk_mono hpre (hwire w hw), hsingle,
    fun d hd => driveOk_mono hpre (hdrive d hd), State.orderOk_of_building hp rfl rfl hok⟩
  intro d hd
  obtain hd | hd := List.mem_append.1 hd
  · exact hcomps d hd
  · exact List.mem_singleton.1 hd ▸ hc

/-- What the checks of `Connect` establish (R382). -/
theorem wireOk_of_connectError {s : State} {w : Wire} (h : s.connectError w = none) :
    s.phase = .building ∧ wireOk s.comps w = true ∧ s.wiredTo w.toH w.toP = false := by
  unfold State.connectError State.comp? at h
  split at h
  · cases h
  next hp =>
  split at h
  case h_2 => cases h
  case h_1 a b ha hb =>
    iterate 4
      split at h
      · cases h
    next _ hout hin hfree =>
    refine ⟨Decidable.not_not.1 hp, ?_, by simpa using hfree⟩
    simp only [wireOk, ha, hb, Bool.and_eq_true]
    exact ⟨by simpa using hout, by simpa using hin⟩

/-- A wire into a pin where none ends adds no second writer (R72). -/
theorem singleWriter_concat {wires : List Wire} {w : Wire} (hs : singleWriter wires = true)
    (hfree : ∀ u ∈ wires, ¬(u.toH = w.toH ∧ u.toP = w.toP)) : singleWriter (wires ++ [w]) = true := by
  induction wires with
  | nil => rfl
  | cons u rest ih =>
    simp only [singleWriter, Bool.and_eq_true, List.all_eq_true] at hs
    simp only [List.cons_append, singleWriter, Bool.and_eq_true, List.all_eq_true, List.mem_append, List.mem_singleton]
    refine ⟨?_, ih hs.2 fun x hx => hfree x (List.mem_cons_of_mem u hx)⟩
    rintro x (hx | rfl)
    · exact hs.1 x hx
    · have hu : ¬(x.toH = u.toH ∧ x.toP = u.toP) := fun h => hfree u List.mem_cons_self ⟨h.1.symm, h.2.symm⟩
      simpa [imp_iff_not_or] using hu

theorem State.wf_addWire {s : State} (hs : s.wf = true) (hp : s.phase = .building) {w : Wire}
    (hw : wireOk s.comps w = true) (hfree : s.wiredTo w.toH w.toP = false) : (s.addWire w).wf = true := by
  obtain ⟨hcomps, hwire, hsingle, hdrive, hok⟩ := State.wf_iff.1 hs
  have hfree' : ∀ u ∈ s.wires, ¬(u.toH = w.toH ∧ u.toP = w.toP) := by simpa [State.wiredTo] using hfree
  refine State.wf_iff.2 ⟨hcomps, ?_, singleWriter_concat hsingle hfree', hdrive,
    State.orderOk_of_building hp rfl rfl hok⟩
  intro u hu
  obtain hu | hu := List.mem_append.1 hu
  · exact hwire u hu
  · exact List.mem_singleton.1 hu ▸ hw

/-- What the checks of `Drive` establish (R383). -/
theorem driveOk_of_driveError {s : State} {h p : Nat} {v : Voltage} (he : s.driveError h p = none) :
    driveOk s.comps { h := h, p := p, v := v } = true := by
  unfold State.driveError State.comp? at he
  split at he
  · cases he
  · next c hc =>
    split at he
    · cases he
    · next hp => simpa [driveOk, hc] using hp

theorem State.wf_addDrive {s : State} (hs : s.wf = true) {d : DriveReq} (hd : driveOk s.comps d = true) :
    (s.addDrive d).wf = true := by
  obtain ⟨hcomps, hwire, hsingle, hdrive, hok⟩ := State.wf_iff.1 hs
  refine State.wf_iff.2 ⟨hcomps, hwire, hsingle, ?_, hok⟩
  intro e he
  obtain he | he := List.mem_append.1 he
  · exact hdrive e he
  · exact List.mem_singleton.1 he ▸ hd

/-! ### The order found by the first tick (R387) -/

theorem ready_iff {comps : List Comp} {wires : List Wire} {placed : List Nat} {h : Nat} :
    ready comps wires placed h = true ↔
      ∀ w ∈ wires, w.toH = h → dependency comps w = true → w.fromH ∈ placed := by
  simp only [ready, List.all_eq_true, Bool.or_eq_true, Bool.not_eq_true', Bool.and_eq_false_iff,
    decide_eq_false_iff_not, List.contains_iff_mem]
  refine forall₂_congr fun w _ => ?_
  cases dependency comps w <;> simp [imp_iff_not_or]

theorem lowestReady_eq_some {comps : List Comp} {wires : List Wire} {placed : List Nat} {h : Nat}
    (hl : lowestReady comps wires placed = some h) :
    h < comps.length ∧ h ∉ placed ∧ ready comps wires placed h = true := by
  have hmem := List.mem_range.1 (List.mem_of_find?_eq_some hl)
  have hp := List.find?_some hl
  rw [Bool.and_eq_true, Bool.not_eq_true', ← Bool.not_eq_true, List.contains_iff_mem] at hp
  exact ⟨hmem, hp.1, hp.2⟩

/-- What holds of the handles placed so far: none twice, each a component's, each after all it depends on. -/
structure Placed (comps : List Comp) (wires : List Wire) (placed : List Nat) : Prop where
  nodup : placed.Nodup
  lt : ∀ h ∈ placed, h < comps.length
  after : ∀ w ∈ wires, dependency comps w = true → w.toH ∈ placed → placed.idxOf w.fromH < placed.idxOf w.toH

theorem Placed.nil (comps : List Comp) (wires : List Wire) : Placed comps wires [] :=
  ⟨List.nodup_nil, nofun, nofun⟩

/-- Placing a ready component keeps this. -/
theorem Placed.concat {comps : List Comp} {wires : List Wire} {placed : List Nat} {h : Nat}
    (hp : Placed comps wires placed) (hl : lowestReady comps wires placed = some h) :
    Placed comps wires (placed ++ [h]) := by
  obtain ⟨hlt, hnew, hready⟩ := lowestReady_eq_some hl
  refine ⟨?_, ?_, ?_⟩
  · exact List.nodup_append.2 ⟨hp.nodup, List.nodup_singleton h,
      fun a ha b hb hab => hnew (List.mem_singleton.1 hb ▸ hab ▸ ha)⟩
  · intro a ha
    obtain ha | ha := List.mem_append.1 ha
    · exact hp.lt a ha
    · exact List.mem_singleton.1 ha ▸ hlt
  · intro w hw hdep hto
    by_cases hold : w.toH ∈ placed
    · have hlt := hp.after w hw hdep hold
      have hfrom : w.fromH ∈ placed := List.idxOf_lt_length_iff.1 (hlt.trans (List.idxOf_lt_length_iff.2 hold))
      rwa [List.idxOf_append_of_mem hold, List.idxOf_append_of_mem hfrom]
    · have hh : w.toH = h := by simpa [hold] using hto
      have hfrom : w.fromH ∈ placed := ready_iff.1 hready w hw hh hdep
      rw [List.idxOf_append_of_mem hfrom, List.idxOf_append_of_notMem hold]
      exact Nat.lt_add_right _ (List.idxOf_lt_length_iff.2 hfrom)

theorem Placed.topoFrom {comps : List Comp} {wires : List Wire} {n : Nat} {placed order : List Nat}
    (hp : Placed comps wires placed) (ht : topoFrom comps wires n placed = some order) :
    Placed comps wires order ∧ order.length = placed.length + n := by
  induction n generalizing placed with
  | zero =>
    cases ht
    exact ⟨hp, rfl⟩
  | succ n ih =>
    unfold Machine.topoFrom at ht
    split at ht
    · cases ht
    · next h hl =>
      obtain ⟨ho, hlen⟩ := ih (hp.concat hl) ht
      exact ⟨ho, by rw [hlen, List.length_append, List.length_singleton]; omega⟩

/-- As many handles as there are components, none twice, are all of them. -/
theorem Placed.mem_of_length {comps : List Comp} {wires : List Wire} {order : List Nat} (hp : Placed comps wires order)
    (hlen : order.length = comps.length) {h : Nat} (hh : h < comps.length) : h ∈ order := by
  have hsub : List.Subperm order (List.range comps.length) :=
    List.subperm_of_subset hp.nodup fun a ha => List.mem_range.2 (hp.lt a ha)
  have hperm := hsub.perm_of_length_le (by rw [List.length_range, hlen])
  exact hperm.mem_iff.2 (List.mem_range.2 hh)

/-- An order that is found is topological, on wires that join components (R387). -/
theorem isTopoOrder_of_topoOrder {comps : List Comp} {wires : List Wire} {order : List Nat}
    (hw : ∀ w ∈ wires, wireOk comps w = true) (ht : topoOrder comps wires = some order) :
    isTopoOrder comps wires order = true := by
  obtain ⟨hp, hlen⟩ := (Placed.nil comps wires).topoFrom ht
  replace hlen : order.length = comps.length := by simpa using hlen
  simp only [isTopoOrder, Bool.and_eq_true, List.all_eq_true, decide_eq_true_eq, List.contains_iff_mem, List.mem_range,
    Bool.or_eq_true, Bool.not_eq_true']
  refine ⟨⟨hlen, fun h hh => hp.mem_of_length hlen hh⟩, fun w hwm => ?_⟩
  cases hdep : dependency comps w
  · exact .inl rfl
  · obtain ⟨a, b, ha, hb, _⟩ := wireOk_iff.1 (hw w hwm)
    have hto : w.toH < comps.length := by simpa using (List.getElem?_eq_some_iff.1 hb).1
    exact .inr (hp.after w hwm hdep (hp.mem_of_length hlen hto))

theorem State.wf_startRunning {s : State} (hs : s.wf = true) {order : List Nat}
    (ht : topoOrder s.comps s.wires = some order) : (s.startRunning order).wf = true := by
  obtain ⟨hcomps, hwire, hsingle, hdrive, _⟩ := State.wf_iff.1 hs
  exact State.wf_iff.2 ⟨hcomps, hwire, hsingle, hdrive, isTopoOrder_of_topoOrder hwire ht⟩

/-! ### The graph's ticks (R385, R386) -/

theorem State.wf_graphTick {s t : State} (hs : s.wf = true) (ht : s.graphTick = some t) : t.wf = true := by
  unfold State.graphTick at ht
  split at ht
  · cases ht
    exact State.wf_tickRunning hs
  · split at ht
    · cases ht
    · next order ho =>
      cases ht
      exact State.wf_tickRunning (State.wf_startRunning hs ho)

theorem State.wf_graphTickN {n : Nat} {s t : State} (hs : s.wf = true) (ht : s.graphTickN n = some t) :
    t.wf = true := by
  induction n generalizing s with
  | zero =>
    cases ht
    exact hs
  | succ n ih =>
    unfold State.graphTickN at ht
    split at ht
    · cases ht
    · next u hu => exact ih (State.wf_graphTick hs hu) ht

/-! ### Every operation and every step -/

/-- A component operation keeps the state well formed. -/
theorem exec_row_wf {i : Instr} {s t : State} {h : Nat} {k : Kind} (hs : s.wf = true) (hrow : rowTarget i = some (h, k))
    (ht : exec i s = .next t) : t.wf = true := by
  rw [exec_row hrow] at ht
  obtain ⟨_, rfl⟩ | ⟨c, hc, hk, rfl⟩ := runRow_next ht
  · exact hs
  · obtain ⟨hparams, -, -⟩ := perform_sameMake i c
    exact State.wf_setComp hs hc hparams (perform_wf hrow hk (State.wf_comp hs hc))

/-- Every operation that ends in a next state keeps the state well formed. -/
theorem exec_wf {i : Instr} {s t : State} (hs : s.wf = true) (ht : exec i s = .next t) : t.wf = true := by
  cases hrow : rowTarget i with
  | some target => exact exec_row_wf hs hrow ht
  | none =>
  cases i with
  | writePin h p v =>
    obtain rfl | ⟨c, hc, hr⟩ := State.onComp_next (show execWritePin h p v s = .next t from ht)
    · exact hs
    · cases hr
      exact State.wf_setComp hs hc (c.writePin_params p v) (Comp.writePin_wf (State.wf_comp hs hc) p v)
  | readPin h p =>
    obtain rfl | ⟨c, hc, hr⟩ := State.onComp_next (show execReadPin h p s = .next t from ht)
    · exact hs
    · cases hr
      exact hs
  | tick h =>
    obtain rfl | ⟨c, hc, hr⟩ := State.onComp_next (show execTick h s = .next t from ht)
    · exact hs
    · cases hr
      exact State.wf_setComp hs hc c.tick_params (Comp.tick_wf (State.wf_comp hs hc))
  | gCreate config =>
    obtain ⟨e, _, hx⟩ | ⟨he, hx⟩ := exec_gCreate_cases config s <;> cases hx.symm.trans ht
    · exact hs
    · obtain ⟨hp, hok⟩ := building_of_createError he
      exact State.wf_addComp hs hp (newComp_wf hok)
  | gConnect fromH fromP toH toP =>
    obtain ⟨e, _, hx⟩ | ⟨he, hx⟩ := exec_gConnect_cases ⟨fromH, fromP, toH, toP⟩ s <;> cases hx.symm.trans ht
    · exact hs
    · obtain ⟨hp, hw, hfree⟩ := wireOk_of_connectError he
      exact State.wf_addWire hs hp hw hfree
  | gDrive h p v =>
    obtain ⟨e, _, hx⟩ | ⟨he, hx⟩ := exec_gDrive_cases h p v s <;> cases hx.symm.trans ht
    · exact hs
    · exact State.wf_addDrive hs (driveOk_of_driveError he)
  | gObserve h p =>
    obtain rfl | ⟨c, hc, hr⟩ := State.onComp_next (show execGObserve h p s = .next t from ht)
    · exact hs
    · cases hr
      exact hs
  | gTick =>
    obtain ⟨_, hx⟩ | ⟨u, hu, hx⟩ := exec_gTick_cases s <;> cases hx.symm.trans ht
    · exact hs
    · exact (State.wf_answer u .ok).trans (State.wf_graphTick hs hu)
  | gTickN n =>
    obtain ⟨_, hx⟩ | ⟨u, hu, hx⟩ := exec_gTickN_cases n s <;> cases hx.symm.trans ht
    · exact hs
    · exact (State.wf_answer u .ok).trans (State.wf_graphTickN hs hu)
  | _ => cases hrow

theorem Comp.store_wf {c : Comp} (hc : c.wf = true) (P : Pin) (v : Voltage) : (c.store P v).1.wf = true := by
  by_cases hP : P = .clk
  · subst hP
    exact hc
  · rw [c.store_of_ne hP]
    exact Comp.wf_withIn P v hc

theorem Comp.atLastLine_wf {c : Comp} (hc : c.wf = true) (P : Pin) (v : Voltage) (port : Bool) :
    (c.atLastLine P v port).wf = true := by
  unfold Comp.atLastLine
  split
  · rw [← evaluate_eq_performSelected]
    exact evaluate_wf (Comp.store_wf hc P v) _
  · exact Comp.store_wf hc P v

/-- The fetch, which for a write has stored its voltage, keeps the state well formed. -/
theorem State.wf_fetch {s : State} (hs : s.wf = true) (r : Request) : (s.fetch r).1.wf = true := by
  cases r with
  | contract code h p v => exact hs
  | graph code o => exact hs
  | operate h p v port =>
    by_cases hp : ∀ c, s.comps[h]? = some c → inputAt c.params p = none
    · rw [State.fetch_operate_other hp]
      exact hs
    · push Not at hp
      obtain ⟨c, hc, hP⟩ := hp
      obtain ⟨P, hP⟩ := Option.ne_none_iff_exists'.mp hP
      rw [State.fetch_operate hc hP]
      exact State.wf_setComp hs hc (c.atLastLine_params P v port)
        (Comp.atLastLine_wf (State.wf_comp hs hc) P v port)

/-- Settles O56: a step either does nothing or runs one operation in the state of its fetch, and both the fetch and the
operation keep the invariant. -/
theorem stepsKeepTheInvariant : Obligations.StepsKeepTheInvariant := by
  intro s t hs ht
  cases hscript : s.script with
  | nil =>
    cases (step_nil hscript).symm.trans ht
    exact hs
  | cons r rest =>
    obtain ⟨i, _, hx⟩ := decode_of_step_next hscript ht
    exact exec_wf (s := (s.fetch r).1.withScript rest) (State.wf_fetch hs r) hx

end Sys2Proof.Machine
end

section
/-! Encoding and decoding undo each other, and the decoder names why it rejects a line (R83, R84, R88 to R92). -/

namespace Sys2Proof.Machine

set_option Elab.async false

/-! ### What the encoder writes (R90, R92) -/

/-- Each row of the encoder is read back by the arm of its own code space and kind. -/
theorem decode_encode (i : Instr) : decode (encode i) = .ok i := by
  cases i <;> rfl

/-- The words of the encoder have the length of their kind, and the operands it does not write stay at their defaults. -/
theorem wf_encode (i : Instr) : (encode i).wf = true := by
  cases i with
  | gCreate _ | gConnect _ _ _ _ | gDrive _ _ _ | gObserve _ _ | gTickN _ =>
    exact decide_eq_true (Eq.refl (α := GraphOperands) _)
  | _ => rfl

/-! ### The contract codes (R90) -/

theorem contractOk_iff {code : BitVec 2} {p : Nat} {v : Voltage} :
    Line.contractOk code p v = true ↔
      code = 0b00#2 ∨ (code = 0b01#2 ∧ v = 0) ∨ (code = 0b10#2 ∧ p = 0 ∧ v = 0) := by
  simp [Line.contractOk, or_assoc, and_assoc]

theorem exists_encode_eq_contract {code : BitVec 2} {h p : Nat} {v : Voltage}
    (hw : Line.contractOk code p v = true) :
    ∃ i, decodeContract code h p v = .ok i ∧ encode i = .contract code h p v := by
  obtain rfl | ⟨rfl, rfl⟩ | ⟨rfl, rfl, rfl⟩ := contractOk_iff.mp hw
  · exact ⟨.writePin h p v, rfl, rfl⟩
  · exact ⟨.readPin h p, rfl, rfl⟩
  · exact ⟨.tick h, rfl, rfl⟩

/-! ### The graph codes (R90) -/

theorem toNat_lt_of_graphOk {code : BitVec 3} {o : GraphOperands} (hw : Line.graphOk code o = true) :
    code.toNat < 6 := by
  unfold Line.graphOk at hw
  split at hw
  case h_7 => cases hw
  all_goals omega

/-- A call that leaves its unused operands at their defaults is rebuilt from the operands it uses. -/
theorem encode_of_decodeGraph_eq_ok {code : BitVec 3} {o : GraphOperands} {i : Instr}
    (hw : Line.graphOk code o = true) (hd : decodeGraph code o = .ok i) : encode i = .graph code o := by
  obtain ⟨rfl, rfl⟩ | ⟨rfl, rfl⟩ | ⟨rfl, rfl⟩ | ⟨rfl, rfl⟩ | ⟨rfl, rfl⟩ | ⟨rfl, rfl⟩ := decodeGraph_eq_ok hd <;>
    exact congrArg (Line.graph _) (of_decide_eq_true hw).symm

/-! ### The control words of each kind (R85)

Within one kind the patterns cover every control word of the kind's width. -/

theorem decodePlain_isOk (i : Instr) : ∀ cw : List Bool, cw.length = 0 → (decodePlain i cw).isOk = true
  | [], _ => rfl

theorem decodeSrLatch_isOk (h : Nat) : ∀ cw : List Bool, cw.length = 4 → (decodeSrLatch h cw).isOk = true
  | [reset, set, s, r], _ => by cases reset <;> cases set <;> cases s <;> cases r <;> rfl

theorem decodeDLatch_isOk (h : Nat) : ∀ cw : List Bool, cw.length = 3 → (decodeDLatch h cw).isOk = true
  | [reset, set, en], _ => by cases reset <;> cases set <;> cases en <;> rfl

theorem decodeDff_isOk (h : Nat) : ∀ cw : List Bool, cw.length = 3 → (decodeDff h cw).isOk = true
  | [reset, set, e], _ => by cases reset <;> cases set <;> cases e <;> rfl

theorem decodeJkff_isOk (h : Nat) : ∀ cw : List Bool, cw.length = 5 → (decodeJkff h cw).isOk = true
  | [reset, set, e, j, k], _ => by cases reset <;> cases set <;> cases e <;> cases j <;> cases k <;> rfl

theorem decodeTff_isOk (h : Nat) : ∀ cw : List Bool, cw.length = 4 → (decodeTff h cw).isOk = true
  | [reset, set, e, t], _ => by cases reset <;> cases set <;> cases e <;> cases t <;> rfl

theorem decodeRegister_isOk (h : Nat) : ∀ cw : List Bool, cw.length = 3 → (decodeRegister h cw).isOk = true
  | [reset, set, e], _ => by cases reset <;> cases set <;> cases e <;> rfl

theorem decodeShiftRegister_isOk (h : Nat) :
    ∀ cw : List Bool, cw.length = 5 → (decodeShiftRegister h cw).isOk = true
  | [reset, set, e, load, dir], _ => by cases reset <;> cases set <;> cases e <;> cases load <;> cases dir <;> rfl

theorem decodeUnivShiftRegister_isOk (h : Nat) :
    ∀ cw : List Bool, cw.length = 5 → (decodeUnivShiftRegister h cw).isOk = true
  | [reset, set, e, mode1, mode0], _ => by
    cases reset <;> cases set <;> cases e <;> cases mode1 <;> cases mode0 <;> rfl

theorem decodeCounter_isOk (h : Nat) : ∀ cw : List Bool, cw.length = 5 → (decodeCounter h cw).isOk = true
  | [reset, e, load, enable, down], _ => by
    cases reset <;> cases e <;> cases load <;> cases enable <;> cases down <;> rfl

theorem decodeBcdCounter_isOk (h : Nat) : ∀ cw : List Bool, cw.length = 5 → (decodeBcdCounter h cw).isOk = true
  | [reset, e, load, enable, down], _ => by
    cases reset <;> cases e <;> cases load <;> cases enable <;> cases down <;> rfl

theorem decodeRingCounter_isOk (h : Nat) : ∀ cw : List Bool, cw.length = 3 → (decodeRingCounter h cw).isOk = true
  | [reset, e, dir], _ => by cases reset <;> cases e <;> cases dir <;> rfl

theorem decodeJohnsonCounter_isOk (h : Nat) :
    ∀ cw : List Bool, cw.length = 2 → (decodeJohnsonCounter h cw).isOk = true
  | [reset, e], _ => by cases reset <;> cases e <;> rfl

theorem decodeClockDivider_isOk (h : Nat) :
    ∀ cw : List Bool, cw.length = 2 → (decodeClockDivider h cw).isOk = true
  | [reset, e], _ => by cases reset <;> cases e <;> rfl

theorem decodeMux_isOk (h : Nat) : ∀ cw : List Bool, cw.length = 1 → (decodeMux h cw).isOk = true
  | [disable], _ => by cases disable <;> rfl

theorem decodeDemux_isOk (h : Nat) : ∀ cw : List Bool, cw.length = 1 → (decodeDemux h cw).isOk = true
  | [disable], _ => by cases disable <;> rfl

theorem decodeDecoder_isOk (h : Nat) : ∀ cw : List Bool, cw.length = 1 → (decodeDecoder h cw).isOk = true
  | [disable], _ => by cases disable <;> rfl

theorem decodeAdder_isOk (h : Nat) : ∀ cw : List Bool, cw.length = 2 → (decodeAdder h cw).isOk = true
  | [mode1, mode0], _ => by cases mode1 <;> cases mode0 <;> rfl

theorem decodeDivider_isOk (h : Nat) : ∀ cw : List Bool, cw.length = 1 → (decodeDivider h cw).isOk = true
  | [reset], _ => by cases reset <;> rfl

theorem decodeAlu_isOk (h : Nat) : ∀ cw : List Bool, cw.length = 4 → (decodeAlu h cw).isOk = true
  | [op3, op2, op1, op0], _ => by cases op3 <;> cases op2 <;> cases op1 <;> cases op0 <;> rfl

/-- The write port: E and WE behind the port bit 0. -/
theorem decodeMemory_write_isOk (h : Nat) :
    ∀ cw : List Bool, cw.length = 2 → (decodeMemory h (false :: cw)).isOk = true
  | [e, we], _ => by cases e <;> cases we <;> rfl

/-- The read port: RE behind the port bit 1. -/
theorem decodeMemory_read_isOk (h : Nat) :
    ∀ cw : List Bool, cw.length = 1 → (decodeMemory h (true :: cw)).isOk = true
  | [re], _ => by cases re <;> rfl

theorem decodeAccumulator_isOk (h : Nat) :
    ∀ cw : List Bool, cw.length = 5 → (decodeAccumulator h cw).isOk = true
  | [reset, e, op2, op1, op0], _ => by
    cases reset <;> cases e <;> cases op2 <;> cases op1 <;> cases op0 <;> rfl

/-! ### Operation words (R83, R84, R89) -/

/-- Every operation word of its kind's length selects an operation. -/
theorem decodeRow_isOk (h : Nat) {code : List Bool} (hw : Line.rowOk code = true) :
    (decodeRow h code).isOk = true := by
  unfold Line.rowOk at hw
  split at hw
  case h_1 | h_34 => cases hw
  case h_4 | h_5 | h_6 | h_7 | h_8 | h_9 | h_10 | h_11 | h_29 | h_31 =>
    exact decodePlain_isOk _ _ (of_decide_eq_true hw)
  · exact decodeMemory_write_isOk h _ (of_decide_eq_true hw)
  · exact decodeMemory_read_isOk h _ (of_decide_eq_true hw)
  · exact decodeSrLatch_isOk h _ (of_decide_eq_true hw)
  · exact decodeDLatch_isOk h _ (of_decide_eq_true hw)
  · exact decodeDff_isOk h _ (of_decide_eq_true hw)
  · exact decodeJkff_isOk h _ (of_decide_eq_true hw)
  · exact decodeTff_isOk h _ (of_decide_eq_true hw)
  · exact decodeRegister_isOk h _ (of_decide_eq_true hw)
  · exact decodeShiftRegister_isOk h _ (of_decide_eq_true hw)
  · exact decodeUnivShiftRegister_isOk h _ (of_decide_eq_true hw)
  · exact decodeCounter_isOk h _ (of_decide_eq_true hw)
  · exact decodeBcdCounter_isOk h _ (of_decide_eq_true hw)
  · exact decodeRingCounter_isOk h _ (of_decide_eq_true hw)
  · exact decodeJohnsonCounter_isOk h _ (of_decide_eq_true hw)
  · exact decodeClockDivider_isOk h _ (of_decide_eq_true hw)
  · exact decodeMux_isOk h _ (of_decide_eq_true hw)
  · exact decodeDemux_isOk h _ (of_decide_eq_true hw)
  · exact decodeDecoder_isOk h _ (of_decide_eq_true hw)
  · exact decodeAdder_isOk h _ (of_decide_eq_true hw)
  · exact decodeDivider_isOk h _ (of_decide_eq_true hw)
  · exact decodeAlu_isOk h _ (of_decide_eq_true hw)
  · exact decodeAccumulator_isOk h _ (of_decide_eq_true hw)

/-- What the decoder's answer to the operation word `code` of component `h` must say: an operation is one whose word this
is, and a rejection names kind id 31 where the word has it, else the word's length. -/
def AnswersWord (h : Nat) (code : List Bool) : Except DecodeError Instr → Prop
  | .ok i => encode i = .row h code
  | .error e => e = if code.take 5 = [true, true, true, true, true] then .reservedKind else .badLength

theorem take_ne_of_ne_cons {code : List Bool} (hne : ∀ cw, code ≠ true :: true :: true :: true :: true :: cw) :
    code.take 5 ≠ [true, true, true, true, true] := by
  intro ht
  have hcode := List.take_append_drop 5 code
  rw [ht] at hcode
  exact hne _ hcode.symm

theorem decodeRow_answersWord (h : Nat) (code : List Bool) : AnswersWord h code (decodeRow h code) := by
  unfold decodeRow
  split
  case h_32 => rfl
  case h_33 hne => exact (if_neg (take_ne_of_ne_cons hne)).symm
  all_goals
    simp only [decodePlain, decodeSrLatch, decodeDLatch, decodeDff, decodeJkff, decodeTff, decodeRegister,
      decodeShiftRegister, decodeUnivShiftRegister, decodeCounter, decodeBcdCounter, decodeRingCounter,
      decodeJohnsonCounter, decodeClockDivider, decodeMux, decodeDemux, decodeDecoder, decodeAdder, decodeDivider,
      decodeAlu, decodeMemory, decodeAccumulator]
    split <;> rfl

theorem encode_of_decodeRow_eq_ok {h : Nat} {code : List Bool} {i : Instr} (hd : decodeRow h code = .ok i) :
    encode i = .row h code := by
  have ha := decodeRow_answersWord h code
  rwa [hd] at ha

theorem exists_encode_eq_row (h : Nat) {code : List Bool} (hw : Line.rowOk code = true) :
    ∃ i, decodeRow h code = .ok i ∧ encode i = .row h code := by
  have hok := decodeRow_isOk h hw
  cases hd : decodeRow h code with
  | ok i => exact ⟨i, rfl, encode_of_decodeRow_eq_ok hd⟩
  | error e =>
    rw [hd] at hok
    cases hok

/-- A word that some operation encodes to has its kind's length, so a word of a wrong length is rejected. -/
theorem decodeRow_eq_badLength {h : Nat} {code : List Bool} (hk : code.take 5 ≠ [true, true, true, true, true])
    (hw : Line.rowOk code = false) : decodeRow h code = .error .badLength := by
  cases hd : decodeRow h code with
  | ok i =>
    have hwf : (Line.row h code).wf = true := encode_of_decodeRow_eq_ok hd ▸ wf_encode i
    exact absurd (hw.symm.trans hwf) Bool.false_ne_true
  | error e =>
    have ha := decodeRow_answersWord h code
    rw [hd] at ha
    exact congrArg Except.error (ha.trans (if_neg hk))

/-! ### The statements -/

/-- Settles O1: the encoder's line of each operation is well formed and read back. -/
theorem operationsSurviveEncoding : Obligations.OperationsSurviveEncoding :=
  fun i => ⟨wf_encode i, decode_encode i⟩

/-- Settles O2: in each of the three code spaces a well-formed line decodes, and the operation found is encoded as it. -/
theorem linesSurviveDecoding : Obligations.LinesSurviveDecoding := by
  intro l hw
  cases l with
  | contract code h p v => exact exists_encode_eq_contract hw
  | graph code o =>
    obtain ⟨i, hd, _⟩ := exists_decodeGraph_of_lt (toNat_lt_of_graphOk hw) o
    exact ⟨i, hd, encode_of_decodeGraph_eq_ok hw hd⟩
  | row h code => exact exists_encode_eq_row h hw

/-- Settles O3: the reserved codes have arms of their own, and an operation word that is no kind's is too short or too
long. -/
theorem reservedCodesAreRejected : Obligations.ReservedCodesAreRejected :=
  ⟨fun _ _ => rfl, fun _ _ _ => rfl, fun _ => ⟨rfl, rfl⟩, fun _ _ => decodeRow_eq_badLength⟩

/-- Settles O4: each of the words is the one the encoder writes for its operation. -/
theorem someWordsOfTheTable : Obligations.SomeWordsOfTheTable :=
  ⟨decode_encode (.xorGate 0), decode_encode (.jkToggle 0), decode_encode (.shregShr 0), decode_encode (.ctrDown 0),
    decode_encode (.demuxDisabled 0), decode_encode (.aluCompare 0), decode_encode (.memWrite 0),
    decode_encode (.accShl 0), decode_encode (.readPin 3 4), decode_encode (.gTickN 7)⟩

end Sys2Proof.Machine
end

section
/-! Voltages, logic values and edges (R100, R101, R116). -/

namespace Sys2Proof.Machine

set_option Elab.async false

/-! ### Levels of a well-formed configuration (R21) -/

/-- The threshold lies between the levels: low may touch it, high does not. -/
theorem Cfg.ok_iff {cfg : Cfg} : cfg.ok = true ↔ cfg.low ≤ cfg.threshold ∧ cfg.threshold < cfg.high := by
  simp only [Cfg.ok, Bool.and_eq_true, decide_eq_true_eq]

theorem logic_eq_true_iff {cfg : Cfg} {v : Voltage} : logic cfg v = true ↔ cfg.threshold < v := decide_eq_true_iff

theorem logic_eq_false_iff {cfg : Cfg} {v : Voltage} : logic cfg v = false ↔ v ≤ cfg.threshold :=
  decide_eq_false_iff_not.trans Int.not_lt

/-- The comparison with the threshold is strict (R100, R452). -/
theorem logic_threshold (cfg : Cfg) : logic cfg cfg.threshold = false := logic_eq_false_iff.2 (Int.le_refl _)

theorem logic_of_high_le {cfg : Cfg} {v : Voltage} (h : cfg.ok = true) (hv : cfg.high ≤ v) : logic cfg v = true :=
  logic_eq_true_iff.2 (Int.lt_of_lt_of_le (Cfg.ok_iff.1 h).2 hv)

theorem logic_of_le_low {cfg : Cfg} {v : Voltage} (h : cfg.ok = true) (hv : v ≤ cfg.low) : logic cfg v = false :=
  logic_eq_false_iff.2 (Int.le_trans hv (Cfg.ok_iff.1 h).1)

/-- What is presented for a bit reads as that bit (R81, R101). -/
theorem logic_voltage {cfg : Cfg} (h : cfg.ok = true) (b : Bool) : logic cfg (voltage cfg b) = b := by
  cases b
  case false => exact logic_low h
  case true => exact logic_of_high_le h (Int.le_refl _)

/-! ### Edges (R116) -/

/-- An active edge is a change of the logic value. -/
theorem activeEdge_of_logic_eq {cfg : Cfg} {dir : Edge} {prev new : Voltage} (h : logic cfg prev = logic cfg new) :
    activeEdge cfg dir prev new = false := by
  cases dir <;> simp only [activeEdge, h, Bool.not_and_self, Bool.and_not_self]

/-- A rising edge ends at logic 1. -/
theorem activeEdge_rising_of_low {cfg : Cfg} {new : Voltage} (prev : Voltage) (h : logic cfg new = false) :
    activeEdge cfg .rising prev new = false := by
  simp only [activeEdge, h, Bool.and_false]

/-- A falling edge begins at logic 1. -/
theorem activeEdge_falling_of_low {cfg : Cfg} {prev : Voltage} (h : logic cfg prev = false) (new : Voltage) :
    activeEdge cfg .falling prev new = false := by
  simp only [activeEdge, h, Bool.false_and]

/-! ### The statements -/

/-- Settles O6: the levels of a well-formed configuration lie on their sides of the threshold. -/
theorem logicIsStrictlyAboveThreshold : Obligations.LogicIsStrictlyAboveThreshold :=
  ⟨fun _ _ => rfl, logic_threshold, fun _ _ h => ⟨logic_of_high_le h, logic_of_le_low h⟩, by decide⟩

/-- Settles O7: the voltage of a bit is one of the levels, which read as the bit. -/
theorem voltageOfABit : Obligations.VoltageOfABit :=
  ⟨fun _ => ⟨rfl, rfl⟩, fun _ b h => logic_voltage h b, rfl, rfl⟩

/-- Settles O8: an edge is a crossing between logic values, so none ends or begins on the wrong side of the threshold. -/
theorem activeEdges : Obligations.ActiveEdges := by
  refine ⟨?rising, ?falling, fun _ _ _ _ => activeEdge_of_logic_eq,
    fun cfg prev => activeEdge_rising_of_low prev (logic_threshold cfg),
    fun _ new h => activeEdge_falling_of_low (logic_low h) new, by decide⟩
  case rising | falling =>
    intro cfg prev new
    simp only [activeEdge, Bool.decide_eq_false, Bool.decide_eq_true]

end Sys2Proof.Machine
end

section
/-! The pin map at its boundaries (R61, R118), and the two contract operations where nothing is evaluated: a `WritePin` to
power, ground, an output or no pin at all (R108 to R110), and every `ReadPin` (R111, R112). -/

namespace Sys2Proof.Machine

set_option Elab.async false

/-! ### Which pin a number names (R61) -/

theorem npins_eq (p : Params) : npins p = (inputPins p).length + (outputPins p).length + 2 := by
  simp only [npins, pinMap, List.length_append, List.length_cons, List.length_nil]

/-- The two numbers after the outputs are power and ground. -/
theorem pinAt_power (p : Params) : pinAt p (npins p - 2) = some .vcc ∧ pinAt p (npins p - 1) = some .gnd := by
  have hlen : (inputPins p ++ outputPins p).length = npins p - 2 := by
    rw [npins_eq, List.length_append, Nat.add_sub_cancel]
  have hnext : npins p - 1 = npins p - 2 + 1 := by
    rw [npins_eq, Nat.add_sub_cancel]
    rfl
  rw [hnext, pinAt, pinAt, pinMap, ← hlen, List.getElem?_append_right (Nat.le_refl _),
    List.getElem?_append_right (Nat.le_add_right _ 1), Nat.sub_self, Nat.add_sub_cancel_left]
  exact ⟨rfl, rfl⟩

theorem pinAt_of_npins_le {p : Params} {id : Nat} (h : npins p ≤ id) : pinAt p id = none := List.getElem?_eq_none h

/-- No output pin is power, ground or the clock. -/
theorem outputPins_not_power_clk (p : Params) : ∀ P ∈ outputPins p, P ≠ .vcc ∧ P ≠ .gnd ∧ P ≠ .clk := by
  intro P hP
  refine ⟨?_, ?_, ?_⟩ <;> rintro rfl <;> cases p <;> simp [outputPins, bus, channels] at hP

/-- The numbers of the output pins follow those of the input pins. -/
theorem pinAt_output {p : Params} {j : Nat} {P : Pin} (h : (outputPins p)[j]? = some P) :
    pinAt p ((inputPins p).length + j) = some P ∧ isOutputId p ((inputPins p).length + j) = true := by
  have hj : j < (outputPins p).length := (List.getElem?_eq_some_iff.1 h).1
  constructor
  · rw [pinAt, pinMap, List.append_assoc, List.getElem?_append_right (Nat.le_add_right _ _), Nat.add_sub_cancel_left,
      List.getElem?_append_left hj, h]
  · simp only [isOutputId, Bool.and_eq_true, decide_eq_true_eq]
    omega

/-- The number of an output pin is an output's place after the inputs. -/
theorem exists_output_of_isOutputId {p : Params} {id : Nat} (h : isOutputId p id = true) :
    ∃ j P, id = (inputPins p).length + j ∧ (outputPins p)[j]? = some P := by
  simp only [isOutputId, Bool.and_eq_true, decide_eq_true_eq] at h
  obtain ⟨j, rfl⟩ := Nat.exists_eq_add_of_le h.1
  exact ⟨j, _, rfl, List.getElem?_eq_getElem (by omega)⟩

/-! ### Writes that evaluate nothing (R108 to R110) -/

theorem Comp.writePin_of_vcc {c : Comp} {p : Nat} (h : pinAt c.params p = some .vcc) (v : Voltage) :
    c.writePin p v = (c.withVcc v, .ok) := by
  simp only [Comp.writePin, h]

theorem Comp.writePin_of_gnd {c : Comp} {p : Nat} (h : pinAt c.params p = some .gnd) (v : Voltage) :
    c.writePin p v = (c.withGnd v, .ok) := by
  simp only [Comp.writePin, h]

theorem Comp.writePin_of_none {c : Comp} {p : Nat} (h : pinAt c.params p = none) (v : Voltage) :
    c.writePin p v = (c, .failed .unknownPin) := by
  simp only [Comp.writePin, h]

/-- An output goes on showing what the component drives (R109). -/
theorem Comp.writePin_of_output {c : Comp} {p : Nat} (h : isOutputId c.params p = true) (v : Voltage) :
    c.writePin p v = (c, .ok) := by
  obtain ⟨j, P, rfl, hP⟩ := exists_output_of_isOutputId h
  obtain ⟨hvcc, hgnd, hclk⟩ := outputPins_not_power_clk _ P (List.mem_of_getElem? hP)
  have hat := (pinAt_output hP).1
  rcases c.writePin_cases _ v with ⟨hp, _⟩ | ⟨hp, _⟩ | ⟨hp, _⟩ | ⟨hp, _⟩ | ⟨_, _, _, _, _, ⟨_, hw⟩ | ⟨hout, _⟩⟩
  · cases hat.symm.trans hp
  · exact absurd (Option.some.inj (hat.symm.trans hp)) hvcc
  · exact absurd (Option.some.inj (hat.symm.trans hp)) hgnd
  · exact absurd (Option.some.inj (hat.symm.trans hp)) hclk
  · exact hw
  · cases h.symm.trans hout

/-- Putting a component back where it stands changes nothing. -/
theorem State.setComp_self {s : State} {h : Nat} {c : Comp} (hc : s.comps[h]? = some c) : s.setComp h c = s := by
  obtain ⟨hlt, rfl⟩ := List.getElem?_eq_some_iff.1 hc
  rw [State.setComp, List.set_getElem_self]

/-- Settles O9: each of these numbers names its pin, and the write to it stops before any evaluation. -/
theorem writePinWithoutEvaluation : Obligations.WritePinWithoutEvaluation := by
  refine ⟨fun s h c v hc => ⟨?vcc, ?gnd⟩, fun s h c p v hc hp => ?output, fun s h c p v hc hp => ?unknown, rfl⟩ <;>
    rw [exec_writePin_some hc]
  case vcc => rw [Comp.writePin_of_vcc (pinAt_power c.params).1]; rfl
  case gnd => rw [Comp.writePin_of_gnd (pinAt_power c.params).2]; rfl
  case output => rw [Comp.writePin_of_output hp, State.setComp_self hc]; rfl
  case unknown => rw [Comp.writePin_of_none (pinAt_of_npins_le hp), State.setComp_self hc]; rfl

/-! ### Reads (R111, R112) -/

theorem Comp.readPin_of_none {c : Comp} {p : Nat} (h : pinAt c.params p = none) :
    c.readPin p = .failed .unknownPin := by
  simp only [Comp.readPin, Comp.readPin?, h]

theorem Comp.readPin_power (c : Comp) :
    c.readPin (npins c.params - 2) = .voltage c.vcc ∧ c.readPin (npins c.params - 1) = .voltage c.gnd := by
  obtain ⟨hvcc, hgnd⟩ := pinAt_power c.params
  simp only [Comp.readPin, Comp.readPin?, hvcc, hgnd, and_self]

/-- A pin that is neither power nor ground is read as an output, or not at all. -/
theorem Comp.readPin_of_not_power {c : Comp} {p : Nat} {P : Pin} (h : pinAt c.params p = some P) (hvcc : P ≠ .vcc)
    (hgnd : P ≠ .gnd) :
    c.readPin p =
      if isOutputId c.params p then .voltage (voltage c.cfg (c.outBit P)) else .failed .unknownPin := by
  have hr : c.readPin? p = if isOutputId c.params p then some (voltage c.cfg (c.outBit P)) else none := by
    unfold Comp.readPin?
    rw [h]
    cases P
    case vcc => exact absurd rfl hvcc
    case gnd => exact absurd rfl hgnd
    all_goals rfl
  rw [Comp.readPin, hr]
  cases isOutputId c.params p <;> rfl

theorem Comp.readPin_output {c : Comp} {j : Nat} {P : Pin} (h : (outputPins c.params)[j]? = some P) :
    c.readPin ((inputPins c.params).length + j) = .voltage (voltage c.cfg (c.outBit P)) := by
  obtain ⟨hat, hout⟩ := pinAt_output h
  obtain ⟨hvcc, hgnd, -⟩ := outputPins_not_power_clk _ P (List.mem_of_getElem? h)
  rw [Comp.readPin_of_not_power hat hvcc hgnd, if_pos hout]

theorem Comp.readPin_input {c : Comp} {p : Nat} (h : p < (inputPins c.params).length) :
    c.readPin p = .failed .unknownPin := by
  obtain ⟨hat, hout, hvcc, hgnd⟩ := pinAt_of_inputAt (List.getElem?_eq_getElem h)
  rw [Comp.readPin_of_not_power hat hvcc hgnd, hout]
  rfl

/-- A `ReadPin` of a component that is there. -/
theorem exec_readPin_some {s : State} {h : Nat} {c : Comp} (hc : s.comps[h]? = some c) (p : Nat) :
    exec (.readPin h p) s = .next (s.answer (c.readPin p)) :=
  State.onComp_some hc _

/-- Settles O13: each number is an output's, power, ground, an input's or no pin's, and is read as such. -/
theorem readPinValues : Obligations.ReadPinValues := by
  intro s h c hc
  refine ⟨fun j P hP => ?output, ?vcc, ?gnd, fun p hp => ?input, fun p hp => ?unknown⟩ <;> rw [exec_readPin_some hc]
  case output => rw [Comp.readPin_output hP]; rfl
  case vcc => rw [c.readPin_power.1]
  case gnd => rw [c.readPin_power.2]
  case input => rw [Comp.readPin_input hp]
  case unknown => rw [Comp.readPin_of_none (pinAt_of_npins_le hp)]

end Sys2Proof.Machine
end

section
/-! What an evaluation depends on, and when evaluating again changes nothing (R83, R107, R174, R301): on a clocked kind an
asynchronous pin forces both stages or, without an event, nothing happens; on an unclocked kind every operation is
idempotent. -/

namespace Sys2Proof.Machine

set_option Elab.async false

/-! ### The operation word reads the pins alone (R83, R85) -/

/-- Two components of one kind whose pins read alike compute the same operation word. -/
theorem opWord_congr {c d : Comp} (hp : d.params = c.params) (hb : ∀ P, d.inBit P = c.inBit P) (port e : Bool) :
    opWord d port e = opWord c port e := by
  have hbit : controlBit d e = controlBit c e := by
    funext b
    cases b with
    | pin P => exact hb P
    | event => rfl
    | port b => rfl
  rw [opWord, opWord, hp, hbit]

/-- The operation word of an unclocked kind has no event bit. -/
theorem opWord_event_irrel {c : Comp} (hk : Kind.isClocked (Params.kind c.params) = false) (port e e' : Bool) :
    opWord c port e = opWord c port e' := by
  unfold opWord
  cases hp : Params.kind c.params <;> rw [hp] at hk <;> first | rfl | cases hk

theorem performSelected_of_decode {c : Comp} {port e : Bool} {i : Instr} (hd : decodeRow 0 (opWord c port e) = .ok i) :
    performSelected c port e = perform i c :=
  (perform_of_decodeRow hd).symm

/-! ### Power, ground and the previous clock (R23, R24) -/

/-- The component with other voltages at its clock and power pins, which no operation reads. -/
def Comp.withRails (c : Comp) (clkPrev vcc gnd : Voltage) : Comp :=
  { c with clkPrev := clkPrev, vcc := vcc, gnd := gnd }

theorem perform_withRails (i : Instr) (c : Comp) (k a b : Voltage) :
    perform i (c.withRails k a b) = ((perform i c).1.withRails k a b, (perform i c).2) := by
  cases i <;> rfl

theorem evaluate_withRails (c : Comp) (e : Bool) (k a b : Voltage) :
    evaluate (c.withRails k a b) e = ((evaluate c e).1.withRails k a b, (evaluate c e).2) := by
  have hword : opWord (c.withRails k a b) false e = opWord c false e := rfl
  rw [evaluate_eq_performSelected, evaluate_eq_performSelected, performSelected, performSelected, hword]
  cases decodeRow 0 (opWord c false e) with
  | ok i => exact perform_withRails i c k a b
  | error _ => rfl

/-! ### Settled components (R107, R301) -/

theorem Comp.settled_iff {c : Comp} : c.settled = true ↔ (evaluate c false).1 = c := decide_eq_true_iff

theorem Comp.settled_withRails {c : Comp} (hc : c.settled = true) (k a b : Voltage) :
    (c.withRails k a b).settled = true := by
  rw [Comp.settled_iff, evaluate_withRails, Comp.settled_iff.1 hc]

/-! ### Unclocked kinds (R174, R301, R322) -/

/-- What the buffers determine is determined again as it was. -/
theorem perform_perform {i : Instr} {h : Nat} {k : Kind} (hrow : rowTarget i = some (h, k)) (hk : Kind.isClocked k = false)
    (c : Comp) : (perform i (perform i c).1).1 = (perform i c).1 := by
  cases i <;> simp only [rowTarget, Option.some.injEq, Prod.mk.injEq, reduceCtorEq] at hrow <;>
    obtain ⟨rfl, rfl⟩ := hrow <;> first | rfl | cases hk

theorem settled_evaluate_of_unclocked {c : Comp} (hne : Params.kind c.params ≠ .reserved)
    (hk : Kind.isClocked (Params.kind c.params) = false) (e : Bool) : (evaluate c e).1.settled = true := by
  obtain ⟨i, hd, hrow⟩ := decodeRow_opWord 0 c false e hne
  have hfirst : evaluate c e = perform i c := by rw [evaluate_eq_performSelected, performSelected_of_decode hd]
  have hword : opWord (evaluate c e).1 false false = opWord c false e := by
    rw [opWord_congr (evaluate_params c e) (evaluate_inBit c e), opWord_event_irrel hk false false e]
  have hagain : evaluate (evaluate c e).1 false = perform i (evaluate c e).1 := by
    rw [evaluate_eq_performSelected, performSelected_of_decode (hword ▸ hd)]
  rw [Comp.settled_iff, hagain, hfirst, perform_perform hrow hk]

/-! ### Clocked kinds (R26, R107, R162) -/

/-- RESET stands high, or on a kind that has the pin SET does (R107). -/
def Comp.Forced (c : Comp) : Prop :=
  (.reset ∈ inputPins c.params ∧ c.inBit .reset = true) ∨ (.set ∈ inputPins c.params ∧ c.inBit .set = true)

/-- Every kind with a SET pin has a RESET pin (R164 to R214). -/
theorem reset_mem_of_set_mem {p : Params} (h : .set ∈ inputPins p) : .reset ∈ inputPins p := by
  cases p <;> simp [inputPins, bus, channels] at h ⊢

/-- A kind with a clock pin is a clocked one (R25). -/
theorem isClocked_of_clk_mem {p : Params} (h : .clk ∈ inputPins p) : Kind.isClocked (Params.kind p) = true := by
  cases p <;> first | rfl | simp [inputPins, bus, channels] at h

/-- Under a high asynchronous pin a clocked kind has both stages forced to one value, whatever they and the clock hold. -/
theorem exists_forced {c : Comp} (hk : Kind.isClocked (Params.kind c.params) = true) (hok : c.params.ok = true)
    (hf : c.Forced) : ∃ r, ∀ m q e, evaluate { c with m := m, q := q } e = ({ c with m := r, q := r }, .ok) := by
  have hreset : .reset ∈ inputPins c.params := hf.elim And.left fun h => reset_mem_of_set_mem h.1
  by_cases hr : c.inBit .reset = true
  · refine ⟨resetRegs c.params, fun m q e => ?_⟩
    rw [evaluate_of_reset (c := { c with m := m, q := q }) hreset hr, Comp.forcedReset]
    simp only [hk, if_true]
  · obtain ⟨hset, hs⟩ := hf.resolve_left fun h => hr h.2
    refine ⟨c.setRegs, fun m q e => ?_⟩
    rw [evaluate_of_set (c := { c with m := m, q := q }) hok hset (Bool.eq_false_iff.2 hr) hs, Comp.forcedSet]
    simp only [hk, if_true]
    rfl

/-- Without an event and without a high asynchronous pin nothing happens on a clocked kind (R162). -/
theorem evaluate_idle {c : Comp} (hk : Kind.isClocked (Params.kind c.params) = true) (hf : ¬c.Forced) :
    evaluate c false = (c, .ok) := by
  have hr : .reset ∈ inputPins c.params → c.inBit .reset = false := fun h => Bool.eq_false_iff.2 fun hb => hf (.inl ⟨h, hb⟩)
  have hs : .set ∈ inputPins c.params → c.inBit .set = false := fun h => Bool.eq_false_iff.2 fun hb => hf (.inr ⟨h, hb⟩)
  obtain ⟨p, cfg, edge, ins, clkPrev, vcc, gnd, m, q⟩ := c
  cases p
  case dff => rw [evaluate_dff rfl, hr (by simp [inputPins]), hs (by simp [inputPins])]; rfl
  case jkff => rw [evaluate_jkff rfl, hr (by simp [inputPins]), hs (by simp [inputPins])]; rfl
  case tff => rw [evaluate_tff rfl, hr (by simp [inputPins]), hs (by simp [inputPins])]; rfl
  case register => rw [evaluate_register rfl, hr (by simp [inputPins]), hs (by simp [inputPins])]; rfl
  case shiftRegister => rw [evaluate_shiftRegister rfl, hr (by simp [inputPins]), hs (by simp [inputPins])]; rfl
  case univShiftRegister => rw [evaluate_univShiftRegister rfl, hr (by simp [inputPins]), hs (by simp [inputPins])]; rfl
  case counter => rw [evaluate_counter rfl, hr (by simp [inputPins])]; rfl
  case bcdCounter => rw [evaluate_bcdCounter rfl, hr (by simp [inputPins])]; rfl
  case ringCounter => rw [evaluate_ringCounter rfl, hr (by simp [inputPins])]; rfl
  case johnsonCounter => rw [evaluate_johnsonCounter rfl, hr (by simp [inputPins])]; rfl
  case clockDivider => rw [evaluate_clockDivider rfl, hr (by simp [inputPins])]; rfl
  case memory => rw [evaluate_memory rfl]; rfl
  case accumulator => rw [evaluate_accumulator rfl, hr (by simp [inputPins])]; rfl
  all_goals cases hk

/-- The asynchronous pins do not look at the stages. -/
theorem Comp.forced_congr {c d : Comp} (hp : d.params = c.params) (hb : ∀ P, d.inBit P = c.inBit P) :
    d.Forced ↔ c.Forced := by
  simp only [Comp.Forced, hp, hb]

theorem kind_ne_reserved_of_ok {p : Params} (h : p.ok = true) : Params.kind p ≠ .reserved := by
  intro hk
  cases p <;> cases hk
  cases h

/-- Whatever is evaluated, evaluating again without an event changes nothing (R107). -/
theorem settled_evaluate {c : Comp} (hok : c.params.ok = true) (e : Bool) : (evaluate c e).1.settled = true := by
  cases hk : Kind.isClocked (Params.kind c.params) with
  | false => exact settled_evaluate_of_unclocked (kind_ne_reserved_of_ok hok) hk e
  | true =>
    rw [Comp.settled_iff]
    by_cases hf : c.Forced
    · obtain ⟨r, hr⟩ := exists_forced hk hok hf
      rw [hr c.m c.q e, hr r r false]
    · have hfd : ¬(evaluate c e).1.Forced := by rwa [Comp.forced_congr (evaluate_params c e) (evaluate_inBit c e)]
      rw [evaluate_idle (by rwa [evaluate_params]) hfd]

/-- On a settled clocked component an evaluation without an event does nothing and does not fail. -/
theorem evaluate_of_settled {c : Comp} (hw : c.wf = true) (hk : Kind.isClocked (Params.kind c.params) = true)
    (hs : c.settled = true) : evaluate c false = (c, .ok) := by
  have hfst := Comp.settled_iff.1 hs
  refine Prod.ext hfst ?_
  by_cases hf : c.Forced
  · obtain ⟨r, hr⟩ := exists_forced hk (Comp.wf_params hw) hf
    rw [hr c.m c.q false]
  · rw [evaluate_idle hk hf]

/-- Under a high asynchronous pin the event bit is not looked at: the edge is consumed (R162). -/
theorem evaluate_forced_event {c : Comp} (hw : c.wf = true) (hk : Kind.isClocked (Params.kind c.params) = true)
    (hf : c.Forced) (e : Bool) : evaluate c e = evaluate c false := by
  obtain ⟨r, hr⟩ := exists_forced hk (Comp.wf_params hw) hf
  exact (hr c.m c.q e).trans (hr c.m c.q false).symm

/-- A commit on a settled component: under a high asynchronous pin the stages agree already (R26, R107). -/
theorem Comp.settled_commit {c : Comp} (hw : c.wf = true) (hk : Kind.isClocked (Params.kind c.params) = true)
    (hs : c.settled = true) : c.commit.settled = true := by
  by_cases hf : c.Forced
  · obtain ⟨r, hr⟩ := exists_forced hk (Comp.wf_params hw) hf
    have hc : { c with m := r, q := r } = c := (congrArg Prod.fst (hr c.m c.q false)).symm.trans (Comp.settled_iff.1 hs)
    have hcommit : c.commit = c := by
      rw [← hc]
      rfl
    rwa [hcommit]
  · have hidle : evaluate c.commit false = (c.commit, .ok) :=
      evaluate_idle (c := c.commit) hk (by rwa [Comp.forced_congr rfl fun P => c.inBit_commit P])
    rw [Comp.settled_iff, hidle]

end Sys2Proof.Machine
end

section
/-! `WritePin` to an input pin and to the clock (R104 to R107): the operation that the table's word names runs on the stored
voltage, and the write leaves its state. -/

namespace Sys2Proof.Machine

set_option Elab.async false

/-! ### The operations of a write's last line -/

/-- The state once component `h`, with the voltage of a write stored in `d`, has performed its selected operation. -/
def State.afterEvaluate (s : State) (h : Nat) (d : Comp) (e : Bool) : State :=
  (s.setComp h (evaluate d e).1).answer (rowResult (evaluate d e))

/-- A write acknowledges what its operation answered (R104). -/
theorem acknowledged_rowResult (r : Comp × Status) : (rowResult r).acknowledged = r.2.toResult := by
  obtain ⟨d, _ | _⟩ := r <;> rfl

theorem State.afterEvaluate_answer (s : State) (h : Nat) (d : Comp) (e : Bool) :
    (s.afterEvaluate h d e).answer (s.afterEvaluate h d e).result.acknowledged =
      (s.setComp h (evaluate d e).1).answer (evaluate d e).2.toResult := by
  rw [State.afterEvaluate, State.answer_result, acknowledged_rowResult]
  rfl

theorem State.afterEvaluate_comp {s : State} {h : Nat} {c : Comp} (hc : s.comps[h]? = some c) (d : Comp) (e : Bool) :
    (s.afterEvaluate h d e).comps[h]? = some (evaluate d e).1 :=
  State.getElem?_setComp_self hc _

/-- The table's word for the write port, or for the one control word of another kind, names the operation performed. -/
theorem exists_exec_writePort {s : State} {h : Nat} {c d : Comp} {e : Bool} (hc : s.comps[h]? = some c)
    (hne : Params.kind d.params ≠ .reserved) :
    ∃ i, decode (.row h (d.tableWord false e)) = .ok i ∧ exec i (s.setComp h d) = .next (s.afterEvaluate h d e) := by
  obtain ⟨i, hd, hrow⟩ := decodeRow_opWord h d false e hne
  refine ⟨i, by rw [Comp.tableWord_eq]; exact hd, ?_⟩
  rw [exec_row hrow, runRow_of_kind (State.getElem?_setComp_self hc d) rfl, perform_of_decodeRow hd,
    ← evaluate_eq_performSelected, State.setComp_setComp]
  rfl

/-- A Memory's evaluation does not fail (R85). -/
theorem evaluate_memory_ok {d : Comp} (hk : Params.kind d.params = .memory) (e : Bool) : (evaluate d e).2 = .ok := by
  rw [evaluate_eq_performSelected, performSelected_writePort_ok hk]

/-- A Memory's read port, run after its write port, leaves what the write port left (R85). -/
theorem exists_exec_readPort {s : State} {h : Nat} {c d : Comp} {e : Bool} (hc : s.comps[h]? = some c)
    (hk : Params.kind d.params = .memory) :
    ∃ j, decode (.row h (d.tableWord true e)) = .ok j ∧
      exec j (s.afterEvaluate h d e) = .next (s.afterEvaluate h d e) := by
  obtain ⟨j, hd, hrow⟩ := decodeRow_opWord h d true e (by rw [hk]; nofun)
  refine ⟨j, by rw [Comp.tableWord_eq]; exact hd, ?_⟩
  have hk' : Params.kind (evaluate d e).1.params = .memory := by rw [evaluate_params, hk]
  have hword : opWord (evaluate d e).1 true e = opWord d true e :=
    opWord_congr (evaluate_params d e) (evaluate_inBit d e) true e
  have hpair : ((evaluate d e).1, Status.ok) = evaluate d e := by rw [← evaluate_memory_ok hk e]
  rw [exec_row hrow, runRow_of_kind (State.afterEvaluate_comp hc d e) (by rw [hk', hk]),
    perform_of_decodeRow (hword ▸ hd), performSelected_readPort hk', hpair,
    State.setComp_self (State.afterEvaluate_comp hc d e)]
  rfl

/-- All that a write to an input pin does: it stores the voltage, runs the operation the table's word then names (a Memory's
read port after its write port) and answers ok or that operation's failure (R104 to R107). -/
theorem exec_writePin_runs_tableWord {s : State} {h p : Nat} {c d : Comp} {P : Pin} {v : Voltage} {e : Bool}
    (hc : s.comps[h]? = some c) (hP : inputAt c.params p = some P) (hstore : c.store P v = (d, e)) :
    (∃ i, decode (.row h (d.tableWord false e)) = .ok i ∧ exec i (s.setComp h d) = .next (s.afterEvaluate h d e))
      ∧ (Params.kind c.params = .memory → ∃ j, decode (.row h (d.tableWord true e)) = .ok j ∧
        exec j (s.afterEvaluate h d e) = .next (s.afterEvaluate h d e))
      ∧ exec (.writePin h p v) s =
        .next ((s.afterEvaluate h d e).answer (s.afterEvaluate h d e).result.acknowledged)
      ∧ (Params.kind c.params = .memory → (s.afterEvaluate h d e).result.acknowledged = .ok) := by
  have hparams : d.params = c.params := by rw [← c.store_params P v, hstore]
  refine ⟨exists_exec_writePort hc ?_, fun hk => exists_exec_readPort hc (by rw [hparams, hk]), ?_, fun hk => ?_⟩
  · rw [hparams]
    exact kind_ne_reserved_of_inputAt hP
  · rw [State.afterEvaluate_answer, exec_writePin_some hc, Comp.writePin_input hP, hstore]
  · rw [State.afterEvaluate, State.answer_result, acknowledged_rowResult, evaluate_memory_ok (by rw [hparams, hk])]
    rfl

/-! ### The statements -/

/-- The voltage in a buffer depends on the buffers and the levels alone. -/
theorem Comp.buffer_congr {c d : Comp} (hi : d.ins = c.ins) (hc : d.cfg = c.cfg) (P : Pin) : d.buffer P = c.buffer P := by
  rw [Comp.buffer, Comp.buffer, hi, hc]

/-- The buffers of an evaluated component are those it was evaluated with. -/
theorem evaluate_buffer (c : Comp) (e : Bool) (P : Pin) : (evaluate c e).1.buffer P = c.buffer P :=
  Comp.buffer_congr (evaluate_ins c e) (evaluate_cfg c e) P

/-- Settles O10: the write runs the operation of the table's word on the stored buffer, and an operation writes the stages
alone. -/
theorem writePinToAnInput : Obligations.WritePinToAnInput := by
  intro s h c p v P hc hw hP hclk
  obtain ⟨⟨i, hi, hxi⟩, hread, hwrite, hack⟩ := exec_writePin_runs_tableWord (s := s) hc hP (c.store_of_ne hclk v)
  have hbuf : P ∈ c.ins.map Prod.fst := by
    rw [Comp.wf_ins hw]
    exact List.mem_filter.2 ⟨List.mem_of_getElem? hP, decide_eq_true hclk⟩
  refine ⟨c.withIn P v, (evaluate (c.withIn P v) false).1, s.afterEvaluate h (c.withIn P v) false, rfl,
    fun _ => ⟨i, hi, hxi⟩, fun hk => ?ports, hwrite, hack, State.afterEvaluate_comp hc _ _, ?written, fun Q hQ => ?other,
    evaluate_clkPrev _ _, evaluate_vcc _ _, evaluate_gnd _ _, evaluate_cfg _ _, evaluate_edge _ _, evaluate_params _ _⟩
  case ports =>
    obtain ⟨j, hj, hxj⟩ := hread hk
    exact ⟨i, j, _, hi, hj, hxi, hxj⟩
  case written => rw [evaluate_buffer, Comp.buffer_withIn_same v hbuf]
  case other => rw [evaluate_buffer, Comp.buffer_withIn_other v hQ]

/-- Settles O11: the same with the clock stored in place of a buffer, and the edge as the event bit. -/
theorem writePinToTheClock : Obligations.WritePinToTheClock := by
  intro s h c p v hc _ hP
  obtain ⟨⟨i, hi, hxi⟩, hread, hwrite, hack⟩ := exec_writePin_runs_tableWord (s := s) hc hP (c.store_clk v)
  refine ⟨c.withClkPrev v, (evaluate (c.withClkPrev v) (activeEdge c.cfg c.edge c.clkPrev v)).1, _, rfl,
    fun _ => ⟨i, hi, hxi⟩, fun hk => ?ports, hwrite, hack, State.afterEvaluate_comp hc _ _, evaluate_clkPrev _ _,
    evaluate_buffer _ _, evaluate_vcc _ _, evaluate_gnd _ _, evaluate_cfg _ _, evaluate_edge _ _, evaluate_params _ _⟩
  case ports =>
    obtain ⟨j, hj, hxj⟩ := hread hk
    exact ⟨i, j, _, hi, hj, hxi, hxj⟩

/-- The clock is stored where no operation reads it. -/
theorem evaluate_withClkPrev (c : Comp) (v : Voltage) (e : Bool) :
    evaluate (c.withClkPrev v) e = ((evaluate c e).1.withClkPrev v, (evaluate c e).2) := by
  obtain ⟨m, q, hframe⟩ := evaluate_frame c e
  have hrails := evaluate_withRails c e v c.vcc c.gnd
  rw [hframe] at hrails ⊢
  exact hrails

/-- Settles O12: without an edge, and under a high asynchronous pin with one too, a settled component is evaluated to
itself. -/
theorem clockWritesThatChangeNothingElse : Obligations.ClockWritesThatChangeNothingElse := by
  intro s h c p v hc hw hs hP hquiet
  have hk := isClocked_of_clk_mem (List.mem_of_getElem? hP)
  have hself : evaluate c (activeEdge c.cfg c.edge c.clkPrev v) = (c, .ok) := by
    obtain hedge | hforced := hquiet
    · rw [hedge, evaluate_of_settled hw hk hs]
    · rw [evaluate_forced_event hw hk hforced, evaluate_of_settled hw hk hs]
  rw [exec_writePin_some hc, Comp.writePin_input hP, c.store_clk, evaluate_withClkPrev, hself]
  rfl

end Sys2Proof.Machine
end

section
/-! `Tick` of each kind (R113 to R116): it commits a clocked kind's master stage, evaluates an Adder or ALU, sets a Divider's
flag, and leaves every other kind as it is. -/

namespace Sys2Proof.Machine

set_option Elab.async false

/-! ### What `Tick` does, kind by kind -/

/-- A kind is clocked, evaluated, the Divider, or has nothing to commit (R113). -/
theorem Comp.tick_cases (c : Comp) :
    (Kind.isClocked (Params.kind c.params) = true ∧ c.tick = c.commit) ∨
      ((Params.kind c.params = .adder ∨ Params.kind c.params = .alu) ∧ c.tick = (evaluate c false).1) ∨
      (Params.kind c.params = .divider ∧ c.tick = c.tickDivider) ∨
      (Kind.isClocked (Params.kind c.params) = false ∧ c.tick = c) := by
  unfold Comp.tick
  split
  · next hk => exact .inr (.inl ⟨.inl hk, rfl⟩)
  · next hk => exact .inr (.inl ⟨.inr hk, rfl⟩)
  · next hk => exact .inr (.inr (.inl ⟨hk, rfl⟩))
  · split
    · next hk => exact .inl ⟨hk, rfl⟩
    · next hk => exact .inr (.inr (.inr ⟨Bool.eq_false_iff.2 hk, rfl⟩))

theorem Comp.tick_evaluated {c : Comp} (hk : Params.kind c.params = .adder ∨ Params.kind c.params = .alu) :
    c.tick = (evaluate c false).1 := by
  obtain hk | hk := hk <;> simp only [Comp.tick, hk]

theorem Comp.tick_divider {c : Comp} (hk : Params.kind c.params = .divider) : c.tick = c.tickDivider := by
  simp only [Comp.tick, hk]

/-- A zero divisor sets the flag while RESET is low (R316). -/
theorem Comp.tickDivider_zero {c : Comp} (hr : c.inBit .reset = false) (hb : c.opB c.width = 0) :
    c.tickDivider = c.withQ (.dz true) := by
  rw [Comp.tickDivider, hr, hb]
  rfl

theorem Comp.tickDivider_hold {c : Comp} (h : c.inBit .reset = true ∨ c.opB c.width ≠ 0) : c.tickDivider = c := by
  obtain hr | hb := h
  · rw [Comp.tickDivider, hr]
    rfl
  · rw [Comp.tickDivider, decide_eq_false hb, Bool.and_false]
    rfl

/-- The Divider's flag once set stays set under further ticks. -/
theorem Comp.tickDivider_tickDivider (c : Comp) : c.tickDivider.tickDivider = c.tickDivider := by
  by_cases h : c.inBit .reset = false ∧ c.opB c.width = 0
  · rw [Comp.tickDivider_zero h.1 h.2, Comp.tickDivider_zero (c := c.withQ (.dz true)) h.1 h.2]
    rfl
  · rw [not_and_or, Bool.not_eq_false] at h
    rw [Comp.tickDivider_hold h, Comp.tickDivider_hold h]

/-- What a tick leaves, a second one leaves as it is (R114, R457). -/
theorem Comp.tick_tick (c : Comp) : c.tick.tick = c.tick := by
  rcases c.tick_cases with ⟨hk, ht⟩ | ⟨hk, ht⟩ | ⟨hk, ht⟩ | ⟨_, ht⟩
  · rw [ht, Comp.tick_clocked (c := c.commit) hk]
    rfl
  · have hkind : Params.kind c.tick.params = .adder ∨ Params.kind c.tick.params = .alu := by rwa [c.tick_params]
    have hsettled : (evaluate c false).1.settled = true := by
      obtain hk | hk := hk <;> exact settled_evaluate_of_unclocked (by rw [hk]; nofun) (by rw [hk]; rfl) false
    rw [Comp.tick_evaluated hkind, ht, Comp.settled_iff.1 hsettled]
  · rw [Comp.tick_divider (by rw [c.tick_params, hk]), ht, c.tickDivider_tickDivider]
  · rw [ht, ht]

/-! ### The statements -/

/-- A `Tick` of a component that is there always answers ok (R115). -/
theorem exec_tick_some {s : State} {h : Nat} {c : Comp} (hc : s.comps[h]? = some c) :
    exec (.tick h) s = .next ((s.setComp h c.tick).answer .ok) :=
  State.onComp_some hc _

/-- The kinds with nothing to commit (R140, R199, R290). -/
def kindsWithoutCommit : List Kind :=
  [.notGate, .andGate, .orGate, .nandGate, .norGate, .xorGate, .halfAdder, .fullAdder, .mux, .demux, .decoder,
    .multiplier, .bcdAdder, .srLatch, .dLatch]

theorem of_mem_kindsWithoutCommit : ∀ k ∈ kindsWithoutCommit,
    Kind.isClocked k = false ∧ k ≠ .adder ∧ k ≠ .alu ∧ k ≠ .divider := by
  decide

theorem Comp.tick_of_no_commit {c : Comp} (hk : Params.kind c.params ∈ kindsWithoutCommit) : c.tick = c := by
  obtain ⟨hunclocked, hadder, halu, hdivider⟩ := of_mem_kindsWithoutCommit _ hk
  rcases c.tick_cases with ⟨hclocked, _⟩ | ⟨h | h, _⟩ | ⟨h, _⟩ | ⟨_, ht⟩
  · cases hunclocked.symm.trans hclocked
  · exact absurd h hadder
  · exact absurd h halu
  · exact absurd h hdivider
  · exact ht

/-- Settles O14: each kind's tick is its case of the model's, and an Adder's or ALU's is the operation its word names. -/
theorem tickOfEachKind : Obligations.TickOfEachKind := by
  intro s h c hc hw
  rw [exec_tick_some hc]
  refine ⟨fun hk => ?clocked, fun hk => ?held, fun hk => ?evaluated, fun w hp => ⟨fun hr hb => ?zero, fun hrb => ?hold⟩⟩
  case clocked => rw [Comp.tick_clocked hk]; rfl
  case held => rw [Comp.tick_of_no_commit hk, State.setComp_self hc]
  case evaluated =>
    obtain ⟨i, hi, hx⟩ := exists_exec_writePort (d := c) (e := false) hc (kind_ne_reserved_of_ok (Comp.wf_params hw))
    rw [State.setComp_self hc] at hx
    rw [Comp.tick_evaluated hk]
    exact ⟨i, _, hi, hx, rfl⟩
  case zero =>
    have hwidth : c.width = w := congrArg Params.width hp
    rw [Comp.tick_divider (congrArg Params.kind hp), Comp.tickDivider_zero hr (hwidth.symm ▸ hb)]
    rfl
  case hold =>
    have hwidth : c.width = w := congrArg Params.width hp
    rw [Comp.tick_divider (congrArg Params.kind hp), Comp.tickDivider_hold (hwidth.symm ▸ hrb), State.setComp_self hc]

/-- Settles O15: the tick answers ok whatever the evaluation it runs answers. -/
theorem tickNeverFails : Obligations.TickNeverFails := by
  intro s h c hc
  refine ⟨c.tick, exec_tick_some hc, fun hk h1 h0 => ?adder, fun hk h3 hreserved => ?alu, fun w hp hb hr => ?divider⟩
  case adder =>
    rw [Comp.tick_evaluated (.inl hk), evaluate_adder hk, if_pos h1, if_pos h0]
    rfl
  case alu =>
    rw [Comp.tick_evaluated (.inr hk), evaluate_alu hk, if_pos h3]
    by_cases h2 : c.inBit (.op 2) = true
    · rw [if_pos h2]
      rfl
    · obtain ⟨h1, h0⟩ := hreserved.resolve_left h2
      rw [if_neg h2, if_pos h1, if_pos h0]
      rfl
  case divider =>
    have hwidth : c.width = w := congrArg Params.width hp
    rw [Comp.tick_divider (congrArg Params.kind hp), Comp.tickDivider_zero hr (hwidth.symm ▸ hb), Comp.outBit,
      Comp.withQ_params, hp]
    rfl

/-- Settles O16: the component is one that a tick leaves as it is, and the answer is the same. -/
theorem tickIsIdempotent : Obligations.TickIsIdempotent := by
  intro s h c hc
  have hself : ((s.setComp h c.tick).answer .ok).comps[h]? = some c.tick := State.getElem?_setComp_self hc _
  refine ⟨c.tick_tick, (s.setComp h c.tick).answer .ok, exec_tick_some hc, ?_⟩
  rw [exec_tick_some hself, c.tick_tick, State.setComp_self hself]
  rfl

end Sys2Proof.Machine
end

section
/-! Every step keeps every component settled (R107, R174, R301, R322): a write evaluates what it stored, a tick commits what
the asynchronous pins agree with, and a new component reads low on every pin. -/

namespace Sys2Proof.Machine

set_option Elab.async false

/-! ### The contract operations -/

theorem Comp.writePin_settled {c : Comp} (hw : c.wf = true) (hs : c.settled = true) (p : Nat) (v : Voltage) :
    (c.writePin p v).1.settled = true := by
  have hok := Comp.wf_params hw
  rcases c.writePin_cases p v with ⟨_, h⟩ | ⟨_, h⟩ | ⟨_, h⟩ | ⟨_, h⟩ | ⟨P, _, _, _, _, ⟨_, h⟩ | ⟨_, h⟩⟩ <;> rw [h]
  · exact hs
  · exact Comp.settled_withRails hs c.clkPrev v c.gnd
  · exact Comp.settled_withRails hs c.clkPrev c.vcc v
  · exact settled_evaluate (c := c.withClkPrev v) hok _
  · exact hs
  · exact settled_evaluate (c := c.withIn P v) hok false

/-- Setting the Divider's flag is no evaluation, and RESET low leaves the flag as it is (R315, R316). -/
theorem Comp.settled_tickDivider {c : Comp} (hk : Params.kind c.params = .divider) (hs : c.settled = true) :
    c.tickDivider.settled = true := by
  by_cases h : c.inBit .reset = false ∧ c.opB c.width = 0
  · have hlow : ¬(c.withQ (.dz true)).inBit .reset = true := Bool.eq_false_iff.1 h.1
    rw [Comp.tickDivider_zero h.1 h.2, Comp.settled_iff, evaluate_divider (c := c.withQ (.dz true)) hk, if_neg hlow]
    rfl
  · rw [not_and_or, Bool.not_eq_false] at h
    rwa [Comp.tickDivider_hold h]

theorem Comp.tick_settled {c : Comp} (hw : c.wf = true) (hs : c.settled = true) : c.tick.settled = true := by
  rcases c.tick_cases with ⟨hk, ht⟩ | ⟨_, ht⟩ | ⟨hk, ht⟩ | ⟨_, ht⟩ <;> rw [ht]
  · exact Comp.settled_commit hw hk hs
  · exact settled_evaluate (Comp.wf_params hw) false
  · exact Comp.settled_tickDivider hk hs
  · exact hs

/-! ### A new component (R46, R441) -/

/-- A kind with no stage of its own has nothing an operation could change (R27). -/
theorem evaluate_of_stateless {c : Comp} (h : Regs.wf c.params .none = true) (e : Bool) : (evaluate c e).1 = c := by
  cases hp : c.params <;> rw [hp] at h <;> replace hp := congrArg Params.kind hp
  case notGate => rw [evaluate_notGate hp]; rfl
  case andGate => rw [evaluate_andGate hp]; rfl
  case orGate => rw [evaluate_orGate hp]; rfl
  case nandGate => rw [evaluate_nandGate hp]; rfl
  case norGate => rw [evaluate_norGate hp]; rfl
  case xorGate => rw [evaluate_xorGate hp]; rfl
  case halfAdder => rw [evaluate_halfAdder hp]; rfl
  case fullAdder => rw [evaluate_fullAdder hp]; rfl
  case mux => rw [evaluate_mux hp]; split <;> rfl
  case demux => rw [evaluate_demux hp]; split <;> rfl
  case decoder => rw [evaluate_decoder hp]; split <;> rfl
  case multiplier => rw [evaluate_multiplier hp]; rfl
  case bcdAdder => rw [evaluate_bcdAdder hp]; rfl
  all_goals cases h

/-- Storing the stage that already stands changes nothing. -/
theorem Comp.withQ_of_eq {c : Comp} {r : Regs} (h : c.q = r) : c.withQ r = c := by
  subst h
  rfl

/-- A new Adder holds 0 + 0 + 0 (R301). -/
theorem evaluate_newComp_adder {config : CompConfig} (h : config.ok = true) {w : Nat} (hp : config.params = .adder w) :
    (evaluate (newComp config) false).1 = newComp config := by
  have hbit := inBit_newComp h
  rw [evaluate_adder (congrArg Params.kind hp), hbit, hbit, if_neg Bool.false_ne_true, if_neg Bool.false_ne_true]
  refine Comp.withQ_of_eq ((newComp_q config).trans ?_)
  simp [hp, resetRegs, Comp.opA, Comp.opB, inWord_newComp h, hbit, bitsW, carryOut, ovfAdd]

/-- A new ALU holds 0 + 0 and its flags (R322). -/
theorem evaluate_newComp_alu {config : CompConfig} (h : config.ok = true) {w : Nat} (hp : config.params = .alu w) :
    (evaluate (newComp config) false).1 = newComp config := by
  rw [evaluate_alu (congrArg Params.kind hp)]
  simp only [inBit_newComp h, Bool.false_eq_true, if_false]
  refine Comp.withQ_of_eq ((newComp_q config).trans ?_)
  simp [hp, resetRegs, clearFlags, flagsOf, signBit, Comp.opA, Comp.opB, inWord_newComp h, bitsW, carryOut, ovfAdd]

/-- Every pin of a new component reads low: no asynchronous pin forces it, no latch is transparent, and the Adder and ALU
add zeros. -/
theorem newComp_settled {config : CompConfig} (h : config.ok = true) : (newComp config).settled = true := by
  have hbit : ∀ P, ¬(newComp config).inBit P = true := fun P => Bool.eq_false_iff.1 (inBit_newComp h P)
  have hclocked : Kind.isClocked (Params.kind config.params) = true → (evaluate (newComp config) false).1 = newComp config :=
    fun hk => congrArg Prod.fst (evaluate_idle (c := newComp config) hk fun hf => hf.elim (hbit _ ·.2) (hbit _ ·.2))
  have hstateless : Regs.wf config.params .none = true → (evaluate (newComp config) false).1 = newComp config :=
    fun hn => evaluate_of_stateless (c := newComp config) hn false
  rw [Comp.settled_iff]
  cases hp : config.params
  case srLatch =>
    rw [evaluate_srLatch (congrArg Params.kind hp), if_neg (hbit _), if_neg (hbit _), if_neg (hbit _), if_neg (hbit _)]
    rfl
  case dLatch =>
    rw [evaluate_dLatch (congrArg Params.kind hp), if_neg (hbit _), if_neg (hbit _), if_neg (hbit _)]
    rfl
  case divider =>
    rw [evaluate_divider (congrArg Params.kind hp), if_neg (hbit _)]
    rfl
  case adder => exact evaluate_newComp_adder h hp
  case alu => exact evaluate_newComp_alu h hp
  case reserved => exact absurd (hp ▸ (CompConfig.ok_iff.1 h).1 :) Bool.false_ne_true
  case notGate | andGate | orGate | nandGate | norGate | xorGate | halfAdder | fullAdder | mux | demux | decoder
      | multiplier | bcdAdder =>
    exact hstateless (by rw [hp]; rfl)
  all_goals exact hclocked (by rw [hp]; rfl)

/-! ### The graph's ticks (R385, R386) -/

/-- Every component is well formed and settled. -/
def AllSettled (cs : List Comp) : Prop := ∀ c ∈ cs, c.wf = true ∧ c.settled = true

theorem AllSettled.get {cs : List Comp} (h : AllSettled cs) {j : Nat} {c : Comp} (hc : cs[j]? = some c) :
    c.wf = true ∧ c.settled = true :=
  h c (List.mem_of_getElem? hc)

theorem AllSettled.set {cs : List Comp} (h : AllSettled cs) {d : Comp} (hw : d.wf = true) (hs : d.settled = true)
    (j : Nat) : AllSettled (cs.set j d) := by
  intro e he
  obtain he | rfl := List.mem_or_eq_of_mem_set he
  · exact h e he
  · exact ⟨hw, hs⟩

theorem AllSettled.setWritten {cs : List Comp} (h : AllSettled cs) {j : Nat} {c : Comp} (hc : cs[j]? = some c) (p : Nat)
    (v : Voltage) : AllSettled (cs.set j (c.writePin p v).1) :=
  h.set (Comp.writePin_wf (h.get hc).1 p v) (Comp.writePin_settled (h.get hc).1 (h.get hc).2 p v) j

theorem AllSettled.setTicked {cs : List Comp} (h : AllSettled cs) {j : Nat} {c : Comp} (hc : cs[j]? = some c) :
    AllSettled (cs.set j c.tick) :=
  h.set (Comp.tick_wf (h.get hc).1) (Comp.tick_settled (h.get hc).1 (h.get hc).2) j

theorem AllSettled.writeComp {cs : List Comp} (h : AllSettled cs) (j p : Nat) (v : Voltage) :
    AllSettled (writeComp cs j p v) := by
  unfold Machine.writeComp
  split
  · exact h
  · next hc => exact h.setWritten hc p v

theorem AllSettled.tickComp {cs : List Comp} (h : AllSettled cs) (j : Nat) : AllSettled (tickComp cs j) := by
  unfold Machine.tickComp
  split
  · exact h
  · next hc => exact h.setTicked hc

theorem AllSettled.copyWire {cs : List Comp} (h : AllSettled cs) (w : Wire) : AllSettled (copyWire cs w) := by
  unfold Machine.copyWire
  split
  · exact h
  · split
    · exact h
    · exact h.writeComp w.toH w.toP _

/-- A run of operations that each keep the components settled keeps them settled. -/
theorem AllSettled.foldl {α : Type} {f : List Comp → α → List Comp}
    (hf : ∀ {cs}, AllSettled cs → ∀ a, AllSettled (f cs a)) (l : List α) {cs : List Comp} (h : AllSettled cs) :
    AllSettled (l.foldl f cs) :=
  List.foldlRecOn l f h fun _ hcs a _ => hf hcs a

/-- The drives, the components' ticks and the sweep are such runs (R385). -/
theorem AllSettled.tickRunning {s : State} (h : AllSettled s.comps) : AllSettled s.tickRunning.comps :=
  have hdriven : AllSettled (applyDrives s.comps s.pending) := h.foldl (fun hcs d => hcs.writeComp d.h d.p d.v) s.pending
  have hticked : AllSettled (tickComps (applyDrives s.comps s.pending) s.order) := hdriven.foldl AllSettled.tickComp s.order
  hticked.foldl (fun hcs j => hcs.foldl AllSettled.copyWire (wiresFrom s.wires j)) s.order

theorem AllSettled.graphTick {s t : State} (h : AllSettled s.comps) (ht : s.graphTick = some t) : AllSettled t.comps := by
  unfold State.graphTick at ht
  split at ht
  · cases ht
    exact h.tickRunning
  · split at ht
    · cases ht
    · next order _ =>
      cases ht
      exact AllSettled.tickRunning (s := s.startRunning order) h

theorem AllSettled.graphTickN {n : Nat} {s t : State} (h : AllSettled s.comps) (ht : s.graphTickN n = some t) :
    AllSettled t.comps := by
  induction n generalizing s with
  | zero =>
    cases ht
    exact h
  | succ n ih =>
    unfold State.graphTickN at ht
    split at ht
    · cases ht
    · next u hu => exact ih (h.graphTick hu) ht

/-! ### Every operation and every step -/

/-- The new component is settled, and the others stand as they were (R381). -/
theorem AllSettled.gCreate {s t : State} (hs : AllSettled s.comps) {config : CompConfig}
    (ht : exec (.gCreate config) s = .next t) : AllSettled t.comps := by
  obtain ⟨e, _, hx⟩ | ⟨he, hx⟩ := exec_gCreate_cases config s <;> cases hx.symm.trans ht
  · exact hs
  · obtain ⟨_, hok⟩ := building_of_createError he
    intro d hd
    obtain hd | hd := List.mem_append.1 hd
    · exact hs d hd
    · exact List.mem_singleton.1 hd ▸ ⟨newComp_wf hok, newComp_settled hok⟩

/-- Contract operations and graph calls keep the components settled. A component operation run alone need not: nothing checks
that the pins select it (log entry 12). -/
theorem AllSettled.exec {i : Instr} {s t : State} (hs : AllSettled s.comps) (hrow : rowTarget i = none)
    (ht : exec i s = .next t) : AllSettled t.comps := by
  cases i with
  | writePin h p v =>
    obtain rfl | ⟨c, hc, hr⟩ := State.onComp_next (show execWritePin h p v s = .next t from ht)
    · exact hs
    · cases hr
      exact hs.setWritten hc p v
  | readPin h p =>
    obtain rfl | ⟨c, hc, hr⟩ := State.onComp_next (show execReadPin h p s = .next t from ht)
    · exact hs
    · cases hr
      exact hs
  | tick h =>
    obtain rfl | ⟨c, hc, hr⟩ := State.onComp_next (show execTick h s = .next t from ht)
    · exact hs
    · cases hr
      exact hs.setTicked hc
  | gCreate config => exact hs.gCreate ht
  | gConnect fromH fromP toH toP =>
    obtain ⟨e, _, hx⟩ | ⟨_, hx⟩ := exec_gConnect_cases ⟨fromH, fromP, toH, toP⟩ s <;> cases hx.symm.trans ht <;> exact hs
  | gDrive h p v =>
    obtain ⟨e, _, hx⟩ | ⟨_, hx⟩ := exec_gDrive_cases h p v s <;> cases hx.symm.trans ht <;> exact hs
  | gObserve h p =>
    obtain rfl | ⟨c, hc, hr⟩ := State.onComp_next (show execGObserve h p s = .next t from ht)
    · exact hs
    · cases hr
      exact hs
  | gTick =>
    obtain ⟨_, hx⟩ | ⟨u, hu, hx⟩ := exec_gTick_cases s <;> cases hx.symm.trans ht
    · exact hs
    · exact (hs.graphTick hu :)
  | gTickN n =>
    obtain ⟨_, hx⟩ | ⟨u, hu, hx⟩ := exec_gTickN_cases n s <;> cases hx.symm.trans ht
    · exact hs
    · exact (hs.graphTickN hu :)
  | _ => cases hrow

theorem rowTarget_of_decodeContract {code : BitVec 2} {h p : Nat} {v : Voltage} {i : Instr}
    (hd : decodeContract code h p v = .ok i) : rowTarget i = none := by
  obtain ⟨_, rfl⟩ | ⟨_, rfl⟩ | ⟨_, rfl⟩ := decodeContract_eq_ok hd <;> rfl

theorem rowTarget_of_decodeGraph {code : BitVec 3} {o : GraphOperands} {i : Instr} (hd : decodeGraph code o = .ok i) :
    rowTarget i = none := by
  obtain ⟨_, rfl⟩ | ⟨_, rfl⟩ | ⟨_, rfl⟩ | ⟨_, rfl⟩ | ⟨_, rfl⟩ | ⟨_, rfl⟩ := decodeGraph_eq_ok hd <;> rfl

/-- A component operation is stepped only as the last line of a write, and then leaves that write's state (R48). -/
theorem AllSettled.step {s t : State} (hs : AllSettled s.comps) (ht : step s = .next t) : AllSettled t.comps := by
  cases hscript : s.script with
  | nil =>
    cases (step_nil hscript).symm.trans ht
    exact hs
  | cons r rest =>
    cases r with
    | contract code h p v =>
      obtain ⟨i, hd, hx⟩ := decode_of_step_next hscript ht
      exact AllSettled.exec (s := s.withScript rest) hs (rowTarget_of_decodeContract hd) hx
    | graph code o =>
      obtain ⟨i, hd, hx⟩ := decode_of_step_next hscript ht
      exact AllSettled.exec (s := s.withScript rest) hs (rowTarget_of_decodeGraph hd) hx
    | operate h p v port =>
      obtain ⟨u, hx, hu, _⟩ := step_operate_eq_writePin hscript ht
      have hwritten : AllSettled u.comps := AllSettled.exec (s := s.withScript rest) hs rfl hx
      rw [hu]
      exact hwritten

/-- Settles O57: a step keeps every component well formed and settled together. -/
theorem stepsKeepComponentsSettled : Obligations.StepsKeepComponentsSettled := by
  intro s t hw hs ht
  have hall : AllSettled s.comps := fun c hc => ⟨(State.wf_iff.1 hw).1 c hc, List.all_eq_true.1 hs c hc⟩
  exact List.all_eq_true.2 fun c hc => (hall.step ht c hc).2

end Sys2Proof.Machine
end

section
/-! The gates and adders of layer L1 (R131 to R138): each operation leaves its component as it is and presents a boolean
function of the input buffers. -/

namespace Sys2Proof.Machine

set_option Elab.async false

/-! ### A component operation that returns ok -/

/-- A row's operation word decodes to it, and where its operation returns ok it stores the component and presents its
outputs (R83, log entry 2). -/
theorem rowDoes_presents {s : State} {h : Nat} {k : Kind} {c d : Comp} {i : Instr} {code : List Bool} (hc : s.has h k c)
    (hrow : rowTarget i = some (h, k)) (hcode : encode i = .row h code) (hdo : perform i c = (d, .ok)) :
    rowDoes h code i s (s.presents h d) := by
  obtain ⟨hcomp, hk⟩ := hc
  refine ⟨hcode ▸ decode_encode i, ?_⟩
  rw [exec_row hrow, runRow_of_kind hcomp hk, hdo]
  rfl

/-- Where the operation changes no component, the answer is all that is new. -/
theorem rowDoes_shows {s : State} {h : Nat} {k : Kind} {c : Comp} {i : Instr} {code outs : List Bool} (hc : s.has h k c)
    (hrow : rowTarget i = some (h, k)) (hcode : encode i = .row h code) (hdo : perform i c = (c, .ok))
    (houts : c.outputs = outs) : rowDoes h code i s (s.shows outs) := by
  have hsame : s.presents h c = s.shows outs := by rw [State.presents, State.setComp_self hc.1, houts, State.shows]
  exact hsame ▸ rowDoes_presents hc hrow hcode hdo

/-! ### What the gates present (R131 to R136) -/

theorem all_gateInputs (c : Comp) :
    (gateInputs c).all id = decide (∀ i < Params.count c.params, c.inBit (.inp i) = true) := by
  rw [Bool.eq_iff_iff]
  simp [gateInputs]

theorem any_gateInputs (c : Comp) :
    (gateInputs c).any id = decide (∃ i < Params.count c.params, c.inBit (.inp i) = true) := by
  rw [Bool.eq_iff_iff]
  simp [gateInputs]

theorem Comp.outputs_notGate {c : Comp} (hp : c.params = .notGate) : c.outputs = [!c.inBit (.inp 0)] := by
  simp [Comp.outputs, Comp.outBit, outputPins, hp, outNot]

theorem Comp.outputs_andGate {c : Comp} {n : Nat} (hp : c.params = .andGate n) :
    c.outputs = [decide (∀ i < n, c.inBit (.inp i) = true)] := by
  simp [Comp.outputs, Comp.outBit, outputPins, hp, outAnd, all_gateInputs, Params.count]

theorem Comp.outputs_orGate {c : Comp} {n : Nat} (hp : c.params = .orGate n) :
    c.outputs = [decide (∃ i < n, c.inBit (.inp i) = true)] := by
  simp [Comp.outputs, Comp.outBit, outputPins, hp, outOr, any_gateInputs, Params.count]

theorem Comp.outputs_nandGate {c : Comp} {n : Nat} (hp : c.params = .nandGate n) :
    c.outputs = [decide (¬∀ i < n, c.inBit (.inp i) = true)] := by
  rw [decide_not]
  simp [Comp.outputs, Comp.outBit, outputPins, hp, outNand, all_gateInputs, Params.count]

theorem Comp.outputs_norGate {c : Comp} {n : Nat} (hp : c.params = .norGate n) :
    c.outputs = [decide (∀ i < n, c.inBit (.inp i) = false)] := by
  have hnone : (∀ i < n, c.inBit (.inp i) = false) ↔ ¬∃ i < n, c.inBit (.inp i) = true := by simp
  rw [decide_eq_decide.2 hnone, decide_not]
  simp [Comp.outputs, Comp.outBit, outputPins, hp, outNor, any_gateInputs, Params.count]

theorem Comp.outputs_xorGate {c : Comp} (hp : c.params = .xorGate) :
    c.outputs = [decide (c.inBit (.a 0) ≠ c.inBit (.b 0))] := by
  have hdiffer : (c.inBit (.a 0) ^^ c.inBit (.b 0)) = decide (c.inBit (.a 0) ≠ c.inBit (.b 0)) := by
    rw [Bool.eq_iff_iff, Bool.xor_iff_ne, decide_eq_true_iff]
  rw [← hdiffer]
  simp [Comp.outputs, Comp.outBit, outputPins, hp, outXor]

/-! ### What the adders present (R137, R138) -/

theorem Comp.outBit_halfAdder {c : Comp} (hp : c.params = .halfAdder) (P : Pin) : c.outBit P = outHalfAdd c P := by
  rw [Comp.outBit, hp]

theorem Comp.outBit_fullAdder {c : Comp} (hp : c.params = .fullAdder) (P : Pin) : c.outBit P = outFullAdd c P := by
  rw [Comp.outBit, hp]

theorem Comp.outputs_halfAdder {c : Comp} (hp : c.params = .halfAdder) :
    c.outputs = [c.inBit (.a 0) ^^ c.inBit (.b 0), c.inBit (.a 0) && c.inBit (.b 0)] := by
  simp [Comp.outputs, Comp.outBit_halfAdder hp, outputPins, hp, outHalfAdd]

theorem Comp.outputs_fullAdder {c : Comp} (hp : c.params = .fullAdder) :
    c.outputs = [c.inBit (.a 0) ^^ c.inBit (.b 0) ^^ c.inBit .cin,
      (c.inBit (.a 0) && c.inBit (.b 0)) || ((c.inBit (.a 0) ^^ c.inBit (.b 0)) && c.inBit .cin)] := by
  simp [Comp.outputs, Comp.outBit_fullAdder hp, outputPins, hp, outFullAdd]

/-- SUM and CARRY are the binary digits of how many of two bits are 1. -/
theorem halfAdd_count (a b : Bool) : 2 * (a && b).toNat + (a ^^ b).toNat = a.toNat + b.toNat := by
  cases a <;> cases b <;> rfl

/-- SUM and COUT are the binary digits of how many of three bits are 1. -/
theorem fullAdd_count (a b cin : Bool) :
    2 * ((a && b) || ((a ^^ b) && cin)).toNat + ((a ^^ b) ^^ cin).toNat = a.toNat + b.toNat + cin.toNat := by
  cases a <;> cases b <;> cases cin <;> rfl

theorem Comp.halfAdder_counts {c : Comp} (hp : c.params = .halfAdder) :
    2 * (c.outBit .carry).toNat + (c.outBit (.sum 0)).toNat = (c.inBit (.a 0)).toNat + (c.inBit (.b 0)).toNat := by
  rw [Comp.outBit_halfAdder hp, Comp.outBit_halfAdder hp]
  exact halfAdd_count _ _

theorem Comp.fullAdder_counts {c : Comp} (hp : c.params = .fullAdder) :
    2 * (c.outBit .cout).toNat + (c.outBit (.sum 0)).toNat
      = (c.inBit (.a 0)).toNat + (c.inBit (.b 0)).toNat + (c.inBit .cin).toNat := by
  rw [Comp.outBit_fullAdder hp, Comp.outBit_fullAdder hp]
  exact fullAdd_count _ _ _

/-! ### The statement -/

/-- Settles O20: each of the eight operations leaves its component as it is, so its row shows the outputs of the kind. -/
theorem gatesPresentTheirFunction : Obligations.GatesPresentTheirFunction := by
  intro s h c hc
  have ofKind {p : Params} (hp : c.params = p) : s.has h (Params.kind p) c := ⟨hc, congrArg Params.kind hp⟩
  refine ⟨?not, ?and, ?or, ?nand, ?nor, ?xor, ?halfAdd, Comp.halfAdder_counts, ?fullAdd, Comp.fullAdder_counts⟩
  case not => exact fun hp => rowDoes_shows (ofKind hp) rfl rfl rfl (Comp.outputs_notGate hp)
  case and => exact fun n hp => rowDoes_shows (ofKind hp) rfl rfl rfl (Comp.outputs_andGate hp)
  case or => exact fun n hp => rowDoes_shows (ofKind hp) rfl rfl rfl (Comp.outputs_orGate hp)
  case nand => exact fun n hp => rowDoes_shows (ofKind hp) rfl rfl rfl (Comp.outputs_nandGate hp)
  case nor => exact fun n hp => rowDoes_shows (ofKind hp) rfl rfl rfl (Comp.outputs_norGate hp)
  case xor => exact fun hp => rowDoes_shows (ofKind hp) rfl rfl rfl (Comp.outputs_xorGate hp)
  case halfAdd => exact fun hp => rowDoes_shows (ofKind hp) rfl rfl rfl (Comp.outputs_halfAdder hp)
  case fullAdd => exact fun hp => rowDoes_shows (ofKind hp) rfl rfl rfl (Comp.outputs_fullAdder hp)

end Sys2Proof.Machine
end

section
/-! Latches and flip-flops (42_sequential.md), and what the kinds with stored outputs present (R163, R205, R213, R222,
R225, R235, R247, R252, R257, R300, R321, R358). -/

namespace Sys2Proof.Machine

set_option Elab.async false

/-! ### Latches and flip-flops present their bit (R163, R170) -/

/-- A latch's or flip-flop's kind has no parameters. -/
theorem params_eq_of_kind_eq {p q : Params} (hq : q ∈ [.srLatch, .dLatch, .dff, .jkff, .tff])
    (h : Params.kind p = Params.kind q) : p = q := by
  simp only [List.mem_cons, List.not_mem_nil, or_false] at hq
  obtain rfl | rfl | rfl | rfl | rfl := hq <;> revert h <;> cases p <;> simp [Params.kind]

theorem Comp.outputs_of_bit {c : Comp} {b : Bool} (hp : c.params ∈ [.dLatch, .dff, .jkff, .tff]) (hq : c.q = .bit b) :
    c.outputs = [b, !b] := by
  simp only [List.mem_cons, List.not_mem_nil, or_false] at hp
  obtain hp | hp | hp | hp := hp <;> simp [Comp.outputs, Comp.outBit, outputPins, hp, outBitStage, hq, Regs.asBit]

/-- The row with both outputs low hides the SR latch's bit. -/
theorem Comp.outputs_srLatch {c : Comp} {b : Bool} (hp : c.params = .srLatch) (hq : c.q = .bit b) :
    c.outputs = [!srBoth c && b, !srBoth c && !b] := by
  simp [Comp.outputs, Comp.outBit, outputPins, hp, outSrLatch, hq, Regs.asBit]

theorem Comp.outputs_srLatch_of_not_both {c : Comp} {b : Bool} (hp : c.params = .srLatch) (hq : c.q = .bit b)
    (hboth : srBoth c = false) : c.outputs = [b, !b] := by
  rw [Comp.outputs_srLatch hp hq, hboth]
  rfl

theorem Comp.outputs_srLatch_of_both {c : Comp} {b : Bool} (hp : c.params = .srLatch) (hq : c.q = .bit b)
    (hboth : srBoth c = true) : c.outputs = [false, false] := by
  rw [Comp.outputs_srLatch hp hq, hboth]
  rfl

theorem srBoth_withQ (c : Comp) (r : Regs) : srBoth (c.withQ r) = srBoth c := rfl

theorem srBoth_eq_true_iff {c : Comp} : srBoth c = true ↔
    c.inBit .reset = false ∧ c.inBit .set = false ∧ c.inBit .s = true ∧ c.inBit .r = true := by
  simp [srBoth, and_assoc]

theorem srBoth_of_reset {c : Comp} (h : c.inBit .reset = true) : srBoth c = false := by simp [srBoth, h]

theorem srBoth_of_set {c : Comp} (h : c.inBit .set = true) : srBoth c = false := by simp [srBoth, h]

theorem srBoth_of_s_low {c : Comp} (h : c.inBit .s = false) : srBoth c = false := by simp [srBoth, h]

theorem srBoth_of_r_low {c : Comp} (h : c.inBit .r = false) : srBoth c = false := by simp [srBoth, h]

/-! ### Stored words, values and digits (R205, R213, R222, R225, R235, R247, R252, R257) -/

/-- A bus shows, pin by pin, what each of its pins shows. -/
theorem map_bus {n : Nat} {f : Nat → Pin} {g : Pin → Bool} {v : Nat → Bool} (h : ∀ i < n, g (f i) = v i) :
    (bus n f).map g = (List.range n).map v := by
  rw [bus, List.map_map]
  exact List.map_congr_left fun i hi => h i (List.mem_range.1 hi)

/-- Cutting a number to `w` bits keeps those bits. -/
theorem testBit_bitsW {w n i : Nat} (hi : i < w) : (bitsW w n).testBit i = n.testBit i := by
  rw [bitsW, Nat.testBit_mod_two_pow, decide_eq_true hi, Bool.true_and]

/-- The kinds that present the bits of a stored word and nothing else. -/
theorem Comp.outputs_of_word {c : Comp} {w : Nat} {x : Word}
    (hp : c.params ∈ [.register w, .univShiftRegister w, .ringCounter w, .johnsonCounter w]) (hq : c.q = .word x) :
    c.outputs = (List.range w).map fun i => x.testBit i := by
  simp only [List.mem_cons, List.not_mem_nil, or_false] at hp
  obtain hp | hp | hp | hp := hp <;> rw [Comp.outputs, hp, outputPins] <;>
    exact map_bus fun i _ => by rw [Comp.outBit, hp, outWordStage, hq, Regs.asWord]

theorem Comp.outputs_shiftRegister {c : Comp} {w : Nat} {x : Word} (hp : c.params = .shiftRegister w)
    (hq : c.q = .word x) :
    c.outputs = ((List.range w).map fun i => x.testBit i) ++ [x.testBit (w - 1), x.testBit 0] := by
  rw [Comp.outputs, hp, outputPins, List.map_append]
  congr 1
  · exact map_bus fun i _ => by simp [Comp.outBit, hp, outWordStage, hq, Regs.asWord]
  · simp [Comp.outBit, hp, outWordStage, hq, Regs.asWord, signBit, Comp.width, Params.width]

theorem Comp.outputs_counter {c : Comp} {w m v : Nat} {st : Style} {b : Bool} (hp : c.params = .counter w m st)
    (hq : c.q = .count v b) : c.outputs = ((List.range w).map fun i => v.testBit i) ++ [b] := by
  have hw : c.width = w := by rw [Comp.width, hp, Params.width]
  rw [Comp.outputs, hp, outputPins, List.map_append]
  congr 1
  · exact map_bus fun i hi => by simp [Comp.outBit, hp, outCounter, hq, Regs.asCount, hw, testBit_bitsW hi]
  · simp [Comp.outBit, hp, outCounter, hq, Regs.asCarry]

theorem Comp.outputs_bcdCounter {c : Comp} {k : Nat} {ds : List Nat} {b : Bool} (hp : c.params = .bcdCounter k)
    (hq : c.q = .digits ds b) :
    c.outputs = ((List.range (4 * k)).map fun i => (ds.getD (i / 4) 0).testBit (i % 4)) ++ [b] := by
  have hbit (d i : Nat) : (bitsW 4 d).testBit (i % 4) = d.testBit (i % 4) := testBit_bitsW (Nat.mod_lt i (by decide))
  rw [Comp.outputs, hp, outputPins, List.map_append]
  congr 1
  · exact map_bus fun i _ => by rw [Comp.outBit, hp, outBcdCounter, hq, Regs.asDigits, hbit]
  · simp [Comp.outBit, hp, outBcdCounter, hq, Regs.asCarry]

theorem Comp.outputs_clockDivider {c : Comp} {n k : Nat} {o : Bool} (hp : c.params = .clockDivider n)
    (hq : c.q = .divide k o) : c.outputs = [o] := by
  simp [Comp.outputs, Comp.outBit, outputPins, hp, outClockDivider, hq, Regs.asOut]

/-! ### Held outputs and the accumulator (R300, R321, R358) -/

theorem Comp.outputs_adder {c : Comp} {w : Nat} {x : Word} {co ov : Bool} (hp : c.params = .adder w)
    (hq : c.q = .sum x co ov) : c.outputs = ((List.range w).map fun i => x.testBit i) ++ [co, ov] := by
  rw [Comp.outputs, hp, outputPins, List.map_append]
  congr 1
  · exact map_bus fun i _ => by rw [Comp.outBit, hp, outAdder, hq, Regs.asSum]
  · simp [Comp.outBit, hp, outAdder, hq, Regs.asCout, Regs.asOvf]

theorem Comp.outputs_alu {c : Comp} {w : Nat} {x : Word} {f : Flags} (hp : c.params = .alu w) (hq : c.q = .alu x f) :
    c.outputs = ((List.range w).map fun i => x.testBit i) ++ [f.zero, f.sign, f.carry, f.ovf] := by
  rw [Comp.outputs, hp, outputPins, List.map_append]
  congr 1
  · exact map_bus fun i _ => by rw [Comp.outBit, hp, outAlu, hq, Regs.asRes]
  · simp [Comp.outBit, hp, outAlu, hq, Regs.asFlags]

theorem Comp.outputs_accumulator {c : Comp} {w : Nat} {x : Word} {f : Flags} (hp : c.params = .accumulator w)
    (hq : c.q = .acc x f) :
    c.outputs = ((List.range w).map fun i => x.testBit i) ++ [f.zero, f.sign, f.carry, f.ovf] := by
  rw [Comp.outputs, hp, outputPins, List.map_append]
  congr 1
  · exact map_bus fun i _ => by rw [Comp.outBit, hp, outAccumulator, hq, Regs.asWord]
  · simp [Comp.outBit, hp, outAccumulator, hq, Regs.asFlags]

/-! ### Toggling (R189, R196) -/

theorem Comp.withM_toggle {c : Comp} {b : Bool} (hm : c.m = .bit b) :
    c.withM (.bit (!c.m.asBit)) = { c with m := .bit (!b) } := by
  rw [hm]
  rfl

theorem perform_jkToggle {c : Comp} {b : Bool} (hm : c.m = .bit b) (h : Nat) :
    perform (.jkToggle h) c = ({ c with m := .bit (!b) }, .ok) :=
  congrArg (·, Status.ok) (Comp.withM_toggle hm)

theorem perform_tToggle {c : Comp} {b : Bool} (hm : c.m = .bit b) (h : Nat) :
    perform (.tToggle h) c = ({ c with m := .bit (!b) }, .ok) :=
  congrArg (·, Status.ok) (Comp.withM_toggle hm)

/-! ### The statements -/

/-- Settles O40: pin by pin, each output function reads the stored stage. -/
theorem storedOutputs : Obligations.StoredOutputs := by
  refine ⟨?word, ?bit, ?counter, ?bcdCounter, ?clockDivider, ?adder, ?alu, ?accumulator⟩
  case word => exact fun c w x hq => ⟨fun hp => Comp.outputs_of_word hp hq, fun hp => Comp.outputs_shiftRegister hp hq⟩
  case bit => exact fun c b hp hq => Comp.outputs_of_bit (List.mem_cons_of_mem _ hp) hq
  case counter => exact fun c w m st v b _ hp hq => Comp.outputs_counter hp hq
  case bcdCounter => exact fun c k ds b _ hp hq => Comp.outputs_bcdCounter hp hq
  case clockDivider => exact fun c n k o hp hq => Comp.outputs_clockDivider hp hq
  case adder => exact fun c w x co ov hp hq => Comp.outputs_adder hp hq
  case alu => exact fun c w x f hp hq => Comp.outputs_alu hp hq
  case accumulator => exact fun c w x f hp hq => Comp.outputs_accumulator hp hq

/-- Settles O21: every row but HOLD stores a bit and nothing else; the latch presents its bit and the complement unless
the pins select BOTH. -/
theorem srLatchOperations : Obligations.SrLatchOperations := by
  intro s h c hc
  have hp : c.params = .srLatch := params_eq_of_kind_eq (by decide) hc.2
  have presentsBit (b : Bool) (hboth : srBoth c = false) : (c.withQ (.bit b)).outputs = [b, !b] :=
    Comp.outputs_srLatch_of_not_both hp rfl ((srBoth_withQ c _).trans hboth)
  refine ⟨fun _ _ _ => ?areset, fun _ _ => ?aset, ?set, ?reset, ?hold, ?both, ?showsAreset, ?showsAset,
    fun hreset hset => ⟨?showsSet, ?showsReset, ?showsHold, ?showsBoth⟩⟩
  case areset => exact rowDoes_presents hc rfl rfl rfl
  case aset => exact rowDoes_presents hc rfl rfl rfl
  case set => exact rowDoes_presents hc rfl rfl rfl
  case reset => exact rowDoes_presents hc rfl rfl rfl
  case hold => exact rowDoes_shows hc rfl rfl rfl rfl
  case both => exact rowDoes_presents hc rfl rfl rfl
  case showsAreset => exact fun hreset => presentsBit false (srBoth_of_reset hreset)
  case showsAset => exact fun _ hset => presentsBit true (srBoth_of_set hset)
  case showsSet => exact fun _ hr => presentsBit true (srBoth_of_r_low hr)
  case showsReset => exact fun hs _ => presentsBit false (srBoth_of_s_low hs)
  case showsHold => exact fun hs _ b hq => Comp.outputs_srLatch_of_not_both hp hq (srBoth_of_s_low hs)
  case showsBoth =>
    intro hs hr
    have hboth : srBoth c = true := srBoth_eq_true_iff.2 ⟨hreset, hset, hs, hr⟩
    exact Comp.outputs_srLatch_of_both hp rfl ((srBoth_withQ c (.bit false)).trans hboth)

/-- Settles O22: every row but HOLD stores a bit and nothing else. -/
theorem dLatchOperations : Obligations.DLatchOperations := by
  intro s h c hc
  have hp : c.params = .dLatch := params_eq_of_kind_eq (by decide) hc.2
  refine ⟨fun _ _ => ?areset, fun _ => ?aset, ?track, ?hold, fun b => ?shows⟩
  case areset => exact rowDoes_presents hc rfl rfl rfl
  case aset => exact rowDoes_presents hc rfl rfl rfl
  case track => exact rowDoes_presents hc rfl rfl rfl
  case hold => exact rowDoes_shows hc rfl rfl rfl rfl
  case shows => exact Comp.outputs_of_bit (by simp [hp]) rfl

/-- Settles O23: the asynchronous rows store both stages, CAPTURE the master, and the outputs read the slave alone. -/
theorem dFlipFlopOperations : Obligations.DFlipFlopOperations := by
  intro s h c hc
  have hp : c.params = .dff := params_eq_of_kind_eq (by decide) hc.2
  refine ⟨fun _ _ => ?areset, fun _ => ?aset, ?capture, ?noedge, fun m b => ?shows⟩
  case areset => exact rowDoes_presents hc rfl rfl rfl
  case aset => exact rowDoes_presents hc rfl rfl rfl
  case capture => exact rowDoes_presents hc rfl rfl rfl
  case noedge => exact rowDoes_shows hc rfl rfl rfl rfl
  case shows => exact Comp.outputs_of_bit (by simp [hp]) rfl

/-- Settles O24: as for the D flip-flop, with TOGGLE the one row that reads the master it writes. -/
theorem jkAndTFlipFlopOperations : Obligations.JkAndTFlipFlopOperations := by
  refine ⟨fun s h c b hc hm => ?jk, fun s h c b hc hm => ?t, fun c hk m b => ?shows⟩
  case jk =>
    refine ⟨fun _ _ _ _ => ?areset, fun _ _ _ => ?aset, fun _ _ => ?noedge, ?hold, ?reset, ?set, ?toggle⟩
    case areset => exact rowDoes_presents hc rfl rfl rfl
    case aset => exact rowDoes_presents hc rfl rfl rfl
    case noedge => exact rowDoes_shows hc rfl rfl rfl rfl
    case hold => exact rowDoes_shows hc rfl rfl rfl rfl
    case reset => exact rowDoes_presents hc rfl rfl rfl
    case set => exact rowDoes_presents hc rfl rfl rfl
    case toggle => exact rowDoes_presents hc rfl rfl (perform_jkToggle hm h)
  case t =>
    refine ⟨fun _ _ _ => ?areset, fun _ _ => ?aset, fun _ => ?noedge, ?hold, ?toggle⟩
    case areset => exact rowDoes_presents hc rfl rfl rfl
    case aset => exact rowDoes_presents hc rfl rfl rfl
    case noedge => exact rowDoes_shows hc rfl rfl rfl rfl
    case hold => exact rowDoes_shows hc rfl rfl rfl rfl
    case toggle => exact rowDoes_presents hc rfl rfl (perform_tToggle hm h)
  case shows =>
    have hp : c.params = .jkff ∨ c.params = .tff :=
      hk.imp (params_eq_of_kind_eq (by decide)) (params_eq_of_kind_eq (by decide))
    obtain hp | hp := hp <;> exact Comp.outputs_of_bit (by simp [hp]) rfl

end Sys2Proof.Machine
end

section
/-! Registers and shift registers (R201 to R204, R207 to R212, R215 to R221): words loaded from the D pins and words
shifted by one place. -/

namespace Sys2Proof.Machine

set_option Elab.async false

/-! ### Words shifted by one place -/

/-- The word of `w` bits one place up, with `b` entering at bit 0 (R211, R220). -/
def shiftUp (w : Nat) (y : Nat) (b : Bool) : Word := bitsW w (2 * y + b.toNat)

/-- The word of `w` bits one place down, with `b` entering at bit W-1 (R212, R219). -/
def shiftDown (w : Nat) (y : Nat) (b : Bool) : Word := y / 2 + b.toNat * 2 ^ (w - 1)

theorem shiftUp_lt (w : Nat) (y : Nat) (b : Bool) : shiftUp w y b < 2 ^ w := bitsW_lt w _

theorem testBit_shiftUp_zero {w : Nat} (hw : 1 ≤ w) (y : Nat) (b : Bool) : (shiftUp w y b).testBit 0 = b := by
  rw [shiftUp, testBit_bitsW hw, ← Nat.bit_val, Nat.testBit_bit_zero]

theorem testBit_shiftUp_succ {w i : Nat} (hi : i + 1 < w) (y : Nat) (b : Bool) :
    (shiftUp w y b).testBit (i + 1) = y.testBit i := by
  rw [shiftUp, testBit_bitsW hi, ← Nat.bit_val, Nat.testBit_bit_succ]

/-- Half of a word fits below bit W-1. -/
theorem half_lt_two_pow_pred {w : Nat} {y : Nat} (hw : 1 ≤ w) (hy : y < 2 ^ w) : y / 2 < 2 ^ (w - 1) :=
  Nat.div_lt_of_lt_mul (by rwa [Nat.mul_comm, Nat.two_pow_pred_mul_two hw])

theorem shiftDown_lt {w : Nat} {y : Nat} (hw : 1 ≤ w) (hy : y < 2 ^ w) (b : Bool) : shiftDown w y b < 2 ^ w := by
  have hhalf := half_lt_two_pow_pred hw hy
  have htop : b.toNat * 2 ^ (w - 1) ≤ 1 * 2 ^ (w - 1) := Nat.mul_le_mul_right _ b.toNat_le
  calc y / 2 + b.toNat * 2 ^ (w - 1) < 2 ^ (w - 1) + 1 * 2 ^ (w - 1) := Nat.add_lt_add_of_lt_of_le hhalf htop
    _ = 2 ^ (w - 1) * 2 := by ring
    _ = 2 ^ w := Nat.two_pow_pred_mul_two hw

/-- Below bit W-1 a word shifted down shows half the old word, from there on the bit that entered. -/
theorem testBit_shiftDown {w : Nat} {y : Nat} (hw : 1 ≤ w) (hy : y < 2 ^ w) (b : Bool) (i : Nat) :
    (shiftDown w y b).testBit i = if i < w - 1 then y.testBit (i + 1) else b.toNat.testBit (i - (w - 1)) := by
  rw [shiftDown, Nat.add_comm, Nat.mul_comm, Nat.testBit_two_pow_mul_add _ (half_lt_two_pow_pred hw hy),
    Nat.testBit_div_two]

theorem testBit_shiftDown_last {w : Nat} {y : Nat} (hw : 1 ≤ w) (hy : y < 2 ^ w) (b : Bool) :
    (shiftDown w y b).testBit (w - 1) = b := by
  rw [testBit_shiftDown hw hy, if_neg (Nat.lt_irrefl _), Nat.sub_self]
  cases b <;> rfl

theorem testBit_shiftDown_of_lt {w i : Nat} {y : Nat} (hy : y < 2 ^ w) (hi : i + 1 < w) (b : Bool) :
    (shiftDown w y b).testBit i = y.testBit (i + 1) := by
  rw [testBit_shiftDown (by omega) hy, if_pos (by omega)]

/-! ### The word of a register's stage -/

theorem testBit_allOnes {w i : Nat} (hi : i < w) : (2 ^ w - 1).testBit i = true := by
  rw [Nat.testBit_two_pow_sub_one, decide_eq_true hi]

/-- The bits of D are what its pins show. -/
theorem Comp.testBit_opD (c : Comp) {w i : Nat} (hi : i < w) : (c.opD w).testBit i = c.inBit (.d i) :=
  testBit_wordOf _ hi

/-- A word of a well-formed register or Johnson counter has at least one bit and fits its width (R30, R33). -/
theorem Comp.word_bounds {c : Comp} {w : Nat} {y : Nat}
    (hp : c.params ∈ [.register w, .shiftRegister w, .univShiftRegister w, .johnsonCounter w]) (hw : c.wf = true)
    (hm : c.m = .word y) : 1 ≤ w ∧ y < 2 ^ w := by
  have hok := Comp.wf_params hw
  have hwf := Comp.wf_m hw
  simp only [List.mem_cons, List.not_mem_nil, or_false] at hp
  obtain hp | hp | hp | hp := hp <;> rw [hp] at hok hwf <;> rw [hm] at hwf <;>
    exact ⟨of_decide_eq_true hok, of_decide_eq_true (hwf rfl)⟩

/-- What a shift up of the master by the serial input stores, and which word that is (R211, R220). -/
theorem exists_shiftUp_serIn {s : State} {h w : Nat} {y : Nat} {k : Kind} {c : Comp} {i : Instr} {code : List Bool}
    (hc : s.has h k c) (hrow : rowTarget i = some (h, k)) (hcode : encode i = .row h code)
    (hdo : perform i c = ({ c with m := .word (shiftUp w y (c.inBit .serIn)) }, .ok)) (hw : 1 ≤ w) :
    ∃ x, rowDoes h code i s (s.presents h { c with m := .word x }) ∧ x < 2 ^ w
      ∧ x = (2 * y + (c.inBit .serIn).toNat) % 2 ^ w
      ∧ x.testBit 0 = c.inBit .serIn ∧ ∀ i, i + 1 < w → x.testBit (i + 1) = y.testBit i :=
  ⟨_, rowDoes_presents hc hrow hcode hdo, shiftUp_lt w y _, rfl, testBit_shiftUp_zero hw y _,
    fun _ hi => testBit_shiftUp_succ hi y _⟩

/-- What a shift down of the master by the serial input stores, and which word that is (R212, R219). -/
theorem exists_shiftDown_serIn {s : State} {h w : Nat} {y : Nat} {k : Kind} {c : Comp} {i : Instr} {code : List Bool}
    (hc : s.has h k c) (hrow : rowTarget i = some (h, k)) (hcode : encode i = .row h code)
    (hdo : perform i c = ({ c with m := .word (bitsW w (shiftDown w y (c.inBit .serIn))) }, .ok)) (hw : 1 ≤ w)
    (hy : y < 2 ^ w) :
    ∃ x, rowDoes h code i s (s.presents h { c with m := .word x }) ∧ x < 2 ^ w
      ∧ x = y / 2 + (c.inBit .serIn).toNat * 2 ^ (w - 1)
      ∧ x.testBit (w - 1) = c.inBit .serIn ∧ ∀ i, i + 1 < w → x.testBit i = y.testBit (i + 1) := by
  rw [bitsW_of_lt (shiftDown_lt hw hy _)] at hdo
  exact ⟨_, rowDoes_presents hc hrow hcode hdo, shiftDown_lt hw hy _, rfl, testBit_shiftDown_last hw hy _,
    fun _ hi => testBit_shiftDown_of_lt hy hi _⟩

/-! ### The statements -/

/-- Settles O25: ARESET and ASET store both stages, LOAD the master. -/
theorem registerOperations : Obligations.RegisterOperations := by
  intro s h c w hc hp
  have hreg : s.has h .register c := ⟨hc, congrArg Params.kind hp⟩
  have hwidth : c.width = w := congrArg Params.width hp
  refine ⟨fun _ _ => ?areset, fun _ => ?aset, fun i => testBit_allOnes,
    ⟨c.opD w, ?load, c.opD_lt w, fun i => c.testBit_opD⟩, ?noedge⟩
  case areset => exact rowDoes_presents hreg rfl rfl rfl
  case aset => exact rowDoes_presents hreg rfl rfl (by rw [← hwidth]; rfl)
  case load => exact rowDoes_presents hreg rfl rfl (by rw [← hwidth]; rfl)
  case noedge => exact rowDoes_shows hreg rfl rfl rfl rfl

/-- Settles O26: as for the register, with the two shifts of the master. -/
theorem shiftRegisterOperations : Obligations.ShiftRegisterOperations := by
  intro s h c w y hc hp hw hm
  have hreg : s.has h .shiftRegister c := ⟨hc, congrArg Params.kind hp⟩
  have hwidth : c.width = w := congrArg Params.width hp
  have hword : c.m.asWord = y := congrArg Regs.asWord hm
  obtain ⟨hpos, hy⟩ := Comp.word_bounds (w := w) (by simp [hp]) hw hm
  refine ⟨fun _ _ _ _ => ?areset, fun _ _ _ => ?aset, fun _ _ => ?noedge,
    ⟨c.opD w, fun _ => ?load, c.opD_lt w, fun i => c.testBit_opD⟩, ?shl, ?shr⟩
  case areset => exact rowDoes_presents hreg rfl rfl rfl
  case aset => exact rowDoes_presents hreg rfl rfl (by rw [← hwidth]; rfl)
  case noedge => exact rowDoes_shows hreg rfl rfl rfl rfl
  case load => exact rowDoes_presents hreg rfl rfl (by rw [← hwidth]; rfl)
  case shl => exact exists_shiftUp_serIn hreg rfl rfl (by rw [← hwidth, ← hword]; rfl) hpos
  case shr => exact exists_shiftDown_serIn hreg rfl rfl (by rw [← hwidth, ← hword]; rfl) hpos hy

/-- Settles O27: as for the shift register, with NOP beside NOEDGE. -/
theorem universalShiftRegisterOperations : Obligations.UniversalShiftRegisterOperations := by
  intro s h c w y hc hp hw hm
  have hreg : s.has h .univShiftRegister c := ⟨hc, congrArg Params.kind hp⟩
  have hwidth : c.width = w := congrArg Params.width hp
  have hword : c.m.asWord = y := congrArg Regs.asWord hm
  obtain ⟨hpos, hy⟩ := Comp.word_bounds (w := w) (by simp [hp]) hw hm
  refine ⟨fun _ _ _ _ => ?areset, fun _ _ _ => ?aset, fun _ _ => ?noedge, ?nop, ?shr, ?shl,
    ⟨c.opD w, ?load, c.opD_lt w, fun i => c.testBit_opD⟩⟩
  case areset => exact rowDoes_presents hreg rfl rfl rfl
  case aset => exact rowDoes_presents hreg rfl rfl (by rw [← hwidth]; rfl)
  case noedge => exact rowDoes_shows hreg rfl rfl rfl rfl
  case nop => exact rowDoes_shows hreg rfl rfl rfl rfl
  case shr => exact exists_shiftDown_serIn hreg rfl rfl (by rw [← hwidth, ← hword]; rfl) hpos hy
  case shl => exact exists_shiftUp_serIn hreg rfl rfl (by rw [← hwidth, ← hword]; rfl) hpos
  case load => exact rowDoes_presents hreg rfl rfl (by rw [← hwidth]; rfl)

end Sys2Proof.Machine
end

section
/-! Counters and the clock divider (R226 to R231, R236 to R241, R243 to R246, R249 to R251, R254 to R256): one count,
one rotation, one step. -/

namespace Sys2Proof.Machine

set_option Elab.async false

/-! ### Counting modulo M (R229, R230) -/

theorem succ_mod_eq_ite {v m : Nat} (hv : v < m) : (v + 1) % m = if v = m - 1 then 0 else v + 1 := by
  by_cases hlast : v = m - 1
  · have hwrap : v + 1 = m := by omega
    rw [if_pos hlast, hwrap, Nat.mod_self]
  · rw [if_neg hlast, Nat.mod_eq_of_lt (by omega)]

theorem pred_mod_eq_ite {v m : Nat} (hv : v < m) : (v + m - 1) % m = if v = 0 then m - 1 else v - 1 := by
  by_cases hzero : v = 0
  · rw [if_pos hzero, hzero, Nat.zero_add, Nat.mod_eq_of_lt (by omega)]
  · have hback : v + m - 1 = v - 1 + m := by omega
    rw [if_neg hzero, hback, Nat.add_mod_right, Nat.mod_eq_of_lt (by omega)]

/-- A well-formed counter's value is below its modulus (R31). -/
theorem Comp.count_lt {c : Comp} {w m v : Nat} {st : Style} {b : Bool} (hp : c.params = .counter w m st)
    (hw : c.wf = true) (hm : c.m = .count v b) : v < m := by
  have hwf := Comp.wf_m hw (by rw [hp]; rfl)
  rw [hp, hm] at hwf
  exact of_decide_eq_true hwf

theorem perform_ctrUp {c : Comp} {w m v : Nat} {st : Style} {b : Bool} (hp : c.params = .counter w m st)
    (hm : c.m = .count v b) (h : Nat) :
    perform (.ctrUp h) c = ({ c with m := .count ((v + 1) % m) (decide (v + 1 = m)) }, .ok) := by
  have hmod : Params.modulus c.params = m := congrArg Params.modulus hp
  have hval : c.m.asCount = v := congrArg Regs.asCount hm
  rw [← hmod, ← hval]
  rfl

theorem perform_ctrDown {c : Comp} {w m v : Nat} {st : Style} {b : Bool} (hp : c.params = .counter w m st)
    (hm : c.m = .count v b) (h : Nat) :
    perform (.ctrDown h) c = ({ c with m := .count ((v + m - 1) % m) (decide (v = 0)) }, .ok) := by
  have hmod : Params.modulus c.params = m := congrArg Params.modulus hp
  have hval : c.m.asCount = v := congrArg Regs.asCount hm
  rw [← hmod, ← hval]
  rfl

/-- Settles O28: the counts modulo M are the two cases of each row, with the carry on the wrap. -/
theorem counterOperations : Obligations.CounterOperations := by
  intro s h c w m st v b hc hp hw hm
  have hctr : s.has h .counter c := ⟨hc, congrArg Params.kind hp⟩
  have hwidth : c.width = w := congrArg Params.width hp
  have hmod : Params.modulus c.params = m := congrArg Params.modulus hp
  have hval : c.m.asCount = v := congrArg Regs.asCount hm
  have hv : v < m := Comp.count_lt hp hw hm
  refine ⟨fun _ _ _ _ => ?areset, fun _ _ _ => ?noedge, fun _ _ => ?load, ?up, ?down, fun _ => ?freeze⟩
  case areset => exact rowDoes_presents hctr rfl rfl rfl
  case noedge => exact rowDoes_shows hctr rfl rfl rfl rfl
  case load => exact rowDoes_presents hctr rfl rfl (by rw [← hwidth, ← hmod]; rfl)
  case up =>
    have hwrap : (v + 1 = m) ↔ v = m - 1 := by omega
    rw [← succ_mod_eq_ite hv, ← decide_eq_decide.2 hwrap]
    exact rowDoes_presents hctr rfl rfl (perform_ctrUp hp hm h)
  case down =>
    rw [← pred_mod_eq_ite hv]
    exact rowDoes_presents hctr rfl rfl (perform_ctrDown hp hm h)
  case freeze => exact rowDoes_presents hctr rfl rfl (by rw [← hval]; rfl)

/-! ### Counting in decimal (R239, R240) -/

theorem decimal_lt {ds : List Nat} (h : ∀ d ∈ ds, d < 10) : decimal ds < 10 ^ ds.length := by
  induction ds with
  | nil => exact Nat.one_pos
  | cons d rest ih =>
    have hd : d < 10 := h d List.mem_cons_self
    have hrest := ih fun x hx => h x (List.mem_cons_of_mem d hx)
    rw [decimal, List.length_cons, Nat.pow_succ]
    omega

/-- A count up adds one, a carry out of the last digit counted in (R239). -/
theorem decimal_bcdUpDigits (ds : List Nat) :
    decimal (bcdUpDigits true ds).1 + 10 ^ ds.length * (bcdUpDigits true ds).2.toNat = decimal ds + 1 := by
  induction ds with
  | nil => rfl
  | cons d rest ih =>
    rw [bcdUpDigits]
    split
    · next hnine =>
      subst hnine
      calc 0 + 10 * decimal (bcdUpDigits true rest).1 + 10 ^ (rest.length + 1) * (bcdUpDigits true rest).2.toNat
          = 10 * (decimal (bcdUpDigits true rest).1 + 10 ^ rest.length * (bcdUpDigits true rest).2.toNat) := by ring
        _ = 9 + 10 * decimal rest + 1 := by rw [ih]; ring
    · simp only [decimal, Bool.toNat_false]
      omega

/-- A count down takes one away, a borrow from beyond the last digit counted in (R240). -/
theorem decimal_bcdDownDigits (ds : List Nat) :
    decimal (bcdDownDigits true ds).1 + 1 = decimal ds + 10 ^ ds.length * (bcdDownDigits true ds).2.toNat := by
  induction ds with
  | nil => rfl
  | cons d rest ih =>
    rw [bcdDownDigits]
    split
    · next hzero =>
      subst hzero
      calc 9 + 10 * decimal (bcdDownDigits true rest).1 + 1
          = 10 * (decimal (bcdDownDigits true rest).1 + 1) := by ring
        _ = 0 + 10 * decimal rest + 10 ^ (rest.length + 1) * (bcdDownDigits true rest).2.toNat := by rw [ih]; ring
    · simp only [decimal, Bool.toNat_false]
      omega

/-- Digits count up modulo `10 ^ k`, and carry on the wrap from all nines. -/
theorem bcdUpDigits_wraps {ds : List Nat} (h : ∀ d ∈ ds, d < 10) :
    decimal (bcdUpDigits true ds).1 = (decimal ds + 1) % 10 ^ ds.length
      ∧ (bcdUpDigits true ds).2 = decide (decimal ds = 10 ^ ds.length - 1) := by
  have hsum := decimal_bcdUpDigits ds
  have hlt := decimal_lt h
  obtain ⟨hlen, hdigits⟩ := bcdUpDigits_ok true ds h
  have hlt' := decimal_lt hdigits
  rw [hlen] at hlt'
  cases hcarry : (bcdUpDigits true ds).2 <;> rw [hcarry] at hsum
  case false =>
    rw [Bool.toNat_false, Nat.mul_zero, Nat.add_zero] at hsum
    rw [← hsum, Nat.mod_eq_of_lt hlt', eq_comm (a := false), decide_eq_false_iff_not]
    omega
  case true =>
    rw [Bool.toNat_true, Nat.mul_one] at hsum
    rw [← hsum, Nat.add_mod_right, Nat.mod_eq_of_lt hlt', eq_comm (a := true), decide_eq_true_iff]
    omega

/-- Digits count down modulo `10 ^ k`, and carry on the wrap from 0. -/
theorem bcdDownDigits_wraps {ds : List Nat} (h : ∀ d ∈ ds, d < 10) :
    decimal (bcdDownDigits true ds).1 = (decimal ds + 10 ^ ds.length - 1) % 10 ^ ds.length
      ∧ (bcdDownDigits true ds).2 = decide (decimal ds = 0) := by
  have hsum := decimal_bcdDownDigits ds
  have hlt := decimal_lt h
  obtain ⟨hlen, hdigits⟩ := bcdDownDigits_ok true ds h
  have hlt' := decimal_lt hdigits
  rw [hlen] at hlt'
  rw [pred_mod_eq_ite hlt]
  cases hcarry : (bcdDownDigits true ds).2 <;> rw [hcarry] at hsum
  case false =>
    rw [Bool.toNat_false, Nat.mul_zero, Nat.add_zero] at hsum
    have hpos : decimal ds ≠ 0 := by omega
    rw [if_neg hpos, decide_eq_false hpos]
    exact ⟨by omega, rfl⟩
  case true =>
    rw [Bool.toNat_true, Nat.mul_one] at hsum
    have hzero : decimal ds = 0 := by omega
    rw [if_pos hzero, decide_eq_true hzero]
    exact ⟨by omega, rfl⟩

/-- A well-formed BCD counter holds K decimal digits (R32). -/
theorem Comp.digits_bounds {c : Comp} {k : Nat} {ds : List Nat} {b : Bool} (hp : c.params = .bcdCounter k)
    (hw : c.wf = true) (hm : c.m = .digits ds b) : ds.length = k ∧ ∀ d ∈ ds, d < 10 := by
  have hwf := Comp.wf_m hw (by rw [hp]; rfl)
  rw [hp, hm] at hwf
  simpa [Regs.wf] using hwf

/-- Settles O29: UP and DOWN store the digits of the next number, the other rows what the pins or the digits say. -/
theorem bcdCounterOperations : Obligations.BcdCounterOperations := by
  intro s h c k ds b hc hp hw hm
  have hbcd : s.has h .bcdCounter c := ⟨hc, congrArg Params.kind hp⟩
  have hk : Params.digits c.params = k := congrArg Params.digits hp
  have hds : c.m.asDigits = ds := congrArg Regs.asDigits hm
  obtain ⟨rfl, hdigits⟩ := Comp.digits_bounds hp hw hm
  refine ⟨fun _ _ _ _ => ?areset, fun _ _ _ => ?noedge, fun _ _ => ?load, ?up, ?down, fun _ => ?freeze⟩
  case areset => exact rowDoes_presents hbcd rfl rfl (by rw [← hk]; rfl)
  case noedge => exact rowDoes_shows hbcd rfl rfl rfl rfl
  case load => exact rowDoes_presents hbcd rfl rfl (by rw [← hk]; rfl)
  case up =>
    obtain ⟨hlen, hok⟩ := bcdUpDigits_ok true ds hdigits
    obtain ⟨hval, hcarry⟩ := bcdUpDigits_wraps hdigits
    exact ⟨_, rowDoes_presents hbcd rfl rfl (by rw [← hcarry, ← hds]; rfl), hlen, hok, hval⟩
  case down =>
    obtain ⟨hlen, hok⟩ := bcdDownDigits_ok true ds hdigits
    obtain ⟨hval, hcarry⟩ := bcdDownDigits_wraps hdigits
    exact ⟨_, rowDoes_presents hbcd rfl rfl (by rw [← hcarry, ← hds]; rfl), hlen, hok, hval⟩
  case freeze => exact rowDoes_presents hbcd rfl rfl (by rw [← hds]; rfl)

/-! ### Ring counter and Johnson counter (R243 to R246, R249 to R251) -/

/-- Writing a bit into the free bit 0 of a shifted word is shifting that bit in. -/
theorem bitsW_or_toNat_eq_shiftUp {w : Nat} (hw : 1 ≤ w) (y : Nat) (b : Bool) :
    bitsW w (2 * y) ||| b.toNat = shiftUp w y b := by
  obtain ⟨n, rfl⟩ := Nat.exists_eq_add_of_le' hw
  have hb : b.toNat < 2 ^ 1 := b.toNat_lt
  have hhalf : (2 * y + b.toNat) / 2 = y := by omega
  have hlow : (2 * y + b.toNat) % 2 = b.toNat := by omega
  have heven : bitsW (n + 1) (2 * y) = 2 ^ 1 * (y % 2 ^ n) := by
    rw [bitsW, Nat.pow_succ', Nat.mul_mod_mul_left, Nat.pow_one]
  have hodd : shiftUp (n + 1) y b = 2 ^ 1 * (y % 2 ^ n) + b.toNat := by
    rw [shiftUp, bitsW, Nat.pow_succ', Nat.mod_mul, hhalf, hlow, Nat.pow_one, Nat.add_comm]
  rw [heven, hodd, Nat.two_pow_add_eq_or_of_lt hb]

/-- A well-formed ring counter has at least one bit, and its word fits them (R33). -/
theorem Comp.ring_bounds {c : Comp} {w y : Nat} (hp : c.params = .ringCounter w) (hw : c.wf = true)
    (hm : c.m = .word y) : 1 ≤ w ∧ y < 2 ^ w := by
  have hok := Comp.wf_params hw
  have hwf := Comp.wf_m hw (by rw [hp]; rfl)
  rw [hp] at hok hwf
  rw [hm] at hwf
  obtain ⟨i, hi, rfl⟩ : ∃ i < w, y = 2 ^ i := by simpa [Regs.wf, oneHot] using hwf
  exact ⟨of_decide_eq_true hok, Nat.pow_lt_pow_right Nat.one_lt_two hi⟩

/-- The Johnson counter's next word: one place up, with the complement of the last bit entering at bit 0 (R251). -/
def johnsonNext (w y : Nat) : Nat := shiftUp w y (!y.testBit (w - 1))

theorem perform_johnsonStep {c : Comp} {w y : Nat} (hp : c.params = .johnsonCounter w) (hm : c.m = .word y) (h : Nat) :
    perform (.johnsonStep h) c = ({ c with m := .word (johnsonNext w y) }, .ok) := by
  have hwidth : c.width = w := congrArg Params.width hp
  have hword : c.m.asWord = y := congrArg Regs.asWord hm
  rw [← hwidth, ← hword]
  rfl

/-- Settles O30: a rotation is a shift that lets the bit that leaves enter again, and a Johnson step one that lets its
complement enter. -/
theorem ringAndJohnsonOperations : Obligations.RingAndJohnsonOperations := by
  refine ⟨fun s h c w y hc hp hw hm => ?ring, fun s h c w y hc hp hw hm => ?johnson⟩
  case ring =>
    have hring : s.has h .ringCounter c := ⟨hc, congrArg Params.kind hp⟩
    have hwidth : c.width = w := congrArg Params.width hp
    have hword : c.m.asWord = y := congrArg Regs.asWord hm
    obtain ⟨hpos, hy⟩ := Comp.ring_bounds hp hw hm
    have hone : bitsW w 1 = 1 := bitsW_of_lt (Nat.one_lt_two_pow (Nat.ne_of_gt hpos))
    refine ⟨fun _ _ => ?areset, fun _ => ?noedge, ⟨shiftUp w y (y.testBit (w - 1)), ?rotl, shiftUp_lt w y _,
      testBit_shiftUp_zero hpos y _, fun _ hi => testBit_shiftUp_succ hi y _⟩,
      ⟨shiftDown w y (y.testBit 0), ?rotr, shiftDown_lt hpos hy _, testBit_shiftDown_last hpos hy _,
        fun _ hi => testBit_shiftDown_of_lt hy hi _⟩⟩
    case areset => exact rowDoes_presents hring rfl rfl (by rw [← hone, ← hwidth]; rfl)
    case noedge => exact rowDoes_shows hring rfl rfl rfl rfl
    case rotl =>
      rw [← bitsW_or_toNat_eq_shiftUp hpos]
      exact rowDoes_presents hring rfl rfl (by rw [← hwidth, ← hword]; rfl)
    case rotr => exact rowDoes_presents hring rfl rfl (by rw [← hwidth, ← hword]; rfl)
  case johnson =>
    have hjohnson : s.has h .johnsonCounter c := ⟨hc, congrArg Params.kind hp⟩
    obtain ⟨hpos, -⟩ := Comp.word_bounds (w := w) (by simp [hp]) hw hm
    refine ⟨fun _ => ?areset, ?noedge, ⟨johnsonNext w y, ?step, shiftUp_lt w y _, testBit_shiftUp_zero hpos y _,
      fun _ hi => testBit_shiftUp_succ hi y _⟩⟩
    case areset => exact rowDoes_presents hjohnson rfl rfl rfl
    case noedge => exact rowDoes_shows hjohnson rfl rfl rfl rfl
    case step => exact rowDoes_presents hjohnson rfl rfl (perform_johnsonStep hp hm h)

/-! ### Clock divider (R254 to R256) -/

theorem perform_clkdivCount {c : Comp} {n k : Nat} {o : Bool} (hp : c.params = .clockDivider n) (hm : c.m = .divide k o)
    (h : Nat) :
    perform (.clkdivCount h) c = ({ c with m := if k + 1 = n then .divide 0 (!o) else .divide (k + 1) o }, .ok) := by
  have hn : Params.count c.params = n := congrArg Params.count hp
  have hcnt : c.m.asCnt = k := congrArg Regs.asCnt hm
  have hout : c.m.asOut = o := congrArg Regs.asOut hm
  rw [← hn, ← hcnt, ← hout]
  rfl

/-- Settles O31: COUNT is its case of the model's, and a count that does not reach N stays below it. -/
theorem clockDividerOperations : Obligations.ClockDividerOperations := by
  intro s h c n k o hc hp hw hm
  have hdiv : s.has h .clockDivider c := ⟨hc, congrArg Params.kind hp⟩
  have hk : k < n := by
    have hwf := Comp.wf_m hw (by rw [hp]; rfl)
    rw [hp, hm] at hwf
    exact of_decide_eq_true hwf
  have hcount := rowDoes_presents hdiv rfl rfl (perform_clkdivCount hp hm h)
  refine ⟨fun _ => ?areset, ?noedge, fun htoggle => ?toggle, fun hcounts => ⟨?count, by omega⟩⟩
  case areset => exact rowDoes_presents hdiv rfl rfl rfl
  case noedge => exact rowDoes_shows hdiv rfl rfl rfl rfl
  case toggle => rwa [if_pos htoggle] at hcount
  case count => rwa [if_neg hcounts] at hcount

end Sys2Proof.Machine
end

section
/-! Runs of one row: a counter comes back after M edges (R232, R233), a Johnson counter after 2W (R248, R251). -/

namespace Sys2Proof.Machine

set_option Elab.async false

/-! ### Running one row again and again -/

/-- The component once it has performed an operation. -/
def Comp.performed (i : Instr) (c : Comp) : Comp := (perform i c).1

theorem Comp.performed_params (i : Instr) (c : Comp) : (c.performed i).params = c.params := (perform_sameMake i c).1

theorem Comp.iterate_performed_params (i : Instr) (c : Comp) (n : Nat) :
    ((Comp.performed i)^[n] c).params = c.params := by
  induction n with
  | zero => rfl
  | succ n ih => rw [Function.iterate_succ_apply', Comp.performed_params, ih]

/-- Runs of a row on a component of its kind all complete, and each performs the operation once more. -/
theorem exists_iterate_row {i : Instr} {h : Nat} {k : Kind} (hrow : rowTarget i = some (h, k)) (n : Nat) {s : State}
    {c : Comp} (hc : s.has h k c) :
    ∃ t, iterate i n s = some t ∧ t.comp? h = some ((Comp.performed i)^[n] c) := by
  induction n generalizing s c with
  | zero => exact ⟨s, rfl, hc.1⟩
  | succ n ih =>
    obtain ⟨hcomp, hk⟩ := hc
    have hexec := (exec_row hrow s).trans (runRow_of_kind hcomp hk (perform i))
    have hnext : ((s.setComp h (c.performed i)).answer (rowResult (perform i c))).has h k (c.performed i) :=
      ⟨State.getElem?_setComp_self hcomp _, by rw [Comp.performed_params, hk]⟩
    obtain ⟨t, ht, htc⟩ := ih hnext
    refine ⟨t, ?_, htc⟩
    rw [iterate, hexec]
    exact ht

/-! ### Counters (R232, R233) -/

/-- The count after one more edge up has wrapped just where it is 0. -/
theorem mod_add_one_eq_iff {x m : Nat} (hm : 0 < m) : x % m + 1 = m ↔ (x + 1) % m = 0 := by
  have hlt := Nat.mod_lt x hm
  rw [← Nat.mod_add_mod, succ_mod_eq_ite hlt]
  split <;> omega

/-- The count after one more edge down has wrapped just where it is M - 1. -/
theorem mod_eq_zero_iff_pred {x m : Nat} (hm : 0 < m) : x % m = 0 ↔ (x + (m - 1)) % m = m - 1 := by
  have hlt := Nat.mod_lt x hm
  rw [← Nat.mod_add_mod, ← Nat.add_sub_assoc hm, pred_mod_eq_ite hlt]
  split <;> omega

theorem iterate_ctrUp_m {c : Comp} {w m v : Nat} {st : Style} {b : Bool} (hp : c.params = .counter w m st)
    (hm : c.m = .count v b) (hv : v < m) (h n : Nat) :
    ((Comp.performed (.ctrUp h))^[n] c).m = .count ((v + n) % m) (if n = 0 then b else decide ((v + n) % m = 0)) := by
  induction n with
  | zero => rw [Nat.add_zero, Nat.mod_eq_of_lt hv]; exact hm
  | succ n ih =>
    have hp' := (Comp.iterate_performed_params (.ctrUp h) c n).trans hp
    have hcarry : decide ((v + n) % m + 1 = m) = decide ((v + (n + 1)) % m = 0) :=
      decide_eq_decide.2 (mod_add_one_eq_iff (Nat.zero_lt_of_lt hv))
    rw [Function.iterate_succ_apply', Comp.performed, perform_ctrUp hp' ih, hcarry, Nat.mod_add_mod,
      if_neg (Nat.succ_ne_zero n), Nat.add_assoc]

theorem iterate_ctrDown_m {c : Comp} {w m v : Nat} {st : Style} {b : Bool} (hp : c.params = .counter w m st)
    (hm : c.m = .count v b) (hv : v < m) (h n : Nat) :
    ((Comp.performed (.ctrDown h))^[n] c).m =
      .count ((v + (m - 1) * n) % m) (if n = 0 then b else decide ((v + (m - 1) * n) % m = m - 1)) := by
  have hpos : 0 < m := Nat.zero_lt_of_lt hv
  induction n with
  | zero => rw [Nat.mul_zero, Nat.add_zero, Nat.mod_eq_of_lt hv]; exact hm
  | succ n ih =>
    have hp' := (Comp.iterate_performed_params (.ctrDown h) c n).trans hp
    have hnext : v + (m - 1) * n + (m - 1) = v + (m - 1) * (n + 1) := by ring
    have hcarry : decide ((v + (m - 1) * n) % m = 0) = decide ((v + (m - 1) * (n + 1)) % m = m - 1) :=
      decide_eq_decide.2 (hnext ▸ mod_eq_zero_iff_pred hpos)
    rw [Function.iterate_succ_apply', Comp.performed, perform_ctrDown hp' ih, hcarry, Nat.add_sub_assoc hpos,
      Nat.mod_add_mod, hnext, if_neg (Nat.succ_ne_zero n)]

/-- Settles O41: by induction on the number of edges, each of which is one row. -/
theorem counterPeriodIsM : Obligations.CounterPeriodIsM := by
  intro s h c w m st v b n hc hp hw hm
  have hctr : s.has h .counter c := ⟨hc, congrArg Params.kind hp⟩
  have hv : v < m := Comp.count_lt hp hw hm
  obtain ⟨t, ht, htc⟩ := exists_iterate_row (i := .ctrUp h) rfl n hctr
  obtain ⟨u, hu, huc⟩ := exists_iterate_row (i := .ctrDown h) rfl n hctr
  exact ⟨⟨t, _, ht, htc, iterate_ctrUp_m hp hm hv h n⟩, ⟨u, _, hu, huc, iterate_ctrDown_m hp hm hv h n⟩⟩

/-! ### Johnson counters (R248, R251) -/

theorem iterate_johnsonStep_m {c : Comp} {w y : Nat} (hp : c.params = .johnsonCounter w) (hm : c.m = .word y)
    (h n : Nat) : ((Comp.performed (.johnsonStep h))^[n] c).m = .word ((johnsonNext w)^[n] y) := by
  induction n with
  | zero => exact hm
  | succ n ih =>
    have hp' := (Comp.iterate_performed_params (.johnsonStep h) c n).trans hp
    rw [Function.iterate_succ_apply', Function.iterate_succ_apply', Comp.performed, perform_johnsonStep hp' ih]

theorem iterate_johnsonNext_lt {w y : Nat} (hy : y < 2 ^ w) (n : Nat) : (johnsonNext w)^[n] y < 2 ^ w := by
  cases n with
  | zero => exact hy
  | succ n =>
    rw [Function.iterate_succ_apply']
    exact shiftUp_lt w _ _

/-- Within the first W steps the old bits move up, and the complements of those that left stand below them. -/
theorem testBit_iterate_johnsonNext {w n i : Nat} (y : Nat) (hn : n ≤ w) (hi : i < w) :
    ((johnsonNext w)^[n] y).testBit i = if i < n then !y.testBit (w - n + i) else y.testBit (i - n) := by
  induction n generalizing i with
  | zero => rfl
  | succ n ih =>
    rw [Function.iterate_succ_apply', johnsonNext]
    cases i with
    | zero =>
      have hlast : ¬w - 1 < n := by omega
      rw [testBit_shiftUp_zero hi, ih (by omega) (by omega), if_neg hlast, if_pos (Nat.succ_pos n), Nat.sub_sub,
        Nat.add_zero, Nat.add_comm 1 n]
    | succ j =>
      have hplace : w - (n + 1) + (j + 1) = w - n + j := by omega
      rw [testBit_shiftUp_succ hi, ih (by omega) (by omega), hplace, Nat.add_sub_add_right]
      simp only [Nat.add_lt_add_iff_right]

/-- W steps complement every bit. -/
theorem iterate_johnsonNext_width {w y : Nat} (hy : y < 2 ^ w) : (johnsonNext w)^[w] y = 2 ^ w - 1 - y := by
  have hcomplement : 2 ^ w - 1 - y = 2 ^ w - (y + 1) := by omega
  apply Nat.eq_of_testBit_eq
  intro i
  rw [hcomplement, Nat.testBit_two_pow_sub_succ hy]
  by_cases hi : i < w
  · rw [testBit_iterate_johnsonNext y (Nat.le_refl w) hi, if_pos hi, Nat.sub_self, Nat.zero_add, decide_eq_true hi,
      Bool.true_and]
  · have hbeyond : 2 ^ w ≤ 2 ^ i := Nat.pow_le_pow_right Nat.two_pos (Nat.le_of_not_lt hi)
    rw [Nat.testBit_lt_two_pow (Nat.lt_of_lt_of_le (iterate_johnsonNext_lt hy w) hbeyond), decide_eq_false hi,
      Bool.false_and]

theorem iterate_johnsonNext_two_mul_width {w y : Nat} (hy : y < 2 ^ w) : (johnsonNext w)^[2 * w] y = y := by
  have hcomplement : 2 ^ w - 1 - y < 2 ^ w := by omega
  rw [Nat.two_mul, Function.iterate_add_apply, iterate_johnsonNext_width hy, iterate_johnsonNext_width hcomplement]
  omega

/-- From 0 the first W steps fill the word with ones from below, and fewer than W more leave the last of them in
place. -/
theorem iterate_johnsonNext_zero_ne_zero {w n : Nat} (hpos : 0 < n) (hn : n < 2 * w) : (johnsonNext w)^[n] 0 ≠ 0 := by
  suffices hbit : ∃ i, ((johnsonNext w)^[n] 0).testBit i = true by
    obtain ⟨i, hi⟩ := hbit
    intro hzero
    rw [hzero, Nat.zero_testBit] at hi
    cases hi
  by_cases hfill : n ≤ w
  · refine ⟨0, ?_⟩
    rw [testBit_iterate_johnsonNext 0 hfill (by omega), if_pos hpos, Nat.zero_testBit, Bool.not_false]
  · obtain ⟨k, rfl⟩ := Nat.exists_eq_add_of_le' (Nat.le_of_not_le hfill)
    have hkept : ¬w - 1 < k := by omega
    refine ⟨w - 1, ?_⟩
    rw [Function.iterate_add_apply, iterate_johnsonNext_width (Nat.two_pow_pos w), Nat.sub_zero,
      testBit_iterate_johnsonNext _ (by omega) (by omega), if_neg hkept, testBit_allOnes (by omega)]

/-- Settles O42: the runs of the row are the iterates of its word. -/
theorem johnsonPeriodIsTwiceW : Obligations.JohnsonPeriodIsTwiceW := by
  intro s h c w y hc hp hw hm
  have hjohnson : s.has h .johnsonCounter c := ⟨hc, congrArg Params.kind hp⟩
  obtain ⟨-, hy⟩ := Comp.word_bounds (w := w) (by simp [hp]) hw hm
  have run (n : Nat) : ∃ t d, iterate (.johnsonStep h) n s = some t ∧ t.comp? h = some d
      ∧ d.m = .word ((johnsonNext w)^[n] y) := by
    obtain ⟨t, ht, htc⟩ := exists_iterate_row (i := .johnsonStep h) rfl n hjohnson
    exact ⟨t, _, ht, htc, iterate_johnsonStep_m hp hm h n⟩
  refine ⟨?complement, ?back, fun hy0 n hpos hn => ?between⟩
  case complement => exact iterate_johnsonNext_width hy ▸ run w
  case back =>
    have hback := run (2 * w)
    rwa [iterate_johnsonNext_two_mul_width hy] at hback
  case between =>
    obtain ⟨t, d, ht, htc, hd⟩ := run n
    exact ⟨t, d, _, ht, htc, hd, hy0 ▸ iterate_johnsonNext_zero_ne_zero hpos hn⟩

end Sys2Proof.Machine
end

section
/-! The word-level methods of a register (R94, R95, R203): loading a word, one clock cycle, and reading the word
back. -/

namespace Sys2Proof.Machine

set_option Elab.async false

/-! ### Sequences of operations (R9) -/

theorem runOps_cons {i : Instr} {s t : State} (hx : exec i s = .next t) (rest : List Instr) :
    runOps (i :: rest) s = ((runOps rest t).1, t.result :: (runOps rest t).2) := by
  rw [runOps, hx]

/-- Contract operations and graph calls all complete, so a sequence of them runs on into what follows. -/
theorem runOps_append {a : List Instr} (ha : ∀ i ∈ a, rowTarget i = none) (b : List Instr) (s : State) :
    runOps (a ++ b) s =
      ((runOps b (runOps a s).1).1, (runOps a s).2 ++ (runOps b (runOps a s).1).2) := by
  induction a generalizing s with
  | nil => rfl
  | cons i rest ih =>
    obtain ⟨t, hx⟩ := exec_ends_of_rowTarget_none (ha i List.mem_cons_self) s
    rw [List.cons_append, runOps_cons hx, runOps_cons hx, ih fun j hj => ha j (List.mem_cons_of_mem i hj)]
    rfl

theorem runOps_length {a : List Instr} (ha : ∀ i ∈ a, rowTarget i = none) (s : State) :
    (runOps a s).2.length = a.length := by
  induction a generalizing s with
  | nil => rfl
  | cons i rest ih =>
    obtain ⟨t, hx⟩ := exec_ends_of_rowTarget_none (ha i List.mem_cons_self) s
    rw [runOps_cons hx, List.length_cons, List.length_cons, ih fun j hj => ha j (List.mem_cons_of_mem i hj)]

/-! ### Reading a word back (R94, R111) -/

theorem wordOf_congr {w : Nat} {f g : Nat → Bool} (h : ∀ i < w, f i = g i) : wordOf w f = wordOf w g := by
  induction w with
  | zero => rfl
  | succ w ih => rw [wordOf, wordOf, h w (Nat.lt_succ_self w), ih fun i hi => h i (Nat.lt_succ_of_lt hi)]

/-- The results of reading the bits of a word stand for the word. -/
theorem wordOfResults_bits {cfg : Cfg} {w x : Nat} (hok : cfg.ok = true) (hx : x < 2 ^ w) :
    wordOfResults cfg ((List.range w).map fun i => .voltage (voltage cfg (x.testBit i))) = x := by
  rw [wordOfResults, List.length_map, List.length_range]
  calc wordOf w _ = wordOf w x.testBit := wordOf_congr fun i hi => by simp [hi, Result.bit, logic_voltage hok]
    _ = x := wordOf_testBit hx

/-- An output pin read by its name (R61, R111). -/
theorem Comp.readPin_pinId {c : Comp} {P : Pin} (hin : P ∉ inputPins c.params) (hout : P ∈ outputPins c.params) :
    c.readPin (pinId c.params P) = .voltage (voltage c.cfg (c.outBit P)) := by
  have hid : pinId c.params P = (inputPins c.params).length + (outputPins c.params).idxOf P := by
    rw [pinId, pinMap, List.append_assoc, List.idxOf_append_of_notMem hin, List.idxOf_append_of_mem hout]
  rw [hid]
  exact Comp.readPin_output (List.getElem?_idxOf hout)

/-- Reads change nothing, so each returns what its pin shows at the beginning. -/
theorem runOps_opR {s : State} {h : Nat} {d : Comp} (hd : s.comp? h = some d) (c : Comp) (pins : List Pin) :
    (runOps (pins.map (opR h c)) s).2 = pins.map fun P => d.readPin (pinId c.params P) := by
  induction pins generalizing s with
  | nil => rfl
  | cons P rest ih =>
    have hnext : (s.answer (d.readPin (pinId c.params P))).comp? h = some d := hd
    rw [List.map_cons, List.map_cons, opR, runOps_cons (exec_readPin_some hd _), ih hnext]
    rfl

/-- The reads of a register's Q return the bits of its slave. -/
theorem runOps_opRW_register {s : State} {h w x : Nat} {c d : Comp} (hp : c.params = .register w)
    (hd : s.comp? h = some d) (hmake : c.SameMake d) (hq : d.q = .word x) :
    (runOps (opRW h c w .q) s).2 = (List.range w).map fun i => .voltage (voltage c.cfg (x.testBit i)) := by
  obtain ⟨hparams, hcfg, -⟩ := hmake
  have hdp : d.params = .register w := hparams.trans hp
  have hread (i : Nat) (hi : i < w) :
      d.readPin (pinId c.params (.q i)) = .voltage (voltage c.cfg (x.testBit i)) := by
    have hbit : d.outBit (.q i) = x.testBit i := by rw [Comp.outBit, hdp, outWordStage, hq, Regs.asWord]
    rw [← hparams, ← hcfg, ← hbit]
    exact Comp.readPin_pinId (by simp [hdp, inputPins, bus]) (by simp [hdp, outputPins, bus, hi])
  have hpins : opRW h c w .q = ((List.range w).map .q).map (opR h c) := by rw [opRW, List.map_map]; rfl
  rw [hpins, runOps_opR hd, List.map_map]
  exact List.map_congr_left fun i hi => hread i (List.mem_range.1 hi)

/-! ### Writing a word to the D pins (R94, R107) -/

/-- `d` is what a well-formed register `c` can have become with SET and RESET low: only an edge of its clock loads
it. -/
structure Comp.QuietAs (c d : Comp) : Prop where
  make : c.SameMake d
  wf : d.wf = true
  set : d.inBit .set = false
  reset : d.inBit .reset = false

theorem evaluate_register_quiet {d : Comp} (hk : Params.kind d.params = .register) (hs : d.inBit .set = false)
    (hr : d.inBit .reset = false) (e : Bool) : evaluate d e = if e then doRegLoad d else (d, .ok) := by
  rw [evaluate_register hk, hr, hs]
  rfl

theorem Comp.QuietAs.withIn_d {c d : Comp} (hq : c.QuietAs d) (i : Nat) (v : Voltage) :
    c.QuietAs (d.withIn (.d i) v) where
  make := hq.make
  wf := Comp.wf_withIn _ v hq.wf
  set := (Comp.inBit_withIn_other v (by simp)).trans hq.set
  reset := (Comp.inBit_withIn_other v (by simp)).trans hq.reset

/-- Writing one D pin of a quiet register stores the bit and nothing else. -/
theorem exec_opWB_d {s : State} {h w i : Nat} {c d : Comp} (hp : c.params = .register w) (hd : s.comp? h = some d)
    (hq : c.QuietAs d) (hi : i < w) (b : Bool) :
    exec (opWB h c (.d i) b) s = .next ((s.setComp h (d.withIn (.d i) (voltage c.cfg b))).answer .ok) := by
  have hdp : d.params = .register w := hq.make.1.trans hp
  have hmem : .d i ∈ inputPins d.params := by simp [hdp, inputPins, bus, hi]
  have hq' := hq.withIn_d i (voltage c.cfg b)
  rw [opWB, opW, ← hq.make.1, exec_writePin_pinId hd hmem nofun,
    evaluate_register_quiet (d := d.withIn _ _) (congrArg Params.kind hdp) hq'.set hq'.reset]
  rfl

/-- The writes of the first `k` bits of a word to a quiet register leave these bits on its D pins. -/
theorem exists_bitsWritten {s : State} {h w k : Nat} {c : Comp} (hp : c.params = .register w) (hc : s.comp? h = some c)
    (hq : c.QuietAs c) (f : Nat → Bool) (hk : k ≤ w) :
    ∃ d, (runOps ((List.range k).map fun i => opWB h c (.d i) (f i)) s).1.comp? h = some d ∧ c.QuietAs d
      ∧ ∀ i < k, d.inBit (.d i) = f i := by
  induction k with
  | zero => exact ⟨c, hc, hq, nofun⟩
  | succ k ih =>
    obtain ⟨d, hd, hqd, hbits⟩ := ih (by omega)
    have hmem : .d k ∈ inputPins d.params := by simp [hqd.make.1, hp, inputPins, bus]; omega
    refine ⟨d.withIn (.d k) (voltage c.cfg (f k)), ?state, hqd.withIn_d k _, fun i hi => ?bits⟩
    case state =>
      rw [List.range_succ, List.map_append, runOps_append (by simp [opWB, opW, rowTarget]), List.map_singleton,
        runOps_cons (exec_opWB_d hp hd hqd (by omega) (f k))]
      exact State.getElem?_setComp_self hd _
    case bits =>
      by_cases hik : i = k
      · rw [hik, Comp.inBit_written hqd.wf hmem nofun, hqd.make.2.1, logic_voltage (Comp.wf_cfg hq.wf)]
      · rw [Comp.inBit_withIn_other _ (by simpa using hik), hbits i (by omega)]

/-! ### One clock cycle (R94, R106, R113) -/

/-- Going to the inactive level is no active edge. -/
theorem activeEdge_to_inactive {c : Comp} (hok : c.cfg.ok = true) (prev : Voltage) :
    activeEdge c.cfg c.edge prev (voltage c.cfg (!activeLevel c)) = false := by
  rw [activeLevel]
  cases c.edge <;> simp [activeEdge, logic_voltage hok]

/-- Going from the inactive level to the active one is an active edge (R116). -/
theorem activeEdge_to_active {c : Comp} (hok : c.cfg.ok = true) :
    activeEdge c.cfg c.edge (voltage c.cfg (!activeLevel c)) (voltage c.cfg (activeLevel c)) = true := by
  rw [activeLevel]
  cases c.edge <;> simp [activeEdge, logic_voltage hok]

/-- Writing the clock of a quiet register stores its voltage and loads the master on an edge alone. -/
theorem exists_clkWritten {s : State} {h w : Nat} {c d : Comp} (hp : c.params = .register w) (hd : s.comp? h = some d)
    (hq : c.QuietAs d) {b e : Bool} (he : activeEdge c.cfg c.edge d.clkPrev (voltage c.cfg b) = e) :
    ∃ t, exec (opWB h c .clk b) s = .next t ∧
      t.comp? h = some ((if e then d.withM (.word (d.opD w)) else d).withClkPrev (voltage c.cfg b)) := by
  obtain ⟨⟨hparams, hcfg, hedge⟩, -, hset, hreset⟩ := hq
  have hdp : d.params = .register w := hparams.trans hp
  have hmem : .clk ∈ inputPins d.params := by simp [hdp, inputPins]
  have hwidth : d.width = w := congrArg Params.width hdp
  refine ⟨_, exec_writePin_some hd _ _, ?_⟩
  rw [← hparams, Comp.writePin_input (inputAt_pinId hmem), d.store_clk, hcfg, hedge, he, evaluate_withClkPrev,
    evaluate_register_quiet (congrArg Params.kind hdp) hset hreset, ← hwidth]
  cases e <;> exact State.getElem?_setComp_self hd _

/-- One clock cycle of a quiet register makes the word on its D pins its slave's. -/
theorem exists_clocked {s : State} {h w : Nat} {c d : Comp} (hp : c.params = .register w) (hd : s.comp? h = some d)
    (hq : c.QuietAs d) (hok : c.cfg.ok = true) :
    ∃ u, (runOps (opClock h c) s).1.comp? h = some u ∧ c.SameMake u ∧ u.q = .word (d.opD w) := by
  obtain ⟨s₁, hx₁, hd₁⟩ := exists_clkWritten hp hd hq (activeEdge_to_inactive hok d.clkPrev)
  rw [if_neg Bool.false_ne_true] at hd₁
  have hq₁ : c.QuietAs (d.withClkPrev (voltage c.cfg (!activeLevel c))) := ⟨hq.make, hq.wf, hq.set, hq.reset⟩
  obtain ⟨s₂, hx₂, hd₂⟩ := exists_clkWritten hp hd₁ hq₁ (activeEdge_to_active hok)
  rw [if_pos rfl] at hd₂
  have hclocked : Kind.isClocked (Params.kind d.params) = true := by rw [hq.make.1, hp]; rfl
  have htick := exec_tick_some hd₂
  rw [Comp.tick_clocked (by exact hclocked)] at htick
  rw [opClock, opEdge, List.cons_append, List.cons_append, List.nil_append, runOps_cons hx₁, runOps_cons hx₂,
    runOps_cons htick]
  exact ⟨_, State.getElem?_setComp_self hd₂ _, hq.make, rfl⟩

/-! ### The statement -/

/-- Settles O45: the writes put the low bits of `v` on the D pins, the clock cycle makes them the slave's, and the reads
return them. -/
theorem registerLoadClockRead : Obligations.RegisterLoadClockRead := by
  intro s h c w v hc hp hw hset hreset
  have hwidth : c.width = w := congrArg Params.width hp
  have hok : c.cfg.ok = true := Comp.wf_cfg hw
  have hquiet : c.QuietAs c := ⟨⟨rfl, rfl, rfl⟩, hw, hset, hreset⟩
  refine ⟨?word, ?warned, ?fits⟩
  case word =>
    obtain ⟨d, hd, hqd, hbits⟩ := exists_bitsWritten hp hc hquiet (bitsW w v).testBit (Nat.le_refl w)
    obtain ⟨u, hu, hmake, hq⟩ := exists_clocked hp hd hqd hok
    have hload : d.opD w = v % 2 ^ w := (wordOf_congr hbits).trans (wordOf_testBit (bitsW_lt w v))
    have hops : (registerLoad h c v).ops = (List.range w).map fun i => opWB h c (.d i) ((bitsW w v).testBit i) := by
      rw [registerLoad, hwidth, opWW]
    have hwrites : ∀ i ∈ (registerLoad h c v).ops, rowTarget i = none := by simp [hops, opWB, opW, rowTarget]
    have hclock : ∀ i ∈ opClock h c, rowTarget i = none := by simp [opClock, opEdge, opWB, opW, rowTarget]
    have hbefore : ∀ i ∈ (registerLoad h c v).ops ++ opClock h c, rowTarget i = none :=
      List.forall_mem_append.2 ⟨hwrites, hclock⟩
    have hlen : (runOps ((registerLoad h c v).ops ++ opClock h c) s).2.length = w + 3 := by
      rw [runOps_length hbefore, List.length_append, hops, List.length_map, List.length_range]
      rfl
    rw [← hops] at hu
    have hu' : (runOps ((registerLoad h c v).ops ++ opClock h c) s).1.comp? h = some u := by
      rw [runOps_append hwrites]
      exact hu
    rw [runOps_append hbefore, List.drop_left' hlen, runOps_opRW_register hp hu' hmake hq, hload]
    exact wordOfResults_bits hok (Nat.mod_lt v (Nat.two_pow_pos w))
  case warned | fits =>
    rw [registerLoad, hwidth, opWW]
    by_cases hfit : v < 2 ^ w <;> simp [hfit] <;> omega

end Sys2Proof.Machine
end

section
/-! Multiplexer, demultiplexer and decoder (44_interconnect.md, R281, R282, R284, R285, R287, R288): each operation leaves
its component as it is and presents a function of the data, the select pins and DISABLE. -/

namespace Sys2Proof.Machine

set_option Elab.async false

/-! ### Channels of pins (R280) -/

/-- Channels of pins show, channel by channel and bit by bit, what each of their pins shows. -/
theorem map_channels {n d : Nat} {f : Nat → Nat → Pin} {g : Pin → Bool} {v : Nat → Nat → Bool}
    (h : ∀ ch j, g (f ch j) = v ch j) :
    (channels n d f).map g = (List.range n).flatMap fun ch => (List.range d).map (v ch) := by
  rw [channels, List.map_flatMap]
  exact List.flatMap_congr fun ch _ => map_bus fun j _ => h ch j

/-- Channels of pins that all show the same bit. -/
theorem map_channels_const {n d : Nat} {f : Nat → Nat → Pin} {g : Pin → Bool} {b : Bool} (h : ∀ ch j, g (f ch j) = b) :
    (channels n d f).map g = List.replicate (n * d) b := by
  rw [map_channels (v := fun _ _ => b) h]
  simp [List.flatMap_def, List.map_const']

/-! ### The selected channel (R82) -/

theorem Comp.selector_eq_wordOf (c : Comp) (k : Nat) : c.selector k = wordOf k fun i => c.inBit (.sel i) := rfl

/-! ### What the multiplexer presents (R281, R282) -/

theorem Comp.outputs_mux_enabled {c : Comp} {k d : Nat} (hp : c.params = .mux k d) (hlow : c.inBit .disable = false) :
    c.outputs = (List.range d).map fun j => c.inBit (.chan (wordOf k fun i => c.inBit (.sel i)) j) := by
  rw [Comp.outputs, hp, outputPins]
  exact map_bus fun j _ => by simp [Comp.outBit, hp, outMux, hlow, outMuxSelect,
    Params.selectWidth, Comp.selector_eq_wordOf]

theorem Comp.outputs_mux_disabled {c : Comp} {k d : Nat} (hp : c.params = .mux k d) (hhigh : c.inBit .disable = true) :
    c.outputs = List.replicate d false := by
  rw [Comp.outputs, hp, outputPins]
  exact map_bus_const fun j _ => by simp [Comp.outBit, hp, outMux, hhigh, outMuxDisabled]

/-! ### What the demultiplexer presents (R284, R285) -/

theorem Comp.outputs_demux_enabled {c : Comp} {k d : Nat} (hp : c.params = .demux k d)
    (hlow : c.inBit .disable = false) :
    c.outputs = (List.range (2 ^ k)).flatMap fun ch => (List.range d).map fun j =>
      decide (ch = wordOf k fun i => c.inBit (.sel i)) && c.inBit (.x j) := by
  rw [Comp.outputs, hp, outputPins]
  exact map_channels fun ch j => by simp [Comp.outBit, hp, outDemux, hlow, outDemuxSelect,
    Params.selectWidth, Comp.selector_eq_wordOf]

theorem Comp.outputs_demux_disabled {c : Comp} {k d : Nat} (hp : c.params = .demux k d)
    (hhigh : c.inBit .disable = true) : c.outputs = List.replicate (2 ^ k * d) false := by
  rw [Comp.outputs, hp, outputPins]
  exact map_channels_const fun ch j => by simp [Comp.outBit, hp, outDemux, hhigh, outDemuxDisabled]

/-! ### What the decoder presents (R287, R288) -/

theorem Comp.outputs_decoder_enabled {c : Comp} {k : Nat} (hp : c.params = .decoder k)
    (hlow : c.inBit .disable = false) :
    c.outputs = (List.range (2 ^ k)).map fun ch => decide (ch = wordOf k fun i => c.inBit (.sel i)) := by
  rw [Comp.outputs, hp, outputPins]
  exact map_bus fun ch _ => by simp [Comp.outBit, hp, outDecoder, hlow, outDecSelect,
    Params.selectWidth, Comp.selector_eq_wordOf]

theorem Comp.outputs_decoder_disabled {c : Comp} {k : Nat} (hp : c.params = .decoder k)
    (hhigh : c.inBit .disable = true) : c.outputs = List.replicate (2 ^ k) false := by
  rw [Comp.outputs, hp, outputPins]
  exact map_bus_const fun ch _ => by simp [Comp.outBit, hp, outDecoder, hhigh, outDecDisabled]

/-! ### The statement -/

/-- Settles O32: each of the six operations leaves its component as it is, so its row shows the outputs of the kind, which
DISABLE chooses between the selected channel and 0. -/
theorem interconnectOperations : Obligations.InterconnectOperations := by
  refine ⟨?mux, ?demux, ?decoder⟩
  case mux =>
    intro s h c k d hc hp
    have hmux : s.has h .mux c := ⟨hc, congrArg Params.kind hp⟩
    exact ⟨wordOf_lt k _, fun hlow => rowDoes_shows hmux rfl rfl rfl (Comp.outputs_mux_enabled hp hlow),
      fun hhigh => rowDoes_shows hmux rfl rfl rfl (Comp.outputs_mux_disabled hp hhigh)⟩
  case demux =>
    intro s h c k d hc hp
    have hdemux : s.has h .demux c := ⟨hc, congrArg Params.kind hp⟩
    exact ⟨fun hlow => rowDoes_shows hdemux rfl rfl rfl (Comp.outputs_demux_enabled hp hlow),
      fun hhigh => rowDoes_shows hdemux rfl rfl rfl (Comp.outputs_demux_disabled hp hhigh)⟩
  case decoder =>
    intro s h c k hc hp
    have hdecoder : s.has h .decoder c := ⟨hc, congrArg Params.kind hp⟩
    exact ⟨fun hlow => rowDoes_shows hdecoder rfl rfl rfl (Comp.outputs_decoder_enabled hp hlow),
      fun hhigh => rowDoes_shows hdecoder rfl rfl rfl (Comp.outputs_decoder_disabled hp hhigh)⟩

end Sys2Proof.Machine
end

section
/-! Signed and unsigned readings of the arithmetic results (R6, R302, R304 to R306, R331, R332): the carry out is the exact
sum's passing of `2^W`, the overflow flag its leaving of the signed range. -/

namespace Sys2Proof.Machine

set_option Elab.async false

/-! ### Results of `w` bits and their carry (R304, R305) -/

/-- A word's width and the place of its sign bit. -/
theorem two_pow_eq_two_mul_half {w : Nat} (hw : 1 ≤ w) : 2 ^ w = 2 * 2 ^ (w - 1) := by
  rw [Nat.mul_comm, Nat.two_pow_pred_mul_two hw]

/-- The word of a sum below `2^(W+1)` is the sum, less `2^W` where it carries. -/
theorem bitsW_of_lt_two_mul {w t : Nat} (ht : t < 2 * 2 ^ w) :
    bitsW w t = (if 2 ^ w ≤ t then t - 2 ^ w else t : Nat) := by
  split
  · next hle => rw [bitsW, Nat.mod_eq_sub_mod hle, Nat.mod_eq_of_lt (by omega)]
  · next hlt => exact bitsW_of_lt (Nat.lt_of_not_le hlt)

theorem carryOut_eq_decide (w t : Nat) : carryOut w t = decide (2 ^ w ≤ t) :=
  decide_eq_decide.2 (Nat.div_ne_zero_iff.trans (and_iff_right (Nat.two_pow_pos w).ne'))

theorem subSum_eq {w b : Nat} (hb : b < 2 ^ w) (a : Nat) : subSum w a b = a + 2 ^ w - b := by
  rw [subSum]
  omega

/-- A subtraction carries where it does not borrow (R305). -/
theorem carryOut_subSum {w b : Nat} (hb : b < 2 ^ w) (a : Nat) : carryOut w (subSum w a b) = decide (b ≤ a) := by
  rw [carryOut_eq_decide, subSum_eq hb, decide_eq_decide]
  omega

/-- A difference is 0 where the operands are equal (R324, R333). -/
theorem bitsW_subSum_eq_zero_iff {w a b : Nat} (ha : a < 2 ^ w) (hb : b < 2 ^ w) :
    bitsW w (subSum w a b) = 0 ↔ a = b := by
  rw [subSum_eq hb, bitsW_of_lt_two_mul (by omega)]
  change (_ : Nat) = 0 ↔ a = b
  split <;> omega

/-- An increment carries out of the greatest word (R306, R331). -/
theorem carryOut_inc {w a : Nat} (ha : a < 2 ^ w) : carryOut w (a + 1) = decide (a = 2 ^ w - 1) := by
  rw [carryOut_eq_decide, decide_eq_decide]
  omega

/-- A decrement borrows from 0 alone (R332). -/
theorem carryOut_dec (w a : Nat) : carryOut w (a + (2 ^ w - 1)) = decide (1 ≤ a) := by
  have hpos := Nat.two_pow_pos w
  rw [carryOut_eq_decide, decide_eq_decide]
  omega

/-! ### The sign bit and the signed reading (R6) -/

theorem testBit_sign_eq_decide {w x : Nat} (hw : 1 ≤ w) (hx : x < 2 ^ w) :
    x.testBit (w - 1) = decide (2 ^ (w - 1) ≤ x) := by
  by_cases hle : 2 ^ (w - 1) ≤ x
  · rw [decide_eq_true hle]
    exact Nat.testBit_of_two_pow_le_and_two_pow_add_one_gt hle (by rwa [Nat.sub_add_cancel hw])
  · rw [decide_eq_false hle]
    exact Nat.testBit_lt_two_pow (Nat.lt_of_not_le hle)

theorem signBit_eq_decide {w x : Nat} (hw : 1 ≤ w) (hx : x < 2 ^ w) : signBit w x = decide (2 ^ (w - 1) ≤ x) :=
  testBit_sign_eq_decide hw hx

theorem tc_eq_ite {w x : Nat} (hw : 1 ≤ w) (hx : x < 2 ^ w) :
    tc w x = if 2 ^ (w - 1) ≤ x then (x : Int) - 2 * 2 ^ (w - 1) else x := by
  have hpow : (2 : Int) ^ w = 2 * 2 ^ (w - 1) := by exact_mod_cast two_pow_eq_two_mul_half hw
  rw [tc, signBit_eq_decide hw hx, hpow]
  split <;> simp [*]

/-! ### The overflow flags (R302, R306, R331, R332) -/

theorem ovfAdd_eq_decide (w a b s : Nat) : ovfAdd w a b s =
    decide (a.testBit (w - 1) = b.testBit (w - 1) ∧ s.testBit (w - 1) ≠ a.testBit (w - 1)) := by
  rw [Bool.eq_iff_iff]
  simp [ovfAdd, signBit]

theorem ovfSub_eq_decide (w a b s : Nat) : ovfSub w a b s =
    decide (a.testBit (w - 1) ≠ b.testBit (w - 1) ∧ s.testBit (w - 1) ≠ a.testBit (w - 1)) := by
  rw [Bool.eq_iff_iff]
  simp [ovfSub, signBit]

/-- An increment overflows from the greatest signed word (R306, R331). -/
theorem ovfInc_eq_decide {w a : Nat} (hw : 1 ≤ w) (ha : a < 2 ^ w) :
    ovfInc w a (bitsW w (a + 1)) = decide (a = 2 ^ (w - 1) - 1) := by
  have hhalf := two_pow_eq_two_mul_half hw
  have hpos := Nat.two_pow_pos (w - 1)
  have hs := bitsW_of_lt_two_mul (w := w) (t := a + 1) (by omega)
  rw [Bool.eq_iff_iff, ovfInc, signBit_eq_decide hw ha, signBit_eq_decide hw (bitsW_lt w _), hs]
  simp only [Bool.and_eq_true, Bool.not_eq_true', decide_eq_true_eq, decide_eq_false_iff_not]
  split <;> omega

/-- A decrement overflows from the least signed word (R332). -/
theorem ovfDec_eq_decide {w a : Nat} (hw : 1 ≤ w) (ha : a < 2 ^ w) :
    ovfDec w a (bitsW w (a + (2 ^ w - 1))) = decide (a = 2 ^ (w - 1)) := by
  have hhalf := two_pow_eq_two_mul_half hw
  have hpos := Nat.two_pow_pos (w - 1)
  have hs := bitsW_of_lt_two_mul (w := w) (t := a + (2 ^ w - 1)) (by omega)
  rw [Bool.eq_iff_iff, ovfDec, signBit_eq_decide hw ha, signBit_eq_decide hw (bitsW_lt w _), hs]
  simp only [Bool.and_eq_true, Bool.not_eq_true', decide_eq_true_eq, decide_eq_false_iff_not]
  split <;> omega

/-! ### Signed overflow (R302) -/

/-- The addition flag says that the exact signed sum leaves the signed range. -/
theorem ovfAdd_iff_out_of_range {w a b : Nat} (hw : 1 ≤ w) (ha : a < 2 ^ w) (hb : b < 2 ^ w) (cin : Bool) :
    ovfAdd w a b (bitsW w (a + b + cin.toNat)) = true ↔
      tc w a + tc w b + cin.toNat < -2 ^ (w - 1) ∨ 2 ^ (w - 1) - 1 < tc w a + tc w b + cin.toNat := by
  have hhalf := two_pow_eq_two_mul_half hw
  have hcin := cin.toNat_le
  have hs := bitsW_of_lt_two_mul (w := w) (t := a + b + cin.toNat) (by omega)
  rw [ovfAdd_eq_decide, decide_eq_true_iff, testBit_sign_eq_decide hw ha, testBit_sign_eq_decide hw hb,
    testBit_sign_eq_decide hw (bitsW_lt w _), ne_eq, decide_eq_decide, decide_eq_decide, tc_eq_ite hw ha,
    tc_eq_ite hw hb, hs]
  have hcast : ((2 ^ (w - 1) : Nat) : Int) = 2 ^ (w - 1) := by norm_cast
  rw [← hcast]
  generalize 2 ^ (w - 1) = p at *
  split <;> split <;> split <;> omega

theorem signBit_complement {w b : Nat} (hw : 1 ≤ w) (hb : b < 2 ^ w) : signBit w (2 ^ w - 1 - b) = !signBit w b := by
  have hhalf := two_pow_eq_two_mul_half hw
  rw [signBit_eq_decide hw (by omega), signBit_eq_decide hw hb, ← decide_not, decide_eq_decide]
  omega

theorem tc_complement {w b : Nat} (hw : 1 ≤ w) (hb : b < 2 ^ w) : tc w (2 ^ w - 1 - b) = -tc w b - 1 := by
  have hpow : ((2 ^ w - 1 - b : Nat) : Int) = 2 ^ w - 1 - b := by
    push_cast [Nat.le_sub_one_of_lt hb, Nat.one_le_two_pow]
    rfl
  rw [tc, tc, signBit_complement hw hb, hpow]
  cases signBit w b <;> simp <;> ring

/-- A subtraction overflows where adding B's complement and 1 does (R302, R308 (d)). -/
theorem ovfSub_eq_ovfAdd_complement {w b : Nat} (hw : 1 ≤ w) (hb : b < 2 ^ w) (a s : Nat) :
    ovfSub w a b s = ovfAdd w a (2 ^ w - 1 - b) s := by
  rw [ovfSub, ovfAdd, signBit_complement hw hb]
  cases signBit w a <;> cases signBit w b <;> rfl

/-- The subtraction flag says that the exact signed difference leaves the signed range. -/
theorem ovfSub_iff_out_of_range {w a b : Nat} (hw : 1 ≤ w) (ha : a < 2 ^ w) (hb : b < 2 ^ w) :
    ovfSub w a b (bitsW w (a + 2 ^ w - b)) = true ↔
      tc w a - tc w b < -2 ^ (w - 1) ∨ 2 ^ (w - 1) - 1 < tc w a - tc w b := by
  have hsum : a + (2 ^ w - 1 - b) + true.toNat = a + 2 ^ w - b := by rw [Bool.toNat_true]; omega
  have hexact : tc w a + tc w (2 ^ w - 1 - b) + true.toNat = tc w a - tc w b := by
    rw [tc_complement hw hb, Bool.toNat_true]
    push_cast
    ring
  have hadd := ovfAdd_iff_out_of_range hw ha (b := 2 ^ w - 1 - b) (by omega) true
  rwa [hsum, hexact, ← ovfSub_eq_ovfAdd_complement hw hb] at hadd

/-- Settles O43: sign bits and signed readings are both a comparison with half of `2^W`. -/
theorem overflowIsSignedOverflow : Obligations.OverflowIsSignedOverflow :=
  fun _ _ _ cin hw ha hb => ⟨ovfAdd_iff_out_of_range hw ha hb cin, ovfSub_iff_out_of_range hw ha hb⟩

end Sys2Proof.Machine
end

section
/-! Adder and ALU (R304 to R307, R323 to R334): what each row stores of the operands' words. -/

namespace Sys2Proof.Machine

set_option Elab.async false

/-! ### A component operation that fails -/

/-- A row whose operation fails and changes nothing answers the failure alone (R83, log entry 2). -/
theorem rowDoes_fails {s : State} {h : Nat} {k : Kind} {c : Comp} {i : Instr} {code : List Bool} {e : Err}
    (hc : s.has h k c) (hrow : rowTarget i = some (h, k)) (hcode : encode i = .row h code)
    (hdo : perform i c = (c, .failed e)) : rowDoes h code i s (s.answer (.failed e)) := by
  obtain ⟨hcomp, hk⟩ := hc
  refine ⟨hcode ▸ decode_encode i, ?_⟩
  rw [exec_row hrow, runRow_of_kind hcomp hk, hdo]
  exact congrArg (fun t : State => Host.Outcome.next (t.answer (.failed e))) (State.setComp_self hcomp)

/-! ### The operands of an arithmetic kind (R82) -/

/-- `c` computes in `w` bits, and its operand pins show the words `a` and `b`. -/
structure Comp.Operands (c : Comp) (w a b : Nat) : Prop where
  width : c.width = w
  opA : c.opA w = a
  opB : c.opB w = b

theorem Comp.operands_of_pins {c : Comp} {w a b : Nat} (hw : c.width = w)
    (ha : a = wordOf w fun i => c.inBit (.a i)) (hb : b = wordOf w fun i => c.inBit (.b i)) : c.Operands w a b where
  width := hw
  opA := ha.symm
  opB := hb.symm

theorem Comp.Operands.a_lt {c : Comp} {w a b : Nat} (ho : c.Operands w a b) : a < 2 ^ w := by
  rw [← ho.opA]
  exact c.opA_lt w

theorem Comp.Operands.b_lt {c : Comp} {w a b : Nat} (ho : c.Operands w a b) : b < 2 ^ w := by
  rw [← ho.opB]
  exact c.opB_lt w

theorem Comp.Operands.testBit_a {c : Comp} {w a b i : Nat} (ho : c.Operands w a b) (hi : i < w) :
    a.testBit i = c.inBit (.a i) := by
  rw [← ho.opA]
  exact testBit_wordOf _ hi

theorem Comp.Operands.testBit_b {c : Comp} {w a b i : Nat} (ho : c.Operands w a b) (hi : i < w) :
    b.testBit i = c.inBit (.b i) := by
  rw [← ho.opB]
  exact testBit_wordOf _ hi

/-- The width of a well-formed Adder or ALU is at least one bit (R4). -/
theorem Comp.one_le_width {c : Comp} {w : Nat} (hp : c.params ∈ [.adder w, .alu w]) (hw : c.wf = true) : 1 ≤ w := by
  have hok := Comp.wf_params hw
  simp only [List.mem_cons, List.not_mem_nil, or_false] at hp
  obtain hp | hp := hp <;> rw [hp] at hok <;> exact of_decide_eq_true hok

/-! ### The adder (R304 to R307) -/

section
variable {c : Comp} {w a b : Nat} (ho : c.Operands w a b) (h : Nat)
include ho

theorem perform_adderAdd : perform (.adderAdd h) c = ({ c with
    q := .sum (bitsW w (a + b + (c.inBit .cin).toNat)) (decide (2 ^ w ≤ a + b + (c.inBit .cin).toNat))
      (decide (a.testBit (w - 1) = b.testBit (w - 1)
        ∧ (bitsW w (a + b + (c.inBit .cin).toNat)).testBit (w - 1) ≠ a.testBit (w - 1))) }, .ok) := by
  change doAdderAdd c = _
  rw [doAdderAdd, ho.width, ho.opA, ho.opB, carryOut_eq_decide, ovfAdd_eq_decide]
  rfl

theorem perform_adderSub : perform (.adderSub h) c = ({ c with
    q := .sum (bitsW w (a + 2 ^ w - b)) (decide (b ≤ a))
      (decide (a.testBit (w - 1) ≠ b.testBit (w - 1)
        ∧ (bitsW w (a + 2 ^ w - b)).testBit (w - 1) ≠ a.testBit (w - 1))) }, .ok) := by
  change doAdderSub c = _
  rw [doAdderSub, ho.width, ho.opA, ho.opB, carryOut_subSum ho.b_lt, ovfSub_eq_decide, subSum_eq ho.b_lt]
  rfl

theorem perform_adderInc (hw : 1 ≤ w) : perform (.adderInc h) c = ({ c with
    q := .sum (bitsW w (a + 1)) (decide (a = 2 ^ w - 1)) (decide (a = 2 ^ (w - 1) - 1)) }, .ok) := by
  change doAdderInc c = _
  rw [doAdderInc, ho.width, ho.opA, carryOut_inc ho.a_lt, ovfInc_eq_decide hw ho.a_lt]
  rfl

end

/-- Settles O33: each row stores the word of its exact sum with the flags of that sum, and the reserved mode fails. -/
theorem adderOperations : Obligations.AdderOperations := by
  intro s h c w a b hc hp hwf ha hb
  have hadder : s.has h .adder c := ⟨hc, congrArg Params.kind hp⟩
  have ho : c.Operands w a b := Comp.operands_of_pins (congrArg Params.width hp) ha hb
  have hw : 1 ≤ w := Comp.one_le_width (by simp [hp]) hwf
  refine ⟨⟨_, ?add, rfl⟩, ⟨_, ?sub, rfl⟩, ?inc, ?invalid⟩
  case add => exact rowDoes_presents hadder rfl rfl (perform_adderAdd ho h)
  case sub => exact rowDoes_presents hadder rfl rfl (perform_adderSub ho h)
  case inc => exact rowDoes_presents hadder rfl rfl (perform_adderInc ho h hw)
  case invalid => exact rowDoes_fails hadder rfl rfl rfl

/-! ### What the ALU stores (R322) -/

/-- The flags of a stored result, bit by bit. -/
theorem aluStore_eq {c : Comp} {w : Nat} (hw : c.width = w) (x : Word) (carry ovf : Bool) :
    aluStore c x carry ovf = { c with q := .alu x {
      zero := decide (x = 0), sign := x.testBit (w - 1), carry := carry, ovf := ovf } } := by
  rw [aluStore, hw]
  rfl

/-- A row whose operation stores a result and its flags. -/
theorem rowDoes_aluStore {s : State} {h w : Nat} {c : Comp} {i : Instr} {code : List Bool} {x : Word}
    {carry ovf : Bool} (hc : s.has h .alu c) (hw : c.width = w) (hrow : rowTarget i = some (h, .alu))
    (hcode : encode i = .row h code) (hdo : perform i c = (aluStore c x carry ovf, .ok)) :
    rowDoes h code i s (s.presents h { c with q := .alu x {
      zero := decide (x = 0), sign := x.testBit (w - 1), carry := carry, ovf := ovf } }) :=
  rowDoes_presents hc hrow hcode (by rw [hdo, aluStore_eq hw])

/-! ### The ALU's sums and differences (R323, R324, R331 to R333) -/

section
variable {c : Comp} {w a b : Nat} (ho : c.Operands w a b) (h : Nat)
include ho

theorem perform_aluAdd : perform (.aluAdd h) c = (aluStore c (bitsW w (a + b)) (decide (2 ^ w ≤ a + b))
    (decide (a.testBit (w - 1) = b.testBit (w - 1) ∧ (bitsW w (a + b)).testBit (w - 1) ≠ a.testBit (w - 1))), .ok) := by
  change doAluAdd c = _
  rw [doAluAdd, ho.width, ho.opA, ho.opB, carryOut_eq_decide, ovfAdd_eq_decide]

theorem perform_aluSub : perform (.aluSub h) c = (aluStore c (bitsW w (a + 2 ^ w - b)) (decide (b ≤ a))
    (decide (a.testBit (w - 1) ≠ b.testBit (w - 1)
      ∧ (bitsW w (a + 2 ^ w - b)).testBit (w - 1) ≠ a.testBit (w - 1))), .ok) := by
  change doAluSub c = _
  rw [doAluSub, ho.width, ho.opA, ho.opB, carryOut_subSum ho.b_lt, ovfSub_eq_decide, subSum_eq ho.b_lt]

theorem perform_aluInc (hw : 1 ≤ w) : perform (.aluInc h) c =
    (aluStore c (bitsW w (a + 1)) (decide (a = 2 ^ w - 1)) (decide (a = 2 ^ (w - 1) - 1)), .ok) := by
  change doAluInc c = _
  rw [doAluInc, ho.width, ho.opA, carryOut_inc ho.a_lt, ovfInc_eq_decide hw ho.a_lt]

theorem perform_aluDec (hw : 1 ≤ w) : perform (.aluDec h) c =
    (aluStore c (bitsW w (a + 2 ^ w - 1)) (decide (1 ≤ a)) (decide (a = 2 ^ (w - 1))), .ok) := by
  change doAluDec c = _
  rw [doAluDec, ho.width, ho.opA, carryOut_dec, ovfDec_eq_decide hw ho.a_lt, Nat.add_sub_assoc (Nat.one_le_two_pow)]

/-- COMPARE stores the flags of the difference and keeps the result word (R333). -/
theorem perform_aluCompare {r : Word} {f : Flags} (hq : c.q = .alu r f) : perform (.aluCompare h) c = ({ c with
    q := .alu r {
      zero := decide (a = b), sign := (bitsW w (a + 2 ^ w - b)).testBit (w - 1), carry := decide (b ≤ a)
      ovf := decide (a.testBit (w - 1) ≠ b.testBit (w - 1)
        ∧ (bitsW w (a + 2 ^ w - b)).testBit (w - 1) ≠ a.testBit (w - 1)) } }, .ok) := by
  have hzero : decide (bitsW w (subSum w a b) = 0) = decide (a = b) :=
    decide_eq_decide.2 (bitsW_subSum_eq_zero_iff ho.a_lt ho.b_lt)
  change doAluCompare c = _
  rw [doAluCompare, ho.width, ho.opA, ho.opB, aluStoreFlags, flagsOf, ho.width, hzero, carryOut_subSum ho.b_lt,
    ovfSub_eq_decide, subSum_eq ho.b_lt, hq]
  rfl

end

/-- Sign and overflow of a difference together: operands of one sign leave the difference's sign, others A's. -/
theorem sign_xor_overflow (a b s : Bool) : (s ^^ ((a != b) && (s != a))) = if a = b then s else a := by
  cases a <;> cases b <;> cases s <;> rfl

/-- SIGN xor OVF of a comparison is the signed order (R333). -/
theorem sign_xor_ovfSub {w a b : Nat} (hw : 1 ≤ w) (ha : a < 2 ^ w) (hb : b < 2 ^ w) :
    (signBit w (bitsW w (a + 2 ^ w - b)) ^^ ovfSub w a b (bitsW w (a + 2 ^ w - b))) = decide (tc w a < tc w b) := by
  have hhalf := two_pow_eq_two_mul_half hw
  have hs := bitsW_of_lt_two_mul (w := w) (t := a + 2 ^ w - b) (by omega)
  have hcast : ((2 ^ (w - 1) : Nat) : Int) = 2 ^ (w - 1) := by norm_cast
  rw [ovfSub, sign_xor_overflow, signBit_eq_decide hw ha, signBit_eq_decide hw hb, signBit_eq_decide hw (bitsW_lt w _),
    tc_eq_ite hw ha, tc_eq_ite hw hb, hs, ← hcast]
  generalize 2 ^ (w - 1) = p at *
  simp only [decide_eq_decide]
  split <;> rw [decide_eq_decide] <;> split <;> split <;> omega

/-- Settles O36: each row stores the word of its exact sum or difference with the flags of that sum; COMPARE keeps the
word. -/
theorem aluArithmetic : Obligations.AluArithmetic := by
  intro s h c w a b r f hc hp hwf hq ha hb
  have halu : s.has h .alu c := ⟨hc, congrArg Params.kind hp⟩
  have hwidth : c.width = w := congrArg Params.width hp
  have ho : c.Operands w a b := Comp.operands_of_pins hwidth ha hb
  have hw : 1 ≤ w := Comp.one_le_width (by simp [hp]) hwf
  have hzero : (bitsW w (a + 2 ^ w - b) = 0) = (a = b) :=
    propext (subSum_eq ho.b_lt a ▸ bitsW_subSum_eq_zero_iff ho.a_lt ho.b_lt)
  refine ⟨⟨_, ?add, rfl⟩, ⟨_, ?sub, rfl⟩, ⟨_, ?inc, rfl⟩, ⟨_, ?dec, rfl⟩, ⟨_, ?compare, rfl, ?signed⟩⟩
  case add => exact rowDoes_aluStore halu hwidth rfl rfl (perform_aluAdd ho h)
  case sub =>
    have hrow := rowDoes_aluStore halu hwidth rfl rfl (perform_aluSub ho h)
    simp only [hzero] at hrow
    exact hrow
  case inc => exact rowDoes_aluStore halu hwidth rfl rfl (perform_aluInc ho h hw)
  case dec => exact rowDoes_aluStore halu hwidth rfl rfl (perform_aluDec ho h hw)
  case compare => exact rowDoes_presents halu rfl rfl (perform_aluCompare ho h hq)
  case signed =>
    rw [← ovfSub_eq_decide]
    exact sign_xor_ovfSub hw ho.a_lt ho.b_lt

/-! ### The ALU's bitwise rows and shifts (R325 to R330) -/

/-- A row that stores, with CARRY and OVF clear, the word whose bits are `v`. -/
theorem exists_aluBitwise {s : State} {h w : Nat} {c : Comp} {i : Instr} {code : List Bool} {x : Nat}
    {v : Nat → Bool} (hc : s.has h .alu c) (hw : c.width = w) (hrow : rowTarget i = some (h, .alu))
    (hcode : encode i = .row h code) (hdo : perform i c = (aluStore c x false false, .ok)) (hx : x < 2 ^ w)
    (hbits : ∀ i < w, x.testBit i = v i) :
    ∃ x, rowDoes h code i s (s.presents h { c with q := .alu x {
      zero := decide (x = 0), sign := x.testBit (w - 1), carry := false, ovf := false } })
      ∧ x < 2 ^ w ∧ ∀ i < w, x.testBit i = v i :=
  ⟨x, rowDoes_aluStore hc hw hrow hcode hdo, hx, hbits⟩

section
variable {c : Comp} {w a b : Nat} (ho : c.Operands w a b) (h : Nat)
include ho

theorem perform_aluAnd : perform (.aluAnd h) c = (aluStore c (a &&& b) false false, .ok) := by
  change doAluAnd c = _
  rw [doAluAnd, ho.width, ho.opA, ho.opB]

theorem perform_aluOr : perform (.aluOr h) c = (aluStore c (a ||| b) false false, .ok) := by
  change doAluOr c = _
  rw [doAluOr, ho.width, ho.opA, ho.opB]

theorem perform_aluXor : perform (.aluXor h) c = (aluStore c (a ^^^ b) false false, .ok) := by
  change doAluXor c = _
  rw [doAluXor, ho.width, ho.opA, ho.opB]

theorem perform_aluNot : perform (.aluNot h) c = (aluStore c (2 ^ w - (a + 1)) false false, .ok) := by
  change doAluNot c = _
  rw [doAluNot, ho.width, ho.opA, allOnes, Nat.sub_sub, Nat.add_comm 1]

theorem perform_aluShl (hw : 1 ≤ w) :
    perform (.aluShl h) c = (aluStore c (bitsW w (2 * a)) (c.inBit (.a (w - 1))) false, .ok) := by
  change doAluShl c = _
  rw [doAluShl, ho.width, ho.opA, signBit, ho.testBit_a (Nat.sub_lt hw Nat.one_pos)]

theorem perform_aluShr (hw : 1 ≤ w) : perform (.aluShr h) c = (aluStore c (a / 2) (c.inBit (.a 0)) false, .ok) := by
  change doAluShr c = _
  rw [doAluShr, ho.width, ho.opA, ho.testBit_a hw, bitsW_of_lt (Nat.div_lt_of_lt ho.a_lt)]

end

/-- Settles O37: the bitwise rows store bit by bit, the shifts the doubled and the halved word, and the reserved codes
fail. -/
theorem aluLogicAndShifts : Obligations.AluLogicAndShifts := by
  intro s h c w a b hc hp hwf ha hb
  have halu : s.has h .alu c := ⟨hc, congrArg Params.kind hp⟩
  have hwidth : c.width = w := congrArg Params.width hp
  have ho : c.Operands w a b := Comp.operands_of_pins hwidth ha hb
  have hw : 1 ≤ w := Comp.one_le_width (by simp [hp]) hwf
  have htop : (a / 2).testBit (w - 1) = false := Nat.testBit_lt_two_pow (half_lt_two_pow_pred hw ho.a_lt)
  refine ⟨?and, ?or, ?xor, ?not, ⟨_, ?shl, rfl⟩, ⟨_, ?shr, rfl⟩, ?invalidB, fun _ _ => ?invalidC⟩
  case and =>
    exact exists_aluBitwise halu hwidth rfl rfl (perform_aluAnd ho h) (Nat.and_lt_two_pow a ho.b_lt)
      fun i hi => by rw [Nat.testBit_and, ho.testBit_a hi, ho.testBit_b hi]
  case or =>
    exact exists_aluBitwise halu hwidth rfl rfl (perform_aluOr ho h) (Nat.or_lt_two_pow ho.a_lt ho.b_lt)
      fun i hi => by rw [Nat.testBit_or, ho.testBit_a hi, ho.testBit_b hi]
  case xor =>
    exact exists_aluBitwise halu hwidth rfl rfl (perform_aluXor ho h) (Nat.xor_lt_two_pow ho.a_lt ho.b_lt)
      fun i hi => by rw [Nat.testBit_xor, ho.testBit_a hi, ho.testBit_b hi]
  case not =>
    exact exists_aluBitwise halu hwidth rfl rfl (perform_aluNot ho h)
      (Nat.sub_lt (Nat.two_pow_pos w) (Nat.succ_pos a)) fun i hi => by
        rw [Nat.testBit_two_pow_sub_succ ho.a_lt, decide_eq_true hi, Bool.true_and, ho.testBit_a hi]
  case shl => exact rowDoes_aluStore halu hwidth rfl rfl (perform_aluShl ho h hw)
  case shr =>
    have hrow := rowDoes_aluStore halu hwidth rfl rfl (perform_aluShr ho h hw)
    rwa [htop] at hrow
  case invalidB => exact rowDoes_fails halu rfl rfl rfl
  case invalidC => exact rowDoes_fails halu rfl rfl rfl

end Sys2Proof.Machine
end

section
/-! Multiplier, divider and BCD adder (R311, R314, R315, R320): kinds that present a function of their input buffers. -/

namespace Sys2Proof.Machine

set_option Elab.async false

/-! ### What the multiplier presents (R311) -/

theorem Comp.outputs_multiplier {c : Comp} {w a b : Nat} (hp : c.params = .multiplier w) (ho : c.Operands w a b) :
    c.outputs = ((List.range w).map fun i => (a * b % 2 ^ w).testBit i)
      ++ [decide (a * b / 2 ^ w ≠ 0), decide (a * b / 2 ^ w ≠ 0)] := by
  rw [Comp.outputs, hp, outputPins, List.map_append]
  congr 1
  · exact map_bus fun i _ => by rw [Comp.outBit, hp, outMul, ho.width, ho.opA, ho.opB]; rfl
  · simp [Comp.outBit, hp, outMul, ho.width, ho.opA, ho.opB]

/-! ### What the divider presents (R314) -/

section
variable {c : Comp} {w a b : Nat} (ho : c.Operands w a b)
include ho

theorem quotient_of_zero (hb : b = 0) : quotient c = 2 ^ w - 1 := by
  rw [quotient, ho.width, ho.opB, if_pos hb, allOnes]

theorem remainder_of_zero (hb : b = 0) : remainder c = 2 ^ w - 1 := by
  rw [remainder, ho.width, ho.opB, if_pos hb, allOnes]

theorem quotient_of_ne_zero (hb : b ≠ 0) : quotient c = a / b := by
  rw [quotient, ho.width, ho.opB, if_neg hb, ho.opA, bitsW_of_lt (Nat.div_lt_of_lt ho.a_lt)]

theorem remainder_of_ne_zero (hb : b ≠ 0) : remainder c = a % b := by
  rw [remainder, ho.width, ho.opB, if_neg hb, ho.opA, bitsW_of_lt ((Nat.mod_le a b).trans_lt ho.a_lt)]

end

theorem Comp.outputs_divider {c : Comp} {w : Nat} {f : Bool} (hp : c.params = .divider w) (hq : c.q = .dz f) :
    c.outputs = ((List.range w).map fun i => (quotient c).testBit i)
      ++ ((List.range w).map fun i => (remainder c).testBit i) ++ [f] := by
  rw [Comp.outputs, hp, outputPins, List.map_append, List.map_append]
  congr 1
  · congr 1 <;> exact map_bus fun i _ => by rw [Comp.outBit, hp, outDivider]
  · simp [Comp.outBit, hp, outDivider, hq, Regs.asDz]

theorem map_testBit_allOnes (w : Nat) : ((List.range w).map fun i => (2 ^ w - 1).testBit i) = List.replicate w true := by
  rw [List.map_congr_left fun i hi => testBit_allOnes (List.mem_range.1 hi), List.map_const', List.length_range]

/-- Settles O34: MUL and DIV.EVAL change nothing and present their function of the operands; DIV.ARESET stores a clear
flag. -/
theorem multiplierAndDividerOperations : Obligations.MultiplierAndDividerOperations := by
  refine ⟨?mul, ?div⟩
  case mul =>
    intro s h c w a b hc hp ha hb
    have hmul : s.has h .multiplier c := ⟨hc, congrArg Params.kind hp⟩
    exact rowDoes_shows hmul rfl rfl rfl
      (Comp.outputs_multiplier hp (Comp.operands_of_pins (congrArg Params.width hp) ha hb))
  case div =>
    intro s h c w a b f hc hp hq ha hb
    have hdiv : s.has h .divider c := ⟨hc, congrArg Params.kind hp⟩
    have ho : c.Operands w a b := Comp.operands_of_pins (congrArg Params.width hp) ha hb
    have houts := Comp.outputs_divider hp hq
    refine ⟨fun hzero => ?zero, fun hne => ⟨?eval, (Nat.div_add_mod a b).symm, Nat.mod_lt a (Nat.pos_of_ne_zero hne),
      Nat.div_lt_of_lt ho.a_lt⟩, ?areset⟩
    case zero =>
      rw [quotient_of_zero ho hzero, remainder_of_zero ho hzero, map_testBit_allOnes] at houts
      exact rowDoes_shows hdiv rfl rfl rfl houts
    case eval =>
      rw [quotient_of_ne_zero ho hne, remainder_of_ne_zero ho hne] at houts
      exact rowDoes_shows hdiv rfl rfl rfl houts
    case areset => exact rowDoes_presents hdiv rfl rfl rfl

/-! ### The loop of the BCD adder (R320) -/

/-- The decimal carry into digit `j` of the sum of the digits `A` and `B`. -/
def bcdCarry (cin : Nat) (A B : Nat → Nat) : Nat → Nat
  | 0 => cin
  | j + 1 => (bcdDigitSum (A j) (B j) (bcdCarry cin A B j)).2

/-- Digit `j` of the sum of the digits `A` and `B`. -/
def bcdDigit (cin : Nat) (A B : Nat → Nat) (j : Nat) : Nat := (bcdDigitSum (A j) (B j) (bcdCarry cin A B j)).1

theorem bcdSum_concat (cin : Nat) (ds : List (Nat × Nat)) (a b : Nat) :
    bcdSum cin (ds ++ [(a, b)]) =
      ((bcdSum cin ds).1 ++ [(bcdDigitSum a b (bcdSum cin ds).2).1], (bcdDigitSum a b (bcdSum cin ds).2).2) := by
  induction ds generalizing cin with
  | nil => rfl
  | cons d rest ih => simp only [List.cons_append, bcdSum, ih]

/-- The model's sum of digit lists is the loop over the digits' places. -/
theorem bcdSum_range (cin : Nat) (A B : Nat → Nat) (k : Nat) :
    bcdSum cin ((List.range k).map fun j => (A j, B j)) = ((List.range k).map (bcdDigit cin A B), bcdCarry cin A B k) := by
  induction k with
  | zero => rfl
  | succ k ih =>
    rw [List.range_succ, List.map_append, List.map_singleton, bcdSum_concat, ih, List.map_append]
    rfl

theorem bcdDigitSum_of_gt {a b cin : Nat} (h : 9 < a + b + cin) : bcdDigitSum a b cin = ((a + b + cin + 6) % 16, 1) :=
  if_pos h

theorem bcdDigitSum_of_le {a b cin : Nat} (h : a + b + cin ≤ 9) : bcdDigitSum a b cin = (a + b + cin, 0) :=
  if_neg (Nat.not_lt.2 h)

theorem bcdDigitSum_carry_le_one (a b cin : Nat) : (bcdDigitSum a b cin).2 ≤ 1 := by
  rw [bcdDigitSum]
  split
  · exact Nat.le_refl 1
  · exact Nat.zero_le 1

/-- Decimal digits add to a decimal digit and its carry. -/
theorem bcdDigitSum_decimal {a b cin : Nat} (ha : a ≤ 9) (hb : b ≤ 9) (hcin : cin ≤ 1) :
    (bcdDigitSum a b cin).1 ≤ 9 ∧ (bcdDigitSum a b cin).1 + 10 * (bcdDigitSum a b cin).2 = a + b + cin := by
  obtain hle | hgt := le_or_gt (a + b + cin) 9
  · rw [bcdDigitSum_of_le hle]
    exact ⟨hle, rfl⟩
  · rw [bcdDigitSum_of_gt hgt]
    constructor <;> dsimp only <;> omega

theorem bcdCarry_le_one {cin : Nat} (hcin : cin ≤ 1) (A B : Nat → Nat) (j : Nat) : bcdCarry cin A B j ≤ 1 := by
  cases j with
  | zero => exact hcin
  | succ j => exact bcdDigitSum_carry_le_one _ _ _

/-! ### The decimal reading of a BCD sum -/

theorem decimal_concat (ds : List Nat) (d : Nat) : decimal (ds ++ [d]) = decimal ds + 10 ^ ds.length * d := by
  induction ds with
  | nil => simp [decimal]
  | cons e rest ih =>
    rw [List.cons_append, decimal, ih, decimal, List.length_cons]
    ring

theorem decimal_range_succ (D : Nat → Nat) (k : Nat) :
    decimal ((List.range (k + 1)).map D) = decimal ((List.range k).map D) + 10 ^ k * D k := by
  rw [List.range_succ, List.map_append, List.map_singleton, decimal_concat, List.length_map, List.length_range]

theorem decimal_bcdDigit {cin k : Nat} {A B : Nat → Nat} (hcin : cin ≤ 1) (hdigits : ∀ j < k, A j ≤ 9 ∧ B j ≤ 9) :
    decimal ((List.range k).map (bcdDigit cin A B)) + 10 ^ k * bcdCarry cin A B k
      = decimal ((List.range k).map A) + decimal ((List.range k).map B) + cin := by
  induction k with
  | zero => simp [decimal, bcdCarry]
  | succ k ih =>
    obtain ⟨hA, hB⟩ := hdigits k (Nat.lt_succ_self k)
    have hdigit : bcdDigit cin A B k + 10 * bcdCarry cin A B (k + 1) = A k + B k + bcdCarry cin A B k :=
      (bcdDigitSum_decimal hA hB (bcdCarry_le_one hcin A B k)).2
    have hbelow := ih fun j hj => hdigits j (Nat.lt_succ_of_lt hj)
    rw [decimal_range_succ, decimal_range_succ, decimal_range_succ]
    calc _ = decimal ((List.range k).map (bcdDigit cin A B))
          + 10 ^ k * (bcdDigit cin A B k + 10 * bcdCarry cin A B (k + 1)) := by ring
      _ = decimal ((List.range k).map (bcdDigit cin A B)) + 10 ^ k * bcdCarry cin A B k + 10 ^ k * (A k + B k) := by
        rw [hdigit]; ring
      _ = _ := by rw [hbelow]; ring

/-! ### What the BCD adder presents (R320) -/

theorem Comp.outputs_bcdAdder {c : Comp} {k : Nat} (hp : c.params = .bcdAdder k) :
    c.outputs = ((List.range (4 * k)).map fun i =>
        (bcdDigit (c.inBit .cin).toNat (c.inDigit .a) (c.inDigit .b) (i / 4)).testBit (i % 4))
      ++ [decide (bcdCarry (c.inBit .cin).toNat (c.inDigit .a) (c.inDigit .b) k = 1)] := by
  have hsum := bcdSum_range (c.inBit .cin).toNat (c.inDigit .a) (c.inDigit .b) k
  have hoperands : bcdOperands c = (List.range k).map fun j => (c.inDigit .a j, c.inDigit .b j) := by
    rw [bcdOperands, hp, Params.digits]
  rw [← hoperands] at hsum
  have hcarry := bcdCarry_le_one (c.inBit .cin).toNat_le (c.inDigit .a) (c.inDigit .b) k
  rw [Comp.outputs, hp, outputPins, List.map_append]
  congr 1
  · refine map_bus fun i hi => ?_
    have hplace : i / 4 < k := by omega
    simp [Comp.outBit, hp, outBcdAdd, hsum, hplace]
  · have hone : bcdCarry (c.inBit .cin).toNat (c.inDigit .a) (c.inDigit .b) k ≠ 0 ↔
        bcdCarry (c.inBit .cin).toNat (c.inDigit .a) (c.inDigit .b) k = 1 := by omega
    rw [List.map_singleton, Comp.outBit, hp, outBcdAdd, hsum, decide_eq_decide.2 hone]

/-- Settles O35: the digits and carries are those of the loop, which adds decimal digits place by place. -/
theorem bcdAdderOperation : Obligations.BcdAdderOperation := by
  intro s h c k hc hp
  have hbcd : s.has h .bcdAdder c := ⟨hc, congrArg Params.kind hp⟩
  have hcin := (c.inBit .cin).toNat_le
  refine ⟨rowDoes_shows hbcd rfl rfl rfl rfl, c.inDigit .a, c.inDigit .b,
    bcdDigit (c.inBit .cin).toNat (c.inDigit .a) (c.inDigit .b),
    bcdCarry (c.inBit .cin).toNat (c.inDigit .a) (c.inDigit .b),
    fun _ => rfl, fun _ => rfl, rfl, fun j _ => ⟨fun hgt => ?above, fun hle => ?within⟩, Comp.outputs_bcdAdder hp,
    fun hdigits => ⟨fun j hj => ?digit, decimal_bcdDigit hcin hdigits⟩⟩
  case above => exact Prod.ext_iff.1 (bcdDigitSum_of_gt hgt)
  case within => exact Prod.ext_iff.1 (bcdDigitSum_of_le hle)
  case digit =>
    obtain ⟨hA, hB⟩ := hdigits j hj
    exact (bcdDigitSum_decimal hA hB (bcdCarry_le_one hcin _ _ j)).1

end Sys2Proof.Machine
end

section
/-! The word memory (R351 to R356): what a write stores, what the read port presents, and what a Tick commits. -/

namespace Sys2Proof.Machine

set_option Elab.async false

/-! ### The master map (R351) -/

/-- The master map of a well-formed Memory is in canonical form (R37). -/
theorem Comp.cells_wf {c : Comp} {a d : Nat} {mm : Memory} (hp : c.params = .memory a d) (hw : c.wf = true)
    (hm : c.m = .cells mm) : Memory.wf mm = true := by
  have hwf := Comp.wf_m hw (by rw [hp]; rfl)
  rw [hp, hm, Regs.wf, Bool.and_eq_true] at hwf
  exact hwf.1

/-- The map `mm` once a Memory with the pins of `c` has written the word on WDATA at the address on ADDR (R351). -/
def Comp.writtenCells (c : Comp) (a d : Nat) (mm : Memory) : Memory :=
  Memory.write mm (c.address a) (c.inWord d .wdata)

theorem Comp.writtenCells_wf (c : Comp) (a d : Nat) {mm : Memory} (h : Memory.wf mm = true) :
    Memory.wf (c.writtenCells a d mm) = true :=
  Memory.write_wf _ _ h

theorem Comp.read_writtenCells_address (c : Comp) (a d : Nat) {mm : Memory} (h : Memory.wf mm = true) :
    Memory.read (c.writtenCells a d mm) (c.address a) = c.inWord d .wdata :=
  Memory.read_write_same _ _ h

theorem Comp.read_writtenCells_other {c : Comp} {a x : Nat} (d : Nat) (mm : Memory) (hx : x ≠ c.address a) :
    Memory.read (c.writtenCells a d mm) x = Memory.read mm x :=
  Memory.read_write_other _ hx

theorem perform_memWrite {c : Comp} {a d : Nat} {mm : Memory} (hp : c.params = .memory a d) (hm : c.m = .cells mm)
    (h : Nat) : perform (.memWrite h) c = ({ c with m := .cells (c.writtenCells a d mm) }, .ok) := by
  have haddr : Params.addressWidth c.params = a := congrArg Params.addressWidth hp
  have hwidth : c.width = d := congrArg Params.width hp
  have hcells : c.m.asCells = mm := congrArg Regs.asCells hm
  rw [← haddr, ← hwidth, ← hcells]
  rfl

/-- The row MEM.WRITE stores the written map in the master stage (R351). -/
theorem rowDoes_memWrite {s : State} {h a d : Nat} {c : Comp} {mm : Memory} (hc : s.comp? h = some c)
    (hp : c.params = .memory a d) (hm : c.m = .cells mm) :
    rowDoes h [true, true, true, false, true, false, true, true] (.memWrite h) s
      (s.presents h { c with m := .cells (c.writtenCells a d mm) }) :=
  rowDoes_presents ⟨hc, congrArg Params.kind hp⟩ rfl rfl (perform_memWrite hp hm h)

/-! ### The read port (R352, R353) -/

theorem Comp.outputs_memory_read {c : Comp} {a d : Nat} {mq : Memory} (hp : c.params = .memory a d)
    (hq : c.q = .cells mq) (hre : c.inBit .re = true) :
    c.outputs = (List.range d).map fun j => (Memory.read mq (c.address a)).testBit j := by
  rw [Comp.outputs, hp, outputPins]
  exact map_bus fun j _ => by
    rw [Comp.outBit, hp, outMemory, if_pos hre, outMemRead, hp, Params.addressWidth, hq, Regs.asCells]

theorem Comp.outputs_memory_readoff {c : Comp} {a d : Nat} (hp : c.params = .memory a d) (hre : c.inBit .re = false) :
    c.outputs = List.replicate d false := by
  have hoff : ¬c.inBit .re = true := Bool.eq_false_iff.1 hre
  calc c.outputs = (List.range d).map fun _ => false := by
        rw [Comp.outputs, hp, outputPins]
        exact map_bus fun j _ => by rw [Comp.outBit, hp, outMemory, if_neg hoff, outMemReadoff]
    _ = List.replicate d false := by rw [List.map_const', List.length_range]

/-! ### The commit (R355, R356) -/

/-- A `Tick` of a clocked component makes its master stage the slave's (R26, R113). -/
theorem exec_tick_of_clocked {s : State} {h : Nat} {c : Comp} (hc : s.comp? h = some c)
    (hk : Kind.isClocked (Params.kind c.params) = true) :
    exec (.tick h) s = .next ((s.setComp h c.commit).answer .ok) := by
  rw [exec_tick_some hc, Comp.tick_clocked hk]

/-! ### The statements -/

/-- Settles O38: WRITE stores the written map in the master, and every other row changes nothing, so that it shows what
the read port presents. -/
theorem memoryOperations : Obligations.MemoryOperations := by
  intro s h c a d mm mq hc hp hw hm hq
  have hmem : s.has h .memory c := ⟨hc, congrArg Params.kind hp⟩
  have hwf : Memory.wf mm = true := Comp.cells_wf hp hw hm
  refine ⟨⟨c.writtenCells a d mm, rowDoes_memWrite hc hp hm, c.writtenCells_wf a d hwf,
    c.read_writtenCells_address a d hwf, fun x => Comp.read_writtenCells_other d mm⟩,
    fun _ => ?noedge, ?nowe, fun hre => ?read, fun hre => ?readoff, rfl⟩
  case noedge => exact rowDoes_shows hmem rfl rfl rfl rfl
  case nowe => exact rowDoes_shows hmem rfl rfl rfl rfl
  case read => exact rowDoes_shows hmem rfl rfl rfl (Comp.outputs_memory_read hp hq hre)
  case readoff => exact rowDoes_shows hmem rfl rfl rfl (Comp.outputs_memory_readoff hp hre)

/-- Settles O44: the write leaves the slave map, and the Tick makes the written map the slave's. -/
theorem memoryReadAfterWrite : Obligations.MemoryReadAfterWrite := by
  intro s h c a d mm mq hc hp hw hm hq
  have hwf : Memory.wf mm = true := Comp.cells_wf hp hw hm
  have hclocked : Kind.isClocked (Params.kind c.params) = true := by rw [hp]; rfl
  have hwritten := State.getElem?_setComp_self hc { c with m := .cells (c.writtenCells a d mm) }
  obtain ⟨-, hwrite⟩ := rowDoes_memWrite hc hp hm
  exact ⟨_, _, _, _, c.writtenCells a d mm, hwrite, exec_tick_of_clocked hwritten hclocked, hwritten, hq,
    State.getElem?_setComp_self hwritten _, rfl, rfl, c.read_writtenCells_address a d hwf,
    fun x => Comp.read_writtenCells_other d mm⟩

end Sys2Proof.Machine
end

section
/-! The accumulator (R359 to R367): what each row stores of the master's word. -/

namespace Sys2Proof.Machine

set_option Elab.async false

/-! ### Storing a word with its flags (R359) -/

/-- The accumulator's width is at least one bit, and its word fits it (R38). -/
theorem Comp.acc_bounds {c : Comp} {w x : Nat} {f : Flags} (hp : c.params = .accumulator w) (hw : c.wf = true)
    (hm : c.m = .acc x f) : 1 ≤ w ∧ x < 2 ^ w := by
  have hok := Comp.wf_params hw
  have hwf := Comp.wf_m hw (by rw [hp]; rfl)
  rw [hp] at hok hwf
  rw [hm, Regs.wf, Bool.and_eq_true] at hwf
  exact ⟨of_decide_eq_true hok, of_decide_eq_true hwf.1⟩

/-- The flags of a stored word, bit by bit. -/
theorem accStore_eq {c : Comp} {w : Nat} (hw : c.width = w) (x : Word) (carry ovf : Bool) :
    accStore c x carry ovf = { c with m := .acc x {
      zero := decide (x = 0), sign := x.testBit (w - 1), carry := carry, ovf := ovf } } := by
  rw [accStore, hw]
  rfl

/-- A row whose operation stores a word and its flags in the master stage. -/
theorem rowDoes_accStore {s : State} {h w : Nat} {c : Comp} {i : Instr} {code : List Bool} {x : Word}
    {carry ovf : Bool} (hc : s.has h .accumulator c) (hw : c.width = w) (hrow : rowTarget i = some (h, .accumulator))
    (hcode : encode i = .row h code) (hdo : perform i c = (accStore c x carry ovf, .ok)) :
    rowDoes h code i s (s.presents h { c with m := .acc x {
      zero := decide (x = 0), sign := x.testBit (w - 1), carry := carry, ovf := ovf } }) :=
  rowDoes_presents hc hrow hcode (by rw [hdo, accStore_eq hw])

/-! ### The rows that compute from the master's word (R362, R364 to R366) -/

/-- The increment flag, spelled by the two sign bits (R364). -/
theorem ovfInc_eq_decide_signs (w x y : Nat) :
    ovfInc w x y = decide (x.testBit (w - 1) = false ∧ y.testBit (w - 1) = true) := by
  rw [Bool.eq_iff_iff]
  simp [ovfInc, signBit]

section
variable {c : Comp} {w x : Nat} (hw : c.width = w) (hx : c.m.asWord = x) (h : Nat)
include hw

theorem perform_accLoad : perform (.accLoad h) c = (accStore c (c.opD w) false false, .ok) := by
  change doAccLoad c = _
  rw [doAccLoad, hw]

include hx

theorem perform_accInc : perform (.accInc h) c = (accStore c (bitsW w (x + 1)) (decide (x = 2 ^ w - 1))
    (decide (x.testBit (w - 1) = false ∧ (bitsW w (x + 1)).testBit (w - 1) = true)), .ok) := by
  change doAccInc c = _
  rw [doAccInc, hw, hx, ovfInc_eq_decide_signs, allOnes]

theorem perform_accShl : perform (.accShl h) c = (accStore c (bitsW w (2 * x)) (x.testBit (w - 1)) false, .ok) := by
  change doAccShl c = _
  rw [doAccShl, hw, hx, signBit]

theorem perform_accShr (hlt : x < 2 ^ w) : perform (.accShr h) c = (accStore c (x / 2) (x.testBit 0) false, .ok) := by
  change doAccShr c = _
  rw [doAccShr, hw, hx, bitsW_of_lt (Nat.div_lt_of_lt hlt)]

end

/-! ### The statement -/

/-- Settles O39: the computing rows store a word with its flags in the master, ARESET and CLEAR the word 0, and the
reserved codes fail. -/
theorem accumulatorOperations : Obligations.AccumulatorOperations := by
  intro s h c w x f hc hp hwf hm
  have hacc : s.has h .accumulator c := ⟨hc, congrArg Params.kind hp⟩
  have hwidth : c.width = w := congrArg Params.width hp
  have hword : c.m.asWord = x := congrArg Regs.asWord hm
  obtain ⟨hw, hx⟩ := Comp.acc_bounds hp hwf hm
  have htop : (x / 2).testBit (w - 1) = false := Nat.testBit_lt_two_pow (half_lt_two_pow_pred hw hx)
  refine ⟨fun _ _ _ _ => ?areset, fun _ _ _ => ?noedge, ⟨c.opD w, ?load, c.opD_lt w, fun _ => c.testBit_opD⟩, ?clear,
    ⟨_, ?inc, rfl⟩, ⟨_, ?shl, rfl⟩, ⟨_, ?shr, rfl⟩, ?invalid5, fun _ => ?invalid67⟩
  case areset => exact rowDoes_presents hacc rfl rfl rfl
  case noedge => exact rowDoes_shows hacc rfl rfl rfl rfl
  case load => exact rowDoes_accStore hacc hwidth rfl rfl (perform_accLoad hwidth h)
  case clear => exact rowDoes_presents hacc rfl rfl rfl
  case inc => exact rowDoes_accStore hacc hwidth rfl rfl (perform_accInc hwidth hword h)
  case shl => exact rowDoes_accStore hacc hwidth rfl rfl (perform_accShl hwidth hword h)
  case shr =>
    have hrow := rowDoes_accStore hacc hwidth rfl rfl (perform_accShr hwidth hword h hx)
    rwa [htop] at hrow
  case invalid5 => exact rowDoes_fails hacc rfl rfl rfl
  case invalid67 => exact rowDoes_fails hacc rfl rfl rfl

end Sys2Proof.Machine
end

section
/-! Building a graph and driving it (R381 to R384): the first check that fails names the error, and a call whose checks
all pass adds its component, wire or drive. -/

namespace Sys2Proof.Machine

set_option Elab.async false

/-! ### A call answers its first failing check -/

/-- The state a call ends in: failed with what its checks found, or `t` where they all passed. -/
def State.checked (s : State) (found : Option Err) (t : State) : State := found.elim t s.fail

theorem exec_gCreate (config : CompConfig) (s : State) :
    exec (.gCreate config) s = .next (s.checked (s.createError config)
      ((s.addComp (newComp config)).answer (.handle s.comps.length))) := by
  obtain ⟨e, he, hx⟩ | ⟨hn, hx⟩ := exec_gCreate_cases config s
  · rw [hx, he]; rfl
  · rw [hx, hn]; rfl

theorem exec_gConnect (w : Wire) (s : State) :
    exec (.gConnect w.fromH w.fromP w.toH w.toP) s =
      .next (s.checked (s.connectError w) ((s.addWire w).answer .ok)) := by
  obtain ⟨e, he, hx⟩ | ⟨hn, hx⟩ := exec_gConnect_cases w s
  · rw [hx, he]; rfl
  · rw [hx, hn]; rfl

theorem exec_gDrive (h p : Nat) (v : Voltage) (s : State) :
    exec (.gDrive h p v) s = .next (s.checked (s.driveError h p) ((s.addDrive ⟨h, p, v⟩).answer .ok)) := by
  obtain ⟨e, he, hx⟩ | ⟨hn, hx⟩ := exec_gDrive_cases h p v s
  · rw [hx, he]; rfl
  · rw [hx, hn]; rfl

/-! ### The checks of `CreateComponent` (R381) -/

theorem State.createError_of_ok {s : State} {config : CompConfig} (hp : s.phase = .building)
    (hok : config.ok = true) : s.createError config = none := by
  simp [State.createError, hp, hok]

theorem State.createError_of_bad {s : State} {config : CompConfig} (h : s.phase = .running ∨ config.ok = false) :
    s.createError config = some .configurationError := by
  obtain hp | hok := h
  · simp [State.createError, hp]
  · simp [State.createError, hok]

/-- Settles O46: the checks pass exactly in the building phase and with admissible arguments. -/
theorem createComponent : Obligations.CreateComponent := by
  intro s config
  refine ⟨fun hp hparams hcfg => ?made, fun hbad => ?refused⟩ <;> rw [exec_gCreate]
  case made => rw [State.createError_of_ok hp (CompConfig.ok_iff.2 ⟨hparams, hcfg⟩)]; rfl
  case refused =>
    rw [State.createError_of_bad (hbad.imp_right Bool.and_eq_false_iff.2)]
    rfl

/-! ### Wired pins (R72, R382) -/

theorem State.wiredTo_eq_true {s : State} {h p : Nat} :
    s.wiredTo h p = true ↔ ∃ w ∈ s.wires, w.toH = h ∧ w.toP = p := by
  simp [State.wiredTo]

theorem State.wiredTo_eq_false {s : State} {h p : Nat} :
    s.wiredTo h p = false ↔ ∀ w ∈ s.wires, ¬(w.toH = h ∧ w.toP = p) := by
  simp [State.wiredTo]

/-! ### The checks of `Connect` (R382) -/

theorem State.connectError_of_running {s : State} (hp : s.phase = .running) (w : Wire) :
    s.connectError w = some .configurationError := by
  simp [State.connectError, hp]

theorem State.connectError_of_no_component {s : State} {w : Wire}
    (h : s.comp? w.fromH = none ∨ s.comp? w.toH = none) : s.connectError w = some .configurationError := by
  unfold State.connectError
  split
  · rfl
  · split
    · next ha hb => simp [ha, hb] at h
    · rfl

/-- The checks that follow where both components are there. -/
theorem State.connectError_of_components {s : State} {w : Wire} {a b : Comp} (hp : s.phase = .building)
    (ha : s.comp? w.fromH = some a) (hb : s.comp? w.toH = some b) :
    s.connectError w =
      if npins a.params ≤ w.fromP ∨ npins b.params ≤ w.toP then some .unknownPin
      else if isOutputId a.params w.fromP = true ∧ isInputId b.params w.toP = true ∧ s.wiredTo w.toH w.toP = false
      then none
      else some .configurationError := by
  simp only [State.connectError, hp, ha, hb]
  cases isOutputId a.params w.fromP <;> cases isInputId b.params w.toP <;> cases s.wiredTo w.toH w.toP <;> simp

/-- Settles O48: each clause names the first of the checks that fails, or that none does. -/
theorem connectChecks : Obligations.ConnectChecks := by
  intro s fh fp th tp a b
  have hexec := exec_gConnect ⟨fh, fp, th, tp⟩ s
  have herr := State.connectError_of_components (s := s) (w := ⟨fh, fp, th, tp⟩) (a := a) (b := b)
  refine ⟨fun hp => ?running, fun hnone => ?handle, fun hp ha hb => ⟨fun hout => ?unknown, fun hfp htp =>
    ⟨fun hbad => ?refused, fun hout hin hfree => ?joined⟩⟩⟩ <;> rw [hexec]
  case running => rw [State.connectError_of_running hp]; rfl
  case handle => rw [State.connectError_of_no_component hnone]; rfl
  case unknown => rw [herr hp ha hb, if_pos hout]; rfl
  case refused =>
    rw [herr hp ha hb, if_neg (not_or.2 ⟨hfp.not_ge, htp.not_ge⟩), if_neg]
    · rfl
    · rintro ⟨hout, hin, hfree⟩
      rw [← State.wiredTo_eq_true] at hbad
      simp [hout, hin, hfree] at hbad
  case joined =>
    rw [herr hp ha hb, if_neg (not_or.2 ⟨hfp.not_ge, htp.not_ge⟩),
      if_pos ⟨hout, hin, State.wiredTo_eq_false.2 hfree⟩]
    rfl

/-! ### The checks of `Drive` (R383) -/

theorem State.driveError_of_none {s : State} {h : Nat} (hc : s.comp? h = none) (p : Nat) :
    s.driveError h p = some .configurationError := by
  simp only [State.driveError, hc]

theorem State.driveError_of_some {s : State} {h : Nat} {c : Comp} (hc : s.comp? h = some c) (p : Nat) :
    s.driveError h p =
      if npins c.params ≤ p then some .unknownPin
      else if s.wiredTo h p then some .configurationError else none := by
  simp only [State.driveError, hc]

/-- Settles O49: a drive's clauses are its checks in their order, and an observation is the read of the same pin. -/
theorem driveQueuesAndObserveReads : Obligations.DriveQueuesAndObserveReads := by
  refine ⟨fun s h p v hc => ?noComponent, fun s h p v c hc => ⟨fun hp => ?unknown, fun hp =>
    ⟨fun hw => ?wired, fun hw => ?queued⟩⟩, fun s h p hc => ?unobserved, fun s h p c hc => ?observed⟩
  case noComponent => rw [exec_gDrive, State.driveError_of_none hc]; rfl
  case unknown => rw [exec_gDrive, State.driveError_of_some hc, if_pos hp]; rfl
  case wired =>
    rw [exec_gDrive, State.driveError_of_some hc, if_neg hp.not_ge, if_pos (State.wiredTo_eq_true.2 hw)]
    rfl
  case queued =>
    rw [exec_gDrive, State.driveError_of_some hc, if_neg hp.not_ge, State.wiredTo_eq_false.2 hw,
      if_neg Bool.false_ne_true]
    rfl
  case unobserved => exact State.onComp_none hc _
  case observed => exact ⟨rfl, c.readPin p, State.onComp_some hc _⟩

end Sys2Proof.Machine
end


section
/-! The order of the components (R387): it takes the lowest ready handle at each place, and is missing only where no
topological order exists. -/

namespace Sys2Proof.Machine

set_option Elab.async false

/-! ### The lowest ready handle -/

/-- What is placed next is ready, and no handle below it that waits is. -/
theorem lowestReady_eq_some_iff {comps : List Comp} {wires : List Wire} {placed : List Nat} {h : Nat} :
    lowestReady comps wires placed = some h ↔
      h < comps.length ∧ (h ∉ placed ∧ ready comps wires placed h = true) ∧
        ∀ g, g < h → g ∉ placed → ready comps wires placed g = false := by
  simp only [lowestReady, List.find?_range_eq_some, List.mem_range, Bool.and_eq_true, Bool.not_eq_true',
    Bool.and_eq_false_iff, List.contains_eq_mem, decide_eq_false_iff_not, Bool.not_eq_false', decide_eq_true_iff,
    imp_iff_not_or, not_not]
  tauto

/-- Nothing can be placed where no component that waits is ready. -/
theorem lowestReady_eq_none_iff {comps : List Comp} {wires : List Wire} {placed : List Nat} :
    lowestReady comps wires placed = none ↔
      ∀ h, h < comps.length → h ∉ placed → ready comps wires placed h = false := by
  simp [lowestReady, List.find?_eq_none]

/-! ### The places of the order -/

/-- What is placed stays in its place. -/
theorem prefix_of_topoFrom {comps : List Comp} {wires : List Wire} {n : Nat} {placed order : List Nat}
    (ht : topoFrom comps wires n placed = some order) : placed <+: order := by
  induction n generalizing placed with
  | zero => exact Option.some.inj ht ▸ List.prefix_rfl
  | succ n ih =>
    unfold topoFrom at ht
    split at ht
    · cases ht
    · exact (List.prefix_append placed _).trans (ih ht)

/-- Each further place of the order holds the lowest handle ready after those before it. -/
theorem lowestReady_take_of_topoFrom {comps : List Comp} {wires : List Wire} {n i h : Nat} {placed order : List Nat}
    (ht : topoFrom comps wires n placed = some order) (hi : placed.length ≤ i) (hh : order[i]? = some h) :
    lowestReady comps wires (order.take i) = some h := by
  induction n generalizing placed with
  | zero =>
    cases ht
    exact absurd (List.getElem?_eq_some_iff.1 hh).1 hi.not_gt
  | succ n ih =>
    unfold topoFrom at ht
    split at ht
    · cases ht
    · next g hl =>
      obtain rfl | hlt := Nat.eq_or_lt_of_le hi
      · obtain ⟨rest, rfl⟩ := prefix_of_topoFrom ht
        have hg : g = h := by simpa using hh
        rwa [List.append_assoc, List.take_left, ← hg]
      · exact ih ht (by simpa using hlt)

/-! ### Where a topological order exists, no component waits for ever -/

theorem isTopoOrder_iff {comps : List Comp} {wires : List Wire} {order : List Nat} :
    isTopoOrder comps wires order = true ↔
      order.length = comps.length ∧ (∀ h, h < comps.length → h ∈ order) ∧
        ∀ w ∈ wires, dependency comps w = true → order.idxOf w.fromH < order.idxOf w.toH := by
  simp only [isTopoOrder, Bool.and_eq_true, decide_eq_true_eq, List.all_eq_true, List.mem_range,
    List.contains_iff_mem, Bool.or_eq_true, Bool.not_eq_true', and_assoc, ← Bool.not_eq_true, ← imp_iff_not_or]

/-- A search that fails stops at a place where nothing can be placed. -/
theorem exists_stuck_of_topoFrom_none {comps : List Comp} {wires : List Wire} {n : Nat} {placed : List Nat}
    (ht : topoFrom comps wires n placed = none) :
    ∃ stuck : List Nat, stuck.length < placed.length + n ∧ lowestReady comps wires stuck = none := by
  induction n generalizing placed with
  | zero => cases ht
  | succ n ih =>
    unfold topoFrom at ht
    split at ht
    · next hl => exact ⟨placed, Nat.lt_add_of_pos_right n.succ_pos, hl⟩
    · obtain ⟨stuck, hlen, hnone⟩ := ih ht
      exact ⟨stuck, by simpa [Nat.add_assoc, Nat.add_comm 1 n] using hlen, hnone⟩

/-- Of the components that wait, the first one in a topological order is ready. -/
theorem exists_ready_of_isTopoOrder {comps : List Comp} {wires : List Wire} {order placed : List Nat}
    (hw : ∀ w ∈ wires, wireOk comps w = true) (ho : isTopoOrder comps wires order = true)
    (hlen : placed.length < comps.length) :
    ∃ h, h < comps.length ∧ h ∉ placed ∧ ready comps wires placed h = true := by
  obtain ⟨_, _, hafter⟩ := isTopoOrder_iff.1 ho
  have hcard : placed.toFinset.card < (Finset.range comps.length).card :=
    (List.toFinset_card_le placed).trans_lt (by rwa [Finset.card_range])
  obtain ⟨g, hg, hgnew⟩ := Finset.exists_mem_notMem_of_card_lt_card hcard
  obtain ⟨h, hh, hmin⟩ := Finset.exists_min_image (Finset.range comps.length \ placed.toFinset) order.idxOf
    ⟨g, Finset.mem_sdiff.2 ⟨hg, hgnew⟩⟩
  simp only [Finset.mem_sdiff, Finset.mem_range, List.mem_toFinset] at hh hmin
  refine ⟨h, hh.1, hh.2, ready_iff.2 fun w hwm hto hdep => ?_⟩
  by_contra hwaits
  obtain ⟨a, _, ha, _⟩ := wireOk_iff.1 (hw w hwm)
  have hfrom : w.fromH < comps.length := by simpa using (List.getElem?_eq_some_iff.1 ha).1
  have hbefore : order.idxOf w.fromH < order.idxOf h := hto ▸ hafter w hwm hdep
  exact hbefore.not_ge (hmin w.fromH ⟨hfrom, hwaits⟩)

/-- Settles O52: what is placed keeps a topological order's properties, and a search that stops early contradicts every
such order. -/
theorem orderExistsIffAcyclic : Obligations.OrderExistsIffAcyclic := by
  intro comps wires hw
  have hw : ∀ w ∈ wires, wireOk comps w = true := List.all_eq_true.1 hw
  refine ⟨fun o ho => ⟨isTopoOrder_of_topoOrder hw ho, ((Placed.nil comps wires).topoFrom ho).1.nodup⟩,
    fun hn o => ?_⟩
  obtain ⟨stuck, hlen, hnone⟩ := exists_stuck_of_topoFrom_none hn
  by_contra ho
  obtain ⟨h, hlt, hnew, hready⟩ :=
    exists_ready_of_isTopoOrder hw (Bool.eq_true_of_not_eq_false ho) (by simpa using hlen)
  cases hready.symm.trans (lowestReady_eq_none_iff.1 hnone h hlt hnew)

/-! ### The table of cut pins -/

/-- A clocked kind is a Memory or one of the twelve whose pins are cut but for SET and RESET. -/
theorem mem_cutKinds_iff {k : Kind} : k ∈ [.dff, .jkff, .tff, .register, .shiftRegister, .univShiftRegister, .counter,
      .bcdCounter, .ringCounter, .johnsonCounter, .clockDivider, .accumulator] ↔
    Kind.isClocked k = true ∧ k ≠ .memory := by
  cases k <;> decide

theorem isCutPin_memory {p : Params} (hk : Params.kind p = .memory) {P : Pin} :
    isCutPin p P = true ↔ P = .we ∨ P = .clk ∨ ∃ j, P = .wdata j := by
  unfold isCutPin
  split
  · cases P <;> simp
  · contradiction

theorem isCutPin_of_ne_memory {p : Params} (hk : Params.kind p ≠ .memory) {P : Pin} :
    isCutPin p P = true ↔ Kind.isClocked (Params.kind p) = true ∧ P ≠ .set ∧ P ≠ .reset := by
  unfold isCutPin
  split
  · contradiction
  · rw [Bool.and_eq_true]
    cases P <;> simp

theorem isCutPin_iff {p : Params} {P : Pin} : isCutPin p P = true ↔
    (Params.kind p ∈ [.dff, .jkff, .tff, .register, .shiftRegister, .univShiftRegister, .counter, .bcdCounter,
        .ringCounter, .johnsonCounter, .clockDivider, .accumulator] ∧ P ≠ .set ∧ P ≠ .reset)
      ∨ (Params.kind p = .memory ∧ (P = .we ∨ P = .clk ∨ ∃ j, P = .wdata j)) := by
  rw [mem_cutKinds_iff]
  by_cases hk : Params.kind p = .memory
  · simp only [isCutPin_memory hk, hk, ne_eq, not_true_eq_false, and_false, false_and, false_or, true_and]
  · simp only [isCutPin_of_ne_memory hk, hk, ne_eq, not_false_eq_true, and_true, false_and, or_false]

theorem dependency_eq_false_iff {comps : List Comp} {w : Wire} {b : Comp} {P : Pin} (hb : comps[w.toH]? = some b)
    (hP : inputAt b.params w.toP = some P) : dependency comps w = false ↔ isCutPin b.params P = true := by
  simp only [dependency, cutAt, hb, (pinAt_of_inputAt hP).1, Bool.not_eq_false']

/-- Settles O53: each place of the order holds what the search found lowest after the places before it. -/
theorem orderTakesTheLowestHandle : Obligations.OrderTakesTheLowestHandle := by
  refine ⟨fun comps wires o n h ho hn => ?place, fun comps wires placed h => ready_iff,
    fun comps w b P hb hP => (dependency_eq_false_iff hb hP).trans isCutPin_iff⟩
  case place =>
    obtain ⟨_, ⟨hnew, hready⟩, hlowest⟩ :=
      lowestReady_eq_some_iff.1 (lowestReady_take_of_topoFrom ho n.zero_le hn)
    exact ⟨hready, hnew, hlowest⟩

end Sys2Proof.Machine
end


section
/-! The graph's `Tick` and `TickN` as calls (R385, R386): a tick fails only where the first one finds no order, and then
nothing has changed. -/

namespace Sys2Proof.Machine

set_option Elab.async false

/-! ### One tick -/

theorem exec_gTick (s : State) :
    exec .gTick s = .next (s.graphTick.elim (s.fail .configurationError) (·.answer .ok)) := by
  obtain ⟨hn, hx⟩ | ⟨t, ht, hx⟩ := exec_gTick_cases s
  · rw [hx, hn]; rfl
  · rw [hx, ht]; rfl

theorem State.graphTick_of_running {s : State} (hp : s.phase = .running) : s.graphTick = some s.tickRunning := by
  simp only [State.graphTick, hp]

theorem State.graphTick_of_building {s : State} (hp : s.phase = .building) :
    s.graphTick = (topoOrder s.comps s.wires).map fun o => (s.startRunning o).tickRunning := by
  simp only [State.graphTick, hp]
  cases topoOrder s.comps s.wires <;> rfl

/-- A tick that succeeds runs the steps (a), (b), (w) with the order that stands or the one just found. -/
theorem State.exists_order_of_graphTick {s t : State} (ht : s.graphTick = some t) :
    ∃ o, t = (s.startRunning o).tickRunning ∧
      (s.phase = .running ∧ o = s.order ∨ s.phase = .building ∧ topoOrder s.comps s.wires = some o) := by
  cases hp : s.phase with
  | running =>
    rw [State.graphTick_of_running hp] at ht
    refine ⟨s.order, (Option.some.inj ht).symm.trans ?_, .inl ⟨rfl, rfl⟩⟩
    rw [State.startRunning, ← hp]
  | building =>
    rw [State.graphTick_of_building hp] at ht
    obtain ⟨o, ho, rfl⟩ := Option.map_eq_some_iff.1 ht
    exact ⟨o, rfl, .inr ⟨rfl, ho⟩⟩

/-- A tick that succeeds leaves a running graph with no drive waiting. -/
theorem State.running_of_graphTick {s t : State} (ht : s.graphTick = some t) :
    t.phase = .running ∧ t.pending = [] ∧ t.wires = s.wires := by
  obtain ⟨o, rfl, _⟩ := State.exists_order_of_graphTick ht
  exact ⟨rfl, rfl, rfl⟩

/-- A tick does not look at the last answer. -/
theorem State.graphTick_answer (s : State) (r : Result) :
    (s.answer r).graphTick = s.graphTick.map (·.answer r) := by
  cases hp : s.phase with
  | running =>
    rw [State.graphTick_of_running hp, State.graphTick_of_running (s := s.answer r) hp]
    rfl
  | building =>
    rw [State.graphTick_of_building hp, State.graphTick_of_building (s := s.answer r) hp, Option.map_map]
    rfl

/-! ### Successive ticks -/

theorem exec_gTickN (n : Nat) (s : State) :
    exec (.gTickN n) s = .next ((s.graphTickN n).elim (s.fail .configurationError) (·.answer .ok)) := by
  obtain ⟨hn, hx⟩ | ⟨t, ht, hx⟩ := exec_gTickN_cases n s
  · rw [hx, hn]; rfl
  · rw [hx, ht]; rfl

theorem State.graphTickN_zero (s : State) : s.graphTickN 0 = some s := rfl

theorem State.graphTickN_succ (n : Nat) (s : State) : s.graphTickN (n + 1) = s.graphTick.bind (State.graphTickN n) := by
  rw [State.graphTickN]
  cases s.graphTick <;> rfl

/-- A running graph ticks any number of times. -/
theorem State.exists_graphTickN_of_running {s : State} (hp : s.phase = .running) (n : Nat) :
    ∃ t, s.graphTickN n = some t := by
  induction n generalizing s with
  | zero => exact ⟨s, rfl⟩
  | succ n ih =>
    obtain ⟨t, ht⟩ := ih (s := s.tickRunning) hp
    exact ⟨t, by rw [State.graphTickN_succ, State.graphTick_of_running hp, Option.bind_some, ht]⟩

theorem State.graphTickN_answer (n : Nat) (s : State) (r : Result) :
    (s.answer r).graphTickN n = (s.graphTickN n).map (·.answer r) := by
  induction n generalizing s with
  | zero => rfl
  | succ n ih =>
    rw [State.graphTickN_succ, State.graphTickN_succ, State.graphTick_answer]
    cases s.graphTick with
    | none => rfl
    | some t => exact ih t

/-- After a tick that failed every further tick fails as it did. -/
theorem iterate_gTick_of_none {s : State} (hn : s.graphTick = none) (n : Nat) :
    iterate .gTick n (s.fail .configurationError) = some (s.fail .configurationError) := by
  have hagain : exec .gTick (s.fail .configurationError) = .next (s.fail .configurationError) := by
    rw [exec_gTick, State.fail, State.graphTick_answer, hn]
    rfl
  induction n with
  | zero => rfl
  | succ n ih => simp only [iterate, hagain, ih]

theorem iterate_gTick_of_some {s t : State} (ht : s.graphTick = some t) (n : Nat) :
    iterate .gTick (n + 1) s = iterate .gTick n (t.answer .ok) := by
  simp only [iterate, exec_gTick, ht, Option.elim]

/-- `n` tick calls of which the last returned ok have run `n` ticks. -/
theorem graphTickN_of_iterate {n : Nat} {s t : State} (hi : iterate .gTick n s = some t) (hok : t.result = .ok) :
    (s.graphTickN n).map (·.answer .ok) = some t := by
  induction n generalizing s with
  | zero =>
    cases hi
    rw [State.graphTickN_zero, Option.map_some, State.answer, ← hok]
  | succ n ih =>
    rw [State.graphTickN_succ]
    cases hg : s.graphTick with
    | none =>
      have hfail : iterate .gTick (n + 1) s = some (s.fail .configurationError) := by
        simp only [iterate, exec_gTick, hg, Option.elim, iterate_gTick_of_none hg]
      cases hfail.symm.trans hi
      cases hok
    | some u =>
      have hrest := ih (s := u.answer .ok) (by rw [← iterate_gTick_of_some hg, hi])
      rw [State.graphTickN_answer, Option.map_map] at hrest
      exact hrest

/-- Settles O51: the ticks after the first are those of a running graph, which never fail. -/
theorem tickNIsSuccessiveTicks : Obligations.TickNIsSuccessiveTicks := by
  refine ⟨fun s => ?zero, fun s t n ht => ⟨?succ, (State.running_of_graphTick ht).2.1⟩, fun s n hn => ⟨?first, ?all⟩,
    fun s t n ht => ?later, fun s t hi hok => ?three⟩
  case zero => rw [exec_gTickN]; rfl
  case succ =>
    obtain ⟨u, hu⟩ := State.exists_graphTickN_of_running (State.running_of_graphTick ht).1 n
    rw [exec_gTickN, exec_gTickN, State.graphTickN_succ, ht, Option.bind_some, hu]
    rfl
  case first => rw [exec_gTick, hn]; rfl
  case all => rw [exec_gTickN, State.graphTickN_succ, hn]; rfl
  case later =>
    obtain ⟨u, hu⟩ := State.exists_graphTickN_of_running (State.running_of_graphTick ht).1 n
    exact ⟨u.answer .ok, by rw [exec_gTickN, hu]; rfl, rfl⟩
  case three =>
    obtain ⟨u, hu, rfl⟩ := Option.map_eq_some_iff.1 (graphTickN_of_iterate hi hok)
    rw [exec_gTickN, hu]
    rfl

end Sys2Proof.Machine
end


section
/-! The steps of a graph tick on the components (R385), and the voltages that stand at input ends: a write sets the
end it names, and neither a write elsewhere nor a tick moves another. -/

namespace Sys2Proof.Machine

set_option Elab.async false

/-! ### An input pin has one number (R61) -/

theorem bus_nodup {f : Nat → Pin} (hf : Function.Injective f) (n : Nat) : (bus n f).Nodup := List.nodup_range.map hf

theorem channels_nodup (c d : Nat) : (channels c d .chan).Nodup := by
  refine List.nodup_flatMap.2 ⟨fun i _ => bus_nodup (fun _ _ h => (Pin.chan.inj h).2) d, ?_⟩
  refine List.nodup_range.imp fun hne => ?_
  rintro P hi hj
  simp only [bus, List.mem_map] at hi hj
  obtain ⟨a, _, rfl⟩ := hi
  obtain ⟨b, _, h⟩ := hj
  exact hne (Pin.chan.inj h).1.symm

theorem mem_bus {P : Pin} {n : Nat} {f : Nat → Pin} : P ∈ bus n f ↔ ∃ i < n, f i = P := by simp [bus]

theorem bus_disjoint {n : Nat} {f : Nat → Pin} {l : List Pin} : (bus n f).Disjoint l ↔ ∀ i < n, f i ∉ l := by
  simp [List.disjoint_left, mem_bus]

theorem mem_channels {P : Pin} {c d : Nat} {f : Nat → Nat → Pin} :
    P ∈ channels c d f ↔ ∃ i < c, ∃ j < d, f i j = P := by
  simp [channels, mem_bus]

theorem channels_disjoint {c d : Nat} {f : Nat → Nat → Pin} {l : List Pin} :
    (channels c d f).Disjoint l ↔ ∀ i < c, ∀ j < d, f i j ∉ l := by
  simp only [List.disjoint_left, mem_channels]
  refine ⟨fun h i hi j hj => h ⟨i, hi, j, hj, rfl⟩, fun h P hP => ?_⟩
  obtain ⟨i, hi, j, hj, rfl⟩ := hP
  exact h i hi j hj

/-- No kind lists an input pin twice: its buses bear different names. -/
theorem inputPins_nodup (p : Params) : (inputPins p).Nodup := by
  have hbus (n : Nat) {f : Nat → Pin} (hf : ∀ i j, f i = f j → i = j) : (bus n f).Nodup := bus_nodup hf n
  cases p <;> simp [inputPins, List.nodup_append', channels_nodup, channels_disjoint, hbus, bus_disjoint, mem_bus,
    mem_channels]

/-- Two input numbers that name one pin are one. -/
theorem inputAt_inj {p : Params} {i j : Nat} {P : Pin} (hi : inputAt p i = some P) (hj : inputAt p j = some P) :
    i = j := by
  obtain ⟨hlt, hP⟩ := List.getElem?_eq_some_iff.1 hi
  obtain ⟨hlt', hP'⟩ := List.getElem?_eq_some_iff.1 hj
  exact (inputPins_nodup p).getElem_inj_iff.1 (hP.trans hP'.symm)

/-! ### What stands at an input pin of a component (R22, R23) -/

theorem inputAt_eq_some {p : Params} {id : Nat} (h : id < (inputPins p).length) : ∃ P, inputAt p id = some P :=
  ⟨_, List.getElem?_eq_getElem h⟩

theorem Comp.heldAt_congr {c d : Comp} (hp : d.params = c.params) (hi : d.ins = c.ins) (hk : d.clkPrev = c.clkPrev)
    (p : Nat) : d.heldAt p = c.heldAt p := by
  simp only [Comp.heldAt, hp, hi, hk]

@[simp] theorem Comp.heldAt_evaluate (c : Comp) (e : Bool) (p : Nat) : (evaluate c e).1.heldAt p = c.heldAt p :=
  Comp.heldAt_congr (evaluate_params c e) (evaluate_ins c e) (evaluate_clkPrev c e) p

@[simp] theorem Comp.heldAt_tick (c : Comp) (p : Nat) : c.tick.heldAt p = c.heldAt p := by
  obtain ⟨m, q, h⟩ := c.tick_frame
  rw [h]
  rfl

theorem Comp.heldAt_clk {c : Comp} {p : Nat} (h : inputAt c.params p = some .clk) : c.heldAt p = some c.clkPrev := by
  simp only [Comp.heldAt, (pinAt_of_inputAt h).1]

theorem Comp.heldAt_of_ne_clk {c : Comp} {p : Nat} {P : Pin} (h : inputAt c.params p = some P) (hP : P ≠ .clk) :
    c.heldAt p = readBuffer P c.ins := by
  rw [Comp.heldAt, (pinAt_of_inputAt h).1]
  cases P
  case clk => exact absurd rfl hP
  all_goals rfl

theorem Comp.heldAt_store_same {c : Comp} {p : Nat} {P : Pin} (hw : c.wf = true) (h : inputAt c.params p = some P)
    (v : Voltage) : (c.store P v).1.heldAt p = some v := by
  by_cases hP : P = .clk
  · subst hP
    exact Comp.heldAt_clk (c := c.withClkPrev v) h
  · have hbuf : P ∈ c.ins.map Prod.fst := by
      rw [Comp.wf_ins hw]
      exact List.mem_filter.2 ⟨List.mem_of_getElem? h, decide_eq_true hP⟩
    rw [c.store_of_ne hP, Comp.heldAt_of_ne_clk (c := c.withIn P v) h hP]
    exact readBuffer_write_same v hbuf

theorem Comp.heldAt_store_other {c : Comp} {p : Nat} {P Q : Pin} (h : inputAt c.params p = some P) (hQ : P ≠ Q)
    (v : Voltage) : (c.store Q v).1.heldAt p = c.heldAt p := by
  by_cases hclk : Q = .clk
  · subst hclk
    rw [c.store_clk, Comp.heldAt_of_ne_clk h hQ, Comp.heldAt_of_ne_clk (c := c.withClkPrev v) h hQ]
    rfl
  · rw [c.store_of_ne hclk]
    by_cases hP : P = .clk
    · subst hP
      rw [Comp.heldAt_clk h, Comp.heldAt_clk (c := c.withIn Q v) h]
      rfl
    · rw [Comp.heldAt_of_ne_clk h hP, Comp.heldAt_of_ne_clk (c := c.withIn Q v) h hP]
      exact readBuffer_write_other v c.ins hQ

/-- A write past the input pins reaches power and ground at most (R108 to R110). -/
theorem Comp.writePin_past_inputs {c : Comp} {q : Nat} (hq : (inputPins c.params).length ≤ q) (v : Voltage) :
    ∃ vcc gnd, (c.writePin q v).1 = { c with vcc := vcc, gnd := gnd } := by
  obtain ⟨hvcc, hgnd⟩ := pinAt_power c.params
  have hlen := npins_eq c.params
  have hcases :
      isOutputId c.params q = true ∨ q = npins c.params - 2 ∨ q = npins c.params - 1 ∨ npins c.params ≤ q := by
    simp only [isOutputId, Bool.and_eq_true, decide_eq_true_eq]
    omega
  obtain h | rfl | rfl | h := hcases
  · exact ⟨c.vcc, c.gnd, congrArg Prod.fst (Comp.writePin_of_output h v)⟩
  · exact ⟨v, c.gnd, congrArg Prod.fst (Comp.writePin_of_vcc hvcc v)⟩
  · exact ⟨c.vcc, v, congrArg Prod.fst (Comp.writePin_of_gnd hgnd v)⟩
  · exact ⟨c.vcc, c.gnd, congrArg Prod.fst (Comp.writePin_of_none (pinAt_of_npins_le h) v)⟩

/-- An input pin holds what is written to it (R105, R106). -/
theorem Comp.heldAt_writePin_same {c : Comp} {p : Nat} (hw : c.wf = true) (hp : p < (inputPins c.params).length)
    (v : Voltage) : (c.writePin p v).1.heldAt p = some v := by
  obtain ⟨P, hP⟩ := inputAt_eq_some hp
  rw [Comp.writePin_input hP, Comp.heldAt_evaluate, Comp.heldAt_store_same hw hP]

/-- A write to another pin leaves an input pin alone. -/
theorem Comp.heldAt_writePin_other {c : Comp} {p q : Nat} (hp : p < (inputPins c.params).length) (hq : p ≠ q)
    (v : Voltage) : (c.writePin q v).1.heldAt p = c.heldAt p := by
  obtain ⟨P, hP⟩ := inputAt_eq_some hp
  by_cases hin : q < (inputPins c.params).length
  · obtain ⟨Q, hQ⟩ := inputAt_eq_some hin
    have hne : P ≠ Q := fun h => hq (inputAt_inj hP (h ▸ hQ))
    rw [Comp.writePin_input hQ, Comp.heldAt_evaluate, Comp.heldAt_store_other hP hne]
  · obtain ⟨vcc, gnd, hwrite⟩ := Comp.writePin_past_inputs (not_lt.1 hin) v
    rw [hwrite]
    rfl

/-! ### One write, one tick, one copy in the list of components (R385) -/

theorem writeComp_eq_modify (cs : List Comp) (h p : Nat) (v : Voltage) :
    writeComp cs h p v = cs.modify h fun c => (c.writePin p v).1 := by
  rw [writeComp, List.modify_eq_set_getElem?]
  cases cs[h]? <;> rfl

theorem tickComp_eq_modify (cs : List Comp) (h : Nat) : tickComp cs h = cs.modify h Comp.tick := by
  rw [tickComp, List.modify_eq_set_getElem?]
  cases cs[h]? <;> rfl

theorem getElem?_modify_eq_map (cs : List Comp) (h : Nat) (f : Comp → Comp) (j : Nat) :
    (cs.modify h f)[j]? = cs[j]?.map fun c => if j = h then f c else c := by
  rw [List.getElem?_modify, Option.map_eq_map]
  simp only [eq_comm]

theorem getElem?_writeComp (cs : List Comp) (h p : Nat) (v : Voltage) (j : Nat) :
    (writeComp cs h p v)[j]? = cs[j]?.map fun c => if j = h then (c.writePin p v).1 else c := by
  rw [writeComp_eq_modify, getElem?_modify_eq_map]

theorem getElem?_tickComp (cs : List Comp) (h j : Nat) :
    (tickComp cs h)[j]? = cs[j]?.map fun c => if j = h then c.tick else c := by
  rw [tickComp_eq_modify, getElem?_modify_eq_map]

/-- Step (b) ticks the components of the order; a second tick adds nothing (R114). -/
theorem getElem?_tickComps (cs : List Comp) (order : List Nat) (h : Nat) :
    (tickComps cs order)[h]? = cs[h]?.map fun c => if h ∈ order then c.tick else c := by
  induction order generalizing cs with
  | nil => simp [tickComps]
  | cons j rest ih =>
    have hstep : tickComps cs (j :: rest) = tickComps (tickComp cs j) rest := rfl
    rw [hstep, ih, getElem?_tickComp, Option.map_map]
    refine congrFun (congrArg Option.map (funext fun c => ?_)) _
    by_cases hj : h = j <;> by_cases hr : h ∈ rest <;> simp [hj, hr, Comp.tick_tick, Function.comp]

/-! ### What stands at an input end of the graph -/

/-- `p` is an input pin of the component with handle `h`. -/
def InputEnd (cs : List Comp) (h p : Nat) : Prop := ∃ c, cs[h]? = some c ∧ p < (inputPins c.params).length

/-- The voltage that stands at pin `p` of the component with handle `h`. -/
def heldIn (cs : List Comp) (h p : Nat) : Option Voltage := cs[h]?.bind (·.heldAt p)

theorem heldIn_of_some {cs : List Comp} {h : Nat} {c : Comp} (hc : cs[h]? = some c) (p : Nat) :
    heldIn cs h p = c.heldAt p := by
  rw [heldIn, hc, Option.bind_some]

/-- Which ends are input ends the parameters alone say. -/
theorem InputEnd.congr {cs ds : List Comp} (hparams : ds.map Comp.params = cs.map Comp.params) {h p : Nat}
    (hi : InputEnd cs h p) : InputEnd ds h p := by
  obtain ⟨c, hc, hp⟩ := hi
  have hget : ds[h]?.map Comp.params = some c.params := by
    rw [← getElem?_params, hparams, getElem?_params, hc, Option.map_some]
  obtain ⟨d, hd, hdp⟩ := Option.map_eq_some_iff.1 hget
  exact ⟨d, hd, hdp ▸ hp⟩

theorem CompsKept.inputEnd {cs ds : List Comp} (hk : CompsKept cs ds) {h p : Nat} (hi : InputEnd cs h p) :
    InputEnd ds h p :=
  hi.congr hk.params

theorem heldIn_writeComp_same {cs : List Comp} {h p : Nat} (hw : ∀ c ∈ cs, c.wf = true) (hi : InputEnd cs h p)
    (v : Voltage) : heldIn (writeComp cs h p v) h p = some v := by
  obtain ⟨c, hc, hp⟩ := hi
  rw [heldIn, getElem?_writeComp, hc, Option.map_some, if_pos rfl, Option.bind_some,
    Comp.heldAt_writePin_same (hw c (List.mem_of_getElem? hc)) hp]

theorem heldIn_writeComp_other {cs : List Comp} {h p j q : Nat} (hi : InputEnd cs h p) (hne : ¬(j = h ∧ q = p))
    (v : Voltage) : heldIn (writeComp cs j q v) h p = heldIn cs h p := by
  obtain ⟨c, hc, hp⟩ := hi
  rw [heldIn, getElem?_writeComp, heldIn, hc, Option.map_some, Option.bind_some, Option.bind_some]
  split
  · next hj => exact Comp.heldAt_writePin_other hp (fun hq => hne ⟨hj.symm, hq.symm⟩) v
  · rfl

theorem heldIn_tickComp (cs : List Comp) (j h p : Nat) : heldIn (tickComp cs j) h p = heldIn cs h p := by
  rw [heldIn, getElem?_tickComp, heldIn]
  cases cs[h]? with
  | none => rfl
  | some c => by_cases hj : h = j <;> simp [hj]

theorem heldIn_copyWire_other {cs : List Comp} {h p : Nat} (hi : InputEnd cs h p) {w : Wire}
    (hne : ¬(w.toH = h ∧ w.toP = p)) : heldIn (copyWire cs w) h p = heldIn cs h p := by
  unfold copyWire
  split
  · rfl
  · split
    · rfl
    · exact heldIn_writeComp_other hi hne _

/-- A run of operations of which none reaches an input end leaves its voltage. -/
theorem heldIn_foldl {α : Type} {f : List Comp → α → List Comp} {l : List α} {cs : List Comp} {h p : Nat}
    (hkept : ∀ ds a, CompsKept ds (f ds a)) (hf : ∀ ds, InputEnd ds h p → ∀ a ∈ l, heldIn (f ds a) h p = heldIn ds h p)
    (hi : InputEnd cs h p) : heldIn (l.foldl f cs) h p = heldIn cs h p := by
  induction l generalizing cs with
  | nil => rfl
  | cons a rest ih =>
    rw [List.foldl_cons, ih (fun ds hd b hb => hf ds hd b (List.mem_cons_of_mem a hb)) ((hkept cs a).inputEnd hi),
      hf cs hi a List.mem_cons_self]

/-! ### The sweep as one run over wires (R385) -/

/-- The wires in the order in which the sweep copies them. -/
def sweepOrder (wires : List Wire) (order : List Nat) : List Wire := order.flatMap (wiresFrom wires)

theorem propagate_eq_foldl (cs : List Comp) (wires : List Wire) (order : List Nat) :
    propagate cs wires order = (sweepOrder wires order).foldl copyWire cs := by
  rw [propagate, sweepOrder, List.foldl_flatMap]

theorem mem_sweepOrder {wires : List Wire} {order : List Nat} {w : Wire} :
    w ∈ sweepOrder wires order ↔ w ∈ wires ∧ w.fromH ∈ order := by
  simp [sweepOrder, wiresFrom, and_comm]

theorem CompsKept.tickRunning (s : State) : CompsKept s.comps s.tickRunning.comps :=
  (CompsKept.applyDrives s.comps s.pending).trans
    ((CompsKept.tickComps _ s.order).trans (.propagate _ s.wires s.order))

/-- An input end at which no wire ends keeps through ticks and sweep the last voltage driven on it. -/
theorem heldIn_tickRunning {s : State} (hw : ∀ c ∈ s.comps, c.wf = true) {before after : List DriveReq} {d : DriveReq}
    (hpending : s.pending = before ++ d :: after) (hlast : ∀ e ∈ after, ¬(e.h = d.h ∧ e.p = d.p))
    (hfree : ∀ w ∈ s.wires, ¬(w.toH = d.h ∧ w.toP = d.p)) (hi : InputEnd s.comps d.h d.p) :
    heldIn s.tickRunning.comps d.h d.p = some d.v := by
  have hearlier := CompsKept.applyDrives s.comps before
  have hwrite := CompsKept.writeComp (applyDrives s.comps before) d.h d.p d.v
  have hdrives := CompsKept.applyDrives s.comps s.pending
  have hticks := hdrives.trans (CompsKept.tickComps (applyDrives s.comps s.pending) s.order)
  calc heldIn s.tickRunning.comps d.h d.p
      = heldIn (tickComps (applyDrives s.comps s.pending) s.order) d.h d.p := by
        change heldIn (propagate _ s.wires s.order) d.h d.p = _
        rw [propagate_eq_foldl]
        exact heldIn_foldl CompsKept.copyWire
          (fun ds hd w hw => heldIn_copyWire_other hd (hfree w (mem_sweepOrder.1 hw).1)) (hticks.inputEnd hi)
    _ = heldIn (applyDrives s.comps s.pending) d.h d.p :=
        heldIn_foldl CompsKept.tickComp (fun ds _ j _ => heldIn_tickComp ds j d.h d.p) (hdrives.inputEnd hi)
    _ = heldIn (writeComp (applyDrives s.comps before) d.h d.p d.v) d.h d.p := by
        rw [hpending, applyDrives, List.foldl_append, List.foldl_cons]
        exact heldIn_foldl (fun ds (e : DriveReq) => CompsKept.writeComp ds e.h e.p e.v)
          (fun ds hd e he => heldIn_writeComp_other hd (hlast e he) e.v)
          (hwrite.inputEnd (hearlier.inputEnd hi))
    _ = some d.v :=
        heldIn_writeComp_same (hearlier.wf hw) (hearlier.inputEnd hi) d.v

/-! ### The steps as contract operations -/

theorem exec_writePin_comps (s : State) (h p : Nat) (v : Voltage) :
    ∃ t, exec (.writePin h p v) s = .next t ∧ t.comps = writeComp s.comps h p v := by
  cases hc : s.comps[h]? with
  | none => exact ⟨_, State.onComp_none hc _, by simp [writeComp, hc]⟩
  | some c => exact ⟨_, exec_writePin_some hc p v, by simp [writeComp, hc]⟩

theorem exec_tick_comps (s : State) (h : Nat) :
    ∃ t, exec (.tick h) s = .next t ∧ t.comps = tickComp s.comps h := by
  cases hc : s.comps[h]? with
  | none => exact ⟨_, State.onComp_none hc _, by simp [tickComp, hc]⟩
  | some c => exact ⟨_, State.onComp_some hc _, by simp [tickComp, hc]⟩

/-- A read that returned a voltage has found a component and presents that voltage. -/
theorem readPin?_of_exec_readPin {s t : State} {h p : Nat} {v : Voltage} (hx : exec (.readPin h p) s = .next t)
    (hv : t.result = .voltage v) : ∃ c, s.comps[h]? = some c ∧ c.readPin? p = some v := by
  obtain rfl | ⟨c, hc, hr⟩ := State.onComp_next (show execReadPin h p s = .next t from hx)
  · cases hv
  · cases hr
    refine ⟨c, hc, ?_⟩
    rw [State.answer_result, Comp.readPin] at hv
    split at hv
    · next u hu => rw [hu, Result.voltage.inj hv]
    · cases hv

/-- Settles O50: each step is a run of contract operations, and an end that none of them reaches keeps its voltage. -/
theorem graphTickSteps : Obligations.GraphTickSteps := by
  refine ⟨fun s hp => ?running, fun s o hp ho => ?building, fun s hp hn => ?cyclic, fun _ => rfl,
    fun s d rest => ?drive, fun _ => rfl, fun s h rest => ?tick, getElem?_tickComps, fun _ _ => rfl, fun _ _ _ _ => rfl,
    fun s t w v hx hv => ?copy, fun s t before after d c hw hx hok hpending hlast hfree hc hp => ?driven⟩
  case running => rw [exec_gTick, State.graphTick_of_running hp]; rfl
  case building => rw [exec_gTick, State.graphTick_of_building hp, ho]; rfl
  case cyclic => rw [exec_gTick, State.graphTick_of_building hp, hn]; rfl
  case drive =>
    obtain ⟨t, hx, ht⟩ := exec_writePin_comps s d.h d.p d.v
    exact ⟨t, hx, ht ▸ rfl⟩
  case tick =>
    obtain ⟨t, hx, ht⟩ := exec_tick_comps s h
    exact ⟨t, hx, ht ▸ rfl⟩
  case copy =>
    obtain ⟨c, hc, hread⟩ := readPin?_of_exec_readPin hx hv
    obtain ⟨u, hu, hcomps⟩ := exec_writePin_comps s w.toH w.toP v
    exact ⟨u, hu, by rw [hcomps, copyWire, hc]; simp only [hread]⟩
  case driven =>
    cases hg : s.graphTick with
    | none =>
      rw [exec_gTick, hg] at hx
      cases hx
      cases hok
    | some u =>
      rw [exec_gTick, hg] at hx
      cases hx
      obtain ⟨o, rfl, _⟩ := State.exists_order_of_graphTick hg
      have hend : InputEnd s.comps d.h d.p :=
        InputEnd.congr (CompsKept.tickRunning (s.startRunning o)).params.symm ⟨c, hc, hp⟩
      rw [← heldIn_of_some (cs := (s.startRunning o).tickRunning.comps) hc]
      exact heldIn_tickRunning (s := s.startRunning o) (State.wf_iff.1 hw).1 hpending hlast hfree hend

end Sys2Proof.Machine
end


section
/-! The sweep over the wires (R385): in a topological order no later copy moves what an earlier one carried, because a
write to a cut pin leaves a component's outputs as they are (R387). -/

namespace Sys2Proof.Machine

set_option Elab.async false

/-! ### A clocked kind presents its slave stage (R26, R352, R353) -/

/-- Without a high asynchronous pin an evaluation of a clocked kind leaves the slave stage (R26). -/
theorem evaluate_q_of_not_forced {c : Comp} (hk : Kind.isClocked (Params.kind c.params) = true) (hf : ¬c.Forced)
    (e : Bool) : (evaluate c e).1.q = c.q := by
  have hr : .reset ∈ inputPins c.params → ¬c.inBit .reset = true := fun h hb => hf (.inl ⟨h, hb⟩)
  have hs : .set ∈ inputPins c.params → ¬c.inBit .set = true := fun h hb => hf (.inr ⟨h, hb⟩)
  obtain ⟨p, cfg, edge, ins, clkPrev, vcc, gnd, m, q⟩ := c
  cases p
  case dff =>
    rw [evaluate_dff rfl, if_neg (hr (by simp [inputPins])), if_neg (hs (by simp [inputPins]))]
    split_ifs <;> rfl
  case jkff =>
    rw [evaluate_jkff rfl, if_neg (hr (by simp [inputPins])), if_neg (hs (by simp [inputPins]))]
    split_ifs <;> rfl
  case tff =>
    rw [evaluate_tff rfl, if_neg (hr (by simp [inputPins])), if_neg (hs (by simp [inputPins]))]
    split_ifs <;> rfl
  case register =>
    rw [evaluate_register rfl, if_neg (hr (by simp [inputPins])), if_neg (hs (by simp [inputPins]))]
    split_ifs <;> rfl
  case shiftRegister =>
    rw [evaluate_shiftRegister rfl, if_neg (hr (by simp [inputPins])), if_neg (hs (by simp [inputPins]))]
    split_ifs <;> rfl
  case univShiftRegister =>
    rw [evaluate_univShiftRegister rfl, if_neg (hr (by simp [inputPins])), if_neg (hs (by simp [inputPins]))]
    split_ifs <;> rfl
  case counter => rw [evaluate_counter rfl, if_neg (hr (by simp [inputPins]))]; split_ifs <;> rfl
  case bcdCounter => rw [evaluate_bcdCounter rfl, if_neg (hr (by simp [inputPins]))]; split_ifs <;> rfl
  case ringCounter => rw [evaluate_ringCounter rfl, if_neg (hr (by simp [inputPins]))]; split_ifs <;> rfl
  case johnsonCounter => rw [evaluate_johnsonCounter rfl, if_neg (hr (by simp [inputPins]))]; split_ifs <;> rfl
  case clockDivider => rw [evaluate_clockDivider rfl, if_neg (hr (by simp [inputPins]))]; split_ifs <;> rfl
  case memory => rw [evaluate_memory rfl]; split_ifs <;> rfl
  case accumulator => rw [evaluate_accumulator rfl, if_neg (hr (by simp [inputPins]))]; split_ifs <;> rfl
  all_goals cases hk

/-- Under a high asynchronous pin the slave stage is forced to what the parameters say, whatever else the component
holds. -/
theorem evaluate_q_of_forced {c d : Comp} (hok : c.params.ok = true) (hf : c.Forced) (hp : d.params = c.params)
    (hr : d.inBit .reset = c.inBit .reset) (hs : d.inBit .set = c.inBit .set) (e e' : Bool) :
    (evaluate d e).1.q = (evaluate c e').1.q := by
  have hreset : .reset ∈ inputPins c.params := hf.elim And.left fun h => reset_mem_of_set_mem h.1
  by_cases hrc : c.inBit .reset = true
  · rw [evaluate_of_reset hreset hrc, evaluate_of_reset (hp ▸ hreset) (hr.trans hrc), Comp.forcedReset,
      Comp.forcedReset, hp]
  · obtain ⟨hset, hsc⟩ := hf.resolve_left fun h => hrc h.2
    have hrc := Bool.eq_false_iff.2 hrc
    rw [evaluate_of_set hok hset hrc hsc, evaluate_of_set (hp ▸ hok) (hp ▸ hset) (hr.trans hrc) (hs.trans hsc),
      Comp.forcedSet, Comp.forcedSet, Comp.setRegs, Comp.setRegs, Comp.width, Comp.width, hp]

theorem Comp.inBit_store_other {c : Comp} {P Q : Pin} (h : Q ≠ P) (v : Voltage) :
    (c.store P v).1.inBit Q = c.inBit Q := by
  by_cases hP : P = .clk
  · subst hP
    exact c.inBit_withClkPrev v Q
  · rw [c.store_of_ne hP]
    exact Comp.inBit_withIn_other v h

/-- A write to a pin of a settled clocked component, other than SET and RESET, leaves the slave stage. -/
theorem evaluate_store_q {c : Comp} (hw : c.wf = true) (hs : c.settled = true)
    (hk : Kind.isClocked (Params.kind c.params) = true) {P : Pin} (hset : P ≠ .set) (hreset : P ≠ .reset)
    (v : Voltage) (e : Bool) : (evaluate (c.store P v).1 e).1.q = c.q := by
  have hp := c.store_params P v
  have hr := Comp.inBit_store_other (c := c) hreset.symm v
  have hs' := Comp.inBit_store_other (c := c) hset.symm v
  by_cases hf : c.Forced
  · rw [evaluate_q_of_forced (Comp.wf_params hw) hf hp hr hs' e false, Comp.settled_iff.1 hs]
  · have hfd : ¬(c.store P v).1.Forced := by
      simpa only [Comp.Forced, hp, hr, hs'] using hf
    rw [evaluate_q_of_not_forced (by rwa [hp]) hfd]
    by_cases hclk : P = .clk
    · subst hclk; rfl
    · rw [c.store_of_ne hclk]; rfl

/-- What a clocked kind presents its slave stage says; for a Memory, with RE and the address (R352, R353). -/
theorem Comp.outBit_congr {c d : Comp} (hk : Kind.isClocked (Params.kind c.params) = true) (hp : d.params = c.params)
    (hq : d.q = c.q)
    (hread : Params.kind c.params = .memory → d.inBit .re = c.inBit .re ∧ ∀ i, d.inBit (.addr i) = c.inBit (.addr i))
    (Q : Pin) : d.outBit Q = c.outBit Q := by
  unfold Comp.outBit
  rw [hp]
  cases hc : c.params <;> rw [hc] at hk hread
  case memory a w =>
    obtain ⟨hre, haddr⟩ := hread rfl
    simp only [outMemory, outMemRead, outMemReadoff, Comp.address, Comp.inWord, hp, hq, hre, haddr]
  case dff | jkff | tff => simp only [outBitStage, hq]
  case register | shiftRegister | univShiftRegister | ringCounter | johnsonCounter =>
    simp only [outWordStage, Comp.width, hp, hq]
  case counter => simp only [outCounter, Comp.width, hp, hq]
  case bcdCounter => simp only [outBcdCounter, hq]
  case clockDivider => simp only [outClockDivider, hq]
  case accumulator => simp only [outAccumulator, hq]
  all_goals cases hk

/-- A cut pin is a clocked kind's, is neither SET nor RESET, and a Memory's read port does not look at it. -/
theorem clocked_of_isCutPin {p : Params} {P : Pin} (h : isCutPin p P = true) :
    Kind.isClocked (Params.kind p) = true ∧ P ≠ .set ∧ P ≠ .reset ∧
      (Params.kind p = .memory → P ≠ .re ∧ ∀ i, P ≠ .addr i) := by
  by_cases hk : Params.kind p = .memory
  · rw [isCutPin_memory hk] at h
    rw [hk]
    obtain rfl | rfl | ⟨j, rfl⟩ := h <;> simp [Kind.isClocked]
  · obtain ⟨hclocked, hset, hreset⟩ := (isCutPin_of_ne_memory hk).1 h
    exact ⟨hclocked, hset, hreset, fun hm => absurd hm hk⟩

theorem Comp.readPin?_congr {c d : Comp} (hp : d.params = c.params) (hcfg : d.cfg = c.cfg) (hvcc : d.vcc = c.vcc)
    (hgnd : d.gnd = c.gnd) (hout : ∀ Q, d.outBit Q = c.outBit Q) (q : Nat) : d.readPin? q = c.readPin? q := by
  simp only [Comp.readPin?, hp, hcfg, hvcc, hgnd, hout]

/-- A write to a cut pin of a settled component moves nothing that the component presents (R387). -/
theorem Comp.readPin?_writePin_cut {c : Comp} {p : Nat} {P : Pin} (hw : c.wf = true) (hs : c.settled = true)
    (hP : inputAt c.params p = some P) (hcut : isCutPin c.params P = true) (v : Voltage) (q : Nat) :
    (c.writePin p v).1.readPin? q = c.readPin? q := by
  obtain ⟨hk, hset, hreset, hmem⟩ := clocked_of_isCutPin hcut
  have hbit : ∀ Q, Q ≠ P → (evaluate (c.store P v).1 (c.store P v).2).1.inBit Q = c.inBit Q := fun Q hQ =>
    (evaluate_inBit _ _ Q).trans (Comp.inBit_store_other hQ v)
  have hkept : (c.store P v).1.vcc = c.vcc ∧ (c.store P v).1.gnd = c.gnd := by
    by_cases hclk : P = .clk
    · subst hclk; exact ⟨rfl, rfl⟩
    · rw [c.store_of_ne hclk]; exact ⟨rfl, rfl⟩
  refine Comp.readPin?_congr (c.writePin_params p v) (c.writePin_cfg p v) ?_ ?_ (fun Q => ?_) q <;>
    rw [Comp.writePin_input hP]
  · rw [evaluate_vcc, hkept.1]
  · rw [evaluate_gnd, hkept.2]
  · refine Comp.outBit_congr hk (by rw [evaluate_params, c.store_params]) (evaluate_store_q hw hs hk hset hreset v _)
      (fun hm => ?_) Q
    obtain ⟨hre, haddr⟩ := hmem hm
    exact ⟨hbit _ hre.symm, fun i => hbit _ (haddr i).symm⟩

/-! ### What an end presents in the graph -/

/-- The voltage that `ReadPin` returns at pin `q` of the component with handle `h`. -/
def shownIn (cs : List Comp) (h q : Nat) : Option Voltage := cs[h]?.bind (·.readPin? q)

theorem shownIn_of_some {cs : List Comp} {h : Nat} {c : Comp} (hc : cs[h]? = some c) (q : Nat) :
    shownIn cs h q = c.readPin? q := by
  rw [shownIn, hc, Option.bind_some]

/-- A write into a component moves what it presents only through a pin that is not cut. -/
theorem shownIn_writeComp {cs : List Comp} (hs : AllSettled cs) {j p : Nat} (hi : InputEnd cs j p) {h : Nat}
    (hcut : j = h → cutAt cs j p = true) (v : Voltage) (q : Nat) :
    shownIn (writeComp cs j p v) h q = shownIn cs h q := by
  rw [shownIn, getElem?_writeComp, shownIn]
  by_cases hj : h = j
  · subst hj
    obtain ⟨c, hc, hp⟩ := hi
    obtain ⟨P, hP⟩ := inputAt_eq_some hp
    have hcutP : isCutPin c.params P = true := by
      simpa only [cutAt, hc, (pinAt_of_inputAt hP).1] using hcut rfl
    rw [hc, Option.map_some, if_pos rfl, Option.bind_some, Option.bind_some,
      Comp.readPin?_writePin_cut (hs.get hc).1 (hs.get hc).2 hP hcutP]
  · simp only [hj, if_false, Option.map_id']

/-! ### Wires that carry -/

/-- The input end of the wire holds what its output end presents. -/
def Carries (cs : List Comp) (w : Wire) : Prop :=
  ∃ v, shownIn cs w.fromH w.fromP = some v ∧ heldIn cs w.toH w.toP = some v

/-- The ends of a good wire (R380). -/
theorem ends_of_wireOk {cs : List Comp} {w : Wire} (hw : wireOk cs w = true) :
    InputEnd cs w.toH w.toP ∧ ∃ v, shownIn cs w.fromH w.fromP = some v := by
  unfold wireOk at hw
  split at hw
  · next a b ha hb =>
    obtain ⟨hout, hin⟩ := Bool.and_eq_true_iff.1 hw
    obtain ⟨j, P, hj, hP⟩ := exists_output_of_isOutputId hout
    refine ⟨⟨b, hb, of_decide_eq_true hin⟩, ?_⟩
    have hread := Comp.readPin_output hP
    rw [Comp.readPin, ← hj] at hread
    rw [shownIn_of_some ha]
    split at hread
    · next v hv => exact ⟨v, hv⟩
    · cases hread
  · cases hw

theorem copyWire_eq_writeComp {cs : List Comp} {w : Wire} {v : Voltage} (hv : shownIn cs w.fromH w.fromP = some v) :
    copyWire cs w = writeComp cs w.toH w.toP v := by
  obtain ⟨c, hc, hread⟩ := Option.bind_eq_some_iff.1 hv
  rw [copyWire, hc]
  simp only [hread]

/-- A copy of `w` ends at a pin through which nothing that component `h` presents moves (R387). -/
def Spares (cs : List Comp) (w : Wire) (h : Nat) : Prop := w.toH = h → dependency cs w = false

/-- Copying `w` leaves what `u` carries: it ends elsewhere, and spares the component that `u` starts from. -/
def Harmless (cs : List Comp) (u w : Wire) : Prop := ¬(w.toH = u.toH ∧ w.toP = u.toP) ∧ Spares cs w u.fromH

theorem cutAt_of_spares {cs : List Comp} {w : Wire} {h : Nat} (hs : Spares cs w h) (hh : w.toH = h) :
    cutAt cs w.toH w.toP = true := by
  simpa [dependency] using hs hh

/-- The wire just copied carries, if its copy spares its own start. -/
theorem carries_copyWire_self {cs : List Comp} (hs : AllSettled cs) {w : Wire} (hw : wireOk cs w = true)
    (hspares : Spares cs w w.fromH) : Carries (copyWire cs w) w := by
  obtain ⟨hend, v, hv⟩ := ends_of_wireOk hw
  rw [copyWire_eq_writeComp hv]
  exact ⟨v, (shownIn_writeComp hs hend (cutAt_of_spares hspares) v _).trans hv,
    heldIn_writeComp_same (fun c hc => (hs c hc).1) hend v⟩

/-- A harmless copy leaves a wire carrying. -/
theorem Carries.copied {cs : List Comp} (hs : AllSettled cs) {u w : Wire} (hu : wireOk cs u = true)
    (hw : wireOk cs w = true) (hharm : Harmless cs u w) (hc : Carries cs u) : Carries (copyWire cs w) u := by
  obtain ⟨v, hshown, hheld⟩ := hc
  obtain ⟨hend, x, hx⟩ := ends_of_wireOk hw
  refine ⟨v, ?_, (heldIn_copyWire_other (ends_of_wireOk hu).1 hharm.1).trans hheld⟩
  rw [copyWire_eq_writeComp hx, shownIn_writeComp hs hend (cutAt_of_spares hharm.2), hshown]

/-! ### The sweep -/

/-- A stage of the sweep: the parameters are those of `cs`, and every component is settled. -/
structure Swept (cs ds : List Comp) : Prop where
  params : ds.map Comp.params = cs.map Comp.params
  settled : AllSettled ds

theorem Swept.copied {cs ds : List Comp} (h : Swept cs ds) (w : Wire) : Swept cs (copyWire ds w) :=
  ⟨(CompsKept.copyWire ds w).params.trans h.params, h.settled.copyWire w⟩

theorem Swept.wireOk_of {cs ds : List Comp} (h : Swept cs ds) {w : Wire} (hw : wireOk cs w = true) :
    wireOk ds w = true :=
  wireOk_mono ⟨[], by rw [List.append_nil, h.params]⟩ hw

theorem Swept.spares {cs ds : List Comp} (h : Swept cs ds) {w : Wire} {j : Nat} (hw : Spares cs w j) : Spares ds w j :=
  fun hj => (dependency_congr h.params w).trans (hw hj)

/-- Harmless copies leave a wire carrying. -/
theorem Swept.carries_foldl {cs ds : List Comp} (h : Swept cs ds) {u : Wire} (hu : wireOk cs u = true) {l : List Wire}
    (hok : ∀ w ∈ l, wireOk cs w = true) (hharm : ∀ w ∈ l, Harmless cs u w) (hc : Carries ds u) :
    Carries (l.foldl copyWire ds) u := by
  induction l generalizing ds with
  | nil => exact hc
  | cons w rest ih =>
    have hw := List.mem_cons_self (a := w) (l := rest)
    exact ih (h.copied w) (fun x hx => hok x (List.mem_cons_of_mem w hx))
      (fun x hx => hharm x (List.mem_cons_of_mem w hx))
      (hc.copied h.settled (h.wireOk_of hu) (h.wireOk_of (hok w hw)) ⟨(hharm w hw).1, h.spares (hharm w hw).2⟩)

/-- After copies of which no later one harms an earlier one, every wire copied carries. -/
theorem Swept.carries_of_pairwise {cs ds : List Comp} (h : Swept cs ds) {l : List Wire}
    (hok : ∀ w ∈ l, wireOk cs w = true) (hself : ∀ w ∈ l, Spares cs w w.fromH) (hl : l.Pairwise (Harmless cs)) :
    ∀ u ∈ l, Carries (l.foldl copyWire ds) u := by
  induction l generalizing ds with
  | nil => exact fun u hu => absurd hu List.not_mem_nil
  | cons w rest ih =>
    obtain ⟨hfirst, hrest⟩ := List.pairwise_cons.1 hl
    have hokRest : ∀ x ∈ rest, wireOk cs x = true := fun x hx => hok x (List.mem_cons_of_mem w hx)
    have hw := List.mem_cons_self (a := w) (l := rest)
    intro u hu
    obtain rfl | hu := List.mem_cons.1 hu
    · have hcopied := carries_copyWire_self h.settled (h.wireOk_of (hok u hw)) (h.spares (hself u hw))
      exact (h.copied u).carries_foldl (hok u hw) hokRest hfirst hcopied
    · exact ih (h.copied w) hokRest (fun x hx => hself x (List.mem_cons_of_mem w hx)) hrest u hu

/-! ### A topological order harms nothing (R387) -/

theorem pairwise_of_singleWriter {wires : List Wire} (h : singleWriter wires = true) :
    wires.Pairwise fun u w => ¬(w.toH = u.toH ∧ w.toP = u.toP) := by
  induction wires with
  | nil => exact List.Pairwise.nil
  | cons w rest ih =>
    simp only [singleWriter, Bool.and_eq_true, List.all_eq_true, Bool.not_eq_true', Bool.and_eq_false_iff,
      decide_eq_false_iff_not, ← not_and_or] at h
    exact List.pairwise_cons.2 ⟨h.1, ih h.2⟩

/-- A topological order lists no handle twice. -/
theorem nodup_of_isTopoOrder {comps : List Comp} {wires : List Wire} {order : List Nat}
    (h : isTopoOrder comps wires order = true) : order.Nodup := by
  obtain ⟨hlen, hall, _⟩ := isTopoOrder_iff.1 h
  have hsub : List.Subperm (List.range comps.length) order :=
    List.subperm_of_subset List.nodup_range fun a ha => hall a (List.mem_range.1 ha)
  exact (hsub.perm_of_length_le (by rw [List.length_range, hlen])).nodup_iff.1 List.nodup_range

/-- A wire from a component not before `h` in a topological order spares `h`. -/
theorem spares_of_idxOf_le {comps : List Comp} {wires : List Wire} {order : List Nat}
    (ho : isTopoOrder comps wires order = true) {w : Wire} (hw : w ∈ wires) {h : Nat}
    (hle : order.idxOf h ≤ order.idxOf w.fromH) : Spares comps w h := by
  obtain ⟨_, _, hafter⟩ := isTopoOrder_iff.1 ho
  rintro rfl
  by_contra hdep
  exact (hafter w hw (Bool.eq_true_of_not_eq_false hdep)).not_ge hle

/-- Two wires that end at one pin are one wire (R72). -/
theorem eq_of_same_end {wires : List Wire} (hsingle : singleWriter wires = true) {u w : Wire} (hu : u ∈ wires)
    (hw : w ∈ wires) (hend : w.toH = u.toH ∧ w.toP = u.toP) : u = w := by
  by_contra hne
  have hsymm : Std.Symm fun u w : Wire => ¬(w.toH = u.toH ∧ w.toP = u.toP) :=
    ⟨fun _ _ h h' => h ⟨h'.1.symm, h'.2.symm⟩⟩
  exact (pairwise_of_singleWriter hsingle).forall hu hw hne hend

theorem pairwise_idxOf_lt {l : List Nat} (hl : l.Nodup) : l.Pairwise fun a b => l.idxOf a < l.idxOf b := by
  refine List.pairwise_iff_getElem.2 fun i j hi hj hij => ?_
  rwa [hl.idxOf_getElem, hl.idxOf_getElem]

theorem mem_wiresFrom {wires : List Wire} {h : Nat} {w : Wire} : w ∈ wiresFrom wires h ↔ w ∈ wires ∧ w.fromH = h := by
  simp [wiresFrom]

/-- In the order of the sweep no later copy harms an earlier one. -/
theorem pairwise_harmless_sweepOrder {comps : List Comp} {wires : List Wire} {order : List Nat}
    (hsingle : singleWriter wires = true) (ho : isTopoOrder comps wires order = true) :
    (sweepOrder wires order).Pairwise (Harmless comps) := by
  refine List.pairwise_flatMap.2 ⟨fun h _ => ?same, (pairwise_idxOf_lt (nodup_of_isTopoOrder ho)).imp ?later⟩
  case same =>
    refine ((pairwise_of_singleWriter hsingle).filter _).imp_of_mem fun hu hw hne => ⟨hne, ?_⟩
    obtain ⟨_, rfl⟩ := mem_wiresFrom.1 hu
    obtain ⟨hwm, hfrom⟩ := mem_wiresFrom.1 hw
    exact spares_of_idxOf_le ho hwm (by rw [hfrom])
  case later =>
    intro h j hlt u hu w hw
    obtain ⟨hum, rfl⟩ := mem_wiresFrom.1 hu
    obtain ⟨hwm, rfl⟩ := mem_wiresFrom.1 hw
    exact ⟨fun hend => hlt.ne (by rw [eq_of_same_end hsingle hum hwm hend]), spares_of_idxOf_le ho hwm hlt.le⟩

theorem Swept.carries_propagate {cs ds : List Comp} (h : Swept cs ds) {wires : List Wire} {order : List Nat}
    (hok : ∀ w ∈ wires, wireOk cs w = true) (hsingle : singleWriter wires = true)
    (ho : isTopoOrder cs wires order = true) {w : Wire} (hw : w ∈ wires) : Carries (propagate ds wires order) w := by
  obtain ⟨_, hall, _⟩ := isTopoOrder_iff.1 ho
  obtain ⟨a, _, ha, _⟩ := wireOk_iff.1 (hok w hw)
  have hfrom : w.fromH ∈ order := hall _ (by simpa using (List.getElem?_eq_some_iff.1 ha).1)
  rw [propagate_eq_foldl]
  exact h.carries_of_pairwise (fun u hu => hok u (mem_sweepOrder.1 hu).1)
    (fun u hu => spares_of_idxOf_le ho (mem_sweepOrder.1 hu).1 le_rfl) (pairwise_harmless_sweepOrder hsingle ho) w
    (mem_sweepOrder.2 ⟨hw, hfrom⟩)

/-- After the steps of a tick every wire carries. -/
theorem carries_tickRunning {s : State} (hwf : s.wf = true) (hs : AllSettled s.comps)
    (ho : isTopoOrder s.comps s.wires s.order = true) {w : Wire} (hw : w ∈ s.wires) :
    Carries s.tickRunning.comps w := by
  obtain ⟨_, hok, hsingle, _, _⟩ := State.wf_iff.1 hwf
  have hdriven : AllSettled (applyDrives s.comps s.pending) :=
    hs.foldl (fun hcs d => hcs.writeComp d.h d.p d.v) s.pending
  have hswept : Swept s.comps (tickComps (applyDrives s.comps s.pending) s.order) :=
    ⟨((CompsKept.applyDrives s.comps s.pending).trans (CompsKept.tickComps _ s.order)).params,
      hdriven.foldl AllSettled.tickComp s.order⟩
  exact hswept.carries_propagate hok hsingle ho hw

/-- Settles O54: the order is topological, so no copy of the sweep undoes what an earlier one carried. -/
theorem sweepSettlesEveryWire : Obligations.SweepSettlesEveryWire := by
  intro s t hwf hsettled ht w hw a b ha hb
  have hall : AllSettled s.comps := fun c hc => ⟨(State.wf_iff.1 hwf).1 c hc, List.all_eq_true.1 hsettled c hc⟩
  obtain ⟨o, rfl, hphase⟩ := State.exists_order_of_graphTick ht
  have hstart : (s.startRunning o).wf = true := by
    obtain ⟨hp, rfl⟩ | ⟨_, ho⟩ := hphase
    · rwa [State.startRunning, ← hp]
    · exact State.wf_startRunning hwf ho
  obtain ⟨_, _, _, _, horder⟩ := State.wf_iff.1 hstart
  obtain ⟨v, hshown, hheld⟩ := carries_tickRunning hstart hall horder hw
  exact ⟨v, (shownIn_of_some ha _).symm.trans hshown, (heldIn_of_some hb _).symm.trans hheld⟩

end Sys2Proof.Machine
end

section
/-! What a failed operation leaves behind (60_exceptions.md): a failed check leaves the state, a reserved selector at most the
voltage that the write stored before it was evaluated (R401, R402, R405, R416). -/

namespace Sys2Proof.Machine

set_option Elab.async false

/-! ### Reserved selectors hold both stages (R307, R334, R367) -/

/-- A component operation completes, or its selector is reserved and it changes nothing. -/
theorem perform_ok_or_invalid (i : Instr) (c : Comp) :
    (perform i c).2 = .ok ∨ perform i c = (c, .failed .invalidOperation) := by
  cases i
  case adderInvalid | aluInvalidB | aluInvalidC | accInvalid5 | accInvalid67 => exact .inr rfl
  all_goals exact .inl rfl

theorem evaluate_ok_or_invalid (c : Comp) (e : Bool) :
    (evaluate c e).2 = .ok ∨ evaluate c e = (c, .failed .invalidOperation) := by
  rw [evaluate_eq_performSelected, performSelected]
  split
  · exact perform_ok_or_invalid _ c
  · exact .inl rfl

/-- An Adder's mode 11. -/
theorem evaluate_adder_reserved {c : Comp} (hk : Params.kind c.params = .adder) (h1 : c.inBit (.mode 1) = true)
    (h0 : c.inBit (.mode 0) = true) (e : Bool) : evaluate c e = (c, .failed .invalidOperation) := by
  rw [evaluate_adder hk, if_pos h1, if_pos h0, doAdderInvalid]

/-- An ALU's op 1011 and 11xx. -/
theorem evaluate_alu_reserved {c : Comp} (hk : Params.kind c.params = .alu) (h3 : c.inBit (.op 3) = true)
    (h : c.inBit (.op 2) = true ∨ (c.inBit (.op 1) = true ∧ c.inBit (.op 0) = true)) (e : Bool) :
    evaluate c e = (c, .failed .invalidOperation) := by
  rw [evaluate_alu hk, if_pos h3]
  by_cases h2 : c.inBit (.op 2) = true
  · rw [if_pos h2, doAluInvalidC]
  · obtain ⟨h1, h0⟩ := h.resolve_left h2
    rw [if_neg h2, if_pos h1, if_pos h0, doAluInvalidB]

/-- An Accumulator's op 101 and 11x at an active edge. -/
theorem evaluate_accumulator_reserved {c : Comp} (hk : Params.kind c.params = .accumulator)
    (hr : c.inBit .reset = false) (h2 : c.inBit (.op 2) = true) (h : c.inBit (.op 1) = true ∨ c.inBit (.op 0) = true) :
    evaluate c true = (c, .failed .invalidOperation) := by
  rw [evaluate_accumulator hk, if_neg (Bool.eq_false_iff.1 hr), if_pos rfl, if_pos h2]
  by_cases h1 : c.inBit (.op 1) = true
  · rw [if_pos h1, doAccInvalid67]
  · rw [if_neg h1, if_pos (h.resolve_left h1), doAccInvalid5]

/-! ### Writes that fail after the store (R402) -/

/-- A write whose evaluation meets a reserved selector leaves the stored voltage alone. -/
theorem exec_writePin_reserved {s : State} {h p : Nat} {c d : Comp} {P : Pin} {v : Voltage} {e : Bool}
    (hc : s.comp? h = some c) (hP : inputAt c.params p = some P) (hstore : c.store P v = (d, e))
    (hinvalid : evaluate d e = (d, .failed .invalidOperation)) :
    exec (.writePin h p v) s = .next ((s.setComp h d).answer (.failed .invalidOperation)) := by
  rw [exec_writePin_some hc, Comp.writePin_input hP, hstore, hinvalid]
  rfl

/-- An input pin of an unclocked kind is no clock (R25). -/
theorem ne_clk_of_unclocked {p : Params} {id : Nat} {P : Pin} (hk : Kind.isClocked (Params.kind p) = false)
    (hP : inputAt p id = some P) : P ≠ .clk := by
  rintro rfl
  cases hk.symm.trans (isClocked_of_clk_mem (List.mem_of_getElem? hP))

/-- Settles O19: with the voltage stored the reserved selector is evaluated, which holds the stages and fails. -/
theorem invalidOperationHolds : Obligations.InvalidOperationHolds := by
  refine ⟨fun s h c p v P ⟨hc, hk⟩ hP h1 h0 => ?adder, fun s h c p v P ⟨hc, hk⟩ hP h3 hop => ?alu,
    fun s h c p v ⟨hc, hk⟩ hP hr hedge h2 hop => ?accumulator⟩
  case adder =>
    have hclk : P ≠ .clk := ne_clk_of_unclocked (by rw [hk]; rfl) hP
    exact exec_writePin_reserved hc hP (c.store_of_ne hclk v) (evaluate_adder_reserved (c := c.withIn P v) hk h1 h0 false)
  case alu =>
    have hclk : P ≠ .clk := ne_clk_of_unclocked (by rw [hk]; rfl) hP
    exact exec_writePin_reserved hc hP (c.store_of_ne hclk v) (evaluate_alu_reserved (c := c.withIn P v) hk h3 hop false)
  case accumulator =>
    have hstore : c.store .clk v = (c.withClkPrev v, true) := by rw [c.store_clk, hedge]
    exact exec_writePin_reserved hc hP hstore (evaluate_accumulator_reserved (c := c.withClkPrev v) hk hr h2 hop)

/-! ### The checks that fail (R401, R405) -/

/-- The failures of an operation that was checked before it did anything. -/
def Err.FromCheck (e : Err) : Prop := e = .unknownPin ∨ e = .configurationError

theorem State.createError_fromCheck {s : State} {config : CompConfig} {e : Err} (h : s.createError config = some e) :
    e.FromCheck := by
  unfold State.createError at h
  split_ifs at h <;> cases h <;> exact .inr rfl

theorem State.connectError_fromCheck {s : State} {w : Wire} {e : Err} (h : s.connectError w = some e) :
    e.FromCheck := by
  unfold State.connectError at h
  split at h
  · cases h; exact .inr rfl
  · split at h
    · split_ifs at h <;> cases h
      · exact .inl rfl
      all_goals exact .inr rfl
    · cases h; exact .inr rfl

theorem State.driveError_fromCheck {s : State} {h p : Nat} {e : Err} (he : s.driveError h p = some e) :
    e.FromCheck := by
  unfold State.driveError at he
  split at he
  · cases he; exact .inr rfl
  · split_ifs at he <;> cases he
    · exact .inl rfl
    · exact .inr rfl

theorem Comp.readPin_fromCheck {c : Comp} {p : Nat} {e : Err} (h : c.readPin p = .failed e) : e.FromCheck := by
  unfold Comp.readPin at h
  split at h <;> cases h
  exact .inl rfl

/-! ### All the ways to fail -/

/-- Every pin number is an input's, an output's, power's, ground's or no pin's (R61). -/
theorem pinId_cases (p : Params) (id : Nat) :
    id < (inputPins p).length ∨ isOutputId p id = true ∨ id = npins p - 2 ∨ id = npins p - 1 ∨ npins p ≤ id := by
  have hlen := npins_eq p
  simp only [isOutputId, Bool.and_eq_true, decide_eq_true_eq]
  omega

/-- A write fails for want of the pin, or at an input pin with the voltage stored and the stages held (R401, R402). -/
theorem Comp.writePin_ok_or_fails (c : Comp) (p : Nat) (v : Voltage) :
    (c.writePin p v).2 = .ok ∨ c.writePin p v = (c, .failed .unknownPin) ∨
      ∃ P, inputAt c.params p = some P ∧ c.writePin p v = ((c.store P v).1, .failed .invalidOperation) := by
  obtain ⟨hvcc, hgnd⟩ := pinAt_power c.params
  obtain hin | hout | rfl | rfl | hpast := pinId_cases c.params p
  · obtain ⟨P, hP⟩ := inputAt_eq_some hin
    rw [Comp.writePin_input hP]
    exact (evaluate_ok_or_invalid _ _).imp_right fun hinvalid => .inr ⟨P, hP, hinvalid⟩
  · exact .inl (congrArg Prod.snd (Comp.writePin_of_output hout v))
  · exact .inl (congrArg Prod.snd (Comp.writePin_of_vcc hvcc v))
  · exact .inl (congrArg Prod.snd (Comp.writePin_of_gnd hgnd v))
  · exact .inr (.inl (Comp.writePin_of_none (pinAt_of_npins_le hpast) v))

/-- The ways in which an operation run in `s` can end in a failure, and the state it then leaves. -/
inductive FailsTo (i : Instr) (s : State) : Err → State → Prop where
  /-- A check failed. -/
  | check {e : Err} (he : e.FromCheck) : FailsTo i s e (s.fail e)
  /-- A component operation of a reserved selector, run as an instruction. -/
  | reservedRow (hrow : (rowTarget i).isSome = true) : FailsTo i s .invalidOperation (s.fail .invalidOperation)
  /-- A write to an input pin under a reserved selector. -/
  | reservedWrite {h p : Nat} {v : Voltage} {c : Comp} {P : Pin} (hi : i = .writePin h p v) (hc : s.comp? h = some c)
      (hP : inputAt c.params p = some P) :
      FailsTo i s .invalidOperation ((s.setComp h (c.store P v).1).fail .invalidOperation)

section
variable {s t : State} {e : Err}

theorem FailsTo.of_check {i : Instr} {e' : Err} (he : e'.FromCheck) (ht : s.fail e' = t) (hr : t.result = .failed e) :
    FailsTo i s e t := by
  subst ht
  cases hr
  exact .check he

theorem FailsTo.of_row {i : Instr} {h : Nat} {k : Kind} (hrow : rowTarget i = some (h, k)) (ht : exec i s = .next t)
    (hr : t.result = .failed e) : FailsTo i s e t := by
  rw [exec_row hrow] at ht
  obtain ⟨_, rfl⟩ | ⟨c, hc, _, rfl⟩ := runRow_next ht
  · exact .of_check (.inr rfl) rfl hr
  · obtain hok | hinvalid := perform_ok_or_invalid i c
    · rw [State.answer_result, rowResult, hok] at hr
      cases hr
    · rw [hinvalid] at hr ⊢
      cases hr
      rw [State.setComp_self hc]
      exact .reservedRow (by rw [hrow]; rfl)

theorem FailsTo.of_writePin {h p : Nat} {v : Voltage} (ht : exec (.writePin h p v) s = .next t)
    (hr : t.result = .failed e) : FailsTo (.writePin h p v) s e t := by
  obtain rfl | ⟨c, hc, hx⟩ := State.onComp_next (show execWritePin h p v s = .next t from ht)
  · exact .of_check (.inr rfl) rfl hr
  · cases hx
    obtain hok | hunknown | ⟨P, hP, hinvalid⟩ := c.writePin_ok_or_fails p v
    · rw [State.answer_result, hok] at hr
      cases hr
    · rw [hunknown, State.setComp_self hc] at hr ⊢
      exact .of_check (.inl rfl) rfl hr
    · rw [hinvalid] at hr ⊢
      cases hr
      exact .reservedWrite rfl hc hP

theorem FailsTo.of_readPin {i : Instr} {h p : Nat} (ht : execReadPin h p s = .next t) (hr : t.result = .failed e) :
    FailsTo i s e t := by
  obtain rfl | ⟨c, _, hx⟩ := State.onComp_next ht
  · exact .of_check (.inr rfl) rfl hr
  · cases hx
    have hread : c.readPin p = .failed e := hr
    rw [hread]
    exact .check (Comp.readPin_fromCheck hread)

theorem FailsTo.of_tick {h : Nat} (ht : exec (.tick h) s = .next t) (hr : t.result = .failed e) :
    FailsTo (.tick h) s e t := by
  obtain rfl | ⟨c, _, hx⟩ := State.onComp_next (show execTick h s = .next t from ht)
  · exact .of_check (.inr rfl) rfl hr
  · cases hx
    cases hr

/-- Every failure of every operation is one of these (R400 to R405). -/
theorem failsTo_of_exec {i : Instr} (ht : exec i s = .next t) (hr : t.result = .failed e) : FailsTo i s e t := by
  cases hrow : rowTarget i with
  | some target => exact .of_row hrow ht hr
  | none =>
    cases i with
    | writePin h p v => exact .of_writePin ht hr
    | readPin h p => exact .of_readPin ht hr
    | tick h => exact .of_tick ht hr
    | gCreate config =>
      obtain ⟨e', he, hx⟩ | ⟨_, hx⟩ := exec_gCreate_cases config s <;> cases hx.symm.trans ht
      · exact .of_check (State.createError_fromCheck he) rfl hr
      · cases hr
    | gConnect fromH fromP toH toP =>
      obtain ⟨e', he, hx⟩ | ⟨_, hx⟩ := exec_gConnect_cases ⟨fromH, fromP, toH, toP⟩ s <;> cases hx.symm.trans ht
      · exact .of_check (State.connectError_fromCheck he) rfl hr
      · cases hr
    | gDrive h p v =>
      obtain ⟨e', he, hx⟩ | ⟨_, hx⟩ := exec_gDrive_cases h p v s <;> cases hx.symm.trans ht
      · exact .of_check (State.driveError_fromCheck he) rfl hr
      · cases hr
    | gObserve h p => exact .of_readPin (show execReadPin h p s = .next t from ht) hr
    | gTick =>
      obtain ⟨_, hx⟩ | ⟨t', _, hx⟩ := exec_gTick_cases s <;> cases hx.symm.trans ht
      · exact .of_check (.inr rfl) rfl hr
      · cases hr
    | gTickN n =>
      obtain ⟨_, hx⟩ | ⟨t', _, hx⟩ := exec_gTickN_cases n s <;> cases hx.symm.trans ht
      · exact .of_check (.inr rfl) rfl hr
      · cases hr
    | _ => cases hrow

end

/-! ### The statement -/

/-- OutOfRange is the word-level methods' warning and DivByZero a flag: no operation returns them (R403, R404). -/
theorem FailsTo.ne_warning {i : Instr} {s t : State} {e : Err} (h : FailsTo i s e t) :
    e ≠ .outOfRange ∧ e ≠ .divByZero := by
  cases h with
  | check he => obtain rfl | rfl := he <;> exact ⟨nofun, nofun⟩
  | reservedRow | reservedWrite => exact ⟨nofun, nofun⟩

/-- A failed check leaves the state as it was but for the answer. -/
theorem FailsTo.eq_fail_of_fromCheck {i : Instr} {s t : State} {e : Err} (h : FailsTo i s e t) (he : e.FromCheck) :
    t = s.fail e := by
  cases h with
  | check | reservedRow => rfl
  | reservedWrite => obtain he | he := he <;> cases he

/-- The voltage stored by the first lines of a write, in the previous clock or in the pin's buffer (R105 to R107). -/
theorem Comp.store_fst (c : Comp) (P : Pin) (v : Voltage) :
    (c.store P v).1 = if P = .clk then { c with clkPrev := v } else { c with ins := writeBuffer P v c.ins } := by
  split_ifs with hclk
  · rw [hclk, c.store_clk, Comp.withClkPrev]
  · rw [c.store_of_ne hclk, Comp.withIn]

/-- A contract or component operation on a handle that names no component (R405; log entry 5). -/
theorem exec_of_no_component {i : Instr} {s : State} {h : Nat} (hh : handleOf? i = some h) (hc : s.comp? h = none) :
    exec i s = .next (s.fail .configurationError) := by
  obtain ⟨k, hrow⟩ | ⟨p, v, rfl⟩ | ⟨p, rfl⟩ | rfl := handleOf?_eq_some hh
  · rw [exec_row hrow]
    exact State.onComp_none hc _
  all_goals exact State.onComp_none hc _

/-- Settles O60: every failure is one of `FailsTo`, each of which leaves the state, or the state with the voltage stored. -/
theorem failuresStoreAtMostTheWrittenVoltage : Obligations.FailuresStoreAtMostTheWrittenVoltage := by
  refine ⟨fun i s t ht => ⟨fun hr => ?outOfRange, fun hr => ?divByZero⟩,
    fun i s t e ht hr he => (failsTo_of_exec ht hr).eq_fail_of_fromCheck he, fun i s t ht hr => ?invalid,
    fun i s h hh hc => exec_of_no_component hh hc⟩
  case outOfRange => exact (failsTo_of_exec ht hr).ne_warning.1 rfl
  case divByZero => exact (failsTo_of_exec ht hr).ne_warning.2 rfl
  case invalid =>
    cases failsTo_of_exec ht hr with
    | check he => obtain he | he := he <;> cases he
    | reservedRow hrow => exact .inr ⟨hrow, rfl⟩
    | reservedWrite hi hc hP => exact .inl ⟨_, _, _, _, _, _, hi, hc, hP, Comp.store_fst _ _ _, rfl⟩

end Sys2Proof.Machine
end
